-- ==== Sys2Proof/Word.lean ====
section
/-! DEFINITION. The word types of the DZ840 (spec/04 R90: a scalar register holds 64 bits, a vector lane 32; spec/02 R35:
instruction words are 32 bits; spec/20 R371: physical addresses are 52 bits and index memory as a Nat). -/

namespace Sys2Proof

/-- A byte of memory. -/
abbrev Byte := BitVec 8
/-- An instruction word, or one lane of a vector register (R35, R90). -/
abbrev W32 := BitVec 32
/-- A scalar register or an address value (R8, R90). -/
abbrev W64 := BitVec 64
/-- A reason code of R84. -/
abbrev Reason := BitVec 8

end Sys2Proof
end

