-- ==== Sys2Proof/Syntax.lean ====
section
/-! DEFINITION. The instructions: one constructor for every row of spec/opcode_table.json. The first 156 are words of the
instruction set (their fields as spec/03 lays them out, with the prefixes that spec/02 R58 lets the format take); the rest
are the machine's own steps, the rows without an encoding, whose parameters say what the environment or the choice among
agents supplies. -/

namespace Sys2Proof

/-- A type prefix (R56): the element types fa and fb. -/
structure TyPfx where
  fa : BitVec 5
  fb : BitVec 5
  deriving DecidableEq, Repr

/-- A memattr prefix (R56). -/
structure MemAttr where
  order  : BitVec 2
  scope  : BitVec 3
  policy : BitVec 3
  fmt    : BitVec 5
  op7    : BitVec 7
  deriving DecidableEq, Repr

/-- The prefixes of a format M word (R58). -/
structure MPfx where
  off : Option (BitVec 23)
  mem : Option MemAttr
  ev  : Option (BitVec 3)
  deriving DecidableEq, Repr

/-- The prefixes of a format E word (R58). -/
structure EPfx where
  mem  : Option MemAttr
  ev   : Option (BitVec 3)
  peer : Option (BitVec 6)
  deriving DecidableEq, Repr

/-- An imm prefix: the high part of an immediate (R56). -/
abbrev ImmPfx := Option (BitVec 23)

/-- The kinds of access a translation serves (R375, R379). -/
inductive AccKind where
  | read | write | atomic | fetch
  deriving DecidableEq, Repr

/-- A packet of R396, as it stands on a link: the header's fields and the data bytes. -/
structure Packet where
  remote  : BitVec 64
  seq     : BitVec 32
  group   : BitVec 16
  job     : BitVec 8
  src     : BitVec 10
  dst     : BitVec 10
  mc      : Bool
  relaxed : Bool
  close   : Bool
  last    : Bool
  op      : BitVec 4
  afmt    : BitVec 3
  value   : BitVec 64
  len     : BitVec 16
  data    : List Byte
  crc     : BitVec 64
  deriving DecidableEq, Repr

/-- The data set that an Announce message brings, which the best master clock algorithm compares (IEEE 1588-2019, as R406
names it). -/
structure PtpClock where
  priority1 : BitVec 8
  cls       : BitVec 8
  accuracy  : BitVec 8
  variance  : BitVec 16
  priority2 : BitVec 8
  identity  : BitVec 64
  steps     : BitVec 16
  sender    : BitVec 80
  deriving DecidableEq, Repr

/-- The messages of IEEE 1588 that a slave takes (R406), with their remote times in nanoseconds, corrections included: an
Announce, a Sync with its origin time, the response to a delay request with the time at which the master received it, and the
response to a peer delay request with the times at which the peer received the request and sent the response. -/
inductive PtpMsg where
  | announce (c : PtpClock) | sync (origin : BitVec 64) | delayResp (received : BitVec 64)
  | peerDelayResp (received sent : BitVec 64)
  deriving DecidableEq, Repr

inductive Instr where
  -- clause header (R36, R38); rsv is bits [9:0]
  | clauseStart (n p : BitVec 4) (w : BitVec 6) (y s : BitVec 1) (rsv : BitVec 10)
  -- scalar register forms (R70, R181)
  | sadd (d a b : BitVec 6)
  | ssub (d a b : BitVec 6)
  | smul (d a b : BitVec 6)
  | smulhI64 (d a b : BitVec 6)
  | smulhUi64 (d a b : BitVec 6)
  | sdivI64 (d a b : BitVec 6)
  | sdivUi64 (d a b : BitVec 6)
  | sremI64 (d a b : BitVec 6)
  | sremUi64 (d a b : BitVec 6)
  | sand (d a b : BitVec 6)
  | sor (d a b : BitVec 6)
  | sxor (d a b : BitVec 6)
  | sshl (d a b : BitVec 6)
  | sshr (d a b : BitVec 6)
  | ssra (d a b : BitVec 6)
  | sminI64 (d a b : BitVec 6)
  | sminUi64 (d a b : BitVec 6)
  | smaxI64 (d a b : BitVec 6)
  | smaxUi64 (d a b : BitVec 6)
  | sclz (d a : BitVec 6)
  | spopc (d a : BitVec 6)
  | sbrev (d a : BitVec 6)
  | smov (d a : BitVec 6)
  | tick (d : BitVec 6)
  | ssel (d a b : BitVec 6)
  | scmp (d a b : BitVec 6) (c : BitVec 4)
  -- scalar immediate forms (R71, R183)
  | sli (d : BitVec 6) (i : BitVec 14) (x : ImmPfx)
  | saddImm (d a : BitVec 6) (i : BitVec 14) (x : ImmPfx)
  | sandImm (d a : BitVec 6) (i : BitVec 14) (x : ImmPfx)
  | sshlImm (d a n : BitVec 6)
  | sshrImm (d a n : BitVec 6)
  | ssraImm (d a n : BitVec 6)
  | sld (d a : BitVec 6) (i : BitVec 14) (x : ImmPfx) (m : Option MemAttr)
  | sst (d a : BitVec 6) (i : BitVec 14) (x : ImmPfx) (m : Option MemAttr)
  | rdsys (d : BitVec 6) (n : BitVec 14)
  | wrsys (a : BitVec 6) (n : BitVec 14)
  -- branches, reel and loops (R189 to R197)
  | br (o : BitVec 19)
  | bc (c : BitVec 4) (p : BitVec 3) (o : BitVec 19)
  | call (o : BitVec 19)
  | pif (p : BitVec 3) (o : BitVec 19)
  | pifNot (p : BitVec 3) (o : BitVec 19)
  | pelse (o : BitVec 19)
  | loop (l : BitVec 2) (k : BitVec 5) (o : BitVec 19)
  | nop
  | ret
  | pend
  | lbrk
  | bar (n : BitVec 6)
  | barv (n b : BitVec 6)
  | exit
  | demote
  | trap (n : BitVec 6)
  | rfe
  | yield
  | wait (n : BitVec 6)
  | modeVx
  | modeMx (c : BitVec 8)
  | deck (c : BitVec 6)
  | jxt (t n j : BitVec 6) (i : BitVec 8)
  -- vector integer (R206)
  | vadd (d a b : BitVec 8) (t : Option TyPfx)
  | vsub (d a b : BitVec 8) (t : Option TyPfx)
  | vmul (d a b : BitVec 8) (t : Option TyPfx)
  | vmulh (d a b : BitVec 8) (t : Option TyPfx)
  | vmad (d a b : BitVec 8) (t : Option TyPfx)
  | vand (d a b : BitVec 8) (t : Option TyPfx)
  | vor (d a b : BitVec 8) (t : Option TyPfx)
  | vxor (d a b : BitVec 8) (t : Option TyPfx)
  | vshl (d a b : BitVec 8) (t : Option TyPfx)
  | vshr (d a b : BitVec 8) (t : Option TyPfx)
  | vsra (d a b : BitVec 8) (t : Option TyPfx)
  | vmin (d a b : BitVec 8) (t : Option TyPfx)
  | vmax (d a b : BitVec 8) (t : Option TyPfx)
  -- FP32 and packed BF16 (R211, R216)
  | fmin (d a b : BitVec 8) (t : Option TyPfx)
  | fmax (d a b : BitVec 8) (t : Option TyPfx)
  | fcpsgn (d a b : BitVec 8) (t : Option TyPfx)
  | fadd (d a b : BitVec 8) (t : Option TyPfx)
  | fsub (d a b : BitVec 8) (t : Option TyPfx)
  | fmul (d a b : BitVec 8) (t : Option TyPfx)
  | ffma (d a b : BitVec 8) (t : Option TyPfx)
  | hadd (d a b : BitVec 8) (t : Option TyPfx)
  | hmul (d a b : BitVec 8) (t : Option TyPfx)
  | hfma (d a b : BitVec 8) (t : Option TyPfx)
  | hmin (d a b : BitVec 8) (t : Option TyPfx)
  | hmax (d a b : BitVec 8) (t : Option TyPfx)
  -- one-source forms (R76, R207, R213 to R217)
  | vmov (d a : BitVec 8) (t : Option TyPfx)
  | vnot (d a : BitVec 8) (t : Option TyPfx)
  | vabs (d a : BitVec 8) (t : Option TyPfx)
  | vneg (d a : BitVec 8) (t : Option TyPfx)
  | vclz (d a : BitVec 8) (t : Option TyPfx)
  | vpopc (d a : BitVec 8) (t : Option TyPfx)
  | vlane (d : BitVec 8) (t : Option TyPfx)
  | vbcast (d : BitVec 8) (s : BitVec 6) (t : Option TyPfx)
  | fabs (d a : BitVec 8) (t : Option TyPfx)
  | fneg (d a : BitVec 8) (t : Option TyPfx)
  | frnd (d a : BitVec 8) (r : BitVec 2) (t : Option TyPfx)
  | fclass (d a : BitVec 8) (t : Option TyPfx)
  | ex2 (d a : BitVec 8) (t : Option TyPfx)
  | lg2 (d a : BitVec 8) (t : Option TyPfx)
  | rcp (d a : BitVec 8) (t : Option TyPfx)
  | rsq (d a : BitVec 8) (t : Option TyPfx)
  | sin (d a : BitVec 8) (t : Option TyPfx)
  | cos (d a : BitVec 8) (t : Option TyPfx)
  -- compare and select (R77, R209, R210)
  | vcmp (c : BitVec 4) (p : BitVec 3) (a b : BitVec 8) (t : Option TyPfx)
  | fcmp (c : BitVec 4) (p : BitVec 3) (a b : BitVec 8) (t : Option TyPfx)
  | vselP0P3 (d a b : BitVec 8) (p : BitVec 2) (t : Option TyPfx)
  | vselP4P7 (d a b : BitVec 8) (p : BitVec 2) (t : Option TyPfx)
  -- immediate forms (R78, R208)
  | vaddImm (d a : BitVec 8) (i : BitVec 10) (x : ImmPfx) (t : Option TyPfx)
  | vmulImm (d a : BitVec 8) (i : BitVec 10) (x : ImmPfx) (t : Option TyPfx)
  | vandImm (d a : BitVec 8) (i : BitVec 10) (x : ImmPfx) (t : Option TyPfx)
  | vshlImm (d a : BitVec 8) (n : BitVec 5) (t : Option TyPfx)
  | vshrImm (d a : BitVec 8) (n : BitVec 5) (t : Option TyPfx)
  | vsraImm (d a : BitVec 8) (n : BitVec 5) (t : Option TyPfx)
  | vli (d : BitVec 8) (i : BitVec 10) (x : ImmPfx) (t : Option TyPfx)
  -- conversion and cross-lane (R78, R218 to R222)
  | cvt (d a : BitVec 8) (r : BitVec 2) (t : Option TyPfx)
  | shfl (d a b : BitVec 8) (m : BitVec 2) (t : Option TyPfx)
  | voteAny (d : BitVec 3) (c : BitVec 1) (s : BitVec 3) (t : Option TyPfx)
  | voteAll (d : BitVec 3) (c : BitVec 1) (s : BitVec 3) (t : Option TyPfx)
  | voteBallot (d : BitVec 8) (c : BitVec 1) (s : BitVec 3) (t : Option TyPfx)
  | vred (d a o : BitVec 8) (t : Option TyPfx)
  | vscan (d a o : BitVec 8) (t : Option TyPfx)
  -- web registers (R79, R224)
  | wbind (v : BitVec 8) (a : BitVec 6) (w : BitVec 2)
  | wpos (d : BitVec 6) (w : BitVec 2)
  | wclr (w : BitVec 2)
  -- memory (R80, R227 to R241)
  | ld (t o : BitVec 8) (b : BitVec 6) (l : BitVec 4) (x : MPfx)
  | st (t o : BitVec 8) (b : BitVec 6) (l : BitVec 4) (x : MPfx)
  | lds (t o : BitVec 8) (b : BitVec 6) (l : BitVec 4) (x : MPfx)
  | sts (t o : BitVec 8) (b : BitVec 6) (l : BitVec 4) (x : MPfx)
  | ldm (t o : BitVec 8) (b : BitVec 6) (l : BitVec 4) (x : MPfx)
  | stm (t o : BitVec 8) (b : BitVec 6) (l : BitVec 4) (x : MPfx)
  | stmQuantise (t : BitVec 8) (b : BitVec 6) (l : BitVec 4) (x : MPfx)
  | atom (t o : BitVec 8) (b : BitVec 6) (l : BitVec 4) (x : MPfx)
  | red (t o : BitVec 8) (b : BitVec 6) (l : BitVec 4) (x : MPfx)
  | fence (x : MPfx)
  | clean (n b : BitVec 6) (k : BitVec 4) (x : MPfx)
  | inval (n b : BitVec 6) (k : BitVec 4) (x : MPfx)
  | pref (o : BitVec 8) (b : BitVec 6) (l : BitVec 4) (x : MPfx)
  -- engine commands (R81, R247 to R256, R289 to R293, R305, R315, R202)
  | cpy (a b d : BitVec 6) (r : BitVec 1) (x : EPfx)
  | cpwait (n : BitVec 6)
  | rsel (a d : BitVec 6) (r : BitVec 1) (x : EPfx)
  | rput (a b d : BitVec 6) (r : BitVec 1) (x : EPfx)
  | rputSig (a b d : BitVec 6) (r : BitVec 1) (x : EPfx)
  | rget (a b d : BitVec 6) (r : BitVec 1) (x : EPfx)
  | radd (a b d : BitVec 6) (r : BitVec 1) (x : EPfx)
  | rsig (a b d : BitVec 6) (r : BitVec 1) (x : EPfx)
  | skcfg (a d : BitVec 6) (r : BitVec 1) (x : EPfx)
  | skfold (a b d : BitVec 6) (r : BitVec 1) (x : EPfx)
  | skmerge (a d : BitVec 6) (r : BitVec 1) (x : EPfx)
  | tmerge (a b d : BitVec 6) (r : BitVec 1) (x : EPfx)
  | bqpost (j a b d : BitVec 6) (r : BitVec 1) (x : EPfx)
  | spawn (a b d : BitVec 6) (r : BitVec 1) (x : EPfx)
  -- matrix (R52, R82, R267 to R271)
  | mma (c m n : BitVec 3) (k : BitVec 6) (f : BitVec 5) (l : BitVec 4) (ev : Option (BitVec 3))
  | omap (m : BitVec 3) (a b : BitVec 6)
  | omapld (m : BitVec 3) (a : BitVec 6)
  | mmsk (a b : BitVec 6)
  | mzero (t : BitVec 3)
  -- the machine's own steps: warps
  | unassignedEncoding (r : Reason)
  | loopBackEdge (w : Nat)
  | waitEnd (w : Nat)
  | cpwaitEnd (w : Nat)
  | fenceComplete (w : Nat)
  | loadResultWrite (w : Nat) (ue : W32)
  | storePerformed (k : Nat)
  | eviction (core : Option Nat) (sector : Nat) (ue : BitVec 4)
  | cleanInvalComplete (k : Nat)
  | faultRecordAppend
  | schedulerCycle (part : Nat)
  | datapathConfigurationChange (part : Nat)
  | mmaBlockApply (w : Nat)
  -- engines
  | copyCommandComplete (k : Nat)
  | selectCommandComplete (k : Nat)
  | skcfgExecute (k : Nat)
  | skfoldExecute (k : Nat)
  | skmergeChunk (k : Nat)
  | tmergeDescriptor (k : Nat)
  | spawnAppend (k : Nat)
  -- vat units
  | vatQueueSlotGrant (u : Nat)
  | vatCommandStart (u : Nat)
  | microWord (u : Nat)
  | microwordWatchdog (u : Nat)
  -- launch engine
  | registerWrite (off : Nat) (v : W64)
  | doorbell (q : BitVec 6) (v : W64)
  | dispatch
  | counterPoll
  | gangPlacement (l : Nat) (cores : List Nat)
  | placementStarvationTimeout (l : Nat)
  | gangRelease (g : Nat)
  | launchComplete (l : Nat)
  | lsplitApply (core : Nat)
  | cancel (v : W64)
  | xcmdPreempt (v : W64)
  | xcmdResume (v : W64)
  | preemption (g : Nat)
  | gangRestore (g : Nat) (cores : List Nat)
  | swapStart (v : W64)
  -- translation
  | translationWalk (job : BitVec 8) (va : W64) (acc : AccKind)
  | faultQueuePost
  | resolveWalkAgain (tag : W32)
  | resolveUnmapped (tag : W32)
  | resolveProtection (tag : W32)
  | shootdown (v : W64)
  | shootdownSnapshot (v : W64)
  | shootdownComplete
  | copyOnWrite (k : Nat)
  | checkpointFrameSend (d : BitVec 3)
  | checkpointAckReceive (d : BitVec 3) (tag : W64)
  | checkpointResendTimeout (d : BitVec 3)
  -- scale-up links
  | fdevidWrite (v : W64)
  | portDownCommand (p : Nat)
  | portRetrain (p : Nat)
  | portTrainingComplete (p : Nat)
  | keySwitchRequest (p : Nat)
  | keyAutoSwitch (p : Nat)
  | keyHardLimit (p : Nat)
  | keyWaitTimeout (p : Nat)
  | keySlotLoad (p : Nat) (tx : Bool) (salt : W32)
  | packetArrival (p : Nat) (pkt : Packet)
  | packetAckReceive (p : Nat) (peer : BitVec 10) (mc : Bool) (seq : W32) (ok : Bool) (code : BitVec 8)
  | packetResendTimeout (peer : BitVec 10) (mc : Bool) (seq : W32)
  | groupIdleTimeout (src : BitVec 10) (job : BitVec 8) (grp : BitVec 16)
  -- fences, self-tests and the power limit
  | dieFenceCommand (v : W64)
  | dieFence (d : BitVec 3)
  | dieSelfTestComplete (d : BitVec 3) (ok : Bool)
  | throttleStep (power : BitVec 13) (hot inlet : BitVec 8)
  | thermalTrip (d : BitVec 3)
  -- scale-out and time
  | scaleoutTransmit (d : BitVec 3)
  | scaleoutReceive (d : BitVec 3) (frame : List Byte)
  -- mould images, refresh, unit logs
  | mouldLoad (st : BitVec 3) (v : W64)
  | mouldVerifyDone (st : BitVec 3)
  | mouldWrite (st : BitVec 3)
  | refreshInterval (ch : Nat)
  | refreshIssue (ch : Nat) (bank : BitVec 5)
  | refreshComplete (ch : Nat)
  | handoverAck (ch : Nat)
  -- reliability
  | scrubRow (st : BitVec 3) (pa : Nat) (ce ue : List Nat)
  -- life cycle
  | startStageComplete
  | startStageTimeout
  | firmwareVerifyDone
  | firmwareSwitch
  -- host link
  | hostBar2Read (off n : Nat)
  | hostBar2Write (off : Nat) (data : List Byte)
  | cxlMemRead (off n : Nat)
  | cxlMemWrite (off : Nat) (data : List Byte)
  -- inputs that are never held for later
  | flitReceive (p : Nat) (flit : List Byte)
  | ptpMessageReceive (d : BitVec 3) (m : PtpMsg) (corr : W64)
  | powerOn
  | lossOfSignal (p : Nat)
  | hostRequestCompletion (k : Nat) (ok : Bool)
  | backInvalidateResponse (line : Nat)
  | lifecycleReset
  | clearFailedStartCount
  | lifecycleChange (v : W64)
  | attestationRequest (v : W64)
  | firmwareLoad (v : W64)
  | readmission (v : W64)
  | counterClear (d i : BitVec 3)
  | unitLogClear (u : Nat)
  | mouldFloorWrite (st : BitVec 3) (v : W64)
  | ptpLockLoss
  deriving DecidableEq, Repr

end Sys2Proof
end

