-- ==== Sys2Proof/WellFormed.lean ====
section
/-! DEFINITION. Which instructions are legal words: the checks of spec/03 R84 and R85 that need nothing but the instruction
itself and come before the register range check (reasons 0x1B, 0x12, 0x14, 0x16). An instruction that passes them is
well formed; Decode refuses any other by the same reason. -/

namespace Sys2Proof

/-- The named element format codes of R57, the default 0 included. -/
def fmtAssigned (f : BitVec 5) : Bool :=
  f.toNat ≤ 0x0C || (0x10 ≤ f.toNat && f.toNat ≤ 0x13)

/-- One of the codes, or the default. -/
def fmtIn (f : BitVec 5) (l : List Nat) : Bool := f.toNat = 0 || l.contains f.toNat

/-- A type prefix of an instruction that takes one type: fa accepted, fb zero (R205). -/
def tyOk (t : Option TyPfx) (l : List Nat) : Bool :=
  match t with
  | none => true
  | some p => fmtIn p.fa l && p.fb = 0

/-- b32, i32 and ui32 (R206 to R210). -/
def tyBits : List Nat := [0x0A, 0x10, 0x12]
/-- i32 and ui32. -/
def tySign : List Nat := [0x10, 0x12]
/-- i32 only. -/
def tyI32 : List Nat := [0x10]
/-- f32 only (R211). -/
def tyF32 : List Nat := [0x01]
/-- bf16 only (R216). -/
def tyBf16 : List Nat := [0x02]
/-- b32 only (R219, R220). -/
def tyB32 : List Nat := [0x0A]

/-- The types of `vred` and `vscan` by operation (R221). A word of an unassigned operation takes the types of any of them before it
is refused for its operation (DESIGN CHOICE, log 88: R85 and R221 give such a word no types). -/
def tyRed (o : BitVec 8) : List Nat :=
  match o.toNat with
  | 0 | 1 | 2 | 5 => [0x10, 0x12, 0x01]
  | 3 | 4 => tyBits
  | _ => [0x10, 0x12, 0x01, 0x0A]

/-- The fields of a memattr prefix that no instruction takes (R56, R57). -/
def attrGenericOk (m : MemAttr) : Bool :=
  m.order ≠ 3 && m.scope.toNat ≤ 5 && m.policy.toNat ≤ 4 && fmtAssigned m.fmt

def attrOk (m : Option MemAttr) (p : MemAttr → Bool) : Bool :=
  match m with
  | none => true
  | some a => attrGenericOk a && p a

/-- An event prefix names a token 0 to 5 (R56). -/
def evOk (e : Option (BitVec 3)) : Bool :=
  match e with
  | none => true
  | some t => t.toNat ≤ 5

/-- The formats of `sld` and `sst` (R184). -/
def sldAttr (a : MemAttr) : Bool := fmtIn a.fmt [0x08, 0x09, 0x0A, 0x0B, 0x10, 0x12] && a.op7 = 0
/-- The formats of `ld` (R228). -/
def ldAttr (a : MemAttr) : Bool := a.op7 = 0
/-- `st` takes every format but ds8 (R228). -/
def stAttr (a : MemAttr) : Bool := a.op7 = 0 && a.fmt ≠ 0x07
/-- `lds` takes no policy (R131, R232). -/
def ldsAttr (a : MemAttr) : Bool := a.op7 = 0 && a.policy = 0
def stsAttr (a : MemAttr) : Bool := stAttr a && a.policy = 0
/-- `ldm` (R233). -/
def ldmAttr (a : MemAttr) : Bool := fmtIn a.fmt [0x0A] && a.op7.toNat ≤ 31
/-- The formats of the quantising store (R235). -/
def fmtQuant (f : BitVec 5) : Bool := [0x03, 0x04, 0x05, 0x06].contains f.toNat
def stmqAttr (a : MemAttr) : Bool := fmtQuant a.fmt && a.op7.toNat ≤ 31
/-- The types of each atomic operation (R236). -/
def atomTypes (op7 : BitVec 7) : List Nat :=
  match op7.toNat with
  | 0 | 1 => [0x10, 0x12, 0x0A, 0x11, 0x13, 0x0B]
  | 2 | 3 => [0x10, 0x12, 0x11, 0x13]
  | 4 | 5 | 6 => [0x0A, 0x10, 0x12, 0x0B, 0x11, 0x13]
  | 7 => [0x0A, 0x10, 0x12, 0x01, 0x0B, 0x11, 0x13]
  | 8 => [0x0A, 0x10, 0x12, 0x0B, 0x11, 0x13]
  | 9 => [0x01]
  | _ => []
def atomAttr (a : MemAttr) : Bool := a.op7.toNat ≤ 9 && fmtIn a.fmt (atomTypes a.op7) && a.order ≠ 1
/-- `red` takes neither xchg nor cas (R238). -/
def redAttr (a : MemAttr) : Bool := atomAttr a && a.op7 ≠ 7 && a.op7 ≠ 8
/-- `fence` (R133). -/
def fenceAttr (a : MemAttr) : Bool :=
  a.order = 0 && (a.policy = 0 || a.policy = 4) && a.fmt = 0 && a.op7 = 0
/-- `pref` (R241). -/
def prefAttr (a : MemAttr) : Bool := a.order = 0 && a.scope = 0 && a.fmt = 0 && a.op7 = 0
/-- Engine commands (R81, R247). -/
def engAttr (a : MemAttr) : Bool := a.fmt = 0 && a.op7 = 0

/-- The conversion pairs of R218, destination first. -/
def cvtPairOk (p : TyPfx) : Bool :=
  [(0x01, 0x10), (0x01, 0x12), (0x10, 0x01), (0x12, 0x01), (0x02, 0x01), (0x01, 0x02)].contains
    (p.fa.toNat, p.fb.toNat)

def mOk (x : MPfx) (p : MemAttr → Bool) : Bool := attrOk x.mem p && evOk x.ev
def eOk (x : EPfx) : Bool := attrOk x.mem engAttr && evOk x.ev

/-- The prefix fields of an instruction are values that it accepts (reason 0x1B of R84). R209 and R213 to R215 list no type for
`fcmp`, `fabs`, `fneg`, `frnd` and `fclass`: they take f32 alone (DESIGN CHOICE, log 84). A `vcmp` word of an unassigned condition
takes the integer types before it is refused for its condition (DESIGN CHOICE, log 88: no rule gives such a word types). -/
def pfxOk : Instr → Bool
  | .sld _ _ _ _ m => attrOk m sldAttr
  | .sst _ _ _ _ m => attrOk m sldAttr
  | .vadd _ _ _ t | .vsub _ _ _ t | .vmul _ _ _ t | .vmad _ _ _ t | .vand _ _ _ t | .vor _ _ _ t
  | .vxor _ _ _ t | .vshl _ _ _ t | .vshr _ _ _ t | .vsra _ _ _ t => tyOk t tyBits
  | .vmulh _ _ _ t | .vmin _ _ _ t | .vmax _ _ _ t => tyOk t tySign
  | .fmin _ _ _ t | .fmax _ _ _ t | .fcpsgn _ _ _ t | .fadd _ _ _ t | .fsub _ _ _ t
  | .fmul _ _ _ t | .ffma _ _ _ t => tyOk t tyF32
  | .hadd _ _ _ t | .hmul _ _ _ t | .hfma _ _ _ t | .hmin _ _ _ t | .hmax _ _ _ t => tyOk t tyBf16
  | .vmov _ _ t | .vnot _ _ t | .vclz _ _ t | .vpopc _ _ t | .vlane _ t | .vbcast _ _ t => tyOk t tyBits
  | .vabs _ _ t | .vneg _ _ t => tyOk t tyI32
  | .fabs _ _ t | .fneg _ _ t | .frnd _ _ _ t | .fclass _ _ t | .ex2 _ _ t | .lg2 _ _ t | .rcp _ _ t
  | .rsq _ _ t | .sin _ _ t | .cos _ _ t => tyOk t tyF32
  | .vcmp c _ _ _ t => tyOk t (if c.toNat ≤ 1 then [] else tySign)
  | .fcmp _ _ _ _ t => tyOk t tyF32
  | .vselP0P3 _ _ _ _ t | .vselP4P7 _ _ _ _ t => tyOk t tyBits
  | .vaddImm _ _ _ _ t | .vmulImm _ _ _ _ t | .vandImm _ _ _ _ t | .vshlImm _ _ _ t
  | .vshrImm _ _ _ t | .vsraImm _ _ _ t | .vli _ _ _ t => tyOk t tyBits
  | .cvt _ _ _ t => (match t with | none => true | some p => cvtPairOk p)
  | .shfl _ _ _ _ t | .voteAny _ _ _ t | .voteAll _ _ _ t | .voteBallot _ _ _ t => tyOk t tyB32
  | .vred _ _ o t | .vscan _ _ o t => tyOk t (tyRed o)
  | .ld _ _ _ _ x => mOk x ldAttr
  | .st _ _ _ _ x => mOk x stAttr
  | .lds _ _ _ _ x => mOk x ldsAttr
  | .sts _ _ _ _ x => mOk x stsAttr
  | .ldm _ _ _ _ x => mOk x ldmAttr
  | .stm _ _ _ _ x => mOk x ldmAttr
  | .stmQuantise _ _ _ x => mOk x stmqAttr && x.mem.isSome
  | .atom _ _ _ _ x => mOk x atomAttr
  | .red _ _ _ _ x => mOk x redAttr
  | .fence x => mOk x fenceAttr && x.off.isNone
  | .clean _ _ _ x | .inval _ _ _ x => evOk x.ev && x.mem.isNone
  | .pref _ _ _ x => mOk x prefAttr
  | .cpy _ _ _ _ x | .tmerge _ _ _ _ x | .bqpost _ _ _ _ _ x | .spawn _ _ _ _ x | .skfold _ _ _ _ x =>
      eOk x && x.peer.isNone
  | .rsel _ _ _ x | .skcfg _ _ _ x => eOk x && x.peer.isNone
  | .skmerge _ _ _ x => eOk x
  | .rput _ _ _ _ x | .rputSig _ _ _ _ x | .rget _ _ _ _ x | .radd _ _ _ _ x | .rsig _ _ _ _ x => eOk x
  | .mma _ _ _ _ _ _ ev => evOk ev
  | _ => true

/-- The function or sub-operation is assigned (reason 0x12). -/
def selOk : Instr → Bool
  | .scmp _ _ _ c => c.toNat ≤ 9
  | .vred _ _ o _ => o.toNat ≤ 5
  | .vscan _ _ o _ => o.toNat ≤ 4
  | _ => true

/-- The condition code is one that the instruction takes (reason 0x14; R73, R77). -/
def condOk : Instr → Bool
  | .bc c _ _ => 1 ≤ c.toNat && c.toNat ≤ 4
  | .vcmp c _ _ _ _ => c.toNat ≤ 5
  | .fcmp c _ _ _ _ => c.toNat ≤ 7
  | _ => true

/-- The MX format pair is assigned (reason 0x16; R53). -/
def pairOk : Instr → Bool
  | .mma _ _ _ _ f _ _ => f.toNat ≤ 7
  | _ => true

/-- Fields that an instruction does not use in one of its forms (reason 0x13): the rounding of the exact conversion
f32 from bf16 (R218). -/
def unusedOk : Instr → Bool
  | .cvt _ _ r (some p) => !(p.fa = 0x01 && p.fb = 0x02 && r ≠ 0)
  | _ => true

/-- The first of these checks that fails, in the order of R85. -/
def earlyReason (i : Instr) : Option Reason :=
  if !pfxOk i then some 0x1B
  else if !selOk i then some 0x12
  else if !condOk i then some 0x14
  else if !pairOk i then some 0x16
  else if !unusedOk i then some 0x13
  else none

/-- A well-formed instruction: no early check refuses it. -/
abbrev WellFormed (i : Instr) : Prop := earlyReason i = none

end Sys2Proof
end

