-- ==== Sys2Proof/Decode.lean ====
section
/-! DEFINITION. The decoder of instruction words (spec/02 R35 to R58, spec/03 R68 to R86), total on any words and refusing by
the reason code of R84, the helpers over bit fields and byte order, and after it an encoder written from the same tables. -/

namespace Sys2Proof

/-! ## Bit fields and byte order -/

/-- Bits [lo+len-1 : lo] of a word. -/
abbrev bits {n : Nat} (w : BitVec n) (lo len : Nat) : BitVec len := w.extractLsb' lo len

/-- A little-endian word of 4 bytes (R7). -/
def word32Of (b0 b1 b2 b3 : Byte) : W32 := b3 ++ b2 ++ b1 ++ b0

/-- The bytes of a word, lowest address first (R7). -/
def bytes32 (w : W32) : List Byte := [bits w 0 8, bits w 8 8, bits w 16 8, bits w 24 8]

/-- The 32-bit words of a run of bytes; a last run of fewer than four bytes is dropped. -/
def wordsOf : List Byte → List W32
  | b0 :: b1 :: b2 :: b3 :: r => word32Of b0 b1 b2 b3 :: wordsOf r
  | _ => []

/-! ## Prefixes (R43, R55, R56) -/

/-- The payloads of an instruction's prefixes, by kind. -/
structure Pfx where
  imm  : Option (BitVec 23)
  off  : Option (BitVec 23)
  mem  : Option (BitVec 23)
  ev   : Option (BitVec 23)
  peer : Option (BitVec 23)
  ty   : Option (BitVec 23)
  deriving DecidableEq, Repr

def Pfx.none : Pfx := ⟨.none, .none, .none, .none, .none, .none⟩

/-- A word of major opcode 0b111110. -/
def isPrefix (w : W32) : Bool := bits w 26 6 = 0x3E
/-- A word of major opcode 0b111111. -/
def isHeader (w : W32) : Bool := bits w 26 6 = 0x3F
/-- The kind of a prefix word. -/
def pfxKind (w : W32) : Nat := (bits w 23 3).toNat

/-- Adds one prefix word. -/
def Pfx.add (p : Pfx) (w : W32) : Pfx :=
  let v := bits w 0 23
  match pfxKind w with
  | 0 => { p with imm := some v }
  | 1 => { p with off := some v }
  | 2 => { p with mem := some v }
  | 3 => { p with ev := some v }
  | 4 => { p with peer := some v }
  | 5 => { p with ty := some v }
  | _ => p

def Pfx.ofWords (ps : List W32) : Pfx := ps.foldl Pfx.add Pfx.none

/-- The fields of a memattr payload (R56). -/
def attrOf (v : BitVec 23) : MemAttr :=
  { order := bits v 21 2, scope := bits v 18 3, policy := bits v 15 3, fmt := bits v 10 5, op7 := bits v 3 7 }

def Pfx.memA (p : Pfx) : Option MemAttr := p.mem.map attrOf
def Pfx.evT (p : Pfx) : Option (BitVec 3) := p.ev.map fun v => bits v 20 3
def Pfx.peerR (p : Pfx) : Option (BitVec 6) := p.peer.map fun v => bits v 17 6
def Pfx.tyP (p : Pfx) : Option TyPfx := p.ty.map fun v => { fa := bits v 18 5, fb := bits v 13 5 }
def Pfx.m (p : Pfx) : MPfx := { off := p.off, mem := p.memA, ev := p.evT }
def Pfx.e (p : Pfx) : EPfx := { mem := p.memA, ev := p.evT, peer := p.peerR }

/-- Kinds strictly ascend (R55). -/
def kindsAscend : List W32 → Bool
  | a :: b :: r => pfxKind a < pfxKind b && kindsAscend (b :: r)
  | _ => true

/-- Reserved payload bits are zero (R56). -/
def pfxRsvOk (p : Pfx) : Bool :=
  (match p.mem with | none => true | some v => bits v 0 3 = 0) &&
  (match p.ev with | none => true | some v => bits v 0 20 = 0) &&
  (match p.peer with | none => true | some v => bits v 0 17 = 0) &&
  (match p.ty with | none => true | some v => bits v 0 13 = 0)

/-- Payload fields that no instruction takes (R56, R57). -/
def pfxGenericOk (p : Pfx) : Bool :=
  attrOk p.memA (fun _ => true) && evOk p.evT &&
  (match p.tyP with | none => true | some t => fmtAssigned t.fa && fmtAssigned t.fb)

/-- An E word takes no op7, whatever its function (R81). -/
def op7Ok (p : Pfx) (w : W32) : Bool :=
  let mj := (bits w 26 6).toNat
  !(0x32 ≤ mj && mj ≤ 0x36) || attrOk p.memA fun a => a.op7 = 0

/-- The kinds that a word accepts (R58, narrowed by the entries of R71, R78, R133, R240, R247, R290, R306, R315, R202), as
bits 0 to 5. -/
def acceptKinds (w : W32) : BitVec 6 :=
  let fn7 := (bits w 19 7).toNat
  match (bits w 26 6).toNat with
  | 0x01 | 0x02 | 0x03 => 0b000001
  | 0x05 | 0x06 => 0b000101
  | 0x11 | 0x12 | 0x13 | 0x14 | 0x15 | 0x16 | 0x17 | 0x18 | 0x19 | 0x1A | 0x1B => 0b100000
  | 0x1C | 0x1D | 0x1E | 0x20 => 0b100001
  | 0x1F | 0x21 | 0x22 | 0x23 | 0x24 => 0b100000
  | 0x26 | 0x27 | 0x28 | 0x29 | 0x2A | 0x2B | 0x2C | 0x2D | 0x31 => 0b001110
  | 0x2E => 0b001100
  | 0x2F | 0x30 => 0b001010
  | 0x32 => if fn7 = 1 then 0 else if fn7 ≤ 2 then 0b001100 else 0b011100
  | 0x33 => if fn7 ≤ 1 then 0b001100 else 0b011100
  | 0x34 => if fn7 = 0 ∨ 0x40 ≤ fn7 then 0b001100 else 0b011100
  | 0x35 => 0b011100
  | 0x36 => if fn7 = 0 then 0b001100 else 0b011100
  | 0x37 => 0b001000
  | _ => 0

def pfxAccepted (p : Pfx) (w : W32) : Bool :=
  let a := acceptKinds w
  (p.imm.isNone || a.getLsbD 0) && (p.off.isNone || a.getLsbD 1) && (p.mem.isNone || a.getLsbD 2) &&
  (p.ev.isNone || a.getLsbD 3) && (p.peer.isNone || a.getLsbD 4) && (p.ty.isNone || a.getLsbD 5)

/-- The memattr format makes an `stm` word the quantising store (R233, R235). -/
def quantising (p : Pfx) : Bool :=
  match p.memA with
  | none => false
  | some a => fmtQuant a.fmt

/-! ## The opcode map (R68 to R82), one definition per major opcode that selects further -/

def buildOp00 (_p : Pfx) (w : W32) : Except Reason Instr :=
  match (w.extractLsb' 0 8).toNat with
  | 0x00 => .ok (.sadd (w.extractLsb' 20 6) (w.extractLsb' 14 6) (w.extractLsb' 8 6))
  | 0x01 => .ok (.ssub (w.extractLsb' 20 6) (w.extractLsb' 14 6) (w.extractLsb' 8 6))
  | 0x02 => .ok (.smul (w.extractLsb' 20 6) (w.extractLsb' 14 6) (w.extractLsb' 8 6))
  | 0x03 => .ok (.smulhI64 (w.extractLsb' 20 6) (w.extractLsb' 14 6) (w.extractLsb' 8 6))
  | 0x04 => .ok (.smulhUi64 (w.extractLsb' 20 6) (w.extractLsb' 14 6) (w.extractLsb' 8 6))
  | 0x05 => .ok (.sdivI64 (w.extractLsb' 20 6) (w.extractLsb' 14 6) (w.extractLsb' 8 6))
  | 0x06 => .ok (.sdivUi64 (w.extractLsb' 20 6) (w.extractLsb' 14 6) (w.extractLsb' 8 6))
  | 0x07 => .ok (.sremI64 (w.extractLsb' 20 6) (w.extractLsb' 14 6) (w.extractLsb' 8 6))
  | 0x08 => .ok (.sremUi64 (w.extractLsb' 20 6) (w.extractLsb' 14 6) (w.extractLsb' 8 6))
  | 0x09 => .ok (.sand (w.extractLsb' 20 6) (w.extractLsb' 14 6) (w.extractLsb' 8 6))
  | 0x0A => .ok (.sor (w.extractLsb' 20 6) (w.extractLsb' 14 6) (w.extractLsb' 8 6))
  | 0x0B => .ok (.sxor (w.extractLsb' 20 6) (w.extractLsb' 14 6) (w.extractLsb' 8 6))
  | 0x0C => .ok (.sshl (w.extractLsb' 20 6) (w.extractLsb' 14 6) (w.extractLsb' 8 6))
  | 0x0D => .ok (.sshr (w.extractLsb' 20 6) (w.extractLsb' 14 6) (w.extractLsb' 8 6))
  | 0x0E => .ok (.ssra (w.extractLsb' 20 6) (w.extractLsb' 14 6) (w.extractLsb' 8 6))
  | 0x0F => .ok (.sminI64 (w.extractLsb' 20 6) (w.extractLsb' 14 6) (w.extractLsb' 8 6))
  | 0x10 => .ok (.sminUi64 (w.extractLsb' 20 6) (w.extractLsb' 14 6) (w.extractLsb' 8 6))
  | 0x11 => .ok (.smaxI64 (w.extractLsb' 20 6) (w.extractLsb' 14 6) (w.extractLsb' 8 6))
  | 0x12 => .ok (.smaxUi64 (w.extractLsb' 20 6) (w.extractLsb' 14 6) (w.extractLsb' 8 6))
  | 0x13 => .ok (.sclz (w.extractLsb' 20 6) (w.extractLsb' 14 6))
  | 0x14 => .ok (.spopc (w.extractLsb' 20 6) (w.extractLsb' 14 6))
  | 0x15 => .ok (.sbrev (w.extractLsb' 20 6) (w.extractLsb' 14 6))
  | 0x16 => .ok (.smov (w.extractLsb' 20 6) (w.extractLsb' 14 6))
  | 0x17 => .ok (.tick (w.extractLsb' 20 6))
  | 0x18 => .ok (.ssel (w.extractLsb' 20 6) (w.extractLsb' 14 6) (w.extractLsb' 8 6))
  | fn => if fn / 16 = 2 then .ok (.scmp (w.extractLsb' 20 6) (w.extractLsb' 14 6) (w.extractLsb' 8 6) (w.extractLsb' 0 4)) else .error 0x12

def buildOp04 (_p : Pfx) (w : W32) : Except Reason Instr :=
  match (w.extractLsb' 12 2).toNat with
  | 0x00 => .ok (.sshlImm (w.extractLsb' 20 6) (w.extractLsb' 14 6) (w.extractLsb' 0 6))
  | 0x01 => .ok (.sshrImm (w.extractLsb' 20 6) (w.extractLsb' 14 6) (w.extractLsb' 0 6))
  | 0x02 => .ok (.ssraImm (w.extractLsb' 20 6) (w.extractLsb' 14 6) (w.extractLsb' 0 6))
  | _ => .error 0x12

def buildOp0C (_p : Pfx) (w : W32) : Except Reason Instr :=
  match (w.extractLsb' 22 4).toNat with
  | 0x01 => .ok (.pif (w.extractLsb' 19 3) (w.extractLsb' 0 19))
  | 0x03 => .ok (.pifNot (w.extractLsb' 19 3) (w.extractLsb' 0 19))
  | _ => .error 0x14

def buildOp0F (_p : Pfx) (w : W32) : Except Reason Instr :=
  match (w.extractLsb' 0 8).toNat with
  | 0x00 => .ok (.nop)
  | 0x01 => .ok (.ret)
  | 0x02 => .ok (.pend)
  | 0x03 => .ok (.lbrk)
  | 0x04 => .ok (.bar (w.extractLsb' 14 6))
  | 0x05 => .ok (.barv (w.extractLsb' 14 6) (w.extractLsb' 8 6))
  | 0x06 => .ok (.exit)
  | 0x07 => .ok (.demote)
  | 0x08 => .ok (.trap (w.extractLsb' 14 6))
  | 0x09 => .ok (.rfe)
  | 0x0A => .ok (.yield)
  | 0x0B => .ok (.wait (w.extractLsb' 14 6))
  | 0x0C => .ok (.modeVx)
  | 0x0D => .ok (.modeMx (w.extractLsb' 18 8))
  | 0x0E => .ok (.deck (w.extractLsb' 14 6))
  | _ => .error 0x12

def buildOp11 (p : Pfx) (w : W32) : Except Reason Instr :=
  match (w.extractLsb' 0 2).toNat with
  | 0x00 => .ok (.vadd (w.extractLsb' 18 8) (w.extractLsb' 10 8) (w.extractLsb' 2 8) p.tyP)
  | 0x01 => .ok (.vsub (w.extractLsb' 18 8) (w.extractLsb' 10 8) (w.extractLsb' 2 8) p.tyP)
  | 0x02 => .ok (.vmul (w.extractLsb' 18 8) (w.extractLsb' 10 8) (w.extractLsb' 2 8) p.tyP)
  | 0x03 => .ok (.vmulh (w.extractLsb' 18 8) (w.extractLsb' 10 8) (w.extractLsb' 2 8) p.tyP)
  | _ => .error 0x12

def buildOp12 (p : Pfx) (w : W32) : Except Reason Instr :=
  match (w.extractLsb' 0 2).toNat with
  | 0x00 => .ok (.vmad (w.extractLsb' 18 8) (w.extractLsb' 10 8) (w.extractLsb' 2 8) p.tyP)
  | 0x01 => .ok (.vand (w.extractLsb' 18 8) (w.extractLsb' 10 8) (w.extractLsb' 2 8) p.tyP)
  | 0x02 => .ok (.vor (w.extractLsb' 18 8) (w.extractLsb' 10 8) (w.extractLsb' 2 8) p.tyP)
  | 0x03 => .ok (.vxor (w.extractLsb' 18 8) (w.extractLsb' 10 8) (w.extractLsb' 2 8) p.tyP)
  | _ => .error 0x12

def buildOp13 (p : Pfx) (w : W32) : Except Reason Instr :=
  match (w.extractLsb' 0 2).toNat with
  | 0x00 => .ok (.vshl (w.extractLsb' 18 8) (w.extractLsb' 10 8) (w.extractLsb' 2 8) p.tyP)
  | 0x01 => .ok (.vshr (w.extractLsb' 18 8) (w.extractLsb' 10 8) (w.extractLsb' 2 8) p.tyP)
  | 0x02 => .ok (.vsra (w.extractLsb' 18 8) (w.extractLsb' 10 8) (w.extractLsb' 2 8) p.tyP)
  | 0x03 => .ok (.vmin (w.extractLsb' 18 8) (w.extractLsb' 10 8) (w.extractLsb' 2 8) p.tyP)
  | _ => .error 0x12

def buildOp14 (p : Pfx) (w : W32) : Except Reason Instr :=
  match (w.extractLsb' 0 2).toNat with
  | 0x00 => .ok (.vmax (w.extractLsb' 18 8) (w.extractLsb' 10 8) (w.extractLsb' 2 8) p.tyP)
  | 0x01 => .ok (.fmin (w.extractLsb' 18 8) (w.extractLsb' 10 8) (w.extractLsb' 2 8) p.tyP)
  | 0x02 => .ok (.fmax (w.extractLsb' 18 8) (w.extractLsb' 10 8) (w.extractLsb' 2 8) p.tyP)
  | 0x03 => .ok (.fcpsgn (w.extractLsb' 18 8) (w.extractLsb' 10 8) (w.extractLsb' 2 8) p.tyP)
  | _ => .error 0x12

def buildOp15 (p : Pfx) (w : W32) : Except Reason Instr :=
  match (w.extractLsb' 0 2).toNat with
  | 0x00 => .ok (.fadd (w.extractLsb' 18 8) (w.extractLsb' 10 8) (w.extractLsb' 2 8) p.tyP)
  | 0x01 => .ok (.fsub (w.extractLsb' 18 8) (w.extractLsb' 10 8) (w.extractLsb' 2 8) p.tyP)
  | 0x02 => .ok (.fmul (w.extractLsb' 18 8) (w.extractLsb' 10 8) (w.extractLsb' 2 8) p.tyP)
  | 0x03 => .ok (.ffma (w.extractLsb' 18 8) (w.extractLsb' 10 8) (w.extractLsb' 2 8) p.tyP)
  | _ => .error 0x12

def buildOp16 (p : Pfx) (w : W32) : Except Reason Instr :=
  match (w.extractLsb' 0 2).toNat with
  | 0x00 => .ok (.hadd (w.extractLsb' 18 8) (w.extractLsb' 10 8) (w.extractLsb' 2 8) p.tyP)
  | 0x01 => .ok (.hmul (w.extractLsb' 18 8) (w.extractLsb' 10 8) (w.extractLsb' 2 8) p.tyP)
  | 0x02 => .ok (.hfma (w.extractLsb' 18 8) (w.extractLsb' 10 8) (w.extractLsb' 2 8) p.tyP)
  | 0x03 => .ok (.hmin (w.extractLsb' 18 8) (w.extractLsb' 10 8) (w.extractLsb' 2 8) p.tyP)
  | _ => .error 0x12

def buildOp17 (p : Pfx) (w : W32) : Except Reason Instr :=
  match (w.extractLsb' 0 2).toNat with
  | 0x00 => .ok (.hmax (w.extractLsb' 18 8) (w.extractLsb' 10 8) (w.extractLsb' 2 8) p.tyP)
  | _ => .error 0x12

def buildOp18 (p : Pfx) (w : W32) : Except Reason Instr :=
  match (w.extractLsb' 2 8).toNat with
  | 0x00 => .ok (.vmov (w.extractLsb' 18 8) (w.extractLsb' 10 8) p.tyP)
  | 0x01 => .ok (.vnot (w.extractLsb' 18 8) (w.extractLsb' 10 8) p.tyP)
  | 0x02 => .ok (.vabs (w.extractLsb' 18 8) (w.extractLsb' 10 8) p.tyP)
  | 0x03 => .ok (.vneg (w.extractLsb' 18 8) (w.extractLsb' 10 8) p.tyP)
  | 0x04 => .ok (.vclz (w.extractLsb' 18 8) (w.extractLsb' 10 8) p.tyP)
  | 0x05 => .ok (.vpopc (w.extractLsb' 18 8) (w.extractLsb' 10 8) p.tyP)
  | 0x06 => .ok (.vlane (w.extractLsb' 18 8) p.tyP)
  | 0x07 => .ok (.vbcast (w.extractLsb' 18 8) (w.extractLsb' 10 6) p.tyP)
  | 0x10 => .ok (.fabs (w.extractLsb' 18 8) (w.extractLsb' 10 8) p.tyP)
  | 0x11 => .ok (.fneg (w.extractLsb' 18 8) (w.extractLsb' 10 8) p.tyP)
  | 0x12 => .ok (.frnd (w.extractLsb' 18 8) (w.extractLsb' 10 8) (w.extractLsb' 0 2) p.tyP)
  | 0x13 => .ok (.fclass (w.extractLsb' 18 8) (w.extractLsb' 10 8) p.tyP)
  | 0x20 => .ok (.ex2 (w.extractLsb' 18 8) (w.extractLsb' 10 8) p.tyP)
  | 0x21 => .ok (.lg2 (w.extractLsb' 18 8) (w.extractLsb' 10 8) p.tyP)
  | 0x22 => .ok (.rcp (w.extractLsb' 18 8) (w.extractLsb' 10 8) p.tyP)
  | 0x23 => .ok (.rsq (w.extractLsb' 18 8) (w.extractLsb' 10 8) p.tyP)
  | 0x24 => .ok (.sin (w.extractLsb' 18 8) (w.extractLsb' 10 8) p.tyP)
  | 0x25 => .ok (.cos (w.extractLsb' 18 8) (w.extractLsb' 10 8) p.tyP)
  | _ => .error 0x12

def buildOp19 (p : Pfx) (w : W32) : Except Reason Instr :=
  match (w.extractLsb' 0 2).toNat with
  | 0x00 => .ok (.vcmp (w.extractLsb' 22 4) (w.extractLsb' 18 3) (w.extractLsb' 10 8) (w.extractLsb' 2 8) p.tyP)
  | 0x01 => .ok (.fcmp (w.extractLsb' 22 4) (w.extractLsb' 18 3) (w.extractLsb' 10 8) (w.extractLsb' 2 8) p.tyP)
  | _ => .error 0x12

def buildOp1F (p : Pfx) (w : W32) : Except Reason Instr :=
  match (w.extractLsb' 8 2).toNat with
  | 0x00 => .ok (.vshlImm (w.extractLsb' 18 8) (w.extractLsb' 10 8) (w.extractLsb' 0 5) p.tyP)
  | 0x01 => .ok (.vshrImm (w.extractLsb' 18 8) (w.extractLsb' 10 8) (w.extractLsb' 0 5) p.tyP)
  | 0x02 => .ok (.vsraImm (w.extractLsb' 18 8) (w.extractLsb' 10 8) (w.extractLsb' 0 5) p.tyP)
  | _ => .error 0x12

def buildOp23 (p : Pfx) (w : W32) : Except Reason Instr :=
  match (w.extractLsb' 0 2).toNat with
  | 0x00 => .ok (.voteAny (w.extractLsb' 18 3) (w.extractLsb' 13 1) (w.extractLsb' 10 3) p.tyP)
  | 0x01 => .ok (.voteAll (w.extractLsb' 18 3) (w.extractLsb' 13 1) (w.extractLsb' 10 3) p.tyP)
  | 0x02 => .ok (.voteBallot (w.extractLsb' 18 8) (w.extractLsb' 13 1) (w.extractLsb' 10 3) p.tyP)
  | _ => .error 0x12

def buildOp24 (p : Pfx) (w : W32) : Except Reason Instr :=
  match (w.extractLsb' 0 2).toNat with
  | 0x00 => .ok (.vred (w.extractLsb' 18 8) (w.extractLsb' 10 8) (w.extractLsb' 2 8) p.tyP)
  | 0x01 => .ok (.vscan (w.extractLsb' 18 8) (w.extractLsb' 10 8) (w.extractLsb' 2 8) p.tyP)
  | _ => .error 0x12

def buildOp25 (_p : Pfx) (w : W32) : Except Reason Instr :=
  match (w.extractLsb' 6 2).toNat with
  | 0x00 => .ok (.wbind (w.extractLsb' 18 8) (w.extractLsb' 12 6) (w.extractLsb' 4 2))
  | 0x01 => .ok (.wpos (w.extractLsb' 20 6) (w.extractLsb' 4 2))
  | 0x02 => .ok (.wclr (w.extractLsb' 4 2))
  | _ => .error 0x12

def buildOp32 (p : Pfx) (w : W32) : Except Reason Instr :=
  match (w.extractLsb' 19 7).toNat with
  | 0x00 => .ok (.cpy (w.extractLsb' 13 6) (w.extractLsb' 7 6) (w.extractLsb' 1 6) (w.extractLsb' 0 1) p.e)
  | 0x01 => .ok (.cpwait (w.extractLsb' 13 6))
  | 0x02 => .ok (.rsel (w.extractLsb' 13 6) (w.extractLsb' 1 6) (w.extractLsb' 0 1) p.e)
  | _ => .error 0x12

def buildOp33 (p : Pfx) (w : W32) : Except Reason Instr :=
  match (w.extractLsb' 19 7).toNat with
  | 0x00 => .ok (.skcfg (w.extractLsb' 13 6) (w.extractLsb' 1 6) (w.extractLsb' 0 1) p.e)
  | 0x01 => .ok (.skfold (w.extractLsb' 13 6) (w.extractLsb' 7 6) (w.extractLsb' 1 6) (w.extractLsb' 0 1) p.e)
  | 0x02 => .ok (.skmerge (w.extractLsb' 13 6) (w.extractLsb' 1 6) (w.extractLsb' 0 1) p.e)
  | _ => .error 0x12

def buildOp34 (p : Pfx) (w : W32) : Except Reason Instr :=
  match (w.extractLsb' 19 7).toNat with
  | 0x00 => .ok (.tmerge (w.extractLsb' 13 6) (w.extractLsb' 7 6) (w.extractLsb' 1 6) (w.extractLsb' 0 1) p.e)
  | fn => if fn / 64 = 1 then .ok (.bqpost (w.extractLsb' 19 6) (w.extractLsb' 13 6) (w.extractLsb' 7 6) (w.extractLsb' 1 6) (w.extractLsb' 0 1) p.e) else .error 0x12

def buildOp35 (p : Pfx) (w : W32) : Except Reason Instr :=
  match (w.extractLsb' 19 7).toNat with
  | 0x00 => .ok (.rput (w.extractLsb' 13 6) (w.extractLsb' 7 6) (w.extractLsb' 1 6) (w.extractLsb' 0 1) p.e)
  | 0x01 => .ok (.rputSig (w.extractLsb' 13 6) (w.extractLsb' 7 6) (w.extractLsb' 1 6) (w.extractLsb' 0 1) p.e)
  | 0x02 => .ok (.rget (w.extractLsb' 13 6) (w.extractLsb' 7 6) (w.extractLsb' 1 6) (w.extractLsb' 0 1) p.e)
  | 0x03 => .ok (.radd (w.extractLsb' 13 6) (w.extractLsb' 7 6) (w.extractLsb' 1 6) (w.extractLsb' 0 1) p.e)
  | 0x04 => .ok (.rsig (w.extractLsb' 13 6) (w.extractLsb' 7 6) (w.extractLsb' 1 6) (w.extractLsb' 0 1) p.e)
  | _ => .error 0x12

def buildOp36 (p : Pfx) (w : W32) : Except Reason Instr :=
  match (w.extractLsb' 19 7).toNat with
  | 0x00 => .ok (.spawn (w.extractLsb' 13 6) (w.extractLsb' 7 6) (w.extractLsb' 1 6) (w.extractLsb' 0 1) p.e)
  | _ => .error 0x12

def buildOp38 (_p : Pfx) (w : W32) : Except Reason Instr :=
  match (w.extractLsb' 0 8).toNat with
  | 0x00 => .ok (.omap (w.extractLsb' 20 3) (w.extractLsb' 14 6) (w.extractLsb' 8 6))
  | 0x01 => .ok (.omapld (w.extractLsb' 20 3) (w.extractLsb' 14 6))
  | 0x02 => .ok (.mmsk (w.extractLsb' 14 6) (w.extractLsb' 8 6))
  | 0x03 => .ok (.mzero (w.extractLsb' 20 3))
  | _ => .error 0x12

/-- The instruction of a word, by its major opcode (R68). -/
def build (p : Pfx) (w : W32) : Except Reason Instr :=
  match (bits w 26 6).toNat with
  | 0x00 => buildOp00 p w
  | 0x01 => .ok (.sli (w.extractLsb' 20 6) (w.extractLsb' 0 14) p.imm)
  | 0x02 => .ok (.saddImm (w.extractLsb' 20 6) (w.extractLsb' 14 6) (w.extractLsb' 0 14) p.imm)
  | 0x03 => .ok (.sandImm (w.extractLsb' 20 6) (w.extractLsb' 14 6) (w.extractLsb' 0 14) p.imm)
  | 0x04 => buildOp04 p w
  | 0x05 => .ok (.sld (w.extractLsb' 20 6) (w.extractLsb' 14 6) (w.extractLsb' 0 14) p.imm p.memA)
  | 0x06 => .ok (.sst (w.extractLsb' 20 6) (w.extractLsb' 14 6) (w.extractLsb' 0 14) p.imm p.memA)
  | 0x07 => .ok (.rdsys (w.extractLsb' 20 6) (w.extractLsb' 0 14))
  | 0x08 => .ok (.wrsys (w.extractLsb' 14 6) (w.extractLsb' 0 14))
  | 0x09 => .ok (.br (w.extractLsb' 0 19))
  | 0x0A => .ok (.bc (w.extractLsb' 22 4) (w.extractLsb' 19 3) (w.extractLsb' 0 19))
  | 0x0B => .ok (.call (w.extractLsb' 0 19))
  | 0x0C => buildOp0C p w
  | 0x0D => .ok (.pelse (w.extractLsb' 0 19))
  | 0x0E => .ok (.loop (w.extractLsb' 24 2) (w.extractLsb' 19 5) (w.extractLsb' 0 19))
  | 0x0F => buildOp0F p w
  | 0x10 => .ok (.jxt (w.extractLsb' 20 6) (w.extractLsb' 14 6) (w.extractLsb' 8 6) (w.extractLsb' 0 8))
  | 0x11 => buildOp11 p w
  | 0x12 => buildOp12 p w
  | 0x13 => buildOp13 p w
  | 0x14 => buildOp14 p w
  | 0x15 => buildOp15 p w
  | 0x16 => buildOp16 p w
  | 0x17 => buildOp17 p w
  | 0x18 => buildOp18 p w
  | 0x19 => buildOp19 p w
  | 0x1A => .ok (.vselP0P3 (w.extractLsb' 18 8) (w.extractLsb' 10 8) (w.extractLsb' 2 8) (w.extractLsb' 0 2) p.tyP)
  | 0x1B => .ok (.vselP4P7 (w.extractLsb' 18 8) (w.extractLsb' 10 8) (w.extractLsb' 2 8) (w.extractLsb' 0 2) p.tyP)
  | 0x1C => .ok (.vaddImm (w.extractLsb' 18 8) (w.extractLsb' 10 8) (w.extractLsb' 0 10) p.imm p.tyP)
  | 0x1D => .ok (.vmulImm (w.extractLsb' 18 8) (w.extractLsb' 10 8) (w.extractLsb' 0 10) p.imm p.tyP)
  | 0x1E => .ok (.vandImm (w.extractLsb' 18 8) (w.extractLsb' 10 8) (w.extractLsb' 0 10) p.imm p.tyP)
  | 0x1F => buildOp1F p w
  | 0x20 => .ok (.vli (w.extractLsb' 18 8) (w.extractLsb' 0 10) p.imm p.tyP)
  | 0x21 => .ok (.cvt (w.extractLsb' 18 8) (w.extractLsb' 10 8) (w.extractLsb' 0 2) p.tyP)
  | 0x22 => .ok (.shfl (w.extractLsb' 18 8) (w.extractLsb' 10 8) (w.extractLsb' 2 8) (w.extractLsb' 0 2) p.tyP)
  | 0x23 => buildOp23 p w
  | 0x24 => buildOp24 p w
  | 0x25 => buildOp25 p w
  | 0x26 => .ok (.ld (w.extractLsb' 18 8) (w.extractLsb' 10 8) (w.extractLsb' 4 6) (w.extractLsb' 0 4) p.m)
  | 0x27 => .ok (.st (w.extractLsb' 18 8) (w.extractLsb' 10 8) (w.extractLsb' 4 6) (w.extractLsb' 0 4) p.m)
  | 0x28 => .ok (.lds (w.extractLsb' 18 8) (w.extractLsb' 10 8) (w.extractLsb' 4 6) (w.extractLsb' 0 4) p.m)
  | 0x29 => .ok (.sts (w.extractLsb' 18 8) (w.extractLsb' 10 8) (w.extractLsb' 4 6) (w.extractLsb' 0 4) p.m)
  | 0x2A => .ok (.ldm (w.extractLsb' 18 8) (w.extractLsb' 10 8) (w.extractLsb' 4 6) (w.extractLsb' 0 4) p.m)
  | 0x2B => if quantising p then .ok (.stmQuantise (w.extractLsb' 18 8) (w.extractLsb' 4 6) (w.extractLsb' 0 4) p.m)
      else .ok (.stm (w.extractLsb' 18 8) (w.extractLsb' 10 8) (w.extractLsb' 4 6) (w.extractLsb' 0 4) p.m)
  | 0x2C => .ok (.atom (w.extractLsb' 18 8) (w.extractLsb' 10 8) (w.extractLsb' 4 6) (w.extractLsb' 0 4) p.m)
  | 0x2D => .ok (.red (w.extractLsb' 18 8) (w.extractLsb' 10 8) (w.extractLsb' 4 6) (w.extractLsb' 0 4) p.m)
  | 0x2E => .ok (.fence p.m)
  | 0x2F => .ok (.clean (w.extractLsb' 10 6) (w.extractLsb' 4 6) (w.extractLsb' 0 4) p.m)
  | 0x30 => .ok (.inval (w.extractLsb' 10 6) (w.extractLsb' 4 6) (w.extractLsb' 0 4) p.m)
  | 0x31 => .ok (.pref (w.extractLsb' 10 8) (w.extractLsb' 4 6) (w.extractLsb' 0 4) p.m)
  | 0x32 => buildOp32 p w
  | 0x33 => buildOp33 p w
  | 0x34 => buildOp34 p w
  | 0x35 => buildOp35 p w
  | 0x36 => buildOp36 p w
  | 0x37 => .ok (.mma (w.extractLsb' 23 3) (w.extractLsb' 20 3) (w.extractLsb' 17 3) (w.extractLsb' 11 6) (w.extractLsb' 6 5) (w.extractLsb' 2 4) p.evT)
  | 0x38 => buildOp38 p w
  | _ => .error 0x10

/-- Mask and pattern of every word row of the opcode table: the pattern's bits outside the fields, unused fields included. -/
def tableRow : Instr → W32 × W32
  -- reserved bits of a header that are set make its clause malformed (R37), not another word
  | .clauseStart _ _ _ _ _ _ => (0xFC000000, 0xFC000000)
  | .sadd _ _ _ => (0xFC0000FF, 0x00000000)
  | .ssub _ _ _ => (0xFC0000FF, 0x00000001)
  | .smul _ _ _ => (0xFC0000FF, 0x00000002)
  | .smulhI64 _ _ _ => (0xFC0000FF, 0x00000003)
  | .smulhUi64 _ _ _ => (0xFC0000FF, 0x00000004)
  | .sdivI64 _ _ _ => (0xFC0000FF, 0x00000005)
  | .sdivUi64 _ _ _ => (0xFC0000FF, 0x00000006)
  | .sremI64 _ _ _ => (0xFC0000FF, 0x00000007)
  | .sremUi64 _ _ _ => (0xFC0000FF, 0x00000008)
  | .sand _ _ _ => (0xFC0000FF, 0x00000009)
  | .sor _ _ _ => (0xFC0000FF, 0x0000000A)
  | .sxor _ _ _ => (0xFC0000FF, 0x0000000B)
  | .sshl _ _ _ => (0xFC0000FF, 0x0000000C)
  | .sshr _ _ _ => (0xFC0000FF, 0x0000000D)
  | .ssra _ _ _ => (0xFC0000FF, 0x0000000E)
  | .sminI64 _ _ _ => (0xFC0000FF, 0x0000000F)
  | .sminUi64 _ _ _ => (0xFC0000FF, 0x00000010)
  | .smaxI64 _ _ _ => (0xFC0000FF, 0x00000011)
  | .smaxUi64 _ _ _ => (0xFC0000FF, 0x00000012)
  | .sclz _ _ => (0xFC003FFF, 0x00000013)
  | .spopc _ _ => (0xFC003FFF, 0x00000014)
  | .sbrev _ _ => (0xFC003FFF, 0x00000015)
  | .smov _ _ => (0xFC003FFF, 0x00000016)
  | .tick _ => (0xFC0FFFFF, 0x00000017)
  | .ssel _ _ _ => (0xFC0000FF, 0x00000018)
  | .scmp _ _ _ _ => (0xFC0000F0, 0x00000020)
  | .sli _ _ _ => (0xFC0FC000, 0x04000000)
  | .saddImm _ _ _ _ => (0xFC000000, 0x08000000)
  | .sandImm _ _ _ _ => (0xFC000000, 0x0C000000)
  | .sshlImm _ _ _ => (0xFC003FC0, 0x10000000)
  | .sshrImm _ _ _ => (0xFC003FC0, 0x10001000)
  | .ssraImm _ _ _ => (0xFC003FC0, 0x10002000)
  | .sld _ _ _ _ _ => (0xFC000000, 0x14000000)
  | .sst _ _ _ _ _ => (0xFC000000, 0x18000000)
  | .rdsys _ _ => (0xFC0FC000, 0x1C000000)
  | .wrsys _ _ => (0xFFF00000, 0x20000000)
  | .br _ => (0xFFF80000, 0x24000000)
  | .bc _ _ _ => (0xFC000000, 0x28000000)
  | .call _ => (0xFFF80000, 0x2C000000)
  | .pif _ _ => (0xFFC00000, 0x30400000)
  | .pifNot _ _ => (0xFFC00000, 0x30C00000)
  | .pelse _ => (0xFFF80000, 0x34000000)
  | .loop _ _ _ => (0xFC000000, 0x38000000)
  | .nop => (0xFFFFFFFF, 0x3C000000)
  | .ret => (0xFFFFFFFF, 0x3C000001)
  | .pend => (0xFFFFFFFF, 0x3C000002)
  | .lbrk => (0xFFFFFFFF, 0x3C000003)
  | .bar _ => (0xFFF03FFF, 0x3C000004)
  | .barv _ _ => (0xFFF000FF, 0x3C000005)
  | .exit => (0xFFFFFFFF, 0x3C000006)
  | .demote => (0xFFFFFFFF, 0x3C000007)
  | .trap _ => (0xFFF03FFF, 0x3C000008)
  | .rfe => (0xFFFFFFFF, 0x3C000009)
  | .yield => (0xFFFFFFFF, 0x3C00000A)
  | .wait _ => (0xFFF03FFF, 0x3C00000B)
  | .modeVx => (0xFFFFFFFF, 0x3C00000C)
  | .modeMx _ => (0xFC03FFFF, 0x3C00000D)
  | .deck _ => (0xFFF03FFF, 0x3C00000E)
  | .jxt _ _ _ _ => (0xFC000000, 0x40000000)
  | .vadd _ _ _ _ => (0xFC000003, 0x44000000)
  | .vsub _ _ _ _ => (0xFC000003, 0x44000001)
  | .vmul _ _ _ _ => (0xFC000003, 0x44000002)
  | .vmulh _ _ _ _ => (0xFC000003, 0x44000003)
  | .vmad _ _ _ _ => (0xFC000003, 0x48000000)
  | .vand _ _ _ _ => (0xFC000003, 0x48000001)
  | .vor _ _ _ _ => (0xFC000003, 0x48000002)
  | .vxor _ _ _ _ => (0xFC000003, 0x48000003)
  | .vshl _ _ _ _ => (0xFC000003, 0x4C000000)
  | .vshr _ _ _ _ => (0xFC000003, 0x4C000001)
  | .vsra _ _ _ _ => (0xFC000003, 0x4C000002)
  | .vmin _ _ _ _ => (0xFC000003, 0x4C000003)
  | .vmax _ _ _ _ => (0xFC000003, 0x50000000)
  | .fmin _ _ _ _ => (0xFC000003, 0x50000001)
  | .fmax _ _ _ _ => (0xFC000003, 0x50000002)
  | .fcpsgn _ _ _ _ => (0xFC000003, 0x50000003)
  | .fadd _ _ _ _ => (0xFC000003, 0x54000000)
  | .fsub _ _ _ _ => (0xFC000003, 0x54000001)
  | .fmul _ _ _ _ => (0xFC000003, 0x54000002)
  | .ffma _ _ _ _ => (0xFC000003, 0x54000003)
  | .hadd _ _ _ _ => (0xFC000003, 0x58000000)
  | .hmul _ _ _ _ => (0xFC000003, 0x58000001)
  | .hfma _ _ _ _ => (0xFC000003, 0x58000002)
  | .hmin _ _ _ _ => (0xFC000003, 0x58000003)
  | .hmax _ _ _ _ => (0xFC000003, 0x5C000000)
  | .vmov _ _ _ => (0xFC0003FF, 0x60000000)
  | .vnot _ _ _ => (0xFC0003FF, 0x60000004)
  | .vabs _ _ _ => (0xFC0003FF, 0x60000008)
  | .vneg _ _ _ => (0xFC0003FF, 0x6000000C)
  | .vclz _ _ _ => (0xFC0003FF, 0x60000010)
  | .vpopc _ _ _ => (0xFC0003FF, 0x60000014)
  | .vlane _ _ => (0xFC03FFFF, 0x60000018)
  | .vbcast _ _ _ => (0xFC0303FF, 0x6000001C)
  | .fabs _ _ _ => (0xFC0003FF, 0x60000040)
  | .fneg _ _ _ => (0xFC0003FF, 0x60000044)
  | .frnd _ _ _ _ => (0xFC0003FC, 0x60000048)
  | .fclass _ _ _ => (0xFC0003FF, 0x6000004C)
  | .ex2 _ _ _ => (0xFC0003FF, 0x60000080)
  | .lg2 _ _ _ => (0xFC0003FF, 0x60000084)
  | .rcp _ _ _ => (0xFC0003FF, 0x60000088)
  | .rsq _ _ _ => (0xFC0003FF, 0x6000008C)
  | .sin _ _ _ => (0xFC0003FF, 0x60000090)
  | .cos _ _ _ => (0xFC0003FF, 0x60000094)
  | .vcmp _ _ _ _ _ => (0xFC200003, 0x64000000)
  | .fcmp _ _ _ _ _ => (0xFC200003, 0x64000001)
  | .vselP0P3 _ _ _ _ _ => (0xFC000000, 0x68000000)
  | .vselP4P7 _ _ _ _ _ => (0xFC000000, 0x6C000000)
  | .vaddImm _ _ _ _ _ => (0xFC000000, 0x70000000)
  | .vmulImm _ _ _ _ _ => (0xFC000000, 0x74000000)
  | .vandImm _ _ _ _ _ => (0xFC000000, 0x78000000)
  | .vshlImm _ _ _ _ => (0xFC0003E0, 0x7C000000)
  | .vshrImm _ _ _ _ => (0xFC0003E0, 0x7C000100)
  | .vsraImm _ _ _ _ => (0xFC0003E0, 0x7C000200)
  | .vli _ _ _ _ => (0xFC03FC00, 0x80000000)
  | .cvt _ _ _ _ => (0xFC0003FC, 0x84000000)
  | .shfl _ _ _ _ _ => (0xFC000000, 0x88000000)
  | .voteAny _ _ _ _ => (0xFFE3C3FF, 0x8C000000)
  | .voteAll _ _ _ _ => (0xFFE3C3FF, 0x8C000001)
  | .voteBallot _ _ _ _ => (0xFC03C3FF, 0x8C000002)
  | .vred _ _ _ _ => (0xFC000003, 0x90000000)
  | .vscan _ _ _ _ => (0xFC000003, 0x90000001)
  | .wbind _ _ _ => (0xFC000FCF, 0x94000000)
  | .wpos _ _ => (0xFC0FFFCF, 0x94000040)
  | .wclr _ => (0xFFFFFFCF, 0x94000080)
  | .ld _ _ _ _ _ => (0xFC000000, 0x98000000)
  | .st _ _ _ _ _ => (0xFC000000, 0x9C000000)
  | .lds _ _ _ _ _ => (0xFC000000, 0xA0000000)
  | .sts _ _ _ _ _ => (0xFC000000, 0xA4000000)
  | .ldm _ _ _ _ _ => (0xFC000000, 0xA8000000)
  | .stm _ _ _ _ _ => (0xFC000000, 0xAC000000)
  | .stmQuantise _ _ _ _ => (0xFC03FC00, 0xAC000000)
  | .atom _ _ _ _ _ => (0xFC000000, 0xB0000000)
  | .red _ _ _ _ _ => (0xFC000000, 0xB4000000)
  | .fence _ => (0xFFFFFFFF, 0xB8000000)
  | .clean _ _ _ _ => (0xFFFF0000, 0xBC000000)
  | .inval _ _ _ _ => (0xFFFF0000, 0xC0000000)
  | .pref _ _ _ _ => (0xFFFC0000, 0xC4000000)
  | .cpy _ _ _ _ _ => (0xFFF80000, 0xC8000000)
  | .cpwait _ => (0xFFF81FFF, 0xC8080000)
  | .rsel _ _ _ _ => (0xFFF81F80, 0xC8100000)
  | .rput _ _ _ _ _ => (0xFFF80000, 0xD4000000)
  | .rputSig _ _ _ _ _ => (0xFFF80000, 0xD4080000)
  | .rget _ _ _ _ _ => (0xFFF80000, 0xD4100000)
  | .radd _ _ _ _ _ => (0xFFF80000, 0xD4180000)
  | .rsig _ _ _ _ _ => (0xFFF80000, 0xD4200000)
  | .skcfg _ _ _ _ => (0xFFF81F80, 0xCC000000)
  | .skfold _ _ _ _ _ => (0xFFF80000, 0xCC080000)
  | .skmerge _ _ _ _ => (0xFFF81F80, 0xCC100000)
  | .tmerge _ _ _ _ _ => (0xFFF80000, 0xD0000000)
  | .bqpost _ _ _ _ _ _ => (0xFE000000, 0xD2000000)
  | .spawn _ _ _ _ _ => (0xFFF80000, 0xD8000000)
  | .mma _ _ _ _ _ _ _ => (0xFC000003, 0xDC000000)
  | .omap _ _ _ => (0xFF8000FF, 0xE0000000)
  | .omapld _ _ => (0xFF803FFF, 0xE0000001)
  | .mmsk _ _ => (0xFFF000FF, 0xE0000002)
  | .mzero _ => (0xFF8FFFFF, 0xE0000003)
  | _ => (0, 0)

/-- An instruction from its prefix words and its word, refused by the first reason in the order of R85 that needs neither
the warp nor the fields checked later (0x15, 0x1E, 0x1D and 0x1C are raised when the instruction issues). -/
def decodeWord (ps : List W32) (w : W32) : Except Reason Instr :=
  let p := Pfx.ofWords ps
  let mj := (bits w 26 6).toNat
  if 0x39 ≤ mj ∧ mj ≤ 0x3D then .error 0x10
  else if mj = 0x3F then .error 0x11
  else if ps.any (fun x => 6 ≤ pfxKind x) then .error 0x18
  else if !kindsAscend ps then .error 0x17
  else if !pfxAccepted p w then .error 0x19
  else if !pfxRsvOk p then .error 0x1A
  else if !pfxGenericOk p || !op7Ok p w then .error 0x1B
  else match build p w with
    | .error r => .error r
    | .ok i =>
      match earlyReason i with
      | some r => .error r
      | none => if w &&& (tableRow i).1 = (tableRow i).2 then .ok i else .error 0x13

/-- What a decoder can say of a run of bytes: an instruction with the number of words it took, or why there is none. -/
inductive DecodeError where
  /-- The bytes end before an instruction's word. -/
  | truncated
  /-- An illegal word, with the reason of R84. -/
  | illegal (r : Reason)
  deriving DecidableEq, Repr

/-- The words of one instruction inside a clause: prefixes, then its word (R55). -/
def takeInstr : List W32 → Option (List W32 × W32)
  | [] => none
  | w :: r =>
    if isPrefix w then
      match takeInstr r with
      | none => none
      | some (ps, x) => some (w :: ps, x)
    else some ([], w)

/-- The instruction that stands at the head of the words of a clause, and how many words it takes. -/
def decodeInClause (ws : List W32) : Except DecodeError (Instr × Nat) :=
  match takeInstr ws with
  | none => .error .truncated
  | some (ps, w) =>
    match decodeWord ps w with
    | .error r => .error (.illegal r)
    | .ok i => .ok (i, ps.length + 1)

/-- A clause header word (R36). -/
def decodeHeader (w : W32) : Instr :=
  .clauseStart (bits w 22 4) (bits w 18 4) (bits w 12 6) (bits w 11 1) (bits w 10 1) (bits w 0 10)

/-- The decoder over bytes: a header where the first word is one, else an instruction of a clause. -/
def decode (bs : List Byte) : Except DecodeError (Instr × Nat) :=
  match wordsOf bs with
  | [] => .error .truncated
  | w :: r => if isHeader w then .ok (decodeHeader w, 1) else decodeInClause (w :: r)

/-- The instruction the decoder reads from the table's bits: the words little-endian, the first at the lowest address. -/
def decodeTableWord (nbits w : Nat) : Option Instr :=
  let v : BitVec 160 := BitVec.ofNat 160 (w % 2 ^ nbits)
  match decode ((List.range 20).map fun k => bits v (8 * k) 8) with
  | .ok (i, _) => some i
  | .error _ => none

/-! ## The encoder -/

/-- The word of an instruction, its prefixes apart (R36, R44 to R52, R68 to R82). -/
def encodeWord : Instr → W32
  | .clauseStart n p w y s rsv => 0x3F#6 ++ n ++ p ++ w ++ y ++ s ++ rsv
  | .sadd d a b => 0x0#6 ++ d ++ a ++ b ++ 0x0#8
  | .ssub d a b => 0x0#6 ++ d ++ a ++ b ++ 0x1#8
  | .smul d a b => 0x0#6 ++ d ++ a ++ b ++ 0x2#8
  | .smulhI64 d a b => 0x0#6 ++ d ++ a ++ b ++ 0x3#8
  | .smulhUi64 d a b => 0x0#6 ++ d ++ a ++ b ++ 0x4#8
  | .sdivI64 d a b => 0x0#6 ++ d ++ a ++ b ++ 0x5#8
  | .sdivUi64 d a b => 0x0#6 ++ d ++ a ++ b ++ 0x6#8
  | .sremI64 d a b => 0x0#6 ++ d ++ a ++ b ++ 0x7#8
  | .sremUi64 d a b => 0x0#6 ++ d ++ a ++ b ++ 0x8#8
  | .sand d a b => 0x0#6 ++ d ++ a ++ b ++ 0x9#8
  | .sor d a b => 0x0#6 ++ d ++ a ++ b ++ 0xA#8
  | .sxor d a b => 0x0#6 ++ d ++ a ++ b ++ 0xB#8
  | .sshl d a b => 0x0#6 ++ d ++ a ++ b ++ 0xC#8
  | .sshr d a b => 0x0#6 ++ d ++ a ++ b ++ 0xD#8
  | .ssra d a b => 0x0#6 ++ d ++ a ++ b ++ 0xE#8
  | .sminI64 d a b => 0x0#6 ++ d ++ a ++ b ++ 0xF#8
  | .sminUi64 d a b => 0x0#6 ++ d ++ a ++ b ++ 0x10#8
  | .smaxI64 d a b => 0x0#6 ++ d ++ a ++ b ++ 0x11#8
  | .smaxUi64 d a b => 0x0#6 ++ d ++ a ++ b ++ 0x12#8
  | .sclz d a => 0x0#6 ++ d ++ a ++ 0x13#14
  | .spopc d a => 0x0#6 ++ d ++ a ++ 0x14#14
  | .sbrev d a => 0x0#6 ++ d ++ a ++ 0x15#14
  | .smov d a => 0x0#6 ++ d ++ a ++ 0x16#14
  | .tick d => 0x0#6 ++ d ++ 0x17#20
  | .ssel d a b => 0x0#6 ++ d ++ a ++ b ++ 0x18#8
  | .scmp d a b c => 0x0#6 ++ d ++ a ++ b ++ 0x2#4 ++ c
  | .sli d i _ => 0x1#6 ++ d ++ 0x0#6 ++ i
  | .saddImm d a i _ => 0x2#6 ++ d ++ a ++ i
  | .sandImm d a i _ => 0x3#6 ++ d ++ a ++ i
  | .sshlImm d a n => 0x4#6 ++ d ++ a ++ 0x0#8 ++ n
  | .sshrImm d a n => 0x4#6 ++ d ++ a ++ 0x40#8 ++ n
  | .ssraImm d a n => 0x4#6 ++ d ++ a ++ 0x80#8 ++ n
  | .sld d a i _ _ => 0x5#6 ++ d ++ a ++ i
  | .sst d a i _ _ => 0x6#6 ++ d ++ a ++ i
  | .rdsys d n => 0x7#6 ++ d ++ 0x0#6 ++ n
  | .wrsys a n => 0x8#6 ++ 0x0#6 ++ a ++ n
  | .br o => 0x9#6 ++ 0x0#7 ++ o
  | .bc c p o => 0xA#6 ++ c ++ p ++ o
  | .call o => 0xB#6 ++ 0x0#7 ++ o
  | .pif p o => 0xC#6 ++ 0x1#4 ++ p ++ o
  | .pifNot p o => 0xC#6 ++ 0x3#4 ++ p ++ o
  | .pelse o => 0xD#6 ++ 0x0#7 ++ o
  | .loop l k o => 0xE#6 ++ l ++ k ++ o
  | .nop => 0xF#6 ++ 0x0#26
  | .ret => 0xF#6 ++ 0x1#26
  | .pend => 0xF#6 ++ 0x2#26
  | .lbrk => 0xF#6 ++ 0x3#26
  | .bar n => 0xF#6 ++ 0x0#6 ++ n ++ 0x4#14
  | .barv n b => 0xF#6 ++ 0x0#6 ++ n ++ b ++ 0x5#8
  | .exit => 0xF#6 ++ 0x6#26
  | .demote => 0xF#6 ++ 0x7#26
  | .trap n => 0xF#6 ++ 0x0#6 ++ n ++ 0x8#14
  | .rfe => 0xF#6 ++ 0x9#26
  | .yield => 0xF#6 ++ 0xA#26
  | .wait n => 0xF#6 ++ 0x0#6 ++ n ++ 0xB#14
  | .modeVx => 0xF#6 ++ 0xC#26
  | .modeMx c => 0xF#6 ++ c ++ 0xD#18
  | .deck c => 0xF#6 ++ 0x0#6 ++ c ++ 0xE#14
  | .jxt t n j i => 0x10#6 ++ t ++ n ++ j ++ i
  | .vadd d a b _ => 0x11#6 ++ d ++ a ++ b ++ 0x0#2
  | .vsub d a b _ => 0x11#6 ++ d ++ a ++ b ++ 0x1#2
  | .vmul d a b _ => 0x11#6 ++ d ++ a ++ b ++ 0x2#2
  | .vmulh d a b _ => 0x11#6 ++ d ++ a ++ b ++ 0x3#2
  | .vmad d a b _ => 0x12#6 ++ d ++ a ++ b ++ 0x0#2
  | .vand d a b _ => 0x12#6 ++ d ++ a ++ b ++ 0x1#2
  | .vor d a b _ => 0x12#6 ++ d ++ a ++ b ++ 0x2#2
  | .vxor d a b _ => 0x12#6 ++ d ++ a ++ b ++ 0x3#2
  | .vshl d a b _ => 0x13#6 ++ d ++ a ++ b ++ 0x0#2
  | .vshr d a b _ => 0x13#6 ++ d ++ a ++ b ++ 0x1#2
  | .vsra d a b _ => 0x13#6 ++ d ++ a ++ b ++ 0x2#2
  | .vmin d a b _ => 0x13#6 ++ d ++ a ++ b ++ 0x3#2
  | .vmax d a b _ => 0x14#6 ++ d ++ a ++ b ++ 0x0#2
  | .fmin d a b _ => 0x14#6 ++ d ++ a ++ b ++ 0x1#2
  | .fmax d a b _ => 0x14#6 ++ d ++ a ++ b ++ 0x2#2
  | .fcpsgn d a b _ => 0x14#6 ++ d ++ a ++ b ++ 0x3#2
  | .fadd d a b _ => 0x15#6 ++ d ++ a ++ b ++ 0x0#2
  | .fsub d a b _ => 0x15#6 ++ d ++ a ++ b ++ 0x1#2
  | .fmul d a b _ => 0x15#6 ++ d ++ a ++ b ++ 0x2#2
  | .ffma d a b _ => 0x15#6 ++ d ++ a ++ b ++ 0x3#2
  | .hadd d a b _ => 0x16#6 ++ d ++ a ++ b ++ 0x0#2
  | .hmul d a b _ => 0x16#6 ++ d ++ a ++ b ++ 0x1#2
  | .hfma d a b _ => 0x16#6 ++ d ++ a ++ b ++ 0x2#2
  | .hmin d a b _ => 0x16#6 ++ d ++ a ++ b ++ 0x3#2
  | .hmax d a b _ => 0x17#6 ++ d ++ a ++ b ++ 0x0#2
  | .vmov d a _ => 0x18#6 ++ d ++ a ++ 0x0#10
  | .vnot d a _ => 0x18#6 ++ d ++ a ++ 0x4#10
  | .vabs d a _ => 0x18#6 ++ d ++ a ++ 0x8#10
  | .vneg d a _ => 0x18#6 ++ d ++ a ++ 0xC#10
  | .vclz d a _ => 0x18#6 ++ d ++ a ++ 0x10#10
  | .vpopc d a _ => 0x18#6 ++ d ++ a ++ 0x14#10
  | .vlane d _ => 0x18#6 ++ d ++ 0x18#18
  | .vbcast d s _ => 0x18#6 ++ d ++ 0x0#2 ++ s ++ 0x1C#10
  | .fabs d a _ => 0x18#6 ++ d ++ a ++ 0x40#10
  | .fneg d a _ => 0x18#6 ++ d ++ a ++ 0x44#10
  | .frnd d a r _ => 0x18#6 ++ d ++ a ++ 0x12#8 ++ r
  | .fclass d a _ => 0x18#6 ++ d ++ a ++ 0x4C#10
  | .ex2 d a _ => 0x18#6 ++ d ++ a ++ 0x80#10
  | .lg2 d a _ => 0x18#6 ++ d ++ a ++ 0x84#10
  | .rcp d a _ => 0x18#6 ++ d ++ a ++ 0x88#10
  | .rsq d a _ => 0x18#6 ++ d ++ a ++ 0x8C#10
  | .sin d a _ => 0x18#6 ++ d ++ a ++ 0x90#10
  | .cos d a _ => 0x18#6 ++ d ++ a ++ 0x94#10
  | .vcmp c p a b _ => 0x19#6 ++ c ++ 0x0#1 ++ p ++ a ++ b ++ 0x0#2
  | .fcmp c p a b _ => 0x19#6 ++ c ++ 0x0#1 ++ p ++ a ++ b ++ 0x1#2
  | .vselP0P3 d a b p _ => 0x1A#6 ++ d ++ a ++ b ++ p
  | .vselP4P7 d a b p _ => 0x1B#6 ++ d ++ a ++ b ++ p
  | .vaddImm d a i _ _ => 0x1C#6 ++ d ++ a ++ i
  | .vmulImm d a i _ _ => 0x1D#6 ++ d ++ a ++ i
  | .vandImm d a i _ _ => 0x1E#6 ++ d ++ a ++ i
  | .vshlImm d a n _ => 0x1F#6 ++ d ++ a ++ 0x0#5 ++ n
  | .vshrImm d a n _ => 0x1F#6 ++ d ++ a ++ 0x8#5 ++ n
  | .vsraImm d a n _ => 0x1F#6 ++ d ++ a ++ 0x10#5 ++ n
  | .vli d i _ _ => 0x20#6 ++ d ++ 0x0#8 ++ i
  | .cvt d a r _ => 0x21#6 ++ d ++ a ++ 0x0#8 ++ r
  | .shfl d a b m _ => 0x22#6 ++ d ++ a ++ b ++ m
  | .voteAny d c s _ => 0x23#6 ++ 0x0#5 ++ d ++ 0x0#4 ++ c ++ s ++ 0x0#10
  | .voteAll d c s _ => 0x23#6 ++ 0x0#5 ++ d ++ 0x0#4 ++ c ++ s ++ 0x1#10
  | .voteBallot d c s _ => 0x23#6 ++ d ++ 0x0#4 ++ c ++ s ++ 0x2#10
  | .vred d a o _ => 0x24#6 ++ d ++ a ++ o ++ 0x0#2
  | .vscan d a o _ => 0x24#6 ++ d ++ a ++ o ++ 0x1#2
  | .wbind v a w => 0x25#6 ++ v ++ a ++ 0x0#6 ++ w ++ 0x0#4
  | .wpos d w => 0x25#6 ++ d ++ 0x1#14 ++ w ++ 0x0#4
  | .wclr w => 0x25#6 ++ 0x2#20 ++ w ++ 0x0#4
  | .ld t o b l _ => 0x26#6 ++ t ++ o ++ b ++ l
  | .st t o b l _ => 0x27#6 ++ t ++ o ++ b ++ l
  | .lds t o b l _ => 0x28#6 ++ t ++ o ++ b ++ l
  | .sts t o b l _ => 0x29#6 ++ t ++ o ++ b ++ l
  | .ldm t o b l _ => 0x2A#6 ++ t ++ o ++ b ++ l
  | .stm t o b l _ => 0x2B#6 ++ t ++ o ++ b ++ l
  | .stmQuantise t b l _ => 0x2B#6 ++ t ++ 0x0#8 ++ b ++ l
  | .atom t o b l _ => 0x2C#6 ++ t ++ o ++ b ++ l
  | .red t o b l _ => 0x2D#6 ++ t ++ o ++ b ++ l
  | .fence _ => 0x2E#6 ++ 0x0#26
  | .clean n b k _ => 0x2F#6 ++ 0x0#10 ++ n ++ b ++ k
  | .inval n b k _ => 0x30#6 ++ 0x0#10 ++ n ++ b ++ k
  | .pref o b l _ => 0x31#6 ++ 0x0#8 ++ o ++ b ++ l
  | .cpy a b d r _ => 0x32#6 ++ 0x0#7 ++ a ++ b ++ d ++ r
  | .cpwait n => 0x32#6 ++ 0x1#7 ++ n ++ 0x0#13
  | .rsel a d r _ => 0x32#6 ++ 0x2#7 ++ a ++ 0x0#6 ++ d ++ r
  | .rput a b d r _ => 0x35#6 ++ 0x0#7 ++ a ++ b ++ d ++ r
  | .rputSig a b d r _ => 0x35#6 ++ 0x1#7 ++ a ++ b ++ d ++ r
  | .rget a b d r _ => 0x35#6 ++ 0x2#7 ++ a ++ b ++ d ++ r
  | .radd a b d r _ => 0x35#6 ++ 0x3#7 ++ a ++ b ++ d ++ r
  | .rsig a b d r _ => 0x35#6 ++ 0x4#7 ++ a ++ b ++ d ++ r
  | .skcfg a d r _ => 0x33#6 ++ 0x0#7 ++ a ++ 0x0#6 ++ d ++ r
  | .skfold a b d r _ => 0x33#6 ++ 0x1#7 ++ a ++ b ++ d ++ r
  | .skmerge a d r _ => 0x33#6 ++ 0x2#7 ++ a ++ 0x0#6 ++ d ++ r
  | .tmerge a b d r _ => 0x34#6 ++ 0x0#7 ++ a ++ b ++ d ++ r
  | .bqpost j a b d r _ => 0x34#6 ++ 0x1#1 ++ j ++ a ++ b ++ d ++ r
  | .spawn a b d r _ => 0x36#6 ++ 0x0#7 ++ a ++ b ++ d ++ r
  | .mma c m n k f l _ => 0x37#6 ++ c ++ m ++ n ++ k ++ f ++ l ++ 0x0#2
  | .omap m a b => 0x38#6 ++ 0x0#3 ++ m ++ a ++ b ++ 0x0#8
  | .omapld m a => 0x38#6 ++ 0x0#3 ++ m ++ a ++ 0x1#14
  | .mmsk a b => 0x38#6 ++ 0x0#6 ++ a ++ b ++ 0x2#8
  | .mzero t => 0x38#6 ++ 0x0#3 ++ t ++ 0x3#20
  | _ => 0

/-- A prefix word (R43). -/
def pfxWord (kind : BitVec 3) (v : BitVec 23) : W32 := 0x3E#6 ++ kind ++ v
def immWords (x : ImmPfx) : List W32 := (x.map (pfxWord 0)).toList
def attrPayload (m : MemAttr) : BitVec 23 := m.order ++ m.scope ++ m.policy ++ m.fmt ++ m.op7 ++ 0#3
def attrWords (m : Option MemAttr) : List W32 := (m.map fun a => pfxWord 2 (attrPayload a)).toList
def evWords (e : Option (BitVec 3)) : List W32 := (e.map fun t => pfxWord 3 (t ++ 0#20)).toList
def peerWords (e : Option (BitVec 6)) : List W32 := (e.map fun r => pfxWord 4 (r ++ 0#17)).toList
def tyWords (t : Option TyPfx) : List W32 := (t.map fun p => pfxWord 5 (p.fa ++ p.fb ++ 0#13)).toList
def mWords (x : MPfx) : List W32 := (x.off.map (pfxWord 1)).toList ++ attrWords x.mem ++ evWords x.ev
def eWords (x : EPfx) : List W32 := attrWords x.mem ++ evWords x.ev ++ peerWords x.peer

/-- The prefix words of an instruction, in ascending order of kind (R55). -/
def prefixWords : Instr → List W32
  | .sli _ _ x => immWords x
  | .saddImm _ _ _ x => immWords x
  | .sandImm _ _ _ x => immWords x
  | .sld _ _ _ x m => immWords x ++ attrWords m
  | .sst _ _ _ x m => immWords x ++ attrWords m
  | .vadd _ _ _ t => tyWords t
  | .vsub _ _ _ t => tyWords t
  | .vmul _ _ _ t => tyWords t
  | .vmulh _ _ _ t => tyWords t
  | .vmad _ _ _ t => tyWords t
  | .vand _ _ _ t => tyWords t
  | .vor _ _ _ t => tyWords t
  | .vxor _ _ _ t => tyWords t
  | .vshl _ _ _ t => tyWords t
  | .vshr _ _ _ t => tyWords t
  | .vsra _ _ _ t => tyWords t
  | .vmin _ _ _ t => tyWords t
  | .vmax _ _ _ t => tyWords t
  | .fmin _ _ _ t => tyWords t
  | .fmax _ _ _ t => tyWords t
  | .fcpsgn _ _ _ t => tyWords t
  | .fadd _ _ _ t => tyWords t
  | .fsub _ _ _ t => tyWords t
  | .fmul _ _ _ t => tyWords t
  | .ffma _ _ _ t => tyWords t
  | .hadd _ _ _ t => tyWords t
  | .hmul _ _ _ t => tyWords t
  | .hfma _ _ _ t => tyWords t
  | .hmin _ _ _ t => tyWords t
  | .hmax _ _ _ t => tyWords t
  | .vmov _ _ t => tyWords t
  | .vnot _ _ t => tyWords t
  | .vabs _ _ t => tyWords t
  | .vneg _ _ t => tyWords t
  | .vclz _ _ t => tyWords t
  | .vpopc _ _ t => tyWords t
  | .vlane _ t => tyWords t
  | .vbcast _ _ t => tyWords t
  | .fabs _ _ t => tyWords t
  | .fneg _ _ t => tyWords t
  | .frnd _ _ _ t => tyWords t
  | .fclass _ _ t => tyWords t
  | .ex2 _ _ t => tyWords t
  | .lg2 _ _ t => tyWords t
  | .rcp _ _ t => tyWords t
  | .rsq _ _ t => tyWords t
  | .sin _ _ t => tyWords t
  | .cos _ _ t => tyWords t
  | .vcmp _ _ _ _ t => tyWords t
  | .fcmp _ _ _ _ t => tyWords t
  | .vselP0P3 _ _ _ _ t => tyWords t
  | .vselP4P7 _ _ _ _ t => tyWords t
  | .vaddImm _ _ _ x t => immWords x ++ tyWords t
  | .vmulImm _ _ _ x t => immWords x ++ tyWords t
  | .vandImm _ _ _ x t => immWords x ++ tyWords t
  | .vshlImm _ _ _ t => tyWords t
  | .vshrImm _ _ _ t => tyWords t
  | .vsraImm _ _ _ t => tyWords t
  | .vli _ _ x t => immWords x ++ tyWords t
  | .cvt _ _ _ t => tyWords t
  | .shfl _ _ _ _ t => tyWords t
  | .voteAny _ _ _ t => tyWords t
  | .voteAll _ _ _ t => tyWords t
  | .voteBallot _ _ _ t => tyWords t
  | .vred _ _ _ t => tyWords t
  | .vscan _ _ _ t => tyWords t
  | .ld _ _ _ _ x => mWords x
  | .st _ _ _ _ x => mWords x
  | .lds _ _ _ _ x => mWords x
  | .sts _ _ _ _ x => mWords x
  | .ldm _ _ _ _ x => mWords x
  | .stm _ _ _ _ x => mWords x
  | .stmQuantise _ _ _ x => mWords x
  | .atom _ _ _ _ x => mWords x
  | .red _ _ _ _ x => mWords x
  | .fence x => mWords x
  | .clean _ _ _ x => mWords x
  | .inval _ _ _ x => mWords x
  | .pref _ _ _ x => mWords x
  | .cpy _ _ _ _ x => eWords x
  | .rsel _ _ _ x => eWords x
  | .rput _ _ _ _ x => eWords x
  | .rputSig _ _ _ _ x => eWords x
  | .rget _ _ _ _ x => eWords x
  | .radd _ _ _ _ x => eWords x
  | .rsig _ _ _ _ x => eWords x
  | .skcfg _ _ _ x => eWords x
  | .skfold _ _ _ _ x => eWords x
  | .skmerge _ _ _ x => eWords x
  | .tmerge _ _ _ _ x => eWords x
  | .bqpost _ _ _ _ _ x => eWords x
  | .spawn _ _ _ _ x => eWords x
  | .mma _ _ _ _ _ _ ev => evWords ev
  | _ => []

/-- The words of an instruction: its prefixes, then its word. -/
def encode (i : Instr) : List W32 := prefixWords i ++ [encodeWord i]

/-- The rows of the opcode table that are words. -/
def isWord : Instr → Bool
  | .clauseStart _ _ _ _ _ _ => true
  | .sadd _ _ _ => true
  | .ssub _ _ _ => true
  | .smul _ _ _ => true
  | .smulhI64 _ _ _ => true
  | .smulhUi64 _ _ _ => true
  | .sdivI64 _ _ _ => true
  | .sdivUi64 _ _ _ => true
  | .sremI64 _ _ _ => true
  | .sremUi64 _ _ _ => true
  | .sand _ _ _ => true
  | .sor _ _ _ => true
  | .sxor _ _ _ => true
  | .sshl _ _ _ => true
  | .sshr _ _ _ => true
  | .ssra _ _ _ => true
  | .sminI64 _ _ _ => true
  | .sminUi64 _ _ _ => true
  | .smaxI64 _ _ _ => true
  | .smaxUi64 _ _ _ => true
  | .sclz _ _ => true
  | .spopc _ _ => true
  | .sbrev _ _ => true
  | .smov _ _ => true
  | .tick _ => true
  | .ssel _ _ _ => true
  | .scmp _ _ _ _ => true
  | .sli _ _ _ => true
  | .saddImm _ _ _ _ => true
  | .sandImm _ _ _ _ => true
  | .sshlImm _ _ _ => true
  | .sshrImm _ _ _ => true
  | .ssraImm _ _ _ => true
  | .sld _ _ _ _ _ => true
  | .sst _ _ _ _ _ => true
  | .rdsys _ _ => true
  | .wrsys _ _ => true
  | .br _ => true
  | .bc _ _ _ => true
  | .call _ => true
  | .pif _ _ => true
  | .pifNot _ _ => true
  | .pelse _ => true
  | .loop _ _ _ => true
  | .nop => true
  | .ret => true
  | .pend => true
  | .lbrk => true
  | .bar _ => true
  | .barv _ _ => true
  | .exit => true
  | .demote => true
  | .trap _ => true
  | .rfe => true
  | .yield => true
  | .wait _ => true
  | .modeVx => true
  | .modeMx _ => true
  | .deck _ => true
  | .jxt _ _ _ _ => true
  | .vadd _ _ _ _ => true
  | .vsub _ _ _ _ => true
  | .vmul _ _ _ _ => true
  | .vmulh _ _ _ _ => true
  | .vmad _ _ _ _ => true
  | .vand _ _ _ _ => true
  | .vor _ _ _ _ => true
  | .vxor _ _ _ _ => true
  | .vshl _ _ _ _ => true
  | .vshr _ _ _ _ => true
  | .vsra _ _ _ _ => true
  | .vmin _ _ _ _ => true
  | .vmax _ _ _ _ => true
  | .fmin _ _ _ _ => true
  | .fmax _ _ _ _ => true
  | .fcpsgn _ _ _ _ => true
  | .fadd _ _ _ _ => true
  | .fsub _ _ _ _ => true
  | .fmul _ _ _ _ => true
  | .ffma _ _ _ _ => true
  | .hadd _ _ _ _ => true
  | .hmul _ _ _ _ => true
  | .hfma _ _ _ _ => true
  | .hmin _ _ _ _ => true
  | .hmax _ _ _ _ => true
  | .vmov _ _ _ => true
  | .vnot _ _ _ => true
  | .vabs _ _ _ => true
  | .vneg _ _ _ => true
  | .vclz _ _ _ => true
  | .vpopc _ _ _ => true
  | .vlane _ _ => true
  | .vbcast _ _ _ => true
  | .fabs _ _ _ => true
  | .fneg _ _ _ => true
  | .frnd _ _ _ _ => true
  | .fclass _ _ _ => true
  | .ex2 _ _ _ => true
  | .lg2 _ _ _ => true
  | .rcp _ _ _ => true
  | .rsq _ _ _ => true
  | .sin _ _ _ => true
  | .cos _ _ _ => true
  | .vcmp _ _ _ _ _ => true
  | .fcmp _ _ _ _ _ => true
  | .vselP0P3 _ _ _ _ _ => true
  | .vselP4P7 _ _ _ _ _ => true
  | .vaddImm _ _ _ _ _ => true
  | .vmulImm _ _ _ _ _ => true
  | .vandImm _ _ _ _ _ => true
  | .vshlImm _ _ _ _ => true
  | .vshrImm _ _ _ _ => true
  | .vsraImm _ _ _ _ => true
  | .vli _ _ _ _ => true
  | .cvt _ _ _ _ => true
  | .shfl _ _ _ _ _ => true
  | .voteAny _ _ _ _ => true
  | .voteAll _ _ _ _ => true
  | .voteBallot _ _ _ _ => true
  | .vred _ _ _ _ => true
  | .vscan _ _ _ _ => true
  | .wbind _ _ _ => true
  | .wpos _ _ => true
  | .wclr _ => true
  | .ld _ _ _ _ _ => true
  | .st _ _ _ _ _ => true
  | .lds _ _ _ _ _ => true
  | .sts _ _ _ _ _ => true
  | .ldm _ _ _ _ _ => true
  | .stm _ _ _ _ _ => true
  | .stmQuantise _ _ _ _ => true
  | .atom _ _ _ _ _ => true
  | .red _ _ _ _ _ => true
  | .fence _ => true
  | .clean _ _ _ _ => true
  | .inval _ _ _ _ => true
  | .pref _ _ _ _ => true
  | .cpy _ _ _ _ _ => true
  | .cpwait _ => true
  | .rsel _ _ _ _ => true
  | .rput _ _ _ _ _ => true
  | .rputSig _ _ _ _ _ => true
  | .rget _ _ _ _ _ => true
  | .radd _ _ _ _ _ => true
  | .rsig _ _ _ _ _ => true
  | .skcfg _ _ _ _ => true
  | .skfold _ _ _ _ _ => true
  | .skmerge _ _ _ _ => true
  | .tmerge _ _ _ _ _ => true
  | .bqpost _ _ _ _ _ _ => true
  | .spawn _ _ _ _ _ => true
  | .mma _ _ _ _ _ _ _ => true
  | .omap _ _ _ => true
  | .omapld _ _ => true
  | .mmsk _ _ => true
  | .mzero _ => true
  | _ => false

end Sys2Proof
end

