-- ==== Sys2Proof/Machine/Fp.lean ====
section
/-! DEFINITION. The number formats of spec/04: decoding (R88 to R97), rounding onto a format with its flags (R100, R101),
and the exact arithmetic that FP32, packed BF16, the matrix cells and the vat units share (R103, R104). A finite value is
a sign, a natural mantissa and a binary exponent, so every operation is exact before it is rounded once. -/

namespace Sys2Proof.Machine

/-- A floating-point value: NaN, an infinity by sign, or (−1)^s · m · 2^e. -/
inductive FVal where
  | nan
  | inf (s : Bool)
  | fin (s : Bool) (m : Nat) (e : Int)
  deriving DecidableEq, Repr

/-- The roundings of R214 and R218, in the order of their codes. -/
inductive Rnd where
  | rne | rz | rd | ru
  deriving DecidableEq, Repr

/-- The sticky flags of FPST (R106). -/
abbrev Flags := BitVec 6
def fNX : Flags := 1
def fUF : Flags := 2
def fOF : Flags := 4
def fDZ : Flags := 8
def fNV : Flags := 16
def fEM : Flags := 32

/-- A binary format: fraction bits, bias, largest finite value as mantissa and exponent (R98). -/
structure FFmt where
  frac : Nat
  bias : Int
  maxM : Nat
  maxE : Int
  deriving DecidableEq, Repr

def fmt32 : FFmt := ⟨23, 127, 2 ^ 24 - 1, 104⟩
def fmtB16 : FFmt := ⟨7, 127, 255, 120⟩
def fmtE4M3 : FFmt := ⟨3, 7, 14, 5⟩
def fmtE5M2 : FFmt := ⟨2, 15, 7, 13⟩
def fmtE2M1 : FFmt := ⟨1, 1, 3, 1⟩

/-- Exponent of the spacing of a format's subnormals. -/
def FFmt.low (f : FFmt) : Int := 1 - f.bias - f.frac

/-! Decoding -/

/-- The value of the bits of a format whose top exponent holds infinities and NaNs (R88, R89, R94). -/
def decIeee (frac ebits : Nat) (bias : Int) (b : Nat) : FVal :=
  let m := b % 2 ^ frac
  let e := b / 2 ^ frac % 2 ^ ebits
  let s := b / 2 ^ (frac + ebits) % 2 = 1
  if e = 2 ^ ebits - 1 then (if m = 0 then .inf s else .nan)
  else if e = 0 then .fin s m (1 - bias - frac)
  else .fin s (2 ^ frac + m) (e - bias - frac)

def dec32 (b : W32) : FVal := decIeee 23 8 127 b.toNat
def decB16 (b : BitVec 16) : FVal := decIeee 7 8 127 b.toNat
def decE5M2 (b : Byte) : FVal := decIeee 2 5 15 b.toNat

/-- E4M3 (R93). -/
def decE4M3 (b : Byte) : FVal :=
  let n := b.toNat
  let m := n % 8
  let e := n / 8 % 16
  let s := n / 128 = 1
  if e = 15 ∧ m = 7 then .nan
  else if e = 0 then .fin s m (-9)
  else .fin s (8 + m) ((e : Int) - 10)

/-- E2M1 (R95), from the low four bits. -/
def decE2M1 (n : Nat) : FVal :=
  let m := n % 2
  let e := n / 2 % 4
  let s := n / 8 % 2 = 1
  if e = 0 then .fin s m (-1) else .fin s (2 + m) ((e : Int) - 2)

/-- An integer as a value; zero is +0. -/
def ofInt (i : Int) : FVal := .fin (i < 0) i.natAbs 0

/-- INT8 (R96). -/
def decI8 (b : Byte) : FVal := ofInt b.toInt

/-- One term of DS8 in sixty-fourths (R97). -/
def ds8Term (s : Bool) (a : Nat) : Int :=
  if a = 7 then 0 else if s then -(2 ^ (6 - a) : Int) else 2 ^ (6 - a)

/-- DS8 (R97). -/
def decDs8 (b : Byte) : FVal :=
  let n := b.toNat
  let v := ds8Term (n / 128 = 1) (n / 16 % 8) + ds8Term (n / 8 % 2 = 1) (n % 8)
  .fin (v < 0) v.natAbs (-6)

/-! Rounding -/

/-- Whether the kept part rises by one, from the discarded part `r` of `2^k` (R100). -/
def roundUp (rnd : Rnd) (s : Bool) (q r k : Nat) : Bool :=
  match rnd with
  | .rne => 2 * r > 2 ^ k || (2 * r == 2 ^ k && q % 2 == 1)
  | .rz => false
  | .rd => s && r ≠ 0
  | .ru => !s && r ≠ 0

/-- m · 2^e with its mantissa cut so that the exponent is at least `t`: the new mantissa, exponent, and inexactness. -/
def roundAt (rnd : Rnd) (s : Bool) (m : Nat) (e t : Int) : Nat × Int × Bool :=
  if t ≤ e then (m, e, false)
  else
    let k := (t - e).toNat
    let q := m / 2 ^ k
    let r := m % 2 ^ k
    (if roundUp rnd s q r k then q + 1 else q, t, r ≠ 0)

/-- Step 1 of R100: rounding onto the grid of a format without upper limit. -/
def roundGrid (f : FFmt) (rnd : Rnd) (s : Bool) (m : Nat) (e : Int) : Nat × Int × Bool :=
  roundAt rnd s m e (max (e + (Nat.log2 m : Int) - f.frac) f.low)

/-- m1 · 2^e1 > m2 · 2^e2. -/
def magGt (m1 : Nat) (e1 : Int) (m2 : Nat) (e2 : Int) : Bool :=
  let e := min e1 e2
  m1 * 2 ^ (e1 - e).toNat > m2 * 2 ^ (e2 - e).toNat

/-- The bits of a magnitude that lies on a format's grid, without its sign. -/
def packMag (f : FFmt) (m : Nat) (e : Int) : Nat :=
  if m = 0 then 0
  else
    let l := Nat.log2 m
    let x := e + (l : Int)
    if x < 1 - f.bias then m * 2 ^ (e - f.low).toNat
    else
      let frac := if f.frac ≤ l then m / 2 ^ (l - f.frac) else m * 2 ^ (f.frac - l)
      (x + f.bias).toNat * 2 ^ f.frac + (frac - 2 ^ f.frac)

/-- The flags of R100 for a nonzero source and its rounded result. -/
def roundFlags (f : FFmt) (m : Nat) (e : Int) (inexact : Bool) : Flags :=
  if inexact then
    (if m ≠ 0 ∧ e + (Nat.log2 m : Int) < 1 - f.bias then fUF ||| fNX else fNX)
  else 0

/-- Whether overflow under this rounding gives an infinity (IEEE 754). -/
def overInf (rnd : Rnd) (s : Bool) : Bool :=
  match rnd with
  | .rne => true
  | .rz => false
  | .rd => s
  | .ru => !s

/-- Round to FP32 or BF16: bits below the sign, sign, flags (R101, R103). -/
def roundIeee (f : FFmt) (rnd : Rnd) (v : FVal) : Nat × Bool × Flags :=
  let infBits := packMag f 1 (f.maxE + f.frac + 1)
  match v with
  | .nan => (infBits + 2 ^ (f.frac - 1), false, 0)
  | .inf s => (infBits, s, 0)
  | .fin s m e =>
    let r := roundGrid f rnd s m e
    if magGt r.1 r.2.1 f.maxM f.maxE then
      (if overInf rnd s then infBits else packMag f f.maxM f.maxE, s, fOF ||| fNX)
    else (packMag f r.1 r.2.1, s, roundFlags f m e r.2.2)

def round32 (rnd : Rnd) (v : FVal) : W32 × Flags :=
  let r := roundIeee fmt32 rnd v
  (BitVec.ofNat 32 (r.1 + (if r.2.1 then 2 ^ 31 else 0)), r.2.2)

def roundB16 (rnd : Rnd) (v : FVal) : BitVec 16 × Flags :=
  let r := roundIeee fmtB16 rnd v
  (BitVec.ofNat 16 (r.1 + (if r.2.1 then 2 ^ 15 else 0)), r.2.2)

/-- Round to a saturating format (R101): the code without its sign, the sign and the flags. -/
def roundSat (f : FFmt) (s : Bool) (m : Nat) (e : Int) : Nat × Flags :=
  let r := roundGrid f .rne s m e
  if magGt r.1 r.2.1 f.maxM f.maxE then (packMag f f.maxM f.maxE, fOF ||| fNX)
  else (packMag f r.1 r.2.1, roundFlags f m e r.2.2)

def toE4M3 (v : FVal) : Nat × Flags :=
  match v with
  | .nan => (0x7F, 0)
  | .inf s => (if s then 0xFE else 0x7E, fOF ||| fNX)
  | .fin s m e => let r := roundSat fmtE4M3 s m e; (r.1 + (if s then 128 else 0), r.2)

def toE5M2 (v : FVal) : Nat × Flags :=
  match v with
  | .nan => (0x7E, 0)
  | .inf s => (if s then 0xFC else 0x7C, 0)
  | .fin s m e => let r := roundSat fmtE5M2 s m e; (r.1 + (if s then 128 else 0), r.2)

def toE2M1 (v : FVal) : Nat × Flags :=
  match v with
  | .nan => (0, fNV)
  | .inf s => (if s then 0xF else 0x7, fOF ||| fNX)
  | .fin s m e => let r := roundSat fmtE2M1 s m e; (r.1 + (if s then 8 else 0), r.2)

/-- Round to an integer, with inexactness. -/
def roundInt (rnd : Rnd) (s : Bool) (m : Nat) (e : Int) : Int × Bool :=
  let r := roundAt rnd s m e 0
  let n : Int := r.1 * 2 ^ r.2.1.toNat
  (if s then -n else n, r.2.2)

/-- Conversion to an integer of the range lo to hi (R101). -/
def toIntSat (rnd : Rnd) (lo hi : Int) (v : FVal) : Int × Flags :=
  match v with
  | .nan => (0, fNV)
  | .inf s => (if s then lo else hi, fNV)
  | .fin s m e =>
    if magGt m e 1 64 then (if s then lo else hi, fNV)
    else
      let r := roundInt rnd s m e
      if r.1 < lo then (lo, fNV)
      else if r.1 > hi then (hi, fNV)
      else (r.1, if r.2 then fNX else 0)

def toI8 (v : FVal) : Nat × Flags :=
  let r := toIntSat .rne (-128) 127 v
  ((BitVec.ofInt 8 r.1).toNat, r.2)

/-! Exact arithmetic -/

def FVal.neg (v : FVal) : FVal :=
  match v with
  | .nan => .nan
  | .inf s => .inf (!s)
  | .fin s m e => .fin (!s) m e

/-- The exact product, and whether it is invalid (R104). -/
def fMul (a b : FVal) : FVal × Bool :=
  match a, b with
  | .nan, _ => (.nan, false)
  | _, .nan => (.nan, false)
  | .inf s, .inf t => (.inf (s != t), false)
  | .inf s, .fin t m _ => if m = 0 then (.nan, true) else (.inf (s != t), false)
  | .fin s m _, .inf t => if m = 0 then (.nan, true) else (.inf (s != t), false)
  | .fin s m e, .fin t n f => (.fin (s != t) (m * n) (e + f), false)

/-- The exact sum of two finite values; an exact zero sum is −0 only under rd or when both are −0 (R103). -/
def addFin (rnd : Rnd) (s : Bool) (m : Nat) (e : Int) (t : Bool) (n : Nat) (f : Int) : FVal :=
  let g := min e f
  let a : Int := m * 2 ^ (e - g).toNat
  let b : Int := n * 2 ^ (f - g).toNat
  let r := (if s then -a else a) + (if t then -b else b)
  if r = 0 then
    .fin (if s = t ∧ m = 0 ∧ n = 0 then s else decide (rnd = .rd)) 0 0
  else .fin (r < 0) r.natAbs g

def fAdd (rnd : Rnd) (a b : FVal) : FVal × Bool :=
  match a, b with
  | .nan, _ => (.nan, false)
  | _, .nan => (.nan, false)
  | .inf s, .inf t => if s = t then (.inf s, false) else (.nan, true)
  | .inf s, .fin _ _ _ => (.inf s, false)
  | .fin _ _ _, .inf t => (.inf t, false)
  | .fin s m e, .fin t n f => (addFin rnd s m e t n f, false)

/-- The exact a·b + c (R103, R104). -/
def fFma (rnd : Rnd) (a b c : FVal) : FVal × Bool :=
  let p := fMul a b
  let r := fAdd rnd p.1 c
  (r.1, p.2 || r.2)

def nvIf (b : Bool) : Flags := if b then fNV else 0

/-- Round an exact result and its invalidity to FP32. -/
def fin32 (r : FVal × Bool) : W32 × Flags :=
  let q := round32 .rne r.1
  (q.1, q.2 ||| nvIf r.2)

def finB16 (r : FVal × Bool) : BitVec 16 × Flags :=
  let q := roundB16 .rne r.1
  (q.1, q.2 ||| nvIf r.2)

def add32 (a b : W32) : W32 × Flags := fin32 (fAdd .rne (dec32 a) (dec32 b))
def sub32 (a b : W32) : W32 × Flags := fin32 (fAdd .rne (dec32 a) (dec32 b).neg)
def mul32 (a b : W32) : W32 × Flags := fin32 (fMul (dec32 a) (dec32 b))
def fma32 (a b c : W32) : W32 × Flags := fin32 (fFma .rne (dec32 a) (dec32 b) (dec32 c))

/-- The quotient of two finite values, the divisor nonzero, with a sticky last bit: rounding it once is exact. -/
def divFin (s : Bool) (m : Nat) (e : Int) (t : Bool) (n : Nat) (f : Int) : FVal :=
  let k := 80 + Nat.log2 n
  let q := m * 2 ^ k / n
  .fin (s != t) (2 * q + (if m * 2 ^ k % n = 0 then 0 else 1)) (e - f - k - 1)

/-- RNE of a / b for finite a and positive finite b. -/
def divRne (a b : W32) : W32 :=
  match dec32 a, dec32 b with
  | .fin s m e, .fin t n f => (round32 .rne (divFin s m e t n f)).1
  | _, _ => 0x7FC00000

/-- Whether the bits are an FP32 NaN (R91). -/
def isNan32 (b : W32) : Bool := dec32 b = .nan
def isNanB16 (b : BitVec 16) : Bool := decB16 b = .nan

/-- A value's place on the number line, zeros equal: for comparisons of values that are no NaN. -/
def fLt (a b : FVal) : Bool :=
  match a, b with
  | .nan, _ => false
  | _, .nan => false
  | .inf s, .inf t => s && !t
  | .inf s, .fin _ _ _ => s
  | .fin _ _ _, .inf t => !t
  | .fin s m e, .fin t n f =>
    let g := min e f
    let a : Int := m * 2 ^ (e - g).toNat
    let b : Int := n * 2 ^ (f - g).toNat
    (if s then -a else a) < (if t then -b else b)

def fEq (a b : FVal) : Bool :=
  match a, b with
  | .nan, _ => false
  | _, .nan => false
  | _, _ => !fLt a b && !fLt b a

end Sys2Proof.Machine
end

