-- ==== Sys2Proof/Config.lean ====
section
/-! DEFINITION. What one module fixes and the spec leaves open: the free values. Each is a constant with no body, so a
statement about it holds whatever it is; notes/assumptions names each. Counters in State feed the ones that must be
fresh each time. -/

namespace Sys2Proof.Config

/-- The choice among enabled internal steps (log 5). -/
opaque choice : Nat → Nat
/-- Whether a lane of a pending load lands before the next instruction in its window (R61; log 6). -/
opaque landsEarly : Nat → Nat → Bool
/-- Whether a core's L1, and whether the home L2, evicts the sector that a lane of an instruction reads before it reads it
(R326; log 80): counter and address. -/
opaque lapses : Nat → Nat → Bool × Bool
/-- Whether a scalar, vector or control instruction issues while a fence is in flight (R132; log 6). -/
opaque passesFence : Nat → Bool
/-- The order of a row's sectors in the interleaved space: stack and row (R371; log 62). -/
opaque rowOrder : Nat → Nat → Nat
/-- An error that comes to stand in a store at a step: its kind and two numbers (R417; log 51). -/
opaque upset : Nat → Nat × Nat × Nat
/-- Errors that are corrected at a step: die and counter 0, 2 or 4 (R417, R419; log 51). -/
opaque corrected : Nat → List (Nat × Nat)
/-- Whether a vat unit under the standard image reads one more unit before the rest of its work, and which: counter and unit
(R147; log 7). -/
opaque readsEarly : Nat → Nat → Option Nat
/-- Errors that a vat unit corrects as it executes a micro-word: how many of the units that it reads, and the words of its
control store (R321, R410, R416; log 51): counter and unit. -/
opaque vatCorrected : Nat → Nat → Nat × List Nat
/-- Buffer C or the sum of a micro-word whose decode names another element type than R310's: operation, decode, A and B
(R409; log 17). -/
opaque mixedDecode : Nat → Nat → BitVec 256 → BitVec 256 → BitVec 256
/-- Core cycles that pass at a step, less one (log 8). -/
opaque cycles : Nat → Nat
/-- Nanoseconds that `TIME` gains at a step (R341; log 8). -/
opaque nanoseconds : Nat → Nat
/-- Whether an overlapping copy reads the old or the new value of a source byte (R250; log 9). -/
opaque copySeesNew : Nat → Nat → Bool
/-- The die in whose L2 an arrival is parked: job and page (R402; log 42). -/
opaque targetDie : Nat → Nat → Nat
/-- Ed25519 and ML-DSA-65 verification under a key pair: 0 firmware, 1 mould, 2 identity root; the bytes and the signature
(R432; log 11). -/
opaque ed25519Ok : Nat → List Byte → List Byte → Bool
opaque mlDsaOk : Nat → List Byte → List Byte → Bool
/-- SHA-384 (R432, R435; log 11). -/
opaque sha384 : List Byte → Vector Byte 48
/-- Both signatures of an attestation, 64 and 3,309 bytes as in a package (R432, R435; log 11). -/
opaque attestSign : List Byte → Vector Byte 3373
/-- AES-256-GCM of the links (R394; log 11): key, nonce and text to the plain text, none when the tag fails. -/
opaque gcmOpen : Nat → Nat → List Byte → Option (List Byte)
/-- The sending side: key, nonce, associated data and text to 224 bytes of cipher text and the tag. -/
opaque gcmSeal : Nat → Nat → List Byte → List Byte → Vector Byte 240
/-- Credits that a flit returns (R394; log 24): port and counter. -/
opaque credits : Nat → Nat → BitVec 16
/-- Data flits that the peer of a port takes after training (R402; log 24). -/
opaque initialCredits : Nat → Nat
/-- The certificate of the device's identity keys: its length, under 64 KiB, and its bytes (R435; log 11). -/
opaque certificateLen : BitVec 16
opaque certificateByte : Nat → Byte
/-- The bytes of the standard mould image, which the spec does not give (R408, R435; log 11). -/
opaque stdImage : List Byte
/-- Where an authorisation carries what R436 names, which the spec does not lay out (log 11): the device number, the target
state, and the signed bytes with their Ed25519 and ML-DSA-65 signatures. -/
opaque authId : List Byte → W64
opaque authTarget : List Byte → Nat
opaque authSigned : List Byte → List Byte × List Byte × List Byte
/-- The firmware package that a block holds from manufacture, which the spec does not give (R433; log 11). -/
opaque factoryFirmware : Nat → List Byte
/-- What the management controller finds in a stage of a start: 3 a wipe that failed, 6 the supply or the coolant flow out of
its limits, another value neither (R429, R430; log 25): stage and counter. -/
opaque startCheck : Nat → Nat → Nat
/-- Flits that a port sends at a step (R394, R395; log 8). -/
opaque flitsSent : Nat → Nat → Nat
/-- The die that a scale-up port belongs to (R424; log 22). -/
opaque portDie : Nat → Nat
/-- Whether the operation of a leading warp and that of its shadow differ (R423; log 21). -/
opaque shadowDiffers : Nat → Bool
/-- Whether a warp's shadow, catching up before a save, differs from it, by the counter and the warp (R423; log 21). -/
opaque shadowLags : Nat → Nat → Bool

end Sys2Proof.Config
end

