-- ==== Sys2Proof/Machine/Tab.lean ====
section
/-! DEFINITION. Sparse tables: a list of key and value pairs with strictly rising keys and no entry equal to the default,
so equal tables are equal lists. Memory, registers and caches are such tables. -/

namespace Sys2Proof.Machine

/-- A sparse table by key. -/
abbrev Tab (α : Type) := List (Nat × α)

/-- The entry of a key. -/
def tabFind {α : Type} (t : Tab α) (k : Nat) : Option α :=
  match t with
  | [] => none
  | (k', v) :: r => if k' = k then some v else tabFind r k

/-- The value of a key, `d` where nothing is listed. -/
def tabGet {α : Type} (d : α) (t : Tab α) (k : Nat) : α :=
  match tabFind t k with
  | some v => v
  | none => d

/-- List a key. -/
def tabPut {α : Type} (t : Tab α) (k : Nat) (v : α) : Tab α :=
  match t with
  | [] => [(k, v)]
  | (k', v') :: r =>
    if k < k' then (k, v) :: (k', v') :: r
    else if k = k' then (k, v) :: r
    else (k', v') :: tabPut r k v

/-- Unlist a key. -/
def tabErase {α : Type} (t : Tab α) (k : Nat) : Tab α :=
  match t with
  | [] => []
  | (k', v') :: r => if k' = k then tabErase r k else (k', v') :: tabErase r k

/-- Write a key: the default unlists it. -/
def tabSet {α : Type} [DecidableEq α] (d : α) (t : Tab α) (k : Nat) (v : α) : Tab α :=
  if v = d then tabErase t k else tabPut t k v

/-- Every listed key exceeds `k`, and the keys rise. -/
def tabSorted {α : Type} (t : Tab α) : Bool :=
  match t with
  | [] => true
  | (k, _) :: r => (r.all fun e => decide (k < e.1)) && tabSorted r

/-- The canonical form. -/
def tabWf {α : Type} [DecidableEq α] (d : α) (t : Tab α) : Bool :=
  tabSorted t && t.all fun e => decide (e.2 ≠ d)

/-- The first number below `n` that satisfies `p`. -/
def firstBelow (n : Nat) (p : Nat → Bool) : Option Nat := (List.range n).find? p

/-- Replace element `i` of a list by `f` of it; nothing outside the list. -/
def updAt {α : Type} (l : List α) (i : Nat) (f : α → α) : List α :=
  match l, i with
  | [], _ => []
  | a :: r, 0 => f a :: r
  | a :: r, i + 1 => a :: updAt r i f

end Sys2Proof.Machine
end

