-- ==== Sys2Proof/Machine/State.lean ====
section
/-! DEFINITION. The state of one module: everything spec/ gives the machine, as plain data. Warps, groups, gangs and
launches are lists indexed by the order in which they were made; sparse registers and memories are tables (Tab). -/

namespace Sys2Proof.Machine

/-- One running loop's record (spec/07 R195). -/
structure LoopRec where
  start  : W64
  words  : Nat
  reelsp : Nat
  rank   : Nat
  deriving DecidableEq, Repr

/-- A call stack entry (spec/07 R190). -/
structure CallRec where
  ret    : W64
  reelsp : Nat
  deriving DecidableEq, Repr

/-- The kinds of reel entry, codes 0 to 3 (spec/06 R166). -/
inductive ReelKind where
  | ifK | elseK | jxtK | joinK
  deriving DecidableEq, Repr

/-- A reel entry (spec/06 R166). -/
structure ReelEntry where
  kind    : ReelKind
  mask    : W32
  resume  : W64
  targets : Tab W32
  deriving DecidableEq, Repr

/-- The bank of one handler level with the loop records that its entry hid (spec/18 R352, R354). -/
structure Bank where
  cause : W64
  reth  : W64
  retw  : W64
  mask  : W64
  addr  : W64
  exm   : W64
  reel  : W64
  scr   : W64
  loops : Tab LoopRec
  /-- Register index of a stopped `ldm` or `stm` and the address of its first word (R234, R356). -/
  ridx  : Nat
  ridxAt : W64
  deriving DecidableEq, Repr

/-- A web register (spec/08 R223, R224; spec/18 R364). -/
structure WebSlot where
  desc  : BitVec 256
  pos   : W64
  reg   : BitVec 8
  bound : Bool
  deriving DecidableEq, Repr

/-- A pending tile operation (spec/10 R272 to R275). -/
structure TileOp where
  acc     : BitVec 3
  fmt     : BitVec 5
  k       : Nat
  mapA    : BitVec 256
  mapB    : BitVec 256
  rowm    : W32
  colm    : W32
  tok     : Option (BitVec 3)
  next    : Nat
  /-- Steps of the block in work that the grid has run (R264). -/
  steps   : Nat
  order   : Nat
  /-- Asked to stop at the end of the block in work, and stopped (R275). -/
  halt    : Bool
  stopped : Bool
  fault   : Option (BitVec 8 × W64)
  /-- Resolve verdicts for its operand fetches: page address and fault kind (R381). -/
  verdicts : List (Nat × Nat)
  deriving DecidableEq, Repr

/-- A register result on its way (spec/02 R59 to R61): the cells of v, keyed as `vKey`, and the window left. -/
structure PendLoad where
  cells : List (Nat × W32)
  look  : Nat
  tok   : Option (BitVec 3)
  deriving DecidableEq, Repr

/-- A fence in flight (spec/05 R132 to R134). -/
structure FenceRec where
  scope : Nat
  mem   : Bool
  tok   : Option (BitVec 3)
  deriving DecidableEq, Repr

/-- What holds a warp. -/
inductive WStat where
  /-- Free to issue. -/
  | running
  /-- Stalled in `wait` (spec/07 R199). -/
  | waitTok (mask : BitVec 6)
  /-- Stalled in `cpwait` (spec/09 R251). -/
  | waitCp (n : Nat)
  /-- Waiting for the phase it arrived in (spec/06 R174). -/
  | waitBar (n : Nat)
  /-- Waiting for queue slots of vat units (spec/12 R308). -/
  | waitPost
  /-- Exited with a tile operation to finish (spec/10 R260). -/
  | waitTile
  /-- No live lane (spec/06 R173). -/
  | retired
  /-- Killed (spec/06 R173). -/
  | killed
  /-- In a save slot (spec/18 R360). -/
  | saved
  deriving DecidableEq, Repr

/-- A warp (spec/06, spec/07 R186, spec/18 R352, R363). -/
structure Warp where
  launch   : Nat
  gang     : Nat
  group    : Nat
  wid      : Nat
  core     : Nat
  slot     : Nat
  /-- The slot of the shadow of a tethered warp (spec/23 R423). -/
  shadowSlot : Option Nat
  /-- Identity as `rdsys` reads it (R154); a restore takes it from the image (spec/18 R365). -/
  gangId   : W32
  groupId  : BitVec 2
  warpId   : BitVec 5
  /-- Allocated vector and scalar registers (R54). -/
  nv       : Nat
  ns       : Nat
  stat     : WStat
  /-- Handler level (spec/18 R350). -/
  level    : Nat
  /-- Header of the clause, whether it has started, its next word and its n (R35, R41). -/
  pc       : W64
  started  : Bool
  word     : Nat
  n        : Nat
  /-- The words of the clause last started, fetched before its first word issued (R67), and its header's address; no words
  where a resumed clause has not been fetched (R41). -/
  code     : List W32
  codeAt   : W64
  ports    : BitVec 4
  /-- The next word was reached in sequential flow, so a loop end there makes its back-edge (R196). -/
  flow     : Bool
  /-- Restart register index of `ldm` and `stm` (R234). -/
  ridx     : Nat
  /-- Header of the clause of the `bar` or `barv` that the warp waits in, and the word after it (R358). -/
  barH     : W64
  barJ     : Nat
  /-- Address of the launch's entry header for this warp (R368). -/
  entry    : W64
  exm      : W32
  fltm     : W32
  demm     : W32
  deadm    : W32
  deck     : BitVec 3
  fpst     : BitVec 6
  mode     : Bool
  mclaim   : BitVec 8
  mrowm    : W32
  mcolm    : W32
  /-- Event token counters ev0 to ev5 (R39). -/
  ev       : Tab Nat
  /-- Tokens whose outstanding operations include a fabric command, for the scope of the join (R139). -/
  evSys    : BitVec 6
  lc       : Tab W64
  loops    : Tab LoopRec
  calls    : List CallRec
  /-- The reel, top entry first (R166). -/
  reel     : List ReelEntry
  v        : Tab W32
  s        : Tab W64
  p        : Tab W32
  m        : Tab (BitVec 256)
  w        : Tab WebSlot
  /-- Grid cells of claimed tiles, keyed as the registers they alias (R257). -/
  cells    : Tab W32
  h        : Bank
  k        : Bank
  kuser    : W64
  tile     : Option TileOp
  pend     : List PendLoad
  fence    : Option FenceRec
  /-- Closed copy batches by number with their incomplete counts, and the open one (R251). -/
  closed   : Tab Nat
  openId   : Nat
  openN    : Nat
  openUsed : Bool
  /-- Resolve verdicts for the waiting instruction: page address and fault kind (R381). -/
  verdicts : List (Nat × Nat)
  waits    : Nat
  lag      : Nat
  deriving DecidableEq, Repr

/-- A barrier of a group (spec/06 R174). -/
structure Bar where
  arrivals : Nat
  expected : Nat
  byBar    : Bool
  opn      : Bool
  deriving DecidableEq, Repr

/-- A group (R155, R160, R174). -/
structure Group where
  gang     : Nat
  rank     : Nat
  core     : Nat
  warps    : List Nat
  scratch  : Tab Byte
  bars     : Tab Bar
  released : Bool
  deriving DecidableEq, Repr

inductive GangStat where
  /-- Placed, before its release time (R342). -/
  | held
  | running
  /-- Being pre-empted, with its claimed slot (R360). -/
  | stopping (slot : Nat)
  /-- In a save slot of the pool (R361). -/
  | saved (slot : Nat)
  /-- Every group's slot is released (R178). -/
  | released
  deriving DecidableEq, Repr

/-- A gang (R338, R342, R360). -/
structure Gang where
  launch : Nat
  gid    : Nat
  groups : List Nat
  stat   : GangStat
  /-- Completions of tokens and of copy batches while the gang was saved (R365): warp, token or batch, count. -/
  doneTok   : List (Nat × Nat)
  doneBatch : List (Nat × Nat)
  deriving DecidableEq, Repr

/-- A launch taken from its queue (R335, R338, R345). -/
structure Launch where
  packet   : BitVec 1024
  queue    : Nat
  job      : Nat
  prio     : Nat
  nextGang : Nat
  /-- Gangs in the order in which they were placed. -/
  gangs    : List Nat
  dead     : Nat
  parked   : Nat
  dropped  : Bool
  /-- Ended early: state and code of R345; 0 while it runs or ends by itself. -/
  endState : Nat
  endCode  : Nat
  complete : Bool
  /-- Held by XCMD (R366). -/
  hold     : Bool
  /-- CLOCK when the next gang began to wait, and whether 64 us passed (R338). -/
  waitFrom : Option W64
  starved  : Bool
  deriving DecidableEq, Repr

/-- A 128-byte sector of a cache; `dirty` has a bit for each byte (R127, R129), and `nibs` one for each nibble of an L1
sector that a store of a nibble wrote (R229). -/
structure Sector where
  data  : BitVec 1024
  dirty : BitVec 128
  nibs  : BitVec 256
  deriving DecidableEq, Repr

/-- A write on its way to DRAM: the sector number, the bytes and their values (R127, R134, R135). -/
structure DramWrite where
  sector : Nat
  bytes  : BitVec 128
  data   : BitVec 1024
  warp   : Option Nat
  tok    : Option (BitVec 3)
  deriving DecidableEq, Repr

/-- An access of the launch engine that may wait: the head of a queue, the completion of a launch, its fault log, the image or
slot of a gang, and a slot of a job's pool that is given back. -/
inductive LaunchAcc where
  | queue (q : Nat) | launch (l : Nat) | log (l : Nat) | gang (g : Nat) | slot (job slot : Nat)
  deriving DecidableEq, Repr

/-- Who waits on a fault record (R380): `eng` is a warp for what an engine or a vat unit reads at its instruction,
and `loop` a command whose packets loop back inside the device (spec/21 R390, R391). -/
inductive Waiter where
  | warp (w : Nat) | eng (w : Nat) | tile (w : Nat) | cmd (k : Nat) | loop (k : Nat) | fabric (i : Nat) | launcher (a : LaunchAcc)
  deriving DecidableEq, Repr

/-- An outstanding fault record (R379, R380). -/
structure XRec where
  va      : Nat
  entry   : Nat
  tag     : W32
  job     : Nat
  level   : Nat
  reason  : Nat
  access  : BitVec 8
  time    : W64
  posted  : Bool
  waiters : List Waiter
  deriving DecidableEq, Repr

/-- A cached translation (R377): the job, the level-4 page or larger range it covers, and the leaf. -/
structure TlbEntry where
  job   : Nat
  level : Nat
  base  : Nat
  leaf  : W64
  pa    : Nat
  deriving DecidableEq, Repr

/-- A fault record on its way to the launch engine (R245, R246). -/
structure RecOut where
  launch : Nat
  body   : BitVec 256
  deriving DecidableEq, Repr

/-- The engine commands (R247 to R256, R289 to R293, R315, R202). -/
inductive CmdKind where
  | cpy | rsel | rput | rputSig | rget | radd | rsig | skcfg | skfold | skmerge | tmerge | spawn
  | clean | inval
  deriving DecidableEq, Repr

/-- A descriptor as the engine read it: its 64 bytes, or the error code of R248. -/
inductive DescRead where
  | ok (d : BitVec 512)
  | bad (code : Nat)
  deriving DecidableEq, Repr

/-- An engine command in flight (R137). -/
structure Cmd where
  id       : Nat
  kind     : CmdKind
  warp     : Nat
  launch   : Nat
  job      : Nat
  core     : Nat
  sa       : W64
  sb       : W64
  peer     : Option W64
  mem      : Bool
  tok      : Option (BitVec 3)
  /-- Scalar register that takes the acceptance value of `spawn`. -/
  dest     : Option (BitVec 6)
  hdr      : W64
  word     : Nat
  descs    : List DescRead
  /-- Descriptor in work, and bytes, chunks or halvings of it done. -/
  at_      : Nat
  done     : Nat
  batch    : Option Nat
  started  : Bool
  verdicts : List (Nat × Nat)
  /-- Packets sent and not acknowledged (R398), and bytes completed of the descriptor in work (R248). -/
  packets  : Nat
  landed   : Nat
  failed   : Nat
  /-- The signal of the descriptor in work has been sent (R254). -/
  sig      : Bool
  /-- Descriptors whose packets are acknowledged and that end with their group of puts: index, bytes acknowledged, and whether the
  group is open (0), published (1) or aborted (2) (R255, R401). -/
  owed     : List (Nat × Nat × Nat)
  /-- Descriptors that the abort of their group ended before their turn came (R255). -/
  cut      : List Nat
  deriving DecidableEq, Repr

/-- A sketch binding (R290). -/
structure Binding where
  job    : Nat
  window : W64
  body   : W64
  type   : Nat
  lgsize : Nat
  depth  : Nat
  thr    : Nat
  seed   : W64
  home   : Nat
  deriving DecidableEq, Repr

/-- A vat command as it was posted (R308): the query copy, the descriptor, the record, and the translations it holds. -/
structure VatCmd where
  entry  : Nat
  query  : List W32
  desc   : BitVec 512
  recAt  : W64
  /-- Page translations held: virtual page number (64 KiB) and frame PA. -/
  pages  : List (Nat × Nat)
  job    : Nat
  launch : Nat
  post   : Nat
  deriving DecidableEq, Repr

/-- The micro-state of a running command (spec/22 R409): the buffers, the scores and sums of spec/12 R311, the token, the
row pair and the 32-byte unit in work, the open row, and the words run since the last column operation. -/
structure VatRun where
  cmd    : VatCmd
  upc    : Nat
  bufA   : BitVec 256
  bufB   : BitVec 256
  bufC   : BitVec 256
  s      : W32
  m      : W32
  l      : W32
  b      : W32
  sigK   : W32
  sigV   : W32
  o      : Tab W32
  token  : Nat
  pair   : Nat
  unit   : Nat
  row    : Option (Nat × Nat)
  idle   : Nat
  folded : Nat
  /-- m, l, o and the tokens at the start of the row pair in work, which an error reports (R321). -/
  pm     : W32
  pl     : W32
  po     : Tab W32
  pn     : Nat
  /-- Units that the command has read before the rest of its work, by PA: the standard image's reads come one by one (R147). -/
  seen   : Tab Nat
  deriving DecidableEq, Repr

/-- A vat unit (spec/12 R318). -/
structure VatUnit where
  queue : List VatCmd
  run   : Option VatRun
  deriving DecidableEq, Repr

/-- A lane of a post whose checks are over: its unit and command, or the code of its rejection and the words of its record's o part
(spec/12 R308, R314). -/
structure PostItem where
  unit  : Nat
  cmd   : VatCmd
  code  : Nat
  words : Nat
  deriving DecidableEq, Repr

/-- One `bqpost` whose lanes are not all recorded yet (R308). -/
structure Post where
  warp   : Nat
  tok    : Option (BitVec 3)
  left   : Nat
  /-- The lanes behind one that waits for a slot of its unit, which are handled after it (spec/12 R308). -/
  todo   : List PostItem
  deriving DecidableEq, Repr

/-- The ownership of refresh of a pseudo-channel (spec/22 R414). -/
inductive RefreshState where
  | normal | entering | compute | leaving
  deriving DecidableEq, Repr

/-- A pseudo-channel's refresh records (spec/22 R413, R414): group and debt of each bank, the bank whose refresh is in
flight, and whether the records have been sent and wait for their acknowledgement. -/
structure Channel where
  state    : RefreshState
  groups   : Tab Nat
  debts    : Tab Nat
  inFlight : Option Nat
  sent     : Bool
  deriving DecidableEq, Repr

/-- The mould image of a stack and its load (spec/22 R407 to R412); no image is the standard one. -/
structure Mould where
  image   : Option (List W32 × List (BitVec 128))
  version : Nat
  state   : Nat
  reason  : Nat
  index   : Nat
  pa      : Nat
  floor   : W64
  /-- Units in which an uncorrectable control-store error is pending (R410). -/
  badUnits : List Nat
  /-- A verified image that waits to be written, with its version. -/
  next    : Option (List W32 × List (BitVec 128) × Nat)
  deriving DecidableEq, Repr

/-- An uncorrectable error that stands in a store and that nothing has consumed yet (spec/23 R417): in the vector registers of
a warp, met by its next vector word in these lanes; in a 32-byte unit of a core's L1 or of the home L2, by PA / 32; in
a 32-byte block of a group's scratchpad; in a word of a vat unit's control store. -/
inductive Upset where
  | reg (w : Nat) (lanes : W32) | l1 (core unit : Nat) | l2 (unit : Nat) | scr (g block : Nat) | control (u word : Nat)
  deriving DecidableEq, Repr

/-- What a partition's datapath is configured for (spec/10 R264). -/
inductive GridConf where
  | idle | grid | vector
  deriving DecidableEq, Repr

/-- A partition's datapath (spec/10 R264): its configuration, the steps or vector-port instructions that it ran since work
of the other kind became ready, and CLOCK at the last of them and at the end of the last bubble. -/
structure Datapath where
  conf  : GridConf
  run   : Nat
  last  : W64
  ready : W64
  deriving DecidableEq, Repr

/-- A read that this device makes at another one (spec/10 R273, spec/11 R294): who asked, the address and the part of a sketch, and
its answer: the bytes, or an error code of R248. -/
structure FarRead where
  id   : Nat
  who  : Waiter
  dev  : Nat
  at_  : W64
  len  : Nat
  part : Nat
  data : Option (List Byte)
  code : Nat
  deriving DecidableEq, Repr

/-- A scale-up port (spec/21 R392, R394, R395). -/
structure Port where
  state      : Nat
  slot       : Nat
  nextLoaded : Bool
  count      : Nat
  retries    : Nat
  txSalt     : Tab W32
  rxSalt     : Tab W32
  rxSlot     : Nat
  rxCount    : Nat
  /-- Last good flit sequence, and failed replays of the flit in work. -/
  rxSeq      : Nat
  replays    : Nat
  switchReq  : Bool
  /-- Payload bytes received and not yet cut into packets (R396). -/
  stream     : List Byte
  /-- Sequence of the last flit sent, and the retry buffer: sequence and flit of those not acknowledged (R394). -/
  txSeq      : Nat
  retry      : List (Nat × List Byte)
  /-- Payload bytes of the packets being sent. -/
  txStream   : List Byte
  /-- Data flits that the peer's buffers still take (R394, R402). -/
  credits    : Nat
  /-- While a replay is awaited: the sequence that the next flit has if the replay has not begun (R394). -/
  wire       : Nat
  deriving DecidableEq, Repr

/-- A packet sent and not acknowledged (spec/21 R397), with its command where it belongs to one. -/
structure Sent where
  pkt   : Packet
  cmd   : Option Nat
  port  : Nat
  sends : Nat
  deriving DecidableEq, Repr

/-- A source's view of one peer (spec/21 R397). -/
structure PeerTx where
  nextSeq : W32
  sent    : List Sent
  deriving DecidableEq, Repr

/-- The duplicate window of one source (spec/21 R397), and the ordered packets that came early, by port (R399). -/
structure PeerRx where
  low   : W32
  bits  : BitVec 4096
  early : List (Nat × Packet)
  deriving DecidableEq, Repr

/-- A byte of a pending line (spec/21 R401): the put that it belongs to, its page (64 KiB) at the job, its PA and its value. -/
structure PendByte where
  key  : W64
  page : Nat
  at_  : Nat
  val  : Byte
  deriving DecidableEq, Repr

/-- The pending lines of a group (spec/21 R401), and the puts that passed the capacity, of which nothing lands (spec/09 R255). -/
structure PutGroup where
  src   : BitVec 10
  job   : BitVec 8
  grp   : BitVec 16
  bytes : List PendByte
  refused : List W64
  deriving DecidableEq, Repr

/-- A multicast packet that this device passes on (spec/21 R400): the port it came from, the child ports that have not
acknowledged it, whether it has been performed here, and the code of a failure. -/
structure Relay where
  pkt   : Packet
  port  : Nat
  left  : List Nat
  here  : Bool
  code  : Nat
  deriving DecidableEq, Repr

/-- A group of puts that this source has open (spec/21 R401): issuing warp, peer key, group, and the ports that its packets
took. -/
structure OpenGroup where
  warp  : Nat
  key   : Nat
  grp   : BitVec 16
  ports : List Nat
  deriving DecidableEq, Repr

/-- A parked arrival (spec/21 R402), in the parking store of a die's L2 or in the overflow region. -/
structure Parked where
  ident : Nat
  die   : Nat
  pkt   : Packet
  port  : Nat
  inOverflow : Bool
  verdicts : List (Nat × Nat)
  deriving DecidableEq, Repr

/-- A checkpoint frame sent and not acknowledged (spec/21 R405). -/
structure CkSend where
  die   : Nat
  pa    : Nat
  tag   : W64
  sends : Nat
  deriving DecidableEq, Repr

/-- What a scale-out port knows of its master (spec/21 R406): the data set that it announces, the path delay measured, the
difference between the arrival and the origin of the last Sync, and `TIME` at the last request for a delay. -/
structure PtpPort where
  clock : Option PtpClock
  delay : W64
  sync  : W64
  asked : W64
  deriving DecidableEq, Repr

/-- The time servo (spec/17 R341, spec/21 R406). -/
structure Servo where
  source   : BitVec 3
  locked   : Bool
  everLock : Bool
  offset   : W32
  deriving DecidableEq, Repr

/-- A running cancel or XCMD command with the launches or gangs it waits for (spec/17 R346, spec/18 R366). -/
structure Running where
  kind  : Nat
  job   : Nat
  ident : W32
  op    : Nat
  left  : List Nat
  deriving DecidableEq, Repr

/-- A running code swap and the warps that have not swapped (spec/18 R367, R368). -/
structure Swap where
  launch : Nat
  obase  : W64
  nbase  : W64
  len    : W64
  warps  : List Nat
  deriving DecidableEq, Repr

/-- A running shootdown with the commands that used a removed translation (spec/20 R378, R382). -/
structure Shoot where
  job  : Nat
  snap : Bool
  cmds : List Nat
  vats : List Nat
  /-- Groups of puts whose pending lines were translated before it: source and group. -/
  puts : List (BitVec 10 × BitVec 16)
  deriving DecidableEq, Repr

/-- A copy-on-write in work (spec/20 R383), with the writes that it holds. -/
structure CowHold where
  ident : Nat
  job   : Nat
  page  : Nat
  /-- The access bits of the held writes, and who makes them (R379, R380). -/
  access  : BitVec 8
  waiters : List Waiter
  deriving DecidableEq, Repr

/-- Firmware of a block (spec/24 R433, R434): its version and floor, and the package that it came in; no bytes stand for the one
from manufacture. -/
structure Firmware where
  version : Nat
  floor   : Nat
  package : List Byte
  deriving DecidableEq, Repr

/-- The machine. -/
structure State where
  /-- Counter that feeds the free values of Config (the model's own). -/
  ctr      : Nat
  /-- Next partition to issue, the warp it chose, and the environment's inputs, read first (the model's own). -/
  turn     : Nat
  cur      : Option Nat
  agenda   : List Instr
  /-- Answer of the last host read, and 0 done, 1 unsupported, 2 aborted, 3 poisoned (spec/21 R388, spec/23 R424). -/
  lastRead : List Byte × Nat
  clock    : W64
  time     : W64
  servo    : Servo
  ptp      : Tab PtpPort
  /-- BAR0 registers that hold what was written, by offset (spec/21 R387). -/
  bar      : Tab W64
  warps    : List Warp
  groups   : List Group
  gangs    : List Gang
  launches : List Launch
  /-- The queue before which each priority's position stands (spec/17 R338). -/
  qpos     : Tab Nat
  cancel   : Option Running
  canStat  : Nat
  xcmd     : Option Running
  xcmdNoSlot : Bool
  xcmdCount : Nat
  /-- Packets of rings that XCMD holds: queue and packet index (spec/17 R346, spec/18 R366). -/
  xheld    : List (Nat × Nat)
  /-- Slots of save pools that the launch engine still has to free: job and slot (spec/18 R361). -/
  frees    : List (Nat × Nat)
  swap     : Option Swap
  swapBad  : Bool
  swapCount : Nat
  /-- Split in force of each core, 7 where unlisted (spec/17 R331). -/
  splits   : Tab Nat
  /-- Fault records sent to the launch engine (spec/09 R246). -/
  recq     : List RecOut
  /-- Physical memory by PA: DRAM of both spaces and host memory (spec/20 R371). -/
  mem      : List Host.Cell
  /-- L1 sectors by core and sector, keyed as `l1Key`; L2 sectors by sector (spec/05 R127). -/
  l1       : Tab Sector
  l2       : Tab Sector
  /-- The launches whose warps wrote what an L1 sector has not written back: sector, keyed as `l1`, and launch (spec/17 R343). -/
  l1By     : List (Nat × Nat)
  /-- Poisoned 32-byte units, by PA / 32 (spec/23 R422). -/
  poison   : List Nat
  /-- Poisoned units that a full-unit store has rewritten in the L1 of a core, or at the home L2 (none), and not yet in
  DRAM (R422). -/
  cured    : List (Option Nat × Nat)
  /-- Uncorrectable errors of the other stores (spec/23 R417). -/
  upsets   : List Upset
  dramq    : List DramWrite
  tlb      : List TlbEntry
  xrecs    : List XRec
  /-- Resolve verdicts that the launch engine's accesses hold: access, page address and fault kind (spec/20 R381). -/
  lverdicts : List (LaunchAcc × Nat × Nat)
  xtag     : W32
  cows     : List CowHold
  shoot    : Option Shoot
  cmds     : List Cmd
  nextCmd  : Nat
  bindings : List Binding
  vats     : Tab VatUnit
  /-- Posts that wait for a queue slot, oldest first: unit and command (spec/12 R308). -/
  vatWait  : List (Nat × VatCmd)
  posts    : Tab Post
  nextPost : Nat
  unitLogs : Tab (BitVec 128)
  moulds   : Tab Mould
  channels : Tab Channel
  grids    : Tab Datapath
  /-- Order of acceptance of the next tile operation (spec/10 R273). -/
  tileNo   : Nat
  ports    : Tab Port
  peerTx   : Tab PeerTx
  peerRx   : Tab PeerRx
  putGroups : List PutGroup
  openGroups : List OpenGroup
  /-- Aborted groups whose targets are still to be told (spec/21 R397, R401). -/
  aborts   : List OpenGroup
  farReads : List FarRead
  relays   : List Relay
  parked   : List Parked
  nextPark : Nat
  /-- First and next byte of the overflow region's list, counted from the first ever written (spec/21 R402). -/
  ovHead   : Nat
  ovTail   : Nat
  /-- Packets handed to the ports: port and packet (spec/21 R396). -/
  outbox   : List (Nat × Packet)
  /-- Flits sent, in order: port and bytes (spec/21 R394). -/
  flits    : List (Nat × List Byte)
  /-- Retry requests to send: port and the sequence named (spec/21 R394). -/
  ctlFlits : List (Nat × Nat)
  ckSends  : List CkSend
  /-- Frames sent on the scale-out ports: port and bytes (spec/21 R404). -/
  frames   : List (Nat × List Byte)
  /-- Checkpoint datagrams sent: port, the destination record and the payload (spec/21 R404, R405). -/
  datagrams : List (Nat × List Byte × List Byte)
  /-- MSI-X vectors raised, in order (spec/21 R387). -/
  msix     : List Nat
  /-- 64-byte lines the host may cache, and those that wait for a back-invalidate response (spec/21 R388). -/
  hostLines : List Nat
  backInv  : List Nat
  /-- Error records that wait for the answer of the host before they are written, oldest first (spec/21 R388, spec/23 R420). -/
  errq     : List Nat
  /-- 4 KiB pages of host memory whose requests complete with an error (spec/21 R389; log 20). -/
  hostBad  : List Nat
  /-- Admitted dies (spec/21 R387) and the running re-admission (spec/23 R426). -/
  admitted : BitVec 8
  readmit  : Option Nat
  readmitDie : Nat
  readmitRes : Nat
  /-- Rows that the scrubber of each stack has read in its pass, as bank-linear PA / 1024 (spec/23 R419, R421). -/
  scrubbed : Tab (List Nat)
  stage    : Nat
  reason   : Nat
  fails    : Nat
  life     : Nat
  /-- Die whose self-test runs in stage 2 (spec/24 R429). -/
  testDie  : Nat
  /-- The identity key pair has been erased (spec/24 R436). -/
  keysGone : Bool
  fw       : Tab Firmware
  fwState  : Nat
  fwReason : Nat
  fwBlock  : Nat
  fwPa     : Nat
  /-- Version and bytes of the package that is being switched to. -/
  fwNew    : Nat × List Byte
  /-- Work that reached a block while its firmware was being switched (spec/24 R434), or that waits for the host (R388). -/
  heldIn   : List Instr
  coreClk  : Nat
  power    : W64
  /-- Milliseconds in a row with the power 5 % under the cap (spec/24 R437). -/
  coolMs   : Nat
  deriving DecidableEq, Repr

/-- The reset value of a register of BAR0: zero unless its block states another (spec/24 R429). -/
def barReset : Tab W64 := [(0x10010, 7), (0x200020, 0x100), (0x300028, 4600)]

/-- The machine right after reset: stage 0 of the staged start, nothing placed (spec/24 R429). -/
def State.reset : State where
  ctr := 0
  turn := 0
  cur := none
  agenda := []
  lastRead := ([], 0)
  clock := 0
  time := 0
  servo := ⟨0, false, false, 0⟩
  ptp := []
  bar := barReset
  warps := []
  groups := []
  gangs := []
  launches := []
  qpos := []
  cancel := none
  canStat := 0
  xcmd := none
  xcmdNoSlot := false
  xcmdCount := 0
  xheld := []
  frees := []
  swap := none
  swapBad := false
  swapCount := 0
  splits := []
  recq := []
  mem := []
  l1 := []
  l2 := []
  l1By := []
  poison := []
  cured := []
  upsets := []
  dramq := []
  tlb := []
  xrecs := []
  lverdicts := []
  xtag := 0
  cows := []
  shoot := none
  cmds := []
  nextCmd := 0
  bindings := []
  vats := []
  vatWait := []
  posts := []
  nextPost := 0
  unitLogs := []
  moulds := []
  channels := []
  grids := []
  tileNo := 0
  ports := []
  peerTx := []
  peerRx := []
  putGroups := []
  openGroups := []
  aborts := []
  farReads := []
  relays := []
  parked := []
  nextPark := 0
  ovHead := 0
  ovTail := 0
  outbox := []
  flits := []
  ctlFlits := []
  ckSends := []
  frames := []
  datagrams := []
  msix := []
  hostLines := []
  backInv := []
  errq := []
  hostBad := []
  admitted := 0
  readmit := none
  readmitDie := 0
  readmitRes := 0
  scrubbed := []
  stage := 0
  reason := 0
  fails := 0
  life := 1
  testDie := 0
  keysGone := false
  fw := []
  fwState := 0
  fwReason := 0
  fwBlock := 0
  fwPa := 0
  fwNew := (0, [])
  heldIn := []
  coreClk := 18
  power := 0
  coolMs := 0

/-- Why a step stops with a fault. -/
inductive Fault where
  /-- An access reached a physical address that spec/20 R371 says does not exist and no rule gives it a fault of the
  machine. Raised by the operations on the driver's rings and tables. Safe: the model stops where the behaviour is not
  stated. -/
  | noSuchAddress (pa : Nat)
  deriving DecidableEq, Repr

/-- Why a step is refused. -/
inductive Refusal where
  /-- An arm of exec that has no meaning yet. Raised by Dispatch only. Safe. -/
  | notModelled (mnemonic : String)
  /-- A word of the instruction set was executed with no warp chosen to issue it; no step of the machine does this. Raised
  by the operation that issues a word. Safe. -/
  | noIssuingWarp
  deriving DecidableEq, Repr

end Sys2Proof.Machine
end

