-- ==== Sys2Proof/Machine/Mem.lean ====
section
/-! DEFINITION. Physical memory and the caches: DRAM and host memory by physical address (spec/20 R371), the L1 of each core
and the home L2 by 128-byte sectors (spec/05 R127 to R136), writes on their way to DRAM, and poison (spec/23 R422). -/

namespace Sys2Proof.Machine

/-! Physical addresses (spec/20 R371) -/

/-- Bytes of one stack in the interleaved space: 48 GB. -/
def stackBytes : Nat := 48000000000
/-- The space of a physical address. -/
def paSpace (pa : Nat) : Nat := pa / 2 ^ 50
def paUnit (pa : Nat) : Nat := pa / 2 ^ 36 % 2 ^ 14
def paBank (pa : Nat) : Nat := pa / 2 ^ 34 % 4
def paRow (pa : Nat) : Nat := pa / 2 ^ 10 % 2 ^ 24
/-- Whether a physical address exists. -/
def paExists (pa : Nat) : Bool :=
  match paSpace pa with
  | 0 => pa < 8 * stackBytes
  | 1 => paRow pa < 5760
  | 2 => true
  | _ => false
/-- The stack, and home die, of a DRAM address. -/
def paStack (pa : Nat) : Nat := if paSpace pa = 0 then pa / stackBytes else paUnit pa / 2048
/-! The cells behind an address: the two DRAM spaces address the same cells (R371). The interleaved space fills the rows of a
stack in ascending order; which sector of a row's 8 MiB stands in which bank and column is not stated, so the order within a
row is a free one, a sector staying whole (log 62). -/

/-- Bytes of one row across the 8,192 banks of a stack. -/
def stripeBytes : Nat := 2 ^ 23
/-- The place among a row's sectors, in either direction. -/
def swizzle (stack row i : Nat) : Nat := i ^^^ (Config.rowOrder stack row % 2 ^ 16)
/-- The address that a cell is kept under: that of the interleaved space where it reaches the cell, else its own. -/
def cellOf (pa : Nat) : Nat :=
  if paSpace pa ≠ 1 || 5722 < paRow pa then pa
  else
    let stack := paUnit pa / 2048
    let i := 8 * (4 * (paUnit pa % 2048) + paBank pa) + pa % 1024 / 128
    let o := stripeBytes * paRow pa + 128 * swizzle stack (paRow pa) i + pa % 128
    if o < stackBytes then stack * stackBytes + o else pa
/-- The bank-linear address of a cell. -/
def linearOf (pa : Nat) : Nat :=
  if paSpace pa ≠ 0 then pa
  else
    let stack := pa / stackBytes
    let o := pa % stackBytes
    let i := swizzle stack (o / stripeBytes) (o % stripeBytes / 128)
    2 ^ 50 + 2 ^ 36 * (2048 * stack + i / 32) + 2 ^ 34 * (i / 8 % 4) + 2 ^ 10 * (o / stripeBytes) + 128 * (i % 8) + o % 128

/-- Whether an address lies on a stack whose die is fenced (spec/23 R424). -/
def paFenced (s : State) (pa : Nat) : Bool :=
  paSpace pa < 2 && !(s.admitted.getLsbD (paStack pa))

/-! Bytes -/

/-- What a byte of memory that nothing has written reads as: the start wipes every byte to zero (spec/24 R429). -/
def memDefault : Byte := 0
/-- The canonical form of memory. -/
abbrev Memory.wf (m : List Host.Cell) : Prop := tabWf memDefault m = true
def memGet (m : List Host.Cell) (a : Nat) : Byte := tabGet memDefault m a
def memSet (m : List Host.Cell) (a : Nat) (b : Byte) : List Host.Cell := tabSet memDefault m a b

/-- A list of bytes as a number, the first byte lowest (R7). -/
def leNat (l : List Byte) : Nat :=
  match l with
  | [] => 0
  | b :: r => b.toNat + 256 * leNat r
/-- The `n` bytes of a number, lowest first (R7). -/
def leBytes (n v : Nat) : List Byte :=
  match n with
  | 0 => []
  | k + 1 => BitVec.ofNat 8 v :: leBytes k (v / 256)

/-- `n` bytes of memory at `a` as a number. -/
def memRead (m : List Host.Cell) (a n : Nat) : Nat :=
  match n with
  | 0 => 0
  | k + 1 => (memGet m a).toNat + 256 * memRead m (a + 1) k
def memWrite (m : List Host.Cell) (a n v : Nat) : List Host.Cell :=
  match n with
  | 0 => m
  | k + 1 => memWrite (memSet m a (BitVec.ofNat 8 v)) (a + 1) k (v / 256)

/-- The bits of the bytes that a byte mask names. -/
def byteBits (m : BitVec 128) : BitVec 1024 :=
  (List.range 128).foldl (fun acc i => if m.getLsbD i then acc ||| (255#1024 <<< (8 * i)) else acc) 0
/-- The mask of bytes `o` to `o + n − 1` of a sector. -/
def byteMask (o n : Nat) : BitVec 128 := BitVec.ofNat 128 ((2 ^ n - 1) * 2 ^ o)
/-- Replace the bytes that `m` names. -/
def mergeBytes (old new : BitVec 1024) (m : BitVec 128) : BitVec 1024 :=
  (old &&& ~~~ byteBits m) ||| (new &&& byteBits m)
/-- The bytes of the 32-byte units that hold a byte of `m` (R136, R147: units are written whole). -/
def wholeUnits (m : BitVec 128) : BitVec 128 :=
  (List.range 4).foldl (fun acc u =>
    if m &&& byteMask (32 * u) 32 ≠ 0 then acc ||| byteMask (32 * u) 32 else acc) 0
/-- Write the bytes of a sector that `m` names to memory. -/
def memSector (mem : List Host.Cell) (k : Nat) (m : BitVec 128) (d : BitVec 1024) : List Host.Cell :=
  (List.range 128).foldl (fun t i =>
    if m.getLsbD i then memSet t (128 * k + i) ((d >>> (8 * i)).setWidth 8) else t) mem

/-! Writes on their way to DRAM -/

/-- The DRAM contents of a sector with the writes on their way. -/
def dramView (s : State) (k : Nat) : BitVec 1024 :=
  s.dramq.foldl (fun d w => if w.sector = k then mergeBytes d w.data w.bytes else d)
    (BitVec.ofNat 1024 (memRead s.mem (cellOf (128 * k)) 128))

/-- The units of a sector that a full-unit store has rewritten lose their poison as DRAM is written (R422). -/
def cureDram (s : State) (k : Nat) (m : BitVec 128) : State :=
  let hit (u : Nat) : Bool :=
    u / 4 = cellOf (128 * k) / 128 && m &&& byteMask (32 * (u % 4)) 32 ≠ 0 && s.cured.contains (none, u)
  { s with poison := s.poison.filter fun u => !hit u, cured := s.cured.filter fun e => !(e.1.isNone && hit e.2) }

/-- Perform one write at DRAM. -/
def dramPut (s : State) (k : Nat) (m : BitVec 128) (d : BitVec 1024) : State :=
  { cureDram s k m with mem := memSector s.mem (cellOf (128 * k) / 128) m d }

/-- Perform the writes on their way to the units of a sector that `m` names, in order. -/
def drainSector (s : State) (k : Nat) (m : BitVec 128) : State :=
  s.dramq.foldl (fun t w => if w.sector = k then dramPut t k (w.bytes &&& m) w.data else t)
    { s with dramq := s.dramq.map fun w => if w.sector = k then { w with bytes := w.bytes &&& ~~~ m } else w }

/-! Refresh (spec/22 R413) -/

def Channel.blank : Channel := ⟨.normal, [], [], none, false⟩
def chanOf (s : State) (c : Nat) : Channel := tabGet Channel.blank s.channels c
def putChan (s : State) (c : Nat) (x : Channel) : State := { s with channels := tabSet Channel.blank s.channels c x }
/-- The memory controllers take no new access while their firmware is switched (spec/24 R434). -/
def rowsShut (s : State) : Bool := s.fwState = 2 && s.fwBlock = 7
/-- A bank in which no row may be opened: its refresh takes priority over every activation (R413), or the controllers take no
access. -/
def refreshDue (s : State) (ch bank : Nat) : Bool := rowsShut s || 6 ≤ tabGet 0 (chanOf s ch).debts bank
/-- There may be such a bank. -/
def rowsHeld (s : State) : Bool := rowsShut s || !s.channels.isEmpty
/-- The bank of an address is one. -/
def paDue (s : State) (pa : Nat) : Bool :=
  let a := linearOf pa
  rowsHeld s && paSpace a = 1 && refreshDue s (paUnit a / 8) (4 * (paUnit a % 8) + paBank a)

/-! The home L2 -/

def l2Find (s : State) (k : Nat) : Option Sector := tabFind s.l2 k
/-- A sector as a read at the home L2 sees it. -/
def l2View (s : State) (k : Nat) : BitVec 1024 :=
  match l2Find s k with
  | some x => x.data
  | none => dramView s k
def l2Put (s : State) (k : Nat) (x : Sector) : State := { s with l2 := tabPut s.l2 k x }
def l2Drop (s : State) (k : Nat) : State := { s with l2 := tabErase s.l2 k }
/-- Bring a sector into the L2. -/
def l2Fill (s : State) (k : Nat) : State :=
  match l2Find s k with
  | some _ => s
  | none => l2Put s k ⟨dramView s k, 0, 0⟩
/-- A read at the home L2 that would have to open a row of a bank whose refresh comes first (R413). -/
def readDue (s : State) (pa : Nat) : Bool := paDue s pa && (l2Find s (pa / 128)).isNone
/-- A load of policy mem drops a clean copy and opens the row (R127). -/
def memDue (s : State) (pa : Nat) : Bool :=
  paDue s pa && match l2Find s (pa / 128) with
    | some x => x.dirty = 0
    | none => true
/-- The same of a read of `n` bytes. -/
def runDue (s : State) (pa n : Nat) : Bool :=
  rowsHeld s && (List.range ((pa + (n - 1)) / 128 - pa / 128 + 1)).any fun i => readDue s (128 * (pa / 128 + i))
/-- Whether a 64-byte line is one that a write of the bytes `m` of sector `k` touches. -/
def lineHit (k : Nat) (m : BitVec 128) (line : Nat) : Bool :=
  line / 2 = cellOf (128 * k) / 128 && m &&& byteMask (64 * (line % 2)) 64 ≠ 0
/-- The host may cache the line of an address, or has not answered its back-invalidate (spec/21 R388). -/
def lineHeld (s : State) (pa : Nat) : Bool :=
  !(s.hostLines.isEmpty && s.backInv.isEmpty) && paSpace pa < 2 &&
  (s.hostLines.contains (cellOf pa / 64) || s.backInv.contains (cellOf pa / 64))
/-- Send the back-invalidate of a line. -/
def askLine (s : State) (l : Nat) : State :=
  if s.hostLines.contains l then
    { s with hostLines := s.hostLines.filter (· ≠ l), backInv := s.backInv ++ [l] }
  else s
/-- The lines of `n` bytes at `pa` that the host may cache, or whose back-invalidate it has not answered. -/
def heldLines (s : State) (pa n : Nat) : List Nat :=
  if n = 0 || (s.hostLines.isEmpty && s.backInv.isEmpty) then []
  else ((List.range ((pa + (n - 1)) / 64 - pa / 64 + 1)).map fun i => 64 * (pa / 64 + i)).filterMap fun a =>
    if lineHeld s a then some (cellOf a / 64) else none
/-- Send the back-invalidates of several lines. -/
def askLines (s : State) (ls : List Nat) : State := ls.foldl askLine s
/-- A write of the device waits for the responses to its back-invalidates before it comes here, so that it finds no line that the
host may cache; a line that stands all the same is taken from the host (log 23). -/
def snoop (s : State) (k : Nat) (m : BitVec 128) : State :=
  { s with
    hostLines := s.hostLines.filter fun l => !lineHit k m l
    backInv := s.backInv ++ s.hostLines.filter (lineHit k m) }
/-- Write bytes of a sector at the home L2. -/
def l2Write (s : State) (k : Nat) (m : BitVec 128) (d : BitVec 1024) : State :=
  match l2Find s k with
  | some x => l2Put (snoop s k m) k ⟨mergeBytes x.data d m, x.dirty ||| m, 0⟩
  | none => l2Put (snoop s k m) k ⟨mergeBytes (dramView s k) d m, m, 0⟩
/-- Write the dirty ones of the 32-byte units of a sector that `m` names to DRAM; the copy stays, clean in them. -/
def l2CleanUnits (s : State) (k : Nat) (m : BitVec 128) : State :=
  match l2Find s k with
  | some x =>
    let d := wholeUnits x.dirty &&& m
    if d = 0 then s
    else l2Put (dramPut (drainSector s k d) k d x.data) k ⟨x.data, x.dirty &&& ~~~ d, 0⟩
  | none => s
/-- Write the dirty 32-byte units of a sector to DRAM; the copy stays, clean. -/
def l2Clean (s : State) (k : Nat) : State := l2CleanUnits s k (BitVec.allOnes 128)
/-- The units of a sector as writes on their way, each by itself (R147). -/
def unitWrites (k : Nat) (m : BitVec 128) (d : BitVec 1024) (w : Option Nat) : List DramWrite :=
  (List.range 4).filterMap fun u =>
    let b := m &&& byteMask (32 * u) 32
    if b = 0 then none else some ⟨k, b, d, w, none⟩
/-- Send the dirty units of a sector on to DRAM; the copy stays, clean. -/
def l2Send (s : State) (w : Option Nat) (k : Nat) : State :=
  match l2Find s k with
  | some x =>
    if x.dirty = 0 then s
    else { l2Put s k ⟨x.data, 0, 0⟩ with dramq := s.dramq ++ unitWrites k (wholeUnits x.dirty) x.data w }
  | none => s
/-- The eviction of a sector from the L2: its dirty units go on their way to DRAM, each by itself (R127, R147, R319). -/
def l2Evict (s : State) (k : Nat) : State := l2Drop (l2Send s none k) k

/-! The L1 of a core -/

def l1Key (core k : Nat) : Nat := core * 2 ^ 48 + k
def l1Find (s : State) (core k : Nat) : Option Sector := tabFind s.l1 (l1Key core k)
def l1Put (s : State) (core k : Nat) (x : Sector) : State := { s with l1 := tabPut s.l1 (l1Key core k) x }
/-- The sector of a core's L1 holds nothing any more that a launch wrote and that is not written back. -/
def l1Clear (s : State) (core k : Nat) : State :=
  if s.l1By.isEmpty then s else { s with l1By := s.l1By.filter fun e => e.1 ≠ l1Key core k }
/-- A warp of a launch has written the sector of a core's L1 (R343). -/
def l1Note (s : State) (core k : Nat) (w : Option Nat) : State :=
  match w.bind fun i => s.warps[i]? with
  | none => s
  | some W =>
    let e := (l1Key core k, W.launch)
    if s.l1By.contains e then s else { s with l1By := s.l1By ++ [e] }
def l1Drop (s : State) (core k : Nat) : State := l1Clear { s with l1 := tabErase s.l1 (l1Key core k) } core k
/-- The bits of the nibbles that a mask names. -/
def nibBits (m : BitVec 256) : BitVec 1024 :=
  if m = 0 then 0
  else (List.range 256).foldl (fun acc i => if m.getLsbD i then acc ||| (15#1024 <<< (4 * i)) else acc) 0
/-- The bytes that hold a nibble of a mask. -/
def nibBytes (m : BitVec 256) : BitVec 128 :=
  if m = 0 then 0
  else (List.range 128).foldl (fun acc i =>
    if m.getLsbD (2 * i) || m.getLsbD (2 * i + 1) then acc ||| byteMask i 1 else acc) 0
/-- What an L1 sector has to write back: a nibble that a store wrote alone leaves its byte's other nibble as the home L2 has
it (R229). -/
def backData (s : State) (k : Nat) (x : Sector) : BitVec 1024 :=
  if x.nibs = 0 then x.data
  else mergeBytes ((l2View s k &&& ~~~ nibBits x.nibs) ||| (x.data &&& nibBits x.nibs)) x.data x.dirty
/-- A sector of an L1 is dirty. -/
def l1Dirty (x : Sector) : Bool := x.dirty ≠ 0 || x.nibs ≠ 0
/-- The units of a sector that a full-unit store rewrote in a core's L1 are rewritten at the home L2 too (R422). -/
def cureBack (s : State) (core k : Nat) : State :=
  let mine (e : Option Nat × Nat) : Bool := e.1 = some core && e.2 / 4 = cellOf (128 * k) / 128
  if s.cured.any mine then
    { s with cured := s.cured.filter (fun e => !mine e) ++ (s.cured.filter mine).map fun e => (none, e.2) }
  else s
/-- Notes of sectors that have been dropped go. -/
def l1Prune (s : State) : State := { s with l1By := s.l1By.filter fun e => (tabFind s.l1 e.1).isSome }
/-- Write a dirty L1 sector back to the home L2; the copy stays, clean (R129). -/
def l1Clean (s : State) (core k : Nat) : State :=
  match l1Find s core k with
  | some x =>
    if l1Dirty x then
      l1Clear (l1Put (cureBack (l2Write s k (x.dirty ||| nibBytes x.nibs) (backData s k x)) core k) core k ⟨x.data, 0, 0⟩) core k
    else s
  | none => s
/-- The lines that the write-back of an L1 sector would write and that the host may cache (spec/21 R388). -/
def dirtyLines (s : State) (core k : Nat) : List Nat :=
  match l1Find s core k with
  | none => []
  | some x => (s.hostLines ++ s.backInv).filter (lineHit k (x.dirty ||| nibBytes x.nibs))
/-- Write back and drop (R130). -/
def l1Evict (s : State) (core k : Nat) : State := l1Drop (l1Clean s core k) core k
/-- Bring a sector into a core's L1, through the home L2. -/
def l1Fill (s : State) (core k : Nat) : State :=
  match l1Find s core k with
  | some _ => s
  | none => let s1 := l2Fill s k; l1Put s1 core k ⟨l2View s1 k, 0, 0⟩
def l1Write (s : State) (core k : Nat) (m : BitVec 128) (d : BitVec 1024) : State :=
  let s1 := l1Fill s core k
  match l1Find s1 core k with
  | some x => l1Put s1 core k ⟨mergeBytes x.data d m, x.dirty ||| m, x.nibs⟩
  | none => s1
/-- Write the nibbles that `m` names in a core's L1 (R229). -/
def l1WriteNib (s : State) (core k : Nat) (m : BitVec 256) (d : BitVec 1024) : State :=
  let s1 := l1Fill s core k
  match l1Find s1 core k with
  | some x => l1Put s1 core k ⟨(x.data &&& ~~~ nibBits m) ||| (d &&& nibBits m), x.dirty, x.nibs ||| m⟩
  | none => s1
/-- The sectors that a core's L1 holds. -/
def l1Keys (s : State) (core : Nat) : List Nat :=
  s.l1.filterMap fun e => if e.1 / 2 ^ 48 = core then some (e.1 % 2 ^ 48) else none
/-- The lines that the write-backs of a core's L1 would write and that the host may cache. -/
def coreLines (s : State) (core : Nat) : List Nat :=
  if s.hostLines.isEmpty && s.backInv.isEmpty then [] else (l1Keys s core).flatMap (dirtyLines s core)
/-- What a fence of gang scope or wider does to a core's L1: every dirty sector is written back and every sector dropped
(R129). -/
def l1Fence (s : State) (core : Nat) : State :=
  (l1Keys s core).foldl (fun t k => l1Evict t core k) s
/-- Write back every dirty sector of a core's L1, keeping the copies (R137). -/
def l1WriteBack (s : State) (core : Nat) : State :=
  (l1Keys s core).foldl (fun t k => l1Clean t core k) s
/-- The sectors of a core's L1 that warps of a launch wrote (R343). -/
def l1Wrote (s : State) (l core : Nat) : List Nat :=
  (l1Keys s core).filter fun k => s.l1By.contains (l1Key core k, l)
/-- Write the dirty ones of them back. -/
def l1WriteBackOf (s : State) (l core : Nat) : State := (l1Wrote s l core).foldl (fun t k => l1Clean t core k) s
/-- The lines that this would write and that the host may cache. -/
def wroteLines (s : State) (l core : Nat) : List Nat :=
  if s.hostLines.isEmpty && s.backInv.isEmpty then [] else (l1Wrote s l core).flatMap (dirtyLines s core)
/-- Drop the clean sectors of a core's L1 (R129, R344). -/
def l1DropClean (s : State) (core : Nat) : State :=
  { s with l1 := s.l1.filter fun e => e.1 / 2 ^ 48 ≠ core || l1Dirty e.2 }

/-- The caches may evict the sector that a lane of an instruction reads before it reads it, since no rule ties the reads of
different bytes to one another (R124, R326); all lanes that read one byte see it alike (R117), so the choice goes by the
address. An L1 sector whose write-back would have to wait for the host stays; of the home L2 a clean copy is meant, since the
eviction of a dirty one changes nothing that the lane reads. A bank whose refresh comes first opens no row for it (R413). -/
def lapse (n : Nat) (s : State) (core pa : Nat) : State :=
  let e := Config.lapses n pa
  let k := pa / 128
  if paDue s pa then s
  else
    let s1 := if e.1 && dirtyLines s core k = [] then l1Evict s core k else s
    match l2Find s1 k with
    | some x => if e.2 && x.dirty = 0 then l2Drop s1 k else s1
    | none => s1

/-! Accesses by place -/

/-- Where an access is performed (R127, R128): the L1 of a core, the home L2, or DRAM. -/
inductive Place where
  | l1 (core : Nat) | l2 (core : Option Nat) | mem (core : Option Nat)
  deriving DecidableEq, Repr

/-- R130: an access that passes the L1 first writes its sector back and drops it. -/
def passL1 (s : State) (core : Option Nat) (k : Nat) : State :=
  match core with
  | some c => l1Evict s c k
  | none => s

/-- The bytes `o` to `o + n − 1` of a sector's data as a number. -/
def sectorBytes (d : BitVec 1024) (o n : Nat) : Nat := d.toNat / 2 ^ (8 * o) % 2 ^ (8 * n)

/-- Read `n` bytes at `pa`, all in one sector. -/
def loadAt (s : State) (pl : Place) (pa n : Nat) : State × Nat :=
  let k := pa / 128
  let o := pa % 128
  if paSpace pa ≥ 2 then (s, memRead s.mem pa n)
  else match pl with
    | .l1 c =>
      let s1 := l1Fill s c k
      (s1, match l1Find s1 c k with | some x => sectorBytes x.data o n | none => 0)
    | .l2 c => let s1 := l2Fill (passL1 s c k) k; (s1, sectorBytes (l2View s1 k) o n)
    | .mem c =>
      let s1 := passL1 s c k
      match l2Find s1 k with
      | some x =>
        if x.dirty ≠ 0 then (s1, sectorBytes x.data o n)
        else let s2 := l2Drop s1 k; (s2, sectorBytes (dramView s2 k) o n)
      | none => (s1, sectorBytes (dramView s1 k) o n)

/-- Write `n` bytes at `pa`, all in one sector; a write of policy mem goes on to DRAM for `w`, which its token follows. -/
def storeAt (s : State) (pl : Place) (pa n v : Nat) (w : Option Nat) (tok : Option (BitVec 3)) : State :=
  let k := pa / 128
  let o := pa % 128
  let m := byteMask o n
  let d : BitVec 1024 := BitVec.ofNat 1024 (v % 2 ^ (8 * n)) <<< (8 * o)
  if paSpace pa ≥ 2 then { s with mem := memWrite s.mem pa n v }
  else match pl with
    | .l1 c => l1Note (l1Write s c k m d) c k w
    | .l2 c => l2Write (passL1 s c k) k m d
    | .mem c =>
      let s1 := passL1 s c k
      let s2 := match l2Find s1 k with
        | some _ => l2Write s1 k m d
        | none => snoop s1 k m
      { s2 with dramq := s2.dramq ++ [⟨k, m, d, w, tok⟩] }

/-- Store a nibble of the byte at `pa`: one atomic update of its byte at the place (R229). -/
def storeNibAt (s : State) (pl : Place) (pa : Nat) (hi : Bool) (v : Nat) (w : Option Nat) : State :=
  let keep (b : Nat) : Nat := if hi then b % 16 + 16 * (v % 16) else b / 16 * 16 + v % 16
  match pl with
  | .l1 c =>
    if paSpace pa ≥ 2 then { s with mem := memWrite s.mem pa 1 (keep (memGet s.mem pa).toNat) }
    else
      let i := 2 * (pa % 128) + if hi then 1 else 0
      l1Note (l1WriteNib s c (pa / 128) (BitVec.ofNat 256 (2 ^ i)) (BitVec.ofNat 1024 (v % 16) <<< (4 * i))) c (pa / 128) w
  | pl =>
    let r := loadAt s pl pa 1
    storeAt r.1 pl pa 1 (keep r.2) w none

/-- One write for each 32-byte unit of what an instruction sent on to DRAM after the first `n`: a unit is seen whole or not
at all, and each by itself (R147). -/
def joinWrites (s : State) (n : Nat) : State :=
  let same (e d : DramWrite) : Bool := e.sector = d.sector && wholeUnits e.bytes = wholeUnits d.bytes
  { s with dramq := s.dramq.take n ++ (s.dramq.drop n).foldl (fun l d =>
      if l.any fun e => same e d then
        l.map fun e => if same e d then
          { e with bytes := e.bytes ||| d.bytes, data := mergeBytes e.data d.data d.bytes } else e
      else l ++ [d]) [] }

/-! Poison (R422) -/

/-- A poisoned unit, kept by its cell, as the space of `pa` numbers it. -/
def unitIn (pa u : Nat) : Nat := if paSpace pa = 1 then linearOf (32 * u) / 32 else u
/-- A poisoned unit lies in a run. -/
def unitHits (pa n u : Nat) : Bool := pa / 32 ≤ unitIn pa u && unitIn pa u ≤ (pa + (n - 1)) / 32
/-- A full-unit store has rewritten the unit at the home L2, or in the L1 of the core that reads through it. -/
def isCured (s : State) (core : Option Nat) (u : Nat) : Bool :=
  s.cured.contains (none, u) || (core.isSome && s.cured.contains (core, u))
/-- The poisoned units of DRAM itself, as vat units read it. -/
def dramPoisoned (s : State) (pa n : Nat) : Bool := s.poison.any fun u => unitHits pa n u
/-- The poisoned units that a read at the home L2, or through a core's L1, meets. -/
def isPoisoned (s : State) (core : Option Nat) (pa n : Nat) : Bool :=
  s.poison.any fun u => unitHits pa n u && !isCured s core u
/-- The first of them, as the PA of its first byte. -/
def poisonIn (s : State) (core : Option Nat) (pa n : Nat) : Option Nat :=
  (s.poison.find? fun u => unitHits pa n u && !isCured s core u).map fun u => 32 * unitIn pa u
/-- The cell of a 32-byte unit. -/
def unitCell (u : Nat) : Nat := cellOf (32 * u) / 32
def addPoison (s : State) (u : Nat) : State :=
  { s with
    poison := if s.poison.contains (unitCell u) then s.poison else unitCell u :: s.poison
    cured := s.cured.filter fun e => e ≠ (none, unitCell u) }
/-- The poisoned units that the runs of bytes of one store cover whole (DEDUCED for the lanes of one instruction, log 16). -/
def coveredUnits (s : State) (rs : List (Nat × Nat)) : List Nat :=
  s.poison.filter fun u => (List.range 32).all fun i => rs.any fun r =>
    r.1 ≤ 32 * unitIn r.1 u + i && 32 * unitIn r.1 u + i < r.1 + r.2
/-- Units that one store covers whole are rewritten (R422): `rs` are the runs of bytes that it writes, in the L1 of a core or at
the home L2. The poison itself goes when DRAM is written. -/
def clearAt (s : State) (core : Option Nat) (rs : List (Nat × Nat)) : State :=
  { s with cured := s.cured ++ ((coveredUnits s rs).map fun u => (core, u)).filter fun e => !s.cured.contains e }
/-- Units of a sector at the home L2 hold no longer what a full-unit store wrote: their poison stands. -/
def dropCured (s : State) (k : Nat) (m : BitVec 128) : State :=
  { s with cured := s.cured.filter fun e =>
      !(e.1.isNone && e.2 / 4 = cellOf (128 * k) / 128 && m &&& byteMask (32 * (e.2 % 4)) 32 ≠ 0) }
/-- The same of a store performed at the home L2. -/
def clearCovered (s : State) (rs : List (Nat × Nat)) : State := clearAt s none rs
/-- The L1 in which a store of a place is performed. -/
def placeCore (pl : Place) : Option Nat :=
  match pl with
  | .l1 c => some c
  | .l2 _ => none
  | .mem _ => none

/-- The error that stands in the caches where `n` bytes at `pa` are read: in the home L2, or in the L1 of the core that reads
through it. -/
def eccIn (s : State) (core : Option Nat) (pa n : Nat) : Option Upset :=
  let hit (k : Nat) : Bool := pa / 32 ≤ k && k ≤ (pa + (n - 1)) / 32
  s.upsets.find? fun u => match u with
    | .l1 c k => core = some c && hit k && (l1Find s c (k / 4)).isSome
    | .l2 k => hit k && (l2Find s (k / 4)).isSome
    | .reg _ _ => false
    | .scr _ _ => false
    | .control _ _ => false
/-- A read of `n` bytes at `pa` returns uncorrectable data: poison, or an error of the caches. -/
def dataBad (s : State) (core : Option Nat) (pa n : Nat) : Bool := isPoisoned s core pa n || (eccIn s core pa n).isSome

/-- The first uncorrectable unit that a read of `n` bytes at the home L2 meets, as the PA of its first byte. -/
def badIn (s : State) (pa n : Nat) : Option Nat :=
  match poisonIn s none pa n with
  | some a => some a
  | none => match eccIn s none pa n with
    | some (.l2 k) => some (32 * k)
    | _ => none

/-! Runs of bytes at the home L2, as the engines and the host's coherent path read and write them (R138, R388) -/

def l2Byte (s : State) (pa : Nat) : Byte :=
  if paSpace pa ≥ 2 then memGet s.mem pa
  else match l2Find s (pa / 128) with
    | some x => (x.data >>> (8 * (pa % 128))).setWidth 8
    | none =>
      if s.dramq.any fun w => w.sector = pa / 128 then
        ((dramView s (pa / 128)) >>> (8 * (pa % 128))).setWidth 8
      else memGet s.mem (cellOf pa)
def l2Read (s : State) (pa n : Nat) : Nat :=
  match n with
  | 0 => 0
  | k + 1 => (l2Byte s pa).toNat + 256 * l2Read s (pa + 1) k
/-- Write `n` bytes at the home L2, or to host memory. -/
def l2Store (s : State) (pa n v : Nat) : State :=
  match n with
  | 0 => s
  | k + 1 =>
    let s1 := if paSpace pa ≥ 2 then { s with mem := memSet s.mem pa (BitVec.ofNat 8 v) }
      else l2Write s (pa / 128) (byteMask (pa % 128) 1) (BitVec.ofNat 1024 (v % 256) <<< (8 * (pa % 128)))
    l2Store s1 (pa + 1) k (v / 256)

/-- The device's own reads and writes of the driver's tables and rings by PA: a fenced stack gives zero and takes nothing
(R424; DESIGN CHOICE, log 76: no access is left to take the fault). -/
def tblRead (s : State) (pa n : Nat) : Nat := if paFenced s pa then 0 else l2Read s pa n
/-- Uncorrectable data that such a read meets (R417), as the PA of their first byte. -/
def tblBad (s : State) (pa n : Nat) : Option Nat := if paFenced s pa then none else badIn s pa n
/-- A unit that is written whole loses its poison (R422). -/
def tblStore (s : State) (pa n v : Nat) : State :=
  if paFenced s pa then s else clearCovered (l2Store s pa n v) [(pa, n)]

/-- Read 32 bytes of DRAM past the caches, as vat units do (R147). -/
def dramRead (s : State) (pa n : Nat) : Nat := memRead s.mem (cellOf pa) n

end Sys2Proof.Machine
end

