-- ==== Sys2Proof/Machine/Xlat.lean ====
section
/-! DEFINITION. Address translation (spec/20 R371 to R383): the job's root, the walk through the tables, the cached
translations, rights, and the fault records on which accesses wait. -/

namespace Sys2Proof.Machine

/-! The driver's registers (spec/21 R387) -/

def barGet (s : State) (off : Nat) : W64 := tabGet 0 s.bar off
def barSet (s : State) (off : Nat) (v : W64) : State := { s with bar := tabSet 0 s.bar off v }

/-! Jobs (spec/17 R332) -/

/-- A request to host memory completes with an error (R389; log 20). -/
def hostRefuses (s : State) (pa : Nat) : Bool := paSpace pa = 2 && s.hostBad.contains (pa % 2 ^ 50 / 4096)

/-- The job table entry of job `j`, as its 256 bits. An entry in host memory whose request completes with an error reads as
no job, so that a walk maps nothing (R389). -/
def jobAt (s : State) (j : Nat) : Nat := (barGet s 0x10008).toNat + 32 * j
def jobEntry (s : State) (j : Nat) : Nat := if hostRefuses s (jobAt s j) then 0 else tblRead s (jobAt s j) 32
/-- A job exists when its valid bit is set. What becomes of an entry with nonzero `rsv` bits [255:129] the spec does not say:
the model ignores them (DESIGN CHOICE, log 63). -/
def jobValid (s : State) (j : Nat) : Bool := j ≠ 0 && jobEntry s j / 2 ^ 128 % 2 = 1
def jobCount (s : State) (j : Nat) : W64 := BitVec.ofNat 64 (jobEntry s j / 2 ^ 64)
def jobRoot (s : State) (j : Nat) : Nat := jobEntry s j % 2 ^ 64

/-! Addresses (R8, R9) -/

/-- R9: bits 63 to 57 equal bit 56. -/
def canonical (a : W64) : Bool := a.toNat / 2 ^ 56 = 0 || a.toNat / 2 ^ 56 = 255

/-! Walks -/

/-- How a walk ends. -/
inductive Walk where
  /-- A leaf: its level, the entry, the entry's PA. -/
  | leaf (level : Nat) (e : W64) (at_ : Nat)
  /-- A sketch window (R376). -/
  | window (e : W64)
  /-- v = 0 and pend = 1 (R379). -/
  | nonResident (level : Nat) (at_ : Nat)
  /-- v = 0 and pend = 0. -/
  | unmapped
  /-- A malformed entry (R374). -/
  | malformed (level : Nat) (at_ : Nat)
  /-- An entry whose data are uncorrectable: who asks consumes it as an address (R417). -/
  | dead (at_ : Nat)
  /-- An entry whose bank is to be refreshed first (R413). -/
  | held
  deriving DecidableEq, Repr

/-- The low bit and the number of bits of a level's index (R372). -/
def levelLow (l : Nat) : Nat :=
  match l with
  | 0 => 47
  | 1 => 38
  | 2 => 30
  | 3 => 21
  | _ => 16
def levelBits (l : Nat) : Nat :=
  match l with
  | 0 => 10
  | 1 => 9
  | 2 => 8
  | 3 => 9
  | _ => 5
/-- Bytes that an entry of a level covers. -/
def levelSize (l : Nat) : Nat := 2 ^ levelLow l
/-- Alignment of a level's table. -/
def tableAlign (l : Nat) : Nat := 8 * 2 ^ levelBits l

def eAddr (e : W64) : Nat := e.toNat / 2 ^ 8 % 2 ^ 44 * 2 ^ 8
def eKind (e : W64) : Nat := e.toNat / 2 % 4
def eRead (e : W64) : Bool := e.getLsbD 3
def eWrite (e : W64) : Bool := e.getLsbD 4
def eExec (e : W64) : Bool := e.getLsbD 5
def eCow (e : W64) : Bool := e.getLsbD 6

/-- Whether a valid entry of level `l` is malformed (R374). -/
def eMalformed (l : Nat) (e : W64) : Bool :=
  let a := eAddr e
  e.toNat / 2 ^ 52 % 16 ≠ 0 || e.getLsbD 7 ||
  match eKind e with
  | 0 => l = 4 || eCow e || a % tableAlign (l + 1) ≠ 0 || !paExists a
  | 1 => l < 2 || (eCow e && l ≠ 4) || a % levelSize l ≠ 0 || !paExists a ||
      !paExists (a + (levelSize l - 1)) || (paSpace a = 1 && (l ≠ 4 || eCow e))
  | 2 => l ≠ 0 || a ≠ 0 || eCow e
  | _ => true

/-- Walk from the table at `t` of level `l`, `fuel` levels at most (R372, R379). -/
def walkFrom (s : State) (va t : Nat) (fuel l : Nat) : Walk :=
  match fuel with
  | 0 => .unmapped
  | k + 1 =>
    let at_ := t + 8 * (va / 2 ^ levelLow l % 2 ^ levelBits l)
    if paFenced s at_ || hostRefuses s at_ then .unmapped
    else if readDue s at_ then .held
    else if dataBad s none at_ 8 then .dead at_
    else
      let e : W64 := BitVec.ofNat 64 (l2Read s at_ 8)
      if !e.getLsbD 0 then (if e.getLsbD 1 then .nonResident l at_ else .unmapped)
      else if eMalformed l e then .malformed l at_
      else match eKind e with
        | 0 => walkFrom s va (eAddr e) k (l + 1)
        | 1 => .leaf l e at_
        | _ => .window e

/-- A walk for a job's virtual address; a job with no valid entry or a bad root maps nothing. -/
def walk (s : State) (job va : Nat) : Walk :=
  if !paFenced s (jobAt s job) && runDue s (jobAt s job) 32 then .held
  else if dataBad s none (jobAt s job) 32 && !paFenced s (jobAt s job) then .dead (jobAt s job)
  else if !jobValid s job || jobRoot s job % 8192 ≠ 0 || !paExists (jobRoot s job) then .unmapped
  else walkFrom s va (jobRoot s job) 5 0

/-- The 57-bit address of a canonical value. -/
def va57 (a : W64) : Nat := a.toNat % 2 ^ 57

/-- The cached translation that covers an address (R377). -/
def tlbFind (s : State) (job va : Nat) : Option TlbEntry :=
  s.tlb.find? fun t => t.job = job && va / levelSize t.level = t.base

/-- The translation an access uses: a cached one first, else a walk. -/
def lookup (s : State) (job va : Nat) : Walk :=
  match tlbFind s job va with
  | some t => .leaf t.level t.leaf t.pa
  | none => walk s job va

/-- The physical address of an address under a leaf. -/
def leafPa (level : Nat) (e : W64) (va : Nat) : Nat := eAddr e + va % levelSize level

/-- The rights of R375. -/
def hasRight (e : W64) (acc : AccKind) : Bool :=
  match acc with
  | .read => eRead e
  | .write => eWrite e
  | .atomic => eRead e && eWrite e
  | .fetch => eExec e
def accWrites (acc : AccKind) : Bool :=
  match acc with
  | .write => true
  | .atomic => true
  | .read => false
  | .fetch => false

/-- Why an access waits: a record to be resolved, a copy to be made, a line of which the host has to answer the
back-invalidate (spec/21 R388), or a refresh that comes before it (spec/22 R413). -/
inductive WaitWhy where
  | record (va at_ level reason : Nat) | cow (page : Nat) | line (l : Nat) | refresh
  deriving DecidableEq, Repr

/-- A malformed entry that an access met, to be reported (R374): the page it covers, its level and its PA. -/
structure BadEntry where
  page  : Nat
  level : Nat
  at_   : Nat
  deriving DecidableEq, Repr

/-- The outcome of a translation. -/
inductive XRes where
  | ok (pa : Nat)
  | window (e : W64)
  /-- A fault kind of R242, with a malformed entry to report. -/
  | fault (kind : Nat) (bad : Option BadEntry)
  /-- The walk met uncorrectable data at a PA (R417). -/
  | dead (pa : Nat)
  | wait (why : WaitWhy)
  deriving DecidableEq, Repr

/-- The key of a verdict (R381): the page, its level, and 8 more for a record that held writes alone. -/
def verdictKey (page level reason : Nat) : Nat := page + level + if reason = 1 then 0 else 8
/-- The verdict that an access holds for its page: it faults, whatever the page's entry has become (R381). -/
def verdictFor (vs : List (Nat × Nat)) (va : Nat) (acc : AccKind) : Option Nat :=
  (vs.find? fun v =>
    let l := v.1 % 8
    v.1 / 2 ^ 16 * 2 ^ 16 = va / levelSize l * levelSize l && (v.1 / 8 % 2 = 0 || accWrites acc)).map Prod.snd

/-- Use a leaf: its rights, the fence of its stack, host pages whose requests fail, copy-on-write, lines that the host caches,
and a refresh that comes first (R375, R383, R388, R389, R413, R424). -/
def useLeaf (s : State) (level : Nat) (e : W64) (va : Nat) (acc : AccKind) : XRes :=
  let pa := leafPa level e va
  if paFenced s pa || hostRefuses s pa then .fault 1 none
  else if !hasRight e acc then .fault 2 none
  else if accWrites acc && eCow e then .wait (.cow (va / 2 ^ 16))
  else if accWrites acc && lineHeld s pa then .wait (.line (cellOf pa / 64))
  else if readDue s pa then .wait .refresh
  else .ok pa

/-- Use the end of a walk. A malformed entry gives a fault and a record to post; it waits while no record can be had
(R374, R380). -/
def useWalk (s : State) (w : Walk) (va : Nat) (acc : AccKind) : XRes :=
  match w with
  | .leaf l e _ => useLeaf s l e va acc
  | .window e => .window e
  | .unmapped => .fault 1 none
  | .dead a => .dead a
  | .held => .wait .refresh
  | .malformed l a =>
    if 1024 ≤ s.xrecs.length then .wait (.record (va / levelSize l * levelSize l) a l 3) else
      .fault 1 (some ⟨va / levelSize l * levelSize l, l, a⟩)
  | .nonResident l a => .wait (.record (va / levelSize l * levelSize l) a l 1)

/-- Translate a canonical address for an access: a lack of right is walked again once (R375). -/
def translate (s : State) (job : Nat) (a : W64) (acc : AccKind) (vs : List (Nat × Nat)) : XRes :=
  let va := va57 a
  match verdictFor vs va acc with
  | some k => .fault k none
  | none =>
    match useWalk s (lookup s job va) va acc with
    | .fault 2 b => if (tlbFind s job va).isSome then useWalk s (walk s job va) va acc else .fault 2 b
    | r => r

/-! Fault records (R379, R380) -/

/-- The access bits of R379 for who asks. -/
def accBits (acc : AccKind) (who : Waiter) : BitVec 8 :=
  (match acc with
    | .read => 1
    | .write => 2
    | .atomic => 3
    | .fetch => 4) |||
  (match who with
    | .warp _ => 0
    | .eng _ => 8
    | .tile _ => 0
    | .cmd _ => 8
    | .loop _ => 16
    | .fabric _ => 16
    | .launcher _ => 8)

/-- Add a waiter to a list. -/
def joinWaiters (l : List Waiter) (who : Waiter) : List Waiter := if l.contains who then l else l ++ [who]

/-- Join the outstanding record of a page and reason, or make one (R380): at most 1,024 are outstanding. -/
def postRecord (s : State) (job va at_ level reason : Nat) (acc : AccKind) (who : Waiter) : State :=
  let same (r : XRec) : Bool := r.job = job && r.va = va && r.reason = reason && r.reason ≠ 3
  if s.xrecs.any same then
    { s with xrecs := s.xrecs.map fun r =>
        if same r then
          { r with waiters := joinWaiters r.waiters who
                   access := if r.posted then r.access else r.access ||| accBits acc who }
        else r }
  else if s.xrecs.length ≥ 1024 then s
  else
    { s with
      xrecs := s.xrecs ++ [⟨va, at_, s.xtag, job, level, reason, accBits acc who, s.clock, false,
        if reason = 3 then [] else [who]⟩]
      xtag := s.xtag + 1 }

/-- The record on which the writes to a cow page wait: the pool is empty or the log is full (R383). -/
def cowRec (job page : Nat) (r : XRec) : Bool :=
  r.job = job && r.va = page * 2 ^ 16 && (r.reason = 2 || r.reason = 4)

/-- Make an access wait: on a record, or with the writes that a copy holds (R380, R383). -/
def waitOn (s : State) (job : Nat) (why : WaitWhy) (acc : AccKind) (who : Waiter) : State :=
  match why with
  | .record va at_ level reason => postRecord s job va at_ level reason acc who
  | .cow page =>
    if s.xrecs.any (cowRec job page) then
      { s with xrecs := s.xrecs.map fun r => if cowRec job page r then
          { r with waiters := joinWaiters r.waiters who
                   access := if r.posted then r.access else r.access ||| accBits acc who } else r }
    else if s.cows.any fun c => c.job = job && c.page = page then
      { s with cows := s.cows.map fun c => if c.job = job && c.page = page then
          { c with waiters := joinWaiters c.waiters who, access := c.access ||| accBits acc who } else c }
    else { s with cows := s.cows ++ [⟨s.nextCmd, job, page, accBits acc who, [who]⟩], nextCmd := s.nextCmd + 1 }
  | .line l => askLine s l
  | .refresh => s

/-- Whether someone waits on an outstanding record. -/
def waitsRecord (s : State) (who : Waiter) : Bool := s.xrecs.any fun r => r.waiters.contains who

/-- Report a malformed entry (R374): a record with reason 3 that nothing waits for. -/
def reportBad (s : State) (job : Nat) (bad : Option BadEntry) (acc : AccKind) (who : Waiter) : State :=
  match bad with
  | some b => postRecord s job b.page b.at_ b.level 3 acc who
  | none => s

/-- The verdicts that an access of the launch engine holds. -/
def lvs (s : State) (a : LaunchAcc) : List (Nat × Nat) := (s.lverdicts.filter fun v => v.1 = a).map Prod.snd

/-- The access is over: its verdicts hold for it alone (R381). -/
def spendVerdicts (s : State) (a : LaunchAcc) : State := { s with lverdicts := s.lverdicts.filter fun v => v.1 ≠ a }

/-! Unprivileged peeks, for hints and for checks that post nothing (R240, R241) -/

/-- The physical address behind a canonical address, where a leaf maps it. -/
def peekPa (s : State) (job : Nat) (a : W64) : Option Nat :=
  match lookup s job (va57 a) with
  | .leaf l e _ => some (leafPa l e (va57 a))
  | _ => none

/-- The walk of an address has to wait for a refresh (R413). -/
def peekHeld (s : State) (job : Nat) (a : W64) : Bool :=
  match lookup s job (va57 a) with
  | .held => true
  | _ => false

/-- The frame byte that an access of a right would reach: a cached leaf without the right is walked again (R375). -/
def frameOf (s : State) (job : Nat) (a : W64) (acc : AccKind) : Option Nat :=
  let va := va57 a
  let w : Walk := match lookup s job va with
    | .leaf l e p => if hasRight e acc then .leaf l e p else walk s job va
    | x => x
  match w with
  | .leaf l e _ => some (leafPa l e va)
  | _ => none

/-- The lines of `n` bytes at a virtual address, where pages map them, that the host may cache (R388). -/
def heldVa (s : State) (job : Nat) (a : W64) (n : Nat) : List Nat :=
  if n = 0 || (s.hostLines.isEmpty && s.backInv.isEmpty) then []
  else (List.range ((a.toNat + (n - 1)) / 64 - a.toNat / 64 + 1)).filterMap fun i =>
    match peekPa s job (BitVec.ofNat 64 (64 * (a.toNat / 64 + i))) with
    | some pa => if lineHeld s pa then some (cellOf pa / 64) else none
    | none => none

/-- A sector of `n` bytes at a virtual address, where pages map them, whose bank is to be refreshed first (R413). -/
def dueVa (s : State) (job : Nat) (a : W64) (n : Nat) : Bool :=
  n ≠ 0 && rowsHeld s && (List.range ((a.toNat + (n - 1)) / 128 - a.toNat / 128 + 1)).any fun i =>
    match peekPa s job (BitVec.ofNat 64 (128 * (a.toNat / 128 + i))) with
    | some pa => readDue s pa
    | none => false

/-- Whether an address lies in a sketch window of the job. -/
def inWindow (s : State) (job : Nat) (a : W64) : Bool :=
  match lookup s job (va57 a) with
  | .window _ => true
  | _ => false

/-- A request to host memory in a run of `n` bytes completes with an error (R389). -/
def hostRunBad (s : State) (pa n : Nat) : Bool :=
  paSpace pa = 2 && s.hostBad.any fun p => pa % 2 ^ 50 / 4096 ≤ p && p ≤ (pa % 2 ^ 50 + (n - 1)) / 4096

/-- The waits and faults of `n` bytes from `a`, page by page: the first page that does not translate decides. Every line of a page
that is to be written, and every bank that is to be read, may have to be waited for (R388, R413). -/
def translateRun (s : State) (job : Nat) (a : W64) (n : Nat) (acc : AccKind) (vs : List (Nat × Nat)) :
    Option (W64 × XRes) :=
  let pages := if n = 0 then 0 else (a.toNat + (n - 1)) / 2 ^ 16 - a.toNat / 2 ^ 16 + 1
  let rec go (i fuel : Nat) : Option (W64 × XRes) :=
    match fuel with
    | 0 => none
    | k + 1 =>
      let p := if i = 0 then a else BitVec.ofNat 64 ((a.toNat / 2 ^ 16 + i) * 2 ^ 16)
      if !canonical p then some (p, .fault 4 none)
      else match translate s job p acc vs with
        | .ok pa =>
          let m := min (2 ^ 16 - p.toNat % 2 ^ 16) (a.toNat + n - p.toNat)
          if hostRunBad s pa m then some (p, .fault 1 none)
          else match if accWrites acc then heldLines s pa m else [] with
            | l :: _ => some (p, .wait (.line l))
            | [] => if runDue s pa m then some (p, .wait .refresh) else go (i + 1) k
        | r => some (p, r)
  go 0 pages

end Sys2Proof.Machine
end

