-- ==== Sys2Proof/Machine/Ops.lean ====
section
/-! DEFINITION. The named operations over a warp and the machine that the meanings share: registers, lane masks, event tokens,
fault and error records, the reel and its unwinding (spec/06 R166 to R170), transfers of control (spec/02 R64 to R66),
taking an exception and the return from one (spec/18 R350 to R356), killing and retiring, and the issue of one word. -/

namespace Sys2Proof.Machine

/-- The outcome of a step. -/
abbrev Out := Host.Outcome State Fault Refusal

/-- What a step has to write holds lines that the host may cache: their back-invalidates go first, and the step is taken when
the host has answered (spec/21 R388). -/
def withLines (s : State) (ls : List Nat) (k : Out) : Out :=
  match ls with
  | [] => k
  | _ :: _ => .next (askLines s ls)

/-! Warps -/

def Bank.blank : Bank := ⟨0, 0, 0, 0, 0, 0, 0, 0, [], 0, 0⟩

/-- A warp with every register at its value at the issue of the first instruction (R157, R187). -/
def Warp.blank : Warp where
  launch := 0
  gang := 0
  group := 0
  wid := 0
  core := 0
  slot := 0
  shadowSlot := none
  gangId := 0
  groupId := 0
  warpId := 0
  nv := 32
  ns := 8
  stat := .running
  level := 0
  pc := 0
  started := false
  word := 0
  n := 0
  code := []
  codeAt := 0
  ports := 0
  flow := false
  ridx := 0
  barH := 0
  barJ := 0
  entry := 0
  exm := 0xFFFFFFFF
  fltm := 0
  demm := 0
  deadm := 0
  deck := 5
  fpst := 0
  mode := false
  mclaim := 0
  mrowm := 0
  mcolm := 0
  ev := []
  evSys := 0
  lc := []
  loops := []
  calls := []
  reel := []
  v := []
  s := []
  p := []
  m := []
  w := []
  cells := []
  h := Bank.blank
  k := Bank.blank
  kuser := 0
  tile := none
  pend := []
  fence := none
  closed := []
  openId := 0
  openN := 0
  openUsed := false
  verdicts := []
  waits := 0
  lag := 0

def getW (s : State) (w : Nat) : Warp := s.warps.getD w Warp.blank
def updW (s : State) (w : Nat) (f : Warp → Warp) : State := { s with warps := updAt s.warps w f }
def setW (s : State) (w : Nat) (x : Warp) : State := updW s w fun _ => x

/-! Registers (R54) -/

def vKey (r l : Nat) : Nat := 32 * r + l
def vGet (W : Warp) (r l : Nat) : W32 := tabGet 0 W.v (vKey r l)
def vSet (W : Warp) (r l : Nat) (x : W32) : Warp := { W with v := tabSet 0 W.v (vKey r l) x }
/-- s0 reads zero (R54). -/
def sGet (W : Warp) (r : BitVec 6) : W64 := if r = 0 then 0 else tabGet 0 W.s r.toNat
/-- A write to s0 is discarded (R54). -/
def sSet (W : Warp) (r : BitVec 6) (x : W64) : Warp :=
  if r = 0 then W else { W with s := tabSet 0 W.s r.toNat x }
def pGet (W : Warp) (r : Nat) : W32 := tabGet 0 W.p r
def pSet (W : Warp) (r : Nat) (x : W32) : Warp := { W with p := tabSet 0 W.p r x }
def mGet (W : Warp) (r : Nat) : BitVec 256 := tabGet 0 W.m r
def mSet (W : Warp) (r : Nat) (x : BitVec 256) : Warp := { W with m := tabSet 0 W.m r x }
def WebSlot.blank : WebSlot := ⟨0, 0, 0, false⟩
def wGet (W : Warp) (r : Nat) : WebSlot := tabGet WebSlot.blank W.w r
def wSet (W : Warp) (r : Nat) (x : WebSlot) : Warp := { W with w := tabSet WebSlot.blank W.w r x }
def lcGet (W : Warp) (r : Nat) : W64 := tabGet 0 W.lc r
def lcSet (W : Warp) (r : Nat) (x : W64) : Warp := { W with lc := tabSet 0 W.lc r x }

/-! Lane masks (R5, R161) -/

/-- The lanes of a mask in ascending order. -/
def lanesOf (m : W32) : List Nat := (List.range 32).filter fun i => m.getLsbD i
def laneBit (l : Nat) : W32 := BitVec.ofNat 32 (2 ^ l)
def maskOf (l : List Nat) : W32 := l.foldl (fun m i => m ||| laneBit i) 0
/-- The lanes of EXM that are not demoted: those that make accesses (R163). -/
def performing (W : Warp) : W32 := W.exm &&& ~~~ W.demm
def countLanes (m : W32) : Nat := (lanesOf m).length
/-- The lanes that wait in some reel entry. -/
def reelLanes (W : Warp) : W32 := W.reel.foldl (fun m e => m ||| e.mask) 0
/-- The live lanes: active, demoted or inactive (R161). -/
def liveLanes (W : Warp) : W32 := W.exm ||| reelLanes W

/-! Launches -/

def Launch.blank : Launch := ⟨0, 0, 0, 0, 0, [], 0, 0, false, 0, 0, false, false, none, false⟩
def getL (s : State) (l : Nat) : Launch := s.launches.getD l Launch.blank
def updL (s : State) (l : Nat) (f : Launch → Launch) : State := { s with launches := updAt s.launches l f }
def getG (s : State) (g : Nat) : Group := s.groups.getD g ⟨0, 0, 0, [], [], [], true⟩
def updG (s : State) (g : Nat) (f : Group → Group) : State := { s with groups := updAt s.groups g f }
def getGang (s : State) (g : Nat) : Gang := s.gangs.getD g ⟨0, 0, [], .released, [], []⟩
def updGang (s : State) (g : Nat) (f : Gang → Gang) : State := { s with gangs := updAt s.gangs g f }

/-- A field of a launch packet: bits [lo + n − 1 : lo] (R335). -/
def pktField (p : BitVec 1024) (lo n : Nat) : Nat := p.toNat / 2 ^ lo % 2 ^ n
def pkEntry (p : BitVec 1024) : W64 := BitVec.ofNat 64 (pktField p 0 64)
def pkScratch (p : BitVec 1024) : Nat := 256 * pktField p 864 11
def pkGroup (p : BitVec 1024) : Nat := pktField p 881 5 + 1
def pkGang (p : BitVec 1024) : Nat := pktField p 886 2 + 1
def pkRecord (p : BitVec 1024) : Bool := p.getLsbD 888
def pkCexit (p : BitVec 1024) : Bool := p.getLsbD 889
def pkCores (p : BitVec 1024) : Bool := p.getLsbD 890
def pkTether (p : BitVec 1024) : Bool := p.getLsbD 891
def pkVregs (p : BitVec 1024) : Nat := 32 * (pktField p 875 3 + 1)
def pkSregs (p : BitVec 1024) : Nat := 8 * (pktField p 878 3 + 1)
def pkGangs (p : BitVec 1024) : Nat := pktField p 768 32
def pkId (p : BitVec 1024) : Nat := pktField p 800 32
def pkRelease (p : BitVec 1024) : Nat := pktField p 704 64
def pkLogCap (p : BitVec 1024) : Nat := pktField p 832 16
def pkFaultLog (p : BitVec 1024) : Nat := pktField p 192 64

def warpPkt (s : State) (W : Warp) : BitVec 1024 := (getL s W.launch).packet
def warpJob (s : State) (W : Warp) : Nat := (getL s W.launch).job

/-! Event tokens (R39) -/

def evGet (W : Warp) (t : Nat) : Nat := tabGet 0 W.ev t
def evFull (W : Warp) (t : Option (BitVec 3)) : Bool :=
  match t with
  | some k => evGet W k.toNat ≥ 63
  | none => false
/-- Arm a token; `sys` marks a fabric command's (R139). -/
def arm (W : Warp) (t : Option (BitVec 3)) (sys : Bool) : Warp :=
  match t with
  | some k => { W with
      ev := tabSet 0 W.ev k.toNat (evGet W k.toNat + 1)
      evSys := if sys then W.evSys ||| BitVec.ofNat 6 (2 ^ k.toNat) else W.evSys }
  | none => W
/-- A completion takes one off its token; while the warp is saved it is counted for the restore (R365). -/
def signal (s : State) (w : Nat) (t : Option (BitVec 3)) : State :=
  match t with
  | some k =>
    let W := getW s w
    if W.stat = .saved then
      updGang s W.gang fun g => { g with doneTok := g.doneTok ++ [(w, k.toNat)] }
    else setW s w { W with ev := tabSet 0 W.ev k.toNat (evGet W k.toNat - 1) }
  | none => s
/-- Every token that a mask names is signalled. -/
def tokensReady (W : Warp) (m : BitVec 6) : Bool :=
  (List.range 6).all fun k => !m.getLsbD k || evGet W k = 0

/-- The L1's part of a join: that of a fence of device scope (R129, R139). -/
def joinFence (s : State) (W : Warp) : State := l1Fence s W.core

/-- The fabric commands (R139). -/
def isFabric (k : CmdKind) : Bool :=
  match k with
  | .rput | .rputSig | .rget | .radd | .rsig => true
  | .cpy | .rsel | .skcfg | .skfold | .skmerge | .tmerge | .spawn | .clean | .inval => false

/-- What a fence waits for: the warp's earlier loads have returned and, at system scope, its earlier fabric commands have
completed and the host has answered for the lines that it cached (R132, R388). -/
def fenceDone (s : State) (w : Nat) (sys : Bool) : Bool :=
  (getW s w).pend.isEmpty && (!sys || (s.backInv.isEmpty && !s.cmds.any fun c => c.warp = w && isFabric c.kind))

/-! Register results on their way (R59 to R63) -/

def landCells (W : Warp) (cs : List (Nat × W32)) : Warp :=
  cs.foldl (fun x c => { x with v := tabSet 0 x.v c.1 c.2 }) W
/-- Write every pending result of a warp and signal the tokens (R63). -/
def landAll (s : State) (w : Nat) : State :=
  let ps := (getW s w).pend
  let s1 := updW s w fun W => { ps.foldl (fun x p => landCells x p.cells) W with pend := [] }
  ps.foldl (fun t p => signal t w p.tok) s1
/-- What lands before the next instruction of a warp: all of a result whose window has passed, and any registers and lanes
of the others. Each register of a result lands by itself in each lane (DESIGN CHOICE, log 6: R61 gives the lanes'
independence and is silent on registers of one lane). -/
def landWindow (s : State) (w : Nat) : State :=
  let ps := (getW s w).pend
  let s1 := ps.foldl (fun t p =>
    if p.look = 0 then signal (updW t w fun W => landCells W p.cells) w p.tok
    else
      let now := p.cells.filter fun c => Config.landsEarly t.ctr c.1
      let later := p.cells.filter fun c => !Config.landsEarly t.ctr c.1
      { updW t w fun W =>
          let W' := landCells W now
          { W' with pend := W'.pend ++ [⟨later, p.look - 1, p.tok⟩] } with ctr := t.ctr + 1 })
    (updW s w fun W => { W with pend := [] })
  s1

/-! Error records (spec/23 R419, R420) -/

/-- Add one to counter `i` of die `d`, saturating (R419). -/
def rcount (s : State) (d i : Nat) : State :=
  let off := 0x200100 + 0x40 * d + 8 * i
  let v := barGet s off
  barSet s off (if v = BitVec.allOnes 64 then v else v + 1)

/-- Add `n`. -/
def rcountBy (s : State) (d i n : Nat) : State :=
  let off := 0x200100 + 0x40 * d + 8 * i
  barSet s off (BitVec.ofNat 64 (min ((barGet s off).toNat + n) (2 ^ 64 - 1)))

def dieOf (core : Nat) : Nat := core / 128

/-- Where the next record of the error ring goes (R418). -/
def errAt (s : State) : Nat :=
  (barGet s 0x200000).toNat + 64 * ((barGet s 0x200010).toNat % 2 ^ ((barGet s 0x200008).toNat % 16))
/-- Append a record to the error ring, or count it as dropped (R420); a ring on a fenced stack takes none (R424). -/
def errPut (s : State) (v : Nat) : State :=
  let ctl := barGet s 0x200008
  let n := 2 ^ (ctl.toNat % 16)
  let wr := (barGet s 0x200010).toNat
  let rd := (barGet s 0x200018).toNat
  if ctl.getLsbD 4 && !paFenced s (errAt s) && (wr + 2 ^ 32 - rd % 2 ^ 32) % 2 ^ 32 < n then
    let s1 := clearCovered (l2Store s (errAt s) 64 v) [(errAt s, 64)]
    barSet s1 0x200010 (BitVec.ofNat 64 ((wr + 1) % 2 ^ 32))
  else barSet s 0x200040 (barGet s 0x200040 + 1)
/-- The lines of the place of the next record that the host may cache; none where the ring is off and takes no record. -/
def errLines (s : State) : List Nat := if (barGet s 0x200008).getLsbD 4 then heldLines s (errAt s) 64 else []
/-- The records that wait for the host go to the ring, oldest first, as far as no line of it has to be asked for (R388). -/
def errFlush (s : State) (fuel : Nat) : State :=
  match fuel with
  | 0 => s
  | k + 1 =>
    match s.errq with
    | [] => s
    | v :: r => match errLines s with
      | [] => errFlush (errPut { s with errq := r } v) k
      | l :: ls => askLines s (l :: ls)
/-- The value of an error record (R420). -/
def errValue (s : State) (cls action die job launchid loc pa : Nat) : Nat :=
  s.time.toNat + 2 ^ 64 * pa + 2 ^ 128 * launchid + 2 ^ 160 * job + 2 ^ 168 * cls + 2 ^ 176 * action + 2 ^ 184 * die
    + 2 ^ 192 * loc
/-- An error record is made: it goes to the ring, or waits while the host may cache a line of its place (R388, R420). -/
def errRecord (s : State) (cls action die job launchid loc : Nat) (pa : Nat) : State :=
  let v := errValue s cls action die job launchid loc pa
  if s.errq.isEmpty && (errLines s).isEmpty then errPut s v
  else errFlush { s with errq := s.errq ++ [v] } (s.errq.length + 1)

/-- Unit id and bank of the cell of a DRAM address, for the location field (R420). -/
def paLoc (pa : Nat) : Nat :=
  let a := linearOf pa
  if paSpace a = 1 then paUnit a + 2 ^ 14 * paBank a else 0

/-! Errors that ECC finds (R417 to R422) -/

/-- The error that stands in `n` bytes of a scratchpad. -/
def scrBad (s : State) (g off n : Nat) : Option Upset :=
  s.upsets.find? fun u => match u with
    | .scr h k => h = g && decide (off / 32 ≤ k) && decide (k ≤ (off + (n - 1)) / 32)
    | _ => false
def dropUpset (s : State) (u : Upset) : State := { s with upsets := s.upsets.filter fun e => e ≠ u }

/-- An error of a core's SRAM or registers is consumed: record and count (R419, R420). -/
def sramError (s : State) (u : Upset) (core action job launchid pa : Nat) : State :=
  errRecord (rcount (dropUpset s u) (dieOf core) 3) 3 action (dieOf core) job launchid (core % 1024) pa
/-- Uncorrectable data of `n` bytes at `pa` is consumed: record and count by where it stood (R417, R419, R422). -/
def consumed (s : State) (core : Option Nat) (pa n action job launchid : Nat) : State :=
  match poisonIn s core pa n with
  | some a => errRecord (rcount s (paStack a) 1) 1 action (paStack a) job launchid (paLoc a) a
  | none => match eccIn s core pa n with
    | some (.l2 k) =>
      let d := paStack (32 * k)
      errRecord (rcount (dropUpset s (.l2 k)) d 5) 4 action d job launchid (paLoc (32 * k)) (32 * k)
    | some (.l1 c k) => sramError s (.l1 c k) c action job launchid (32 * k)
    | _ => s
/-- Uncorrectable data of a scratchpad is consumed by a core. -/
def scrConsumed (s : State) (g off n core action job launchid : Nat) : State :=
  match scrBad s g off n with
  | some u => sramError s u core action job launchid 0
  | none => s

/-- A unit becomes poisoned: it is counted and recorded, once (R422). -/
def poisonNew (s : State) (u cls cnt : Nat) : State :=
  if s.poison.contains (unitCell u) && !isCured s none (unitCell u) then s
  else
    let d := paStack (32 * u)
    errRecord (rcount (addPoison s u) d cnt) cls 5 d 0 0 (paLoc (32 * u)) (32 * u)
/-- Before the dirty ones of the units of a sector of the home L2 that `m` names are written to DRAM: those in which an error
stands are poisoned (R422). -/
def poisonUnits (s : State) (k : Nat) (m : BitVec 128) : State :=
  match l2Find s k with
  | none => s
  | some x => s.upsets.foldl (fun t u => match u with
      | .l2 n => if n / 4 = k && x.dirty &&& m &&& byteMask (32 * (n % 4)) 32 ≠ 0 then poisonNew (dropUpset t u) n 4 5 else t
      | _ => t) s
def poisonBack (s : State) (k : Nat) : State := poisonUnits s k (BitVec.allOnes 128)
/-- Write a sector of the home L2 back with what its ECC finds. -/
def l2WriteBack (s : State) (k : Nat) : State := l2Clean (poisonBack s k) k
/-- The same of the units that a write of the bytes `m` touches. -/
def unitsBack (s : State) (k : Nat) (m : BitVec 128) : State := l2CleanUnits (poisonBack s k) k (wholeUnits m)

/-! Fault records (spec/09 R245, R246) -/

/-- Send a record to the launch engine. -/
def sendRecord (s : State) (W : Warp) (lane kind reg word : Nat) (hdr addr : W64) : State :=
  let v := s.clock.toNat + 2 ^ 64 * reg + 2 ^ 72 * W.groupId.toNat + 2 ^ 74 * W.warpId.toNat + 2 ^ 79 * lane
    + 2 ^ 84 * (word % 16) + 2 ^ 88 * kind + 2 ^ 96 * W.gangId.toNat + 2 ^ 128 * hdr.toNat + 2 ^ 192 * addr.toNat
  { s with recq := s.recq ++ [⟨W.launch, BitVec.ofNat 256 v⟩] }

/-! Lanes that leave (R164, R168) -/

/-- Remove lanes from EXM and from every reel mask (R168). -/
def dropLanes (W : Warp) (m : W32) : Warp :=
  { W with
    exm := W.exm &&& ~~~ m
    reel := W.reel.map fun e => { e with mask := e.mask &&& ~~~ m } }

/-- Lane counts of the launch status saturate (R345). -/
def satAdd32 (a b : Nat) : Nat := min (a + b) (2 ^ 32 - 1)

/-- Park lanes in record mode (R164, R244, R345). -/
def parkLanes (s : State) (w : Nat) (m : W32) : State :=
  let s1 := updW s w fun W => { dropLanes W m with fltm := W.fltm ||| m }
  updL s1 (getW s w).launch fun L => { L with parked := satAdd32 L.parked (countLanes m) }

/-- Kill the live lanes of a mask: records of kind 0x0B, counts, and removal (R357, R419). -/
def killLanes (s : State) (w : Nat) (m : W32) (addr hdr : W64) (word : Nat) : State :=
  let W := getW s w
  let m' := m &&& liveLanes W
  let s1 := (lanesOf m').foldl (fun t l => rcount (sendRecord t W l 0x0B 0 word hdr addr) (dieOf W.core) 6) s
  let s2 := updW s1 w fun W => { dropLanes W m' with deadm := W.deadm ||| m' }
  updL s2 W.launch fun L => { L with dead := satAdd32 L.dead (countLanes m') }

/-! Barriers (R174, R349) -/

def Bar.blank : Bar := ⟨0, 0, false, false⟩
def barOf (G : Group) (n : Nat) : Bar := tabGet Bar.blank G.bars n

/-- The phase of barrier `n` completes: its warps proceed and their lag counts change (R174, R349). -/
def completePhase (s : State) (g n : Nat) (last : Option Nat) : State :=
  let G := getG s g
  let b := barOf G n
  let s1 := updG s g fun G => { G with bars := tabSet Bar.blank G.bars n Bar.blank }
  G.warps.foldl (fun t w =>
    let W := getW t w
    if W.stat = .waitBar n then
      let lag := if b.expected < 2 then W.lag
        else if last = some w then min 15 (W.lag + 1) else W.lag - 1
      setW t w { W with stat := .running, lag := lag }
    else t) s1

def warpGone (W : Warp) : Bool := W.stat = .retired || W.stat = .killed
/-- The group's warps that have not retired. -/
def groupLive (s : State) (g : Nat) : Nat := ((getG s g).warps.filter fun w => !warpGone (getW s w)).length

/-- A retiring warp lowers the counts that `bar` fixed (R174). -/
def leaveBars (s : State) (g : Nat) : State :=
  (List.range 16).foldl (fun t n =>
    let b := barOf (getG t g) n
    if b.opn && b.byBar then
      let b' := { b with expected := b.expected - 1 }
      let t1 := updG t g fun G => { G with bars := tabSet Bar.blank G.bars n b' }
      if b'.expected ≤ b'.arrivals then completePhase t1 g n none else t1
    else t) s

/-- Arrival at a barrier with the count that a first arrival fixes (R174). -/
def arriveBar (s : State) (w n want : Nat) (byBar : Bool) : State :=
  let W := getW s w
  let g := W.group
  let live := groupLive s g
  let b := barOf (getG s g) n
  let b1 : Bar := if b.opn then { b with arrivals := b.arrivals + 1 }
    else ⟨1, if byBar || want = 0 || live < want then live else want, byBar, true⟩
  let s1 := updG (setW s w { W with stat := .waitBar n }) g fun G => { G with bars := tabSet Bar.blank G.bars n b1 }
  if b1.expected ≤ b1.arrivals then completePhase s1 g n (some w) else s1

/-! Slots of save pools (R351, R361) -/

/-- The handler table entry of a job (R351). -/
def xhEntry (s : State) (job : Nat) : Nat :=
  tblRead s ((barGet s 0x20000).toNat + 32 * job) 32
/-- Uncorrectable data in it. -/
def xhBad (s : State) (job : Nat) : Option Nat := tblBad s ((barGet s 0x20000).toNat + 32 * job) 32
def poolBase (e : Nat) : W64 := BitVec.ofNat 64 (e / 2 ^ 64)

/-- Give a slot back in the bitmap of the job's pool (R361, R366): an atomic of the launch engine, which waits where its page
has to be served or copied first (R379, R383). A byte of the bitmap, or an entry on the way to it, that is uncorrectable is
recorded and the slot stays taken (DESIGN CHOICE, log 77). -/
def freeSlot (s : State) (job slot : Nat) : State :=
  let a := poolBase (xhEntry s job) + BitVec.ofNat 64 (slot / 8)
  if !canonical a then s
  else match translate s job a .atomic (lvs s (.slot job slot)) with
    | .ok pa =>
      let b := l2Byte s pa
      if dataBad s none pa 1 then consumed s none pa 1 0 job 0
      else l2Store s pa 1 (b &&& ~~~ (BitVec.ofNat 8 (2 ^ (slot % 8)))).toNat
    | .wait y => waitOn { s with frees := s.frees ++ [(job, slot)] } job y .atomic (.launcher (.slot job slot))
    | .fault _ bad => reportBad (spendVerdicts s (.slot job slot)) job bad .atomic (.launcher (.slot job slot))
    | .dead q => consumed s none q 8 0 job 0
    | .window _ => s

/-! Retiring and killing (R173, R178, R260) -/

/-- Release a group whose warps have all gone, and its gang with its last group (R178); the slot that a gang being stopped had
claimed is not in use any more and is given back (R361). -/
def releaseGroup (s : State) (g : Nat) : State :=
  let G := getG s g
  if !G.released && G.warps.all fun w => warpGone (getW s w) then
    let s1 := updG s g fun G => { G with released := true }
    let gg := getGang s1 G.gang
    if gg.groups.all fun h => (getG s1 h).released then
      let s2 := updGang s1 G.gang fun x => { x with stat := .released }
      match gg.stat with
      | .stopping slot => freeSlot s2 (getL s2 gg.launch).job slot
      | _ => s2
    else s1
  else s

/-- A warp leaves for good: its claim is discarded and its group may be released. -/
def retireNow (s : State) (w : Nat) : State :=
  let W := getW s w
  let s1 := setW s w { W with
    stat := .retired, exm := 0, mode := false, mclaim := 0, cells := [], tile := none, reel := [], level := 0 }
  releaseGroup (leaveBars s1 W.group) W.group

/-- A warp with no live lane retires (R173); at level 0 a pending tile operation runs to its end first (R260), and in a
handler it is dropped and its token signalled (R276, R355). -/
def retireWarp (s : State) (w : Nat) : State :=
  let s0 := landAll s w
  let W := getW s0 w
  match W.tile with
  | some t =>
    if W.level = 0 then setW s0 w { W with stat := .waitTile, exm := 0 }
    else retireNow (signal s0 w t.tok) w
  | none => retireNow s0 w

/-- Kill one warp: it issues nothing more (R173, R260). -/
def killWarp (s : State) (w : Nat) : State :=
  let W := getW s w
  if warpGone W then s
  else
    let s1 := setW s w { W with
      stat := .killed, mode := false, mclaim := 0, cells := [], tile := none, pend := [], fence := none }
    releaseGroup (leaveBars s1 W.group) W.group

/-- The launch engine tries the waiting writes again. -/
def retryFrees (s : State) : State :=
  let held (f : Nat × Nat) : Bool := waitsRecord s (.launcher (.slot f.1 f.2))
  (s.frees.filter fun f => !held f).foldl (fun t f => freeSlot t f.1 f.2) { s with frees := s.frees.filter held }

/-! Vat units, queues, channels (spec/12 R302, R318, R322; spec/22 R414) -/

def VatUnit.blank : VatUnit := ⟨[], none⟩
def unitOf (s : State) (u : Nat) : VatUnit := tabGet VatUnit.blank s.vats u
def putUnit (s : State) (u : Nat) (x : VatUnit) : State := { s with vats := tabSet VatUnit.blank s.vats u x }
/-- Commands that a unit holds, the running one included. -/
def unitLoad (x : VatUnit) : Nat := x.queue.length + (if x.run.isSome then 1 else 0)

/-- Every queue of a channel is empty. -/
def chanEmpty (s : State) (c : Nat) : Bool := (List.range 8).all fun i => unitLoad (unitOf s (8 * c + i)) = 0
/-- Begin to hand ownership over: the records go when no refresh is in flight (R414). -/
def handover (x : Channel) (st : RefreshState) : Channel := { x with state := st, sent := x.inFlight.isNone }
/-- A command has reached a unit of a channel. -/
def wakeChan (s : State) (c : Nat) : State :=
  let x := chanOf s c
  if x.state = .normal then putChan s c (handover x .entering) else s
/-- A channel whose last queue has emptied leaves compute mode. -/
def restChan (s : State) (c : Nat) : State :=
  let x := chanOf s c
  if x.state = .compute && chanEmpty s c then putChan s c (handover x .leaving) else s

/-- Every channel whose last queue has emptied leaves compute mode. -/
def restAll (s : State) : State := s.channels.foldl (fun t e => restChan t e.1) s

/-- Remove the commands of a launch that have not started (R320, R347). -/
def dropCommands (s : State) (l : Nat) : State :=
  restAll { s with
    cmds := s.cmds.filter fun c => c.launch ≠ l || c.started
    vats := s.vats.map fun e => (e.1, { e.2 with queue := e.2.queue.filter fun c => c.launch ≠ l })
    vatWait := s.vatWait.filter fun e => e.2.launch ≠ l
    posts := s.posts.map fun e => (e.1, { e.2 with todo := e.2.todo.filter fun x => x.cmd.launch ≠ l }) }

/-- End a launch early with a state and code of R345: its warps are killed, held, unplaced and saved gangs are removed, and
commands that have not started are dropped (R173, R347, R350). -/
def endLaunch (s : State) (l state code : Nat) : State :=
  let L := getL s l
  if L.complete || L.endState ≠ 0 then s
  else
    let s1 := updL s l fun L => { L with endState := state, endCode := code }
    let s2 := L.gangs.foldl (fun t g =>
      let x := getGang t g
      let kill (u : State) : State :=
        x.groups.foldl (fun u h => releaseGroup ((getG u h).warps.foldl (fun v w => killWarp v w) u) h) u
      match x.stat with
      | .released => t
      | .saved slot => kill (freeSlot t L.job slot)
      | .stopping _ => kill t
      | .held => kill t
      | .running => kill t) s1
  dropCommands s2 l

/-! Transfers (R64 to R66, R170, R196) -/

/-- The legality of a landing target (R64); a malformed entry that a fetch met is to be reported (R374). -/
inductive Landing where
  | ok | landing | fetch (bad : Option BadEntry)
  /-- The walk for the target met uncorrectable data at a PA (R67, R417). -/
  | dead (pa : Nat)
  | wait (why : WaitWhy)
  deriving DecidableEq, Repr

/-- The word at a code address, read at the home L2. -/
def fetchWord (s : State) (W : Warp) (a : W64) : XRes × W32 :=
  if !canonical a then (.fault 4 none, 0)
  else match translate s (warpJob s W) a .fetch W.verdicts with
    | .ok pa => (.ok pa, BitVec.ofNat 32 (l2Read s pa 4))
    | .window _ => (.fault 1 none, 0)
    | r => (r, 0)

/-- R64 of a target. -/
def landCheck (s : State) (W : Warp) (a : W64) : Landing :=
  if a.toNat % 4 ≠ 0 then .landing
  else match fetchWord s W a with
    | (.ok _, x) => if x.toNat / 2 ^ 26 = 0x3F then .ok else .landing
    | (.wait why, _) => .wait why
    | (.fault _ bad, _) => .fetch bad
    | (.dead q, _) => .dead q
    | (.window _, _) => .fetch none

/-- The end of a loop's body. -/
def loopEnd (r : LoopRec) : W64 := r.start + BitVec.ofNat 64 (4 * r.words)

/-- A taken transfer clears the loops that its target leaves (R196). -/
def leaveLoops (W : Warp) (a : W64) : Warp :=
  { W with loops := W.loops.filter fun e => decide (e.2.start ≤ a ∧ a < loopEnd e.2) }

/-- Put the warp at a clause start. -/
def atClause (W : Warp) (a : W64) : Warp :=
  { W with pc := a, started := false, word := 0, n := 0, flow := false, ridx := 0 }

/-- A target lane group's mask and address: the least target among the unserved lanes that are not all demoted (R170).
Targets go by their offset from the entry header, also where one wraps past 2^64 (DESIGN CHOICE, log 88: R170 does not order them). -/
def nextGroup (W : Warp) (e : ReelEntry) : Option (W32 × W64) :=
  let tgt (l : Nat) : Nat := (tabGet 0 e.targets l).toNat
  let grp (t : Nat) : W32 := maskOf ((lanesOf e.mask).filter fun l => tgt l = t)
  let ts := ((lanesOf e.mask).map tgt).filter fun t => grp t &&& ~~~ W.demm ≠ 0
  match ts.min? with
  | some t => some (grp t, W.entry + BitVec.ofNat 64 t)
  | none => none

/-- The reel was lowered from `d + 1` entries to `d`: the call entry that recorded `d + 1` is discarded with every entry
above it (R190). R190 names the unwinding by R169 alone; the pop of a `JXT` or `JOIN` entry at an arrival at J, with EXM not
empty, is resumed "as in R169" (R170), and the model lets it discard call entries too (DESIGN CHOICE, log 78). -/
def trimFrom (d : Nat) (cs : List CallRec) : List CallRec :=
  match cs with
  | [] => []
  | c :: r => if r.any (fun e => e.reelsp = d + 1) then trimFrom d r else if c.reelsp = d + 1 then r else c :: r
def trimCalls (W : Warp) : Warp := { W with calls := trimFrom W.reel.length W.calls }

/-- How an unwinding or an arrival ends. -/
inductive Resume where
  | go (W : Warp) | retire (W : Warp)
  deriving DecidableEq, Repr

/-- Resume the top of the reel (R169, R170); each round pops an entry or leaves a warp that runs. `join` asks to serve a
JXT entry on top although EXM is not empty. -/
def resumeReel (W : Warp) (fuel : Nat) : Resume :=
  match fuel with
  | 0 => .retire W
  | k + 1 =>
    match W.reel with
    | [] => .retire W
    | e :: r =>
      if e.mask = 0 then resumeReel (trimCalls { W with reel := r }) k
      else match e.kind with
        | .ifK => .go (atClause (leaveLoops { W with exm := e.mask, reel := ⟨.elseK, 0, e.resume, []⟩ :: r } e.resume) e.resume)
        | .elseK => .go (atClause (leaveLoops { W with exm := e.mask } e.resume) e.resume)
        | .joinK =>
          .go (atClause (leaveLoops (trimCalls { W with exm := e.mask, reel := r }) e.resume) e.resume)
        | .jxtK =>
          match nextGroup W e with
          | some (g, a) =>
            .go (atClause (leaveLoops { W with exm := g, reel := { e with mask := e.mask &&& ~~~ g } :: r } a) a)
          | none => resumeReel (trimCalls { W with reel := r }) k

/-- A warp whose lanes have left it in a stalled `wait` or `cpwait` waits no more: it goes on where its reel resumes (R169). -/
def leaveWait (W : Warp) : Warp :=
  match W.stat with
  | .waitTok _ | .waitCp _ => { W with stat := .running }
  | _ => W

/-- R169: EXM is empty. -/
def unwind (s : State) (w : Nat) : State :=
  match resumeReel (leaveWait (getW s w)) 33 with
  | .go W => setW s w W
  | .retire _ => retireWarp s w

/-- Unwind when EXM has become empty (R169). -/
def unwindIfEmpty (s : State) (w : Nat) : State :=
  if (getW s w).exm = 0 then unwind s w else s

/-- Serve the JXT entries whose group has arrived: the warp stands at a clause whose address is the top JXT entry's J
(R170). -/
def serveArrivals (W : Warp) (fuel : Nat) : Resume :=
  match fuel with
  | 0 => .go W
  | k + 1 =>
    match W.reel with
    | e :: _ =>
      if e.kind = .jxtK ∧ !W.started ∧ W.pc = e.resume then
        match resumeReel W 33 with
        | .go W' => serveArrivals W' k
        | .retire W' => .retire W'
      else .go W
    | [] => .go W

/-- The warp stands at the join of the JXT entry on top of its reel (R170). -/
def atJoin (W : Warp) : Bool :=
  match W.reel with
  | e :: _ => decide (e.kind = .jxtK) && !W.started && decide (W.pc = e.resume)
  | [] => false

/-- The warp has reached a clause start: groups that have arrived are joined. -/
def settle (s : State) (w : Nat) : State :=
  match serveArrivals (getW s w) 64 with
  | .go W => setW s w W
  | .retire _ => retireWarp s w

/-- A taken transfer to a legal target (R65, R196). -/
def jumpTo (s : State) (w : Nat) (a : W64) : State :=
  settle (updW s w fun W => atClause (leaveLoops W a) a) w

/-- The address of the next word in sequential flow. -/
def nextAddr (W : Warp) : W64 :=
  if W.started then W.pc + BitVec.ofNat 64 (4 + 4 * W.word) else W.pc

/-- Sequential flow past an instruction of `len` words (R35, R65). -/
def advanceW (W : Warp) (len : Nat) : Warp :=
  let j := W.word + len
  if j < W.n then { W with word := j, flow := true, ridx := 0, verdicts := [] }
  else { W with
    pc := W.pc + BitVec.ofNat 64 (4 + 4 * W.n), started := false, word := 0, n := 0, flow := true, ridx := 0
    verdicts := [] }

/-- Whether an active loop ends at the address the warp has reached. -/
def atLoopEnd (W : Warp) : Bool := W.loops.any fun e => loopEnd e.2 = nextAddr W

/-- An instruction completes in sequential flow. An arrival at a JXT join is served unless a loop end stands there. -/
def advance (s : State) (w len : Nat) : State :=
  let s1 := updW s w fun W => advanceW W len
  if atLoopEnd (getW s1 w) then s1 else settle s1 w

/-- An instruction completes; when its faults or errors left EXM empty the warp unwinds (R164, R169). -/
def complete (s : State) (w len : Nat) (was : W32) : State :=
  if (getW s w).exm = 0 && was ≠ 0 then unwind (updW s w fun W => advanceW W len) w else advance s w len

/-- A pending tile operation whose operand fetches hold back later stores, atomics, engine commands and fences (R273). An
operation that a handler's entry has stopped holds nothing back (DEDUCED, log 15). -/
def tileBusy (W : Warp) : Bool :=
  match W.tile with
  | some t => !t.stopped
  | none => false

/-- The tokens of a join are signalled and the fence that it acts as is done: of device scope, or of system scope when
fabric commands armed a token (R139); a pending tile operation's fetches come first (R273). -/
def joinReady (s : State) (w : Nat) (m : BitVec 6) : Bool :=
  let W := getW s w
  tokensReady W m && (m = 0 || (fenceDone s w (m &&& W.evSys ≠ 0) && !tileBusy W))
/-- The lines that the fence of a join writes back and that the host may cache (R388). -/
def joinLines (s : State) (w : Nat) (m : BitVec 6) : List Nat := if m = 0 then [] else coreLines s (getW s w).core
/-- A join of the tokens of a mask. -/
def join (s : State) (w : Nat) (m : BitVec 6) : State :=
  if m = 0 then s else updW (joinFence s (getW s w)) w fun W => { W with evSys := W.evSys &&& ~~~ m }

/-! Taking an exception (R350, R353, R354) -/

/-- The cause of an entry (R353). -/
structure Trap where
  cls    : Nat
  cause  : Nat
  extra  : Nat
  kind   : Nat
  mask   : W32
  addr   : W64
  /-- Restart point: header, word index, and whether it resumes at a word. -/
  reth   : W64
  word   : Nat
  atWord : Bool
  deriving DecidableEq, Repr

def loopAct (W : Warp) : Nat :=
  (List.range 3).foldl (fun a n => if (tabFind W.loops n).isSome then a + 2 ^ n else a) 0

def bankOf (W : Warp) (l : Nat) : Bank := if l = 1 then W.h else W.k
def setBank (W : Warp) (l : Nat) (b : Bank) : Warp := if l = 1 then { W with h := b } else { W with k := b }

/-- The bank that an entry writes (R352 to R354). -/
def entryBank (W : Warp) (t : Trap) (scr : W64) : Bank where
  cause := BitVec.ofNat 64 (t.cls + 2 ^ 8 * t.cause + 2 ^ 16 * t.kind + 2 ^ 24 * t.extra + 2 ^ 32 * W.level)
  reth := t.reth
  retw := BitVec.ofNat 64 (t.word + (if t.atWord then 16 else 0) + 32 * W.level)
  mask := t.mask.setWidth 64
  addr := t.addr
  exm := W.exm.setWidth 64
  reel := BitVec.ofNat 64 (W.reel.length + 2 ^ 8 * W.calls.length + 2 ^ 16 * loopAct W)
  scr := scr
  loops := W.loops
  ridx := W.ridx
  ridxAt := t.reth + BitVec.ofNat 64 (4 + 4 * t.word)

/-- A tile operation is asked to stop: at once when no block is in work, else at the end of that block (R275). -/
def stopTile (W : Warp) : Warp :=
  { W with tile := W.tile.map fun t => if t.steps = 0 then { t with stopped := true } else { t with halt := true } }

/-- The block in work of an operation that has been asked to stop is not applied yet: the warp's handler waits for it (R275,
R354). -/
def halting (W : Warp) : Bool :=
  match W.tile with
  | some t => t.halt && !t.stopped
  | none => false

/-- Put a warp at level `l` with its handler at `a` (R354). -/
def enterLevel (W : Warp) (l : Nat) (t : Trap) (a : W64) : Warp :=
  let b := entryBank W t (bankOf W l).scr
  atClause { setBank (stopTile W) l b with level := l, loops := [], stat := .running, verdicts := [] } a

/-- The privileged handler of a job, if its table entry is valid (R351); an uncorrectable entry names none (DESIGN CHOICE, log
77). -/
def privHandler (s : State) (job : Nat) : Option W64 :=
  let e := xhEntry s job
  if (xhBad s job).isSome then none
  else if e / 2 ^ 176 % 2 = 1 && e / 2 ^ 177 = 0 then some (BitVec.ofNat 64 e) else none

/-- The record of uncorrectable data in a handler table entry that is consumed, and whose launch is killed for it (R417, R420). -/
def noteXh (s : State) (job launchid : Nat) : State :=
  match xhBad s job with
  | some pa => consumed s none pa 32 3 job launchid
  | none => s
/-- Take an exception: at level 0 to the user handler when there is one, at level 1 or when `forced` to the privileged
handler; a fault at level 2, or with no privileged handler, kills the launch with code 0x06 (R350). -/
def takeTrap (s : State) (w : Nat) (t : Trap) (forced : Bool) : State :=
  let s1 := landAll s w
  let W := getW s1 w
  if W.level ≥ 2 then endLaunch s1 W.launch 4 6
  else if W.level = 0 && W.kuser ≠ 0 && !forced then setW s1 w (enterLevel W 1 t W.kuser)
  else match privHandler s1 (warpJob s1 W) with
    | some a => setW s1 w (enterLevel W 2 t a)
    | none => endLaunch (noteXh s1 (warpJob s1 W) (pkId (getL s1 W.launch).packet)) W.launch 4 6

/-- The trap of a whole-warp fault at the instruction that issues (R41, R353). -/
def trapHere (W : Warp) (cls cause extra kind : Nat) (addr : W64) : Trap :=
  ⟨cls, cause, extra, kind, W.exm, addr, W.pc, W.word, W.started⟩

def faultAt (s : State) (w cls cause extra kind : Nat) (addr : W64) : State :=
  takeTrap s w (trapHere (getW s w) cls cause extra kind addr) false

/-- The illegal-instruction fault with a reason; its address is that of the first prefix or word (R84, R86). -/
def illegal (s : State) (w reason : Nat) : State := faultAt s w 3 reason 0 0 (nextAddr (getW s w))

/-! The return from an exception (R356) -/

/-- The malformed restarts of R356; `hdr` is the word at the restart header and `prev` the word before word j. -/
def badRestart (W : Warp) (b : Bank) (hdr prev : W32) : Bool :=
  let r := b.retw.toNat
  let j := r % 16
  let at_ := r / 16 % 2 = 1
  r / 2 ^ 7 ≠ 0 || r / 32 % 4 ≥ W.level ||
  (at_ && (hdr.toNat / 2 ^ 22 % 16 ≤ j || (j ≠ 0 && prev.toNat / 2 ^ 26 = 0x3E))) ||
  (!at_ && j ≠ 0)

/-- The state after a return: masks, loops, level and place (R356). A resumed clause has no words yet: its header is read
again before a word of it issues (R41). -/
def returnW (W : Warp) (b : Bank) (hdr : W32) : Warp :=
  let r := b.retw.toNat
  let act := b.reel.toNat / 2 ^ 16
  let W1 := { W with
    exm := b.exm.setWidth 32 &&& ~~~ (W.fltm ||| W.deadm)
    loops := b.loops.filter fun e => act / 2 ^ e.1 % 2 = 1
    level := r / 32 % 4 }
  if r / 16 % 2 = 1 then
    { atClause W1 b.reth with
      started := true, word := r % 16, n := hdr.toNat / 2 ^ 22 % 16, ports := BitVec.ofNat 4 (hdr.toNat / 2 ^ 18), code := []
      ridx := if b.ridxAt = b.reth + BitVec.ofNat 64 (4 + 4 * (r % 16)) then b.ridx else 0 }
  else atClause W1 b.reth

/-- The operation of a warp is over: MSTEP is 0 and its token is signalled; a warp that has exited retires (R260, R274). -/
def endTile (s : State) (w : Nat) (t : TileOp) : State :=
  let s1 := signal (updW s w fun W => { W with tile := none }) w t.tok
  if (getW s1 w).stat = .waitTile then retireNow s1 w else s1

/-- A stopped operation is accepted again by the sequencer, after those that it holds (DEDUCED, log 15); one with no block left completes at once (R275, R276). -/
def resumeTile (s : State) (w : Nat) : State :=
  match (getW s w).tile with
  | none => s
  | some t =>
    if t.k ≤ t.next then endTile s w t
    else { updW s w fun W => { W with
        tile := some { t with halt := false, stopped := false, steps := 0, order := s.tileNo, fault := none } } with
      tileNo := s.tileNo + 1 }

/-! The issue of one word -/

/-- The instruction's warp. -/
def withWarp (s : State) (k : Nat → Warp → Out) : Out :=
  match s.cur with
  | some w => if w < s.warps.length then k w (getW s w) else .refused .noIssuingWarp
  | none => .refused .noIssuingWarp

/-- A register number is allocated (R54). -/
def vOk (W : Warp) (r : Nat) : Bool := r < W.nv
def sOk (W : Warp) (r : BitVec 6) : Bool := r.toNat < W.ns
/-- A vector register is claimed (R263). -/
def claimed (W : Warp) (r : Nat) : Bool := W.mode && W.mclaim.getLsbD (r / 32)

/-- Issue: the late checks of R85 give a reason, then the held registers of R263, then the instruction acts. -/
def issue (s : State) (reason : Warp → Option Nat) (named : List Nat) (k : Nat → Warp → Out) : Out :=
  withWarp s fun w W =>
    match reason W with
    | some r => .next (illegal s w r)
    | none =>
      match (named.filter fun r => claimed W r).min? with
      | some r => .next (faultAt s w 4 1 r 0 0)
      | none => k w W

/-- Reason 0x15 when a register is out of range (R54). -/
def regReason (W : Warp) (vs : List Nat) (ss : List (BitVec 6)) : Option Nat :=
  if vs.all (fun r => vOk W r) && ss.all (fun r => sOk W r) then none else some 0x15

/-- The first reason that holds. -/
def orElse (a b : Option Nat) : Option Nat :=
  match a with
  | some r => some r
  | none => b
def reasonIf (c : Bool) (r : Nat) : Option Nat := if c then some r else none

end Sys2Proof.Machine
end

