-- ==== Sys2Proof/Machine/Flags.lean ====
section
/-! DEFINITION. The sticky flags of FPST (spec/04 R106, R107): how the flags of the lanes that compute are gathered. -/

namespace Sys2Proof.Machine

/-- OR flags into FPST (R107). -/
def orFlags (W : Warp) (f : Flags) : Warp := { W with fpst := W.fpst ||| f }

/-- The flags of a list of results together. -/
def gather {α : Type} (l : List (α × Flags)) : Flags := l.foldl (fun f r => f ||| r.2) 0

end Sys2Proof.Machine
end

