-- ==== Sys2Proof/Machine/Operands.lean ====
section
/-! DEFINITION. Operand forms: how many words an instruction takes, immediates and their prefixes (spec/02 R56), the attributes
of an access and the place where it is performed (spec/05 R119, R127, R128), and the element formats of memory (spec/09
R228, R229). -/

namespace Sys2Proof.Machine

/-! Words taken (R55, R58) -/

def one {α : Type} (x : Option α) : Nat := if x.isSome then 1 else 0
def lenT (t : Option TyPfx) : Nat := 1 + one t
def lenI (x : ImmPfx) : Nat := 1 + one x
def lenIT (x : ImmPfx) (t : Option TyPfx) : Nat := 1 + one x + one t
def lenM (x : MPfx) : Nat := 1 + one x.off + one x.mem + one x.ev
def lenE (x : EPfx) : Nat := 1 + one x.mem + one x.ev + one x.peer

/-! Immediates (R56) -/

/-- A scalar immediate, sign-extended from 14 or 37 bits. -/
def immS (x : ImmPfx) (i : BitVec 14) : W64 :=
  match x with
  | none => i.signExtend 64
  | some h => (h ++ i).signExtend 64
def immU (x : ImmPfx) (i : BitVec 14) : W64 :=
  match x with
  | none => i.setWidth 64
  | some h => (h ++ i).setWidth 64
/-- A vector immediate: the low 32 bits of the extended 10 or 33 bits. -/
def immVS (x : ImmPfx) (i : BitVec 10) : W32 :=
  match x with
  | none => i.signExtend 32
  | some h => (h ++ i).setWidth 32
def immVU (x : ImmPfx) (i : BitVec 10) : W32 :=
  match x with
  | none => i.setWidth 32
  | some h => (h ++ i).setWidth 32
/-- The offset of a format M word (R50). -/
def offM (x : MPfx) : W64 :=
  match x.off with
  | some o => o.signExtend 64
  | none => 0
/-- The target of a format B word (R48). -/
def targetB (W : Warp) (o : BitVec 19) : W64 := W.pc + (o.signExtend 64 <<< 2)

/-! Access attributes (R56, R119) -/

def attrDefault : MemAttr := ⟨0, 0, 0, 0, 0⟩
def attr (m : Option MemAttr) : MemAttr := m.getD attrDefault

/-- Scope of an access when the field is 0: device (R119). -/
def scopeOf (a : MemAttr) : Nat := if a.scope = 0 then 4 else a.scope.toNat

/-- The place of a weak or strong access: a strong access of scope gang or wider with policy l1 is performed at l2
(R127, R128). -/
def placeOfAttr (core : Nat) (a : MemAttr) (strong : Bool) : Place :=
  match a.policy.toNat with
  | 2 => .l2 (some core)
  | 3 => .l2 (some core)
  | 4 => .mem (some core)
  | _ => if strong && 3 ≤ scopeOf a then .l2 (some core) else .l1 core

def isStrong (a : MemAttr) : Bool := a.order = 2

/-! Element formats (R228) -/

/-- Bytes of an element; a nibble format counts one byte. -/
def fmtBytes (f : BitVec 5) : Nat :=
  match f.toNat with
  | 0x08 => 1
  | 0x09 => 2
  | 0x0B => 8
  | 0x11 => 8
  | 0x13 => 8
  | 0x0C => 16
  | 0x02 => 2
  | 0x03 => 1
  | 0x04 => 1
  | 0x05 => 1
  | 0x06 => 1
  | 0x07 => 1
  | _ => 4
/-- Registers of a run. -/
def fmtRegs (f : BitVec 5) : Nat := (fmtBytes f + 3) / 4
def isNibble (f : BitVec 5) : Bool := f = 5

/-- Exact widening of an element to FP32 (R99). -/
def widenVal (v : FVal) : W32 := (round32 .rne v).1

/-- What a load writes: the words of the run, lowest first (R228). -/
def widen (f : BitVec 5) (x : Nat) : List W32 :=
  match f.toNat with
  | 0x02 => [widenVal (decB16 (BitVec.ofNat 16 x))]
  | 0x03 => [widenVal (decE4M3 (BitVec.ofNat 8 x))]
  | 0x04 => [widenVal (decE5M2 (BitVec.ofNat 8 x))]
  | 0x05 => [widenVal (decE2M1 (x % 16))]
  | 0x06 => [widenVal (decI8 (BitVec.ofNat 8 x))]
  | 0x07 => [widenVal (decDs8 (BitVec.ofNat 8 x))]
  | _ => (List.range (fmtRegs f)).map fun i => BitVec.ofNat 32 (x / 2 ^ (32 * i))

/-- Narrowing of one FP32 value by a format with its flags (R101). -/
def narrowVal (f : BitVec 5) (v : FVal) : Nat × Flags :=
  match f.toNat with
  | 0x02 => let r := roundB16 .rne v; (r.1.toNat, r.2)
  | 0x03 => toE4M3 v
  | 0x04 => toE5M2 v
  | 0x05 => toE2M1 v
  | _ => toI8 v

/-- What a store takes from the words of the run (R228). -/
def narrow (f : BitVec 5) (ws : List W32) : Nat × Flags :=
  let w0 := ws.headD 0
  match f.toNat with
  | 0x08 => (w0.toNat % 2 ^ 8, 0)
  | 0x09 => (w0.toNat % 2 ^ 16, 0)
  | 0x02 => narrowVal f (dec32 w0)
  | 0x03 => narrowVal f (dec32 w0)
  | 0x04 => narrowVal f (dec32 w0)
  | 0x05 => narrowVal f (dec32 w0)
  | 0x06 => narrowVal f (dec32 w0)
  | _ => (ws.foldr (fun w a => w.toNat + 2 ^ 32 * a) 0, 0)

/-- The conditions of R49 over the lanes of EXM. -/
def condHolds (W : Warp) (c p : Nat) : Bool :=
  let P := pGet W p
  match c with
  | 0 => true
  | 1 => W.exm &&& P ≠ 0
  | 2 => W.exm &&& ~~~ P = 0
  | 3 => W.exm &&& P = 0
  | _ => W.exm &&& ~~~ P ≠ 0

end Sys2Proof.Machine
end

