-- ==== Sys2Proof/Machine/Scalar.lean ====
section
/-! DEFINITION. The scalar family (spec/07 R180 to R188, R438): integer forms, immediates, scalar memory, system state. -/

namespace Sys2Proof.Machine

/-- A scalar instruction of `len` words: the sources and destination are checked, the result is written, and the warp
goes on (R180). -/
def scalarOp (s : State) (len : Nat) (d : BitVec 6) (src : List (BitVec 6)) (f : Warp → W64) : Out :=
  issue s (fun W => regReason W [] (d :: src)) [] fun w W =>
    .next (advance (setW s w (sSet W d (f W))) w len)

/-- A form with two register sources (R181). -/
def scalar2 (s : State) (d a b : BitVec 6) (f : W64 → W64 → W64) : Out :=
  scalarOp s 1 d [a, b] fun W => f (sGet W a) (sGet W b)
def scalar1 (s : State) (d a : BitVec 6) (f : W64 → W64) : Out :=
  scalarOp s 1 d [a] fun W => f (sGet W a)

/-! Results (R181, R182) -/

def smulhS (a b : W64) : W64 := BitVec.ofInt 64 (a.toInt * b.toInt / 2 ^ 64)
def smulhU (a b : W64) : W64 := BitVec.ofNat 64 (a.toNat * b.toNat / 2 ^ 64)
def sdivS (a b : W64) : W64 := if b = 0 then BitVec.allOnes 64 else BitVec.ofInt 64 (a.toInt.tdiv b.toInt)
def sdivU (a b : W64) : W64 := if b = 0 then BitVec.allOnes 64 else BitVec.ofNat 64 (a.toNat / b.toNat)
def sremS (a b : W64) : W64 := if b = 0 then a else BitVec.ofInt 64 (a.toInt.tmod b.toInt)
def sremU (a b : W64) : W64 := if b = 0 then a else BitVec.ofNat 64 (a.toNat % b.toNat)
def shl64 (a n : W64) : W64 := if 64 ≤ n.toNat then 0 else a <<< n.toNat
def shr64 (a n : W64) : W64 := if 64 ≤ n.toNat then 0 else a >>> n.toNat
def sra64 (a n : W64) : W64 :=
  if 64 ≤ n.toNat then (if a.getLsbD 63 then BitVec.allOnes 64 else 0) else a.sshiftRight n.toNat
/-- Leading zeros among the low `n` bits. -/
def clzNat (n x : Nat) : Nat := if x = 0 then n else n - 1 - Nat.log2 x
def popNat (n x : Nat) : Nat := (List.range n).foldl (fun a i => a + x / 2 ^ i % 2) 0
def brev64 (x : W64) : W64 :=
  (List.range 64).foldl (fun a i => if x.getLsbD i then a ||| BitVec.ofNat 64 (2 ^ (63 - i)) else a) 0

def execSadd (d a b : BitVec 6) (s : State) : Out := scalar2 s d a b fun x y => x + y
def execSsub (d a b : BitVec 6) (s : State) : Out := scalar2 s d a b fun x y => x - y
def execSmul (d a b : BitVec 6) (s : State) : Out := scalar2 s d a b fun x y => x * y
def execSmulhI64 (d a b : BitVec 6) (s : State) : Out := scalar2 s d a b smulhS
def execSmulhUi64 (d a b : BitVec 6) (s : State) : Out := scalar2 s d a b smulhU
def execSdivI64 (d a b : BitVec 6) (s : State) : Out := scalar2 s d a b sdivS
def execSdivUi64 (d a b : BitVec 6) (s : State) : Out := scalar2 s d a b sdivU
def execSremI64 (d a b : BitVec 6) (s : State) : Out := scalar2 s d a b sremS
def execSremUi64 (d a b : BitVec 6) (s : State) : Out := scalar2 s d a b sremU
def execSand (d a b : BitVec 6) (s : State) : Out := scalar2 s d a b fun x y => x &&& y
def execSor (d a b : BitVec 6) (s : State) : Out := scalar2 s d a b fun x y => x ||| y
def execSxor (d a b : BitVec 6) (s : State) : Out := scalar2 s d a b fun x y => x ^^^ y
def execSshl (d a b : BitVec 6) (s : State) : Out := scalar2 s d a b shl64
def execSshr (d a b : BitVec 6) (s : State) : Out := scalar2 s d a b shr64
def execSsra (d a b : BitVec 6) (s : State) : Out := scalar2 s d a b sra64
def execSminI64 (d a b : BitVec 6) (s : State) : Out := scalar2 s d a b fun x y => if x.toInt ≤ y.toInt then x else y
def execSminUi64 (d a b : BitVec 6) (s : State) : Out := scalar2 s d a b fun x y => if x.toNat ≤ y.toNat then x else y
def execSmaxI64 (d a b : BitVec 6) (s : State) : Out := scalar2 s d a b fun x y => if x.toInt ≤ y.toInt then y else x
def execSmaxUi64 (d a b : BitVec 6) (s : State) : Out := scalar2 s d a b fun x y => if x.toNat ≤ y.toNat then y else x
def execSclz (d a : BitVec 6) (s : State) : Out := scalar1 s d a fun x => BitVec.ofNat 64 (clzNat 64 x.toNat)
def execSpopc (d a : BitVec 6) (s : State) : Out := scalar1 s d a fun x => BitVec.ofNat 64 (popNat 64 x.toNat)
def execSbrev (d a : BitVec 6) (s : State) : Out := scalar1 s d a brev64
def execSmov (d a : BitVec 6) (s : State) : Out := scalar1 s d a fun x => x
/-- R188. -/
def execTick (d : BitVec 6) (s : State) : Out := scalarOp s 1 d [] fun _ => s.clock
def execSsel (d a b : BitVec 6) (s : State) : Out :=
  scalarOp s 1 d [a, b] fun W => if sGet W d ≠ 0 then sGet W a else sGet W b

/-- The conditions of `scmp`, by the codes of R181 and spec/03 R70. -/
def scmpHolds (c : Nat) (x y : W64) : Bool :=
  match c with
  | 0 => x = y
  | 1 => x ≠ y
  | 2 => x.toInt < y.toInt
  | 3 => x.toInt ≤ y.toInt
  | 4 => y.toInt < x.toInt
  | 5 => y.toInt ≤ x.toInt
  | 6 => x.toNat < y.toNat
  | 7 => x.toNat ≤ y.toNat
  | 8 => y.toNat < x.toNat
  | _ => y.toNat ≤ x.toNat
def execScmp (d a b : BitVec 6) (c : BitVec 4) (s : State) : Out :=
  scalar2 s d a b fun x y => if scmpHolds c.toNat x y then 1 else 0

/-! Immediate forms (R183) -/

def execSli (d : BitVec 6) (i : BitVec 14) (x : ImmPfx) (s : State) : Out :=
  scalarOp s (lenI x) d [] fun _ => immS x i
def execSaddImm (d a : BitVec 6) (i : BitVec 14) (x : ImmPfx) (s : State) : Out :=
  scalarOp s (lenI x) d [a] fun W => sGet W a + immS x i
def execSandImm (d a : BitVec 6) (i : BitVec 14) (x : ImmPfx) (s : State) : Out :=
  scalarOp s (lenI x) d [a] fun W => sGet W a &&& immU x i
def execSshlImm (d a n : BitVec 6) (s : State) : Out := scalarOp s 1 d [a] fun W => sGet W a <<< n.toNat
def execSshrImm (d a n : BitVec 6) (s : State) : Out := scalarOp s 1 d [a] fun W => sGet W a >>> n.toNat
def execSsraImm (d a n : BitVec 6) (s : State) : Out := scalarOp s 1 d [a] fun W => (sGet W a).sshiftRight n.toNat

/-! Accesses of the warp as a whole (R185, R438) -/

/-- The checks of a whole-warp access of `n` bytes, in the order of R242: its kind and sketch cause, a wait, or its PA. -/
inductive WarpAcc where
  | ok (pa : Nat) | bad (kind cause : Nat) (rep : Option BadEntry) | dead (pa : Nat) | wait (why : WaitWhy)
  deriving DecidableEq, Repr

/-- A sector that this core's L1 would have to write back first, in a line that the host may cache, is waited for (R130,
R388). -/
def warpAccess (s : State) (W : Warp) (a : W64) (n : Nat) (acc : AccKind) : WarpAcc :=
  if !canonical a then .bad 4 0 none
  else if a.toNat % n ≠ 0 then .bad 3 0 none
  else match translate s (warpJob s W) a acc W.verdicts with
    | .ok pa => match dirtyLines s W.core (pa / 128) with
      | [] => .ok pa
      | l :: _ => .wait (.line l)
    | .window _ => if a.toNat % 8 ≠ 0 then .bad 3 0 none else .bad 6 2 none
    | .fault k b => .bad k 0 b
    | .dead pa => .dead pa
    | .wait why => .wait why

/-- The lanes that a failed whole-warp read kills (R438). -/
def readVictims (W : Warp) : W32 := if performing W = 0 then liveLanes W else performing W

/-- Uncorrectable data in a whole-warp read: the lanes die, the error is recorded, and the warp goes on, or unwinds where the kills
have left EXM empty (R417, R438). -/
def warpReadError (s : State) (w pa n len : Nat) (a : W64) : State :=
  let W := getW s w
  let s1 := consumed s (some W.core) pa n 1 (warpJob s W) (pkId (warpPkt s W))
  complete (killLanes s1 w (readVictims W) a W.pc W.word) w len (readVictims W)

/-- Run a whole-warp access of an instruction of `len` words: it waits on a record, enters the handler with its fault, whose
address is that of the first prefix or the word, or goes on with its PA (R185). A walk that meets uncorrectable data is a read
that the warp makes as a whole (R438; DEDUCED, log 77). -/
def onWarpAccess (s : State) (w : Nat) (a : W64) (n len : Nat) (acc : AccKind) (k : Nat → Out) : Out :=
  let W := getW s w
  match warpAccess s W a n acc with
  | .ok pa => k pa
  | .dead pa => .next (warpReadError s w pa 8 len a)
  | .bad kind cause rep =>
    .next (faultAt (reportBad s (warpJob s W) rep acc (.warp w)) w 0x0A cause 0 kind (nextAddr W))
  | .wait why => .next (waitOn s (warpJob s W) why acc (.warp w))

/-- Every lane of EXM is demoted (R163). -/
def allDemoted (W : Warp) : Bool := performing W = 0
/-- Whether an `sld`, an `sst` or an engine command is suppressed: every lane of EXM is demoted, outside a handler (R163,
R355). -/
def suppressed (W : Warp) : Bool := W.level = 0 && allDemoted W

def sldWidth (f : BitVec 5) : Nat :=
  match f.toNat with
  | 0 => 8
  | 0x0B => 8
  | 0x08 => 1
  | 0x09 => 2
  | _ => 4
/-- The extension of a loaded scalar (R184). -/
def sldExtend (f : BitVec 5) (v : Nat) : W64 :=
  if f = 0x10 then (BitVec.ofNat 32 v).signExtend 64 else BitVec.ofNat 64 v

/-- Words of `sld` and `sst`. -/
def lenIM (x : ImmPfx) (m : Option MemAttr) : Nat := 1 + one x + one m

def execSld (d a : BitVec 6) (i : BitVec 14) (x : ImmPfx) (m : Option MemAttr) (s : State) : Out :=
  issue s (fun W => regReason W [] [d, a]) [] fun w W =>
    let t := attr m
    let n := sldWidth t.fmt
    let ea := sGet W a + immS x i
    if suppressed W then .next (advance s w (lenIM x m))
    else onWarpAccess s w ea n (lenIM x m) .read fun pa =>
      if t.policy = 4 && memDue s pa then .next s
      else if dataBad s (some W.core) pa n then .next (warpReadError s w pa n (lenIM x m) ea)
      else
        let r := loadAt s (placeOfAttr W.core t (isStrong t)) pa n
        .next (advance (updW r.1 w fun W => sSet W d (sldExtend t.fmt r.2)) w (lenIM x m))

def execSst (d a : BitVec 6) (i : BitVec 14) (x : ImmPfx) (m : Option MemAttr) (s : State) : Out :=
  issue s (fun W => regReason W [] [d, a]) [] fun w W =>
    let t := attr m
    let n := sldWidth t.fmt
    let ea := sGet W a + immS x i
    if suppressed W then .next (advance s w (lenIM x m))
    else if tileBusy W then .next s
    else onWarpAccess s w ea n (lenIM x m) .write fun pa =>
      .next (advance (storeAt s (placeOfAttr W.core t (isStrong t)) pa n (sGet W d).toNat (some w) none) w (lenIM x m))

/-! System state (R154, R186, R187, R352) -/

/-- EVCNT (R186). -/
def evcnt (W : Warp) : Nat := (List.range 6).foldl (fun a k => a + evGet W k * 2 ^ (6 * k)) 0

/-- MSTEP (R274). -/
def mstep (W : Warp) : W32 :=
  match W.tile with
  | some t => BitVec.ofNat 32 (2 ^ 31 + t.next)
  | none => 0

/-- A handler state number that level `l` may read (R352). -/
def bankField (b : Bank) (i : Nat) : W64 :=
  match i with
  | 0 => b.cause
  | 1 => b.reth
  | 2 => b.retw
  | 3 => b.mask
  | 4 => b.addr
  | 5 => b.exm
  | 6 => b.reel
  | _ => b.scr

/-- The value of a state number, none where reading it raises reason 0x1E (R186, R352). -/
def sysRead (s : State) (W : Warp) (n : Nat) : Option W64 :=
  let p := warpPkt s W
  match n with
  | 0x000 => some (W.exm.setWidth 64)
  | 0x001 => some (W.deck.setWidth 64)
  | 0x002 => some (W.fpst.setWidth 64)
  | 0x003 => some (W.fltm.setWidth 64)
  | 0x004 => some (W.demm.setWidth 64)
  | 0x005 => some (W.deadm.setWidth 64)
  | 0x006 => some (BitVec.ofNat 64 W.reel.length)
  | 0x007 => some (BitVec.ofNat 64 W.calls.length)
  | 0x008 => some (BitVec.ofNat 64 (loopAct W))
  | 0x009 => some (lcGet W 0)
  | 0x00A => some (lcGet W 1)
  | 0x00B => some (lcGet W 2)
  | 0x00C => some (BitVec.ofNat 64 (evcnt W))
  | 0x010 => some (if W.mode then 1 else 0)
  | 0x011 => some (W.mclaim.setWidth 64)
  | 0x012 => some (W.mrowm.setWidth 64)
  | 0x013 => some (W.mcolm.setWidth 64)
  | 0x014 => some ((mstep W).setWidth 64)
  | 0x020 => some s.clock
  | 0x021 => some s.time
  | 0x030 => some (W.warpId.setWidth 64)
  | 0x031 => some (W.groupId.setWidth 64)
  | 0x032 => some (W.gangId.setWidth 64)
  | 0x033 => some (BitVec.ofNat 64 (pkId p))
  | 0x034 => some (BitVec.ofNat 64 (pkGroup p))
  | 0x035 => some (BitVec.ofNat 64 (pkGang p))
  | 0x036 => some (BitVec.ofNat 64 (pkGangs p))
  | _ =>
    if 0x040 ≤ n ∧ n ≤ 0x047 ∧ 1 ≤ W.level then some (bankField W.h (n - 0x040))
    else if n = 0x048 ∧ 1 ≤ W.level then some 0
    else if 0x050 ≤ n ∧ n ≤ 0x057 ∧ W.level = 2 then some (bankField W.k (n - 0x050))
    else if n = 0x058 ∧ W.level = 2 then some W.kuser
    else none

/-- Whether writing a state number raises reason 0x1E (R154, R186, R352). -/
def sysWriteBad (W : Warp) (n : Nat) : Bool :=
  if n ≤ 0x00C ∨ (0x010 ≤ n ∧ n ≤ 0x014) ∨ n = 0x020 ∨ n = 0x021 then false
  else if 0x040 ≤ n ∧ n ≤ 0x048 then W.level = 0
  else if 0x050 ≤ n ∧ n ≤ 0x058 then W.level ≠ 2
  else true

/-- The restart index of a stopped `ldm` or `stm` moves with the bank that its handler copies to the H bank: a write of
`HRETW` at level 2 that names the place of the K bank's index takes that index (R234, R356; DEDUCED, log 67). -/
def carryIndex (W : Warp) : Warp :=
  let at_ := W.h.reth + BitVec.ofNat 64 (4 + 4 * (W.h.retw.toNat % 16))
  if W.level = 2 && at_ = W.k.ridxAt then { W with h := { W.h with ridx := W.k.ridx, ridxAt := W.k.ridxAt } } else W

/-- Write a field of a bank; reserved bits are discarded, and so are writes of the depths (R10, R352). -/
def bankWrite (b : Bank) (i : Nat) (x : W64) : Bank :=
  match i with
  | 0 => { b with cause := x &&& 0x7FFFFFFFF }
  | 1 => { b with reth := x }
  | 2 => { b with retw := x &&& 0x7F }
  | 3 => { b with mask := x }
  | 4 => { b with addr := x }
  | 5 => { b with exm := x }
  | 6 => b
  | _ => { b with scr := x }

/-- DECK takes codes 1 to 5 (R186, R201). -/
def deckWrite (W : Warp) (c : BitVec 3) : Warp :=
  if 1 ≤ c.toNat ∧ c.toNat ≤ 5 then { W with deck := c } else W

/-- The write of a state number that is not discarded, HKILL apart. -/
def sysWrite (W : Warp) (n : Nat) (x : W64) : Warp :=
  match n with
  | 0x001 => deckWrite W (x.setWidth 3)
  | 0x002 => { W with fpst := x.setWidth 6 }
  | 0x009 => lcSet W 0 x
  | 0x00A => lcSet W 1 x
  | 0x00B => lcSet W 2 x
  | 0x012 => { W with mrowm := x.setWidth 32 }
  | 0x013 => { W with mcolm := x.setWidth 32 }
  | 0x058 => { W with kuser := x }
  | _ =>
    if 0x040 ≤ n ∧ n ≤ 0x047 then carryIndex { W with h := bankWrite W.h (n - 0x040) x }
    else if 0x050 ≤ n ∧ n ≤ 0x057 then { W with k := bankWrite W.k (n - 0x050) x }
    else W

/-- Accesses of FPST wait for every earlier instruction that may still set a flag: loads on their way and a pending tile
operation, a stopped one too (R108). -/
def fpstBusy (W : Warp) (n : Nat) : Bool :=
  n = 2 && (W.tile.isSome || !W.pend.isEmpty)

def execRdsys (d : BitVec 6) (n : BitVec 14) (s : State) : Out :=
  issue s (fun W => orElse (regReason W [] [d]) (reasonIf (sysRead s W n.toNat).isNone 0x1E)) [] fun w W =>
    if fpstBusy W n.toNat then .next s
    else .next (advance (setW s w (sSet W d ((sysRead s W n.toNat).getD 0))) w 1)

/-- A write of HKILL kills the live lanes of the mask, with the restart point of the handler's bank (R357). When it empties
EXM the handler goes on and the warp unwinds at `rfe` (R356); a vector access that empties EXM in a handler unwinds at
once, by R169 (DESIGN CHOICE, log 68: the spec gives no moment for a handler's write). -/
def hkill (s : State) (w : Nat) (x : W64) : State :=
  let W := getW s w
  let b := bankOf W W.level
  killLanes s w (x.setWidth 32) 0 b.reth (b.retw.toNat % 16)

def execWrsys (a : BitVec 6) (n : BitVec 14) (s : State) : Out :=
  issue s (fun W => orElse (regReason W [] [a]) (reasonIf (sysWriteBad W n.toNat) 0x1E)) [] fun w W =>
    if fpstBusy W n.toNat then .next s
    else if n = 0x048 then .next (advance (hkill s w (sGet W a)) w 1)
    else .next (advance (setW s w (sysWrite W n.toNat (sGet W a))) w 1)

end Sys2Proof.Machine
end

