-- ==== Sys2Proof/Machine/Fn.lean ====
section
/-! DEFINITION. The special functions of spec/04 R105. `rcp` and `rsq` round the exact quotient and root. `ex2`, `lg2`,
`sin` and `cos` are computed in fixed point far beyond the format, cut, and given a sticky last bit before the one
rounding, since their values at the points treated here are irrational (DEDUCED, log 13). -/

namespace Sys2Proof.Machine

/-- The integer square root by bits, from bit `n` down. -/
def isqrtFrom (x : Nat) (n acc : Nat) : Nat :=
  match n with
  | 0 => let c := acc + 1; if c * c ≤ x then c else acc
  | k + 1 =>
    let c := acc + 2 ^ (k + 1)
    isqrtFrom x k (if c * c ≤ x then c else acc)

/-- floor(√x). -/
def isqrt (x : Nat) : Nat := isqrtFrom x (Nat.log2 x / 2 + 1) 0

/-- Σ of a geometric-like series: term/(2i+1) with the term divided by `q` each time, alternating if `alt`. -/
def oddSeries (q : Nat) (alt : Bool) (fuel i term : Nat) (acc : Int) : Int :=
  match fuel with
  | 0 => acc
  | k + 1 =>
    let t : Int := term / (2 * i + 1)
    oddSeries q alt k (i + 1) (term / q) (if alt && i % 2 = 1 then acc - t else acc + t)

/-- Fraction bits of the fixed-point values below. -/
def fxBits : Nat := 320

/-- ln 2 = 2·atanh(1/3), scaled. -/
def ln2Fx : Nat := (2 * oddSeries 9 false 110 0 (2 ^ fxBits / 3) 0).toNat

/-- Fraction bits of the reduction of angles. -/
def piBits : Nat := 576

/-- π = 16·atan(1/5) − 4·atan(1/239), scaled (Machin). -/
def piFx : Nat :=
  (16 * oddSeries 25 true 130 0 (2 ^ piBits / 5) 0 - 4 * oddSeries (239 * 239) true 40 0 (2 ^ piBits / 239) 0).toNat

/-- Σ y^i / i!, scaled by 2^fxBits. -/
def expSeries (y fuel i term acc : Nat) : Nat :=
  match fuel with
  | 0 => acc
  | k + 1 => expSeries y k (i + 1) (term * y / 2 ^ fxBits / (i + 1)) (acc + term)

/-- A fixed-point magnitude with its low bits cut and a sticky bit set. -/
def sticky (s : Bool) (m : Nat) (bits : Nat) : FVal :=
  .fin s (m / 2 ^ 16 * 2 + 1) (15 - (bits : Int))

/-- x · 2^bits, rounded down, of a finite value. -/
def toFx (s : Bool) (m : Nat) (e : Int) (bits : Nat) : Int :=
  let k := e + bits
  let a : Nat := if 0 ≤ k then m * 2 ^ k.toNat else m / 2 ^ (-k).toNat
  if s then -(a : Int) else a

/-- 2^x of R105. -/
def fEx2 (x : W32) : W32 × Flags :=
  match dec32 x with
  | .nan => (0x7FC00000, 0)
  | .inf s => (if s then 0 else 0x7F800000, 0)
  | .fin s m e =>
    if m = 0 then (0x3F800000, 0)
    else if !s && !magGt 128 0 m e then (0x7F800000, fOF ||| fNX)
    else if s && magGt m e 200 0 then round32 .rne (.fin false 1 (-400))
    else
      let y := toFx s m e fxBits
      let n := y / 2 ^ fxBits
      let f := (y % 2 ^ fxBits).toNat
      if f = 0 then round32 .rne (.fin false 1 n)
      else
        let r := expSeries (f * ln2Fx / 2 ^ fxBits) 90 0 (2 ^ fxBits) 0
        match sticky false r fxBits with
        | .fin _ q g => round32 .rne (.fin false q (g + n))
        | v => round32 .rne v

/-- log2 of z = m / 2^l in [1, 2), scaled. -/
def log2Fx (m l : Nat) : Nat :=
  let z := m * 2 ^ fxBits / 2 ^ l
  let one := 2 ^ fxBits
  let t := (z - one) * one / (z + one)
  let q := t * t / one
  -- atanh t by its series, the terms scaled
  let rec go (fuel i term acc : Nat) : Nat :=
    match fuel with
    | 0 => acc
    | k + 1 => go k (i + 1) (term * q / one) (acc + term / (2 * i + 1))
  2 * go 110 0 t 0 * one / ln2Fx

/-- log2 x of R105. -/
def fLg2 (x : W32) : W32 × Flags :=
  match dec32 x with
  | .nan => (0x7FC00000, 0)
  | .inf s => if s then (0x7FC00000, fNV) else (0x7F800000, 0)
  | .fin s m e =>
    if m = 0 then (0xFF800000, fDZ)
    else if s then (0x7FC00000, fNV)
    else
      let l := Nat.log2 m
      let k := e + (l : Int)
      if m = 2 ^ l then round32 .rne (ofInt k)
      else
        let v := k * 2 ^ fxBits + (log2Fx m l : Int)
        round32 .rne (sticky (v < 0) v.natAbs fxBits)

/-- 1/x of R105. -/
def fRcp (x : W32) : W32 × Flags :=
  match dec32 x with
  | .nan => (0x7FC00000, 0)
  | .inf s => (if s then 0x80000000 else 0, 0)
  | .fin s m e =>
    if m = 0 then (if s then 0xFF800000 else 0x7F800000, fDZ)
    else round32 .rne (divFin false 1 0 s m e)

/-- 1/√x of R105. -/
def fRsq (x : W32) : W32 × Flags :=
  match dec32 x with
  | .nan => (0x7FC00000, 0)
  | .inf s => if s then (0x7FC00000, fNV) else (0, 0)
  | .fin s m e =>
    if m = 0 then (if s then 0xFF800000 else 0x7F800000, fDZ)
    else if s then (0x7FC00000, fNV)
    else
      let m' := if e % 2 = 0 then m else 2 * m
      let e' := if e % 2 = 0 then e else e - 1
      let k := 64 + Nat.log2 m'
      let r := isqrt (2 ^ (2 * k) / m')
      let exact := r * r * m' = 2 ^ (2 * k)
      round32 .rne (.fin false (2 * r + (if exact then 0 else 1)) (-(e' / 2) - k - 1))

/-- Σ of the sine or cosine series of a scaled angle: the term is multiplied by y²/((i+1)(i+2)) each time. -/
def trigSeries (y2 fuel i : Nat) (term : Nat) (neg : Bool) (acc : Int) : Int :=
  match fuel with
  | 0 => acc
  | k + 1 =>
    trigSeries y2 k (i + 2) (term * y2 / 2 ^ piBits / ((i + 1) * (i + 2))) (!neg)
      (if neg then acc - term else acc + term)

def sinFx (y : Nat) : Int := trigSeries (y * y / 2 ^ piBits) 60 1 y false 0
def cosFx (y : Nat) : Int := trigSeries (y * y / 2 ^ piBits) 60 0 (2 ^ piBits) false 0

/-- sin of a finite nonzero value plus `q0` quarter turns. -/
def trigVal (q0 : Nat) (s : Bool) (m : Nat) (e : Int) : FVal :=
  let x := toFx false m e piBits
  let half : Int := (piFx / 2 : Nat)
  -- nearest multiple of a quarter turn
  let n := (2 * x + half) / (2 * half)
  let r := x - n * half
  -- sin(-x + q0) by symmetry: the quadrant of the signed angle
  let quad := ((if s then -n else n) + q0) % 4
  let r' := if s then -r else r
  let mag := r'.natAbs
  let v : Int :=
    if quad % 2 = 0 then (if r' < 0 then -(sinFx mag) else sinFx mag) else cosFx mag
  let v' := if quad ≥ 2 then -v else v
  sticky (v' < 0) v'.natAbs piBits

/-- sin x of R105. -/
def fSin (x : W32) : W32 × Flags :=
  match dec32 x with
  | .nan => (0x7FC00000, 0)
  | .inf _ => (0x7FC00000, fNV)
  | .fin s m e => if m = 0 then (x, 0) else round32 .rne (trigVal 0 s m e)

/-- cos x of R105. -/
def fCos (x : W32) : W32 × Flags :=
  match dec32 x with
  | .nan => (0x7FC00000, 0)
  | .inf _ => (0x7FC00000, fNV)
  | .fin s m e => if m = 0 then (0x3F800000, 0) else round32 .rne (trigVal 1 s m e)

end Sys2Proof.Machine
end

