-- ==== Sys2Proof/Machine/SketchOps.lean ====
section
/-! DEFINITION. Sketch regions (spec/11): the hash, the cells of each type, the body header, and what an insert, a delete and
the queries of a bound region do. Cells are ordinary bytes of the body, read and written at the home L2 (R142, R288). -/

namespace Sys2Proof.Machine

/-! The hash (R280) -/

structure Hash where
  x  : W64
  h1 : Nat
  h2 : Nat
  deriving DecidableEq, Repr

def skHash (key : Nat) (seed : W64) : Hash :=
  let m : W64 := (BitVec.ofNat 64 key ^^^ seed) * 0x9E3779B97F4A7C15
  let x := m ^^^ (m >>> 32)
  ⟨x, x.toNat % 2 ^ 32, (x.toNat / 2 ^ 32) ||| 1⟩
def skIndex (h : Hash) (i size : Nat) : Nat := (h.h1 + i * h.h2) % size

/-! Cells (R281) -/

/-- Number of cells of a type. -/
def cellCount (type lg depth : Nat) : Nat :=
  match type with
  | 3 => 2 ^ lg * depth
  | 4 => 2 ^ lg * depth
  | 6 => 2 ^ (9 + lg)
  | _ => 2 ^ lg
/-- Bytes of the cells. -/
def cellBytes (type lg depth : Nat) : Nat :=
  match type with
  | 1 => 2 ^ lg / 8
  | 2 => 2 ^ lg / 2
  | 5 => 2 ^ lg
  | t => 4 * cellCount t lg depth
/-- Least and greatest lgsize of a type. -/
def lgRange (type : Nat) : Nat × Nat :=
  match type with
  | 1 => (4, 32)
  | 2 => (4, 32)
  | 3 => (4, 26)
  | 4 => (4, 26)
  | 5 => (4, 16)
  | _ => (0, 7)

/-- A cell's place: byte offset in the body, bit offset, bits. Cells are numbered row by row. -/
structure CellAt where
  off  : Nat
  sh   : Nat
  bits : Nat
  deriving DecidableEq, Repr

def cellAt (type c : Nat) : CellAt :=
  match type with
  | 1 => ⟨256 + c / 8, c % 8, 1⟩
  | 2 => ⟨256 + c / 2, 4 * (c % 2), 4⟩
  | 5 => ⟨256 + c, 0, 6⟩
  | _ => ⟨256 + 4 * c, 0, 32⟩

/-! The bytes of a body -/

/-- Read `n` bytes of a job's memory at the home L2; an issuing core's L1 copy is written back first (R130). Pages have
been checked before. -/
def vaRead (s : State) (core : Option Nat) (job : Nat) (a : W64) (n : Nat) : State × Nat :=
  match peekPa s job a with
  | some pa => loadAt s (.l2 core) pa n
  | none => (s, 0)
def vaWrite (s : State) (core : Option Nat) (job : Nat) (a : W64) (n v : Nat) : State :=
  match peekPa s job a with
  | some pa => storeAt s (.l2 core) pa n v none none
  | none => s

/-- A bound region in use: the binding and the core whose L1 stands before the accesses. -/
structure Region where
  b    : Binding
  core : Option Nat
  deriving DecidableEq, Repr

def Region.addr (r : Region) (off : Nat) : W64 := r.b.body + BitVec.ofNat 64 off
def rgRead (s : State) (r : Region) (off n : Nat) : State × Nat := vaRead s r.core r.b.job (r.addr off) n
def rgWrite (s : State) (r : Region) (off n v : Nat) : State := vaWrite s r.core r.b.job (r.addr off) n v

def cellLen (p : CellAt) : Nat := if p.bits = 32 then 4 else 1
def cellGet (s : State) (r : Region) (p : CellAt) : State × Nat :=
  let x := rgRead s r p.off (cellLen p)
  (x.1, x.2 / 2 ^ p.sh % 2 ^ p.bits)

/-- The header (R288). -/
structure SkHdr where
  n     : Nat
  pop   : Nat
  flags : BitVec 8
  deriving DecidableEq, Repr

def flSat : BitVec 8 := 1
def flCsat : BitVec 8 := 2
def flNsat : BitVec 8 := 4
def flDel : BitVec 8 := 8
def flUnder : BitVec 8 := 16
def flNan : BitVec 8 := 32
def flFold : BitVec 8 := 64
def flErr : BitVec 8 := 128

def hdrGet (s : State) (r : Region) : State × SkHdr :=
  let n := rgRead s r 0 8
  let p := rgRead n.1 r 8 8
  let f := rgRead p.1 r 16 1
  (f.1, ⟨n.2, p.2, BitVec.ofNat 8 f.2⟩)
def hdrPut (s : State) (r : Region) (h : SkHdr) : State :=
  rgWrite (rgWrite (rgWrite s r 0 8 h.n) r 8 8 h.pop) r 16 1 h.flags.toNat

/-- Write a cell; pop follows whether it is zero (R288). -/
def cellPut (s : State) (r : Region) (h : SkHdr) (p : CellAt) (old new : Nat) : State × SkHdr :=
  if old = new then (s, h)
  else
    let x := rgRead s r p.off (cellLen p)
    let v := x.2 - old * 2 ^ p.sh + new * 2 ^ p.sh
    (rgWrite x.1 r p.off (cellLen p) v,
     { h with pop := if old = 0 then h.pop + 1 else if new = 0 then h.pop - 1 else h.pop })

/-- A function of one cell's value: the new value and the flags that it sets. -/
def cellMod (f : Nat → Nat × BitVec 8) (r : Region) (x : State × SkHdr) (p : CellAt) : State × SkHdr :=
  let c := cellGet x.1 r p
  let y := f c.2
  let z := cellPut c.1 r x.2 p c.2 y.1
  (z.1, { z.2 with flags := z.2.flags ||| y.2 })

/-- n gains `k`, saturating; nsat when it passes 2^39 − 1 (R287, R288). -/
def addN (h : SkHdr) (k : Nat) : SkHdr :=
  let n := min (h.n + k) (2 ^ 64 - 1)
  { h with n := n, flags := if 2 ^ 39 - 1 < n then h.flags ||| flNsat else h.flags }
/-- A counting filter's n loses 1; under at 0 (R282). -/
def decN (h : SkHdr) : SkHdr := if h.n = 0 then { h with flags := h.flags ||| flUnder } else { h with n := h.n - 1 }

/-- sat of a filter (R287). Any update, a delete among them, that leaves pop above the threshold sets it, also where pop stood
above before with sat clear (DESIGN CHOICE, log 83: R287 names "the update that makes" it so). -/
def satOf (b : Binding) (h : SkHdr) : SkHdr :=
  if (b.type = 1 || b.type = 2) && b.thr * 2 ^ b.lgsize < h.pop * 256 then { h with flags := h.flags ||| flSat } else h

/-! The cells of a key -/

/-- The cells of a hashed key, each once (R282, R283), or a distinct counter's register (R284). -/
def keyCells (b : Binding) (h : Hash) : List CellAt :=
  let size := 2 ^ b.lgsize
  match b.type with
  | 1 => ((List.range b.depth).map fun i => skIndex h i size).eraseDups.map (cellAt 1)
  | 2 => ((List.range b.depth).map fun i => skIndex h i size).eraseDups.map (cellAt 2)
  | 5 => [cellAt 5 (h.x.toNat / 2 ^ (64 - b.lgsize))]
  | t => (List.range b.depth).map fun r => cellAt t (r * size + skIndex h r size)

/-- ρ of R284. -/
def rho (h : Hash) (p : Nat) : Nat :=
  let v := h.x.toNat % 2 ^ (64 - p)
  if v = 0 then 65 - p else 64 - p - Nat.log2 v

/-- The bucket of a quantile value (R285). -/
def bucketOf (v : W32) (g : Nat) : Nat := v.toNat / 2 ^ (23 - g)

def satAdd (hi a w : Nat) : Nat × BitVec 8 := if hi < a + w then (hi, flCsat) else (a + w, 0)
/-- A 32-bit signed counter moved by `w`, clamped (R283). -/
def clamp32 (a : Nat) (w : Int) : Nat × BitVec 8 :=
  let v := (BitVec.ofNat 32 a).toInt + w
  if v > 2 ^ 31 - 1 then (2 ^ 31 - 1, flCsat)
  else if v < -2 ^ 31 then (2 ^ 31, flCsat)
  else ((BitVec.ofInt 32 v).toNat, 0)

/-- Insert a key with the store's data (R279, R282 to R285). -/
def skInsert (s : State) (r : Region) (key : Nat) (data : W32) : State :=
  let b := r.b
  let h := skHash key b.seed
  let g := hdrGet s r
  let w := data.toNat
  let each (f : Nat → Nat × BitVec 8) : State × SkHdr := (keyCells b h).foldl (cellMod f r) g
  let done (x : State × SkHdr) (k : Nat) : State := hdrPut x.1 r (satOf b (addN x.2 k))
  match b.type with
  | 1 => done (each fun _ => (1, 0)) 1
  | 2 => done (each fun c => if c < 15 then (c + 1, if c = 14 then flCsat else 0) else (c, 0)) 1
  | 3 => if w = 0 then s else done (each fun c => satAdd (2 ^ 32 - 1) c w) w
  | 4 => if w = 0 then s else done (each fun c => clamp32 c w) w
  | 5 => done (each fun c => (max c (rho h b.lgsize), 0)) 1
  | _ =>
    if isNan32 data then hdrPut g.1 r { g.2 with flags := g.2.flags ||| flNan }
    else done (cellMod (fun c => satAdd (2 ^ 32 - 1) c 1) r g (cellAt 6 (bucketOf data b.lgsize))) 1

/-- Delete a key from a type that has deletion (R279, R282, R283). -/
def skDelete (s : State) (r : Region) (key : Nat) (data : W32) : State :=
  let b := r.b
  let h := skHash key b.seed
  let g := hdrGet s r
  let w := data.toNat
  let each (f : Nat → Nat × BitVec 8) : State × SkHdr := (keyCells b h).foldl (cellMod f r) g
  let fin (h : SkHdr) : SkHdr := satOf b { h with flags := h.flags ||| flDel }
  match b.type with
  | 2 =>
    let x := each fun c => if c = 0 then (0, flUnder) else if c = 15 then (15, 0) else (c - 1, 0)
    hdrPut x.1 r (fin (decN x.2))
  | _ =>
    if w = 0 then s
    else let x := each fun c => clamp32 c (-(w : Int)); hdrPut x.1 r (fin (addN x.2 w))

/-! Queries -/

/-- Read every cell of a list. -/
def cellsGet (s : State) (r : Region) (ps : List CellAt) : State × List Nat :=
  ps.foldl (fun x p => let c := cellGet x.1 r p; (c.1, x.2 ++ [c.2])) (s, [])

def allCells (b : Binding) : List CellAt := (List.range (cellCount b.type b.lgsize b.depth)).map (cellAt b.type)

/-- The FP32 value of a natural number. -/
def f32OfNat (n : Nat) : W32 := (round32 .rne (.fin false n 0)).1
/-- x · m with one rounding. -/
def mulNat (x : W32) (m : Nat) : W32 := (fin32 (fMul (dec32 x) (.fin false m 0))).1

/-- The estimate of R284 from the registers. -/
def estimate (ms : List Nat) : W32 :=
  let m := ms.length
  let p := Nat.log2 m
  let v := (ms.filter (· = 0)).length
  let alpha : W32 :=
    if p = 4 then 0x3F2C49BA else if p = 5 then 0x3F326E98 else if p = 6 then 0x3F358106
    else divRne 0x3F38A71E (add32 0x3F800000 (divRne 0x3F8A1CAC (f32OfNat m))).1
  let z := ms.foldl (fun a (k : Nat) => (fin32 (fAdd .rne (dec32 a) (.fin false 1 (-(k : Int))))).1) 0
  let e := divRne (mulNat alpha (m * m)) z
  let small := !fLt (.fin false (5 * m) (-1)) (dec32 e)
  if small && 0 < v then
    mul32 (mul32 (f32OfNat m) (fLg2 (divRne (f32OfNat m) (f32OfNat v))).1).1 0x3F317218 |>.1
  else e

/-- The representative of a bucket (R285). -/
def representative (b g : Nat) : W32 :=
  if b / 2 ^ g % 256 = 255 then (if b / 2 ^ (8 + g) = 1 then 0xFF800000 else 0x7F800000)
  else BitVec.ofNat 32 (b * 2 ^ (23 - g) + 2 ^ (22 - g))

/-- The first bucket of an order at which the running sum reaches `t`. -/
def rankWalk (cs : List Nat) (t : Nat) (order : List Nat) (sum : Nat) : Option Nat :=
  match order with
  | [] => none
  | b :: r => let sum' := sum + cs.getD b 0; if t ≤ sum' then some b else rankWalk cs t r sum'

/-- The value at rank q / 65,536 (R285). -/
def rankValue (cs : List Nat) (g q : Nat) : W32 :=
  let total := cs.foldl (· + ·) 0
  if total = 0 then 0x7FC00000
  else
    let t := max 1 ((q * total + 65535) / 65536)
    let half := 2 ^ (8 + g)
    let order := (List.range half).map (fun i => 2 * half - 1 - i) ++ List.range half
    match rankWalk cs t order 0 with
    | some b => representative b g
    | none => 0x7FC00000

/-- The lower median of signed counters (R283). -/
def lowerMedian (cs : List Nat) : W64 :=
  let xs := (cs.map fun c => (BitVec.ofNat 32 c).toInt).mergeSort (· ≤ ·)
  BitVec.ofInt 64 (xs.getD ((cs.length + 1) / 2 - 1) 0)

def skPoint (s : State) (r : Region) (key : Nat) : State × W64 :=
  let b := r.b
  let ks := cellsGet s r (keyCells b (skHash key b.seed))
  match b.type with
  | 1 => (ks.1, if ks.2.all (· ≠ 0) then 1 else 0)
  | 2 => (ks.1, if ks.2.all (· ≠ 0) then 1 else 0)
  | 3 => (ks.1, BitVec.ofNat 64 (ks.2.min?.getD 0))
  | 4 => (ks.1, lowerMedian ks.2)
  | 5 =>
    let all := cellsGet s r (allCells b)
    let v := (all.2.filter (· = 0)).length
    (all.1, BitVec.ofNat 64 ((estimate all.2).toNat + 2 ^ 32 * v))
  | _ => let c := cellGet s r (cellAt 6 key); (c.1, BitVec.ofNat 64 c.2)

def skRank (s : State) (r : Region) (key : Nat) : State × W64 :=
  let all := cellsGet s r (allCells r.b)
  (all.1, (rankValue all.2 r.b.lgsize key).setWidth 64)

/-- The status word (R287). -/
def skStatus (s : State) (r : Region) : State × W64 :=
  let h := hdrGet s r
  let fill := h.2.pop * 65536 / cellCount r.b.type r.b.lgsize r.b.depth
  (h.1, BitVec.ofNat 64 (h.2.flags.toNat + 2 ^ 8 * (fill % 2 ^ 17) + 2 ^ 25 * min h.2.n (2 ^ 39 - 1)))

/-! Addresses in a window (R277, R279, R300) -/

def skFunction (a : W64) : Nat := a.toNat / 2 ^ 44 % 8
def skKey (a : W64) : Nat := a.toNat / 8 % 2 ^ 41
def windowBase (a : W64) : W64 := BitVec.ofNat 64 (a.toNat / 2 ^ 47 * 2 ^ 47)

def findBinding (s : State) (job : Nat) (base : W64) : Option Binding :=
  s.bindings.find? fun b => b.job = job && b.window = base

/-- Whether a function is refused for a store or a load (R279). -/
def skRefused (b : Binding) (write : Bool) (f : Nat) : Bool :=
  match f with
  | 0 => false
  | 1 => write || b.type ≠ 6
  | 2 => write
  | 3 => !write
  | _ => true

def skKeyBad (b : Binding) (write : Bool) (f key : Nat) : Bool :=
  !write && b.type = 6 && ((f = 1 && 65536 < key) || (f = 0 && 2 ^ (9 + b.lgsize) ≤ key))

/-- Whether an access reads every cell. -/
def skWhole (b : Binding) (write : Bool) (f : Nat) : Bool :=
  !write && ((b.type = 5 && f = 0) || (b.type = 6 && f = 1))

/-- Bytes of the body that an access touches, one of each page at least: the header and its cells. -/
def skTouched (b : Binding) (write : Bool) (f key : Nat) (data : W32) : List Nat :=
  if f = 2 then [0]
  else if skWhole b write f then
    let n := 256 + cellBytes b.type b.lgsize b.depth
    (List.range ((n + 65535) / 65536)).map (65536 * ·) ++ [n - 1]
  else if b.type = 6 then
    0 :: (if write && isNan32 data then [] else [(cellAt 6 (if write then bucketOf data b.lgsize else key)).off])
  else 0 :: (keyCells b (skHash key b.seed)).map CellAt.off

/-- What a sketch access meets: nothing, a kind and cause with a malformed entry to report, or a wait. -/
inductive SkRes where
  | ok | bad (kind cause : Nat) (rep : Option BadEntry)
  /-- The walk for a byte of the body met uncorrectable data (R417). -/
  | dead (pa : Nat)
  | wait (why : WaitWhy)
  deriving DecidableEq, Repr

/-- A wait that only a write meets, when it is about to be performed. -/
def writeWait (y : WaitWhy) : Bool :=
  match y with
  | .cow _ => true
  | .line _ => true
  | .refresh => false
  | .record _ _ _ _ => false

/-- The translations of the body bytes that an access touches. -/
def bodyXlat (s : State) (b : Binding) (acc : AccKind) (vs : List (Nat × Nat)) (offs : List Nat) : List XRes :=
  offs.map fun o => translate s b.job (b.body + BitVec.ofNat 64 o) acc vs

/-- A body byte that an access touches translates to a frame outside the home stack, whatever else its page's entry gives
(R290, R300). -/
def bodyStray (s : State) (b : Binding) (acc : AccKind) (offs : List Nat) : Bool :=
  offs.any fun o => match frameOf s b.job (b.body + BitVec.ofNat 64 o) acc with
    | some pa => paSpace pa ≥ 2 || paStack pa ≠ b.home
    | none => false

/-- The faults that the pages of a body give, the unmapped ones first (R242). -/
def bodyFaults (xs : List XRes) : List (Nat × Option BadEntry) :=
  let fs := xs.filterMap fun x => match x with
    | .fault k rep => some (k, rep)
    | .window _ => some (1, none)
    | _ => none
  fs.filter (fun f => f.1 ≠ 2) ++ fs.filter fun f => f.1 = 2

/-- The checks of an access of a lane in a window, in the order of R300: `width` is the access's, `isLdSt` says that it is
an `ld` or `st`. The rights of the window come after its causes, the translation of the body's pages last: pages to be served,
then faults, then the copies that a write needs. -/
def skCheck (s : State) (job : Nat) (a : W64) (write isLdSt : Bool) (width : Nat) (data : W32) (e : W64)
    (vs : List (Nat × Nat)) : SkRes :=
  let f := skFunction a
  let acc : AccKind := if write then .write else .read
  if !isLdSt then .bad 6 2 none
  else if width ≠ 8 then .bad 6 1 none
  else match findBinding s job (windowBase a) with
    | none => .bad 6 6 none
    | some b =>
      let offs := skTouched b write f (skKey a) data
      if skRefused b write f then .bad 6 3 none
      else if write && f = 3 && b.type ≠ 2 && b.type ≠ 4 then .bad 6 4 none
      else if skKeyBad b write f (skKey a) then .bad 6 5 none
      else if bodyStray s b acc offs then .bad 6 7 none
      else if !hasRight e acc then .bad 2 0 none
      else
        let xs := bodyXlat s b acc vs offs
        let waits := xs.filterMap fun x => match x with | .wait y => some y | _ => none
        match waits.find? fun y => !writeWait y with
        | some y => .wait y
        | none =>
          match bodyFaults xs, xs.findSome? fun x => match x with | .dead pa => some pa | _ => none with
          | x :: _, _ => .bad x.1 0 x.2
          | [], some pa => .dead pa
          | [], none =>
            match waits with
            | y :: _ => .wait y
            | [] => .ok

/-- The lines of a body that this core's L1 would have to write back before the access and that the host may cache (R130,
R388). -/
def bodyLines (s : State) (job core : Nat) (a : W64) (write : Bool) (data : W32) : List Nat :=
  match findBinding s job (windowBase a) with
  | none => []
  | some b => (skTouched b write (skFunction a) (skKey a) data).flatMap fun o =>
    match peekPa s b.job (b.body + BitVec.ofNat 64 o) with
    | some pa => dirtyLines s core (pa / 128)
    | none => []

/-- Whether a byte that an access touches holds uncorrectable data. -/
def skPoison (s : State) (b : Binding) (write : Bool) (a : W64) (data : W32) : Option Nat :=
  (skTouched b write (skFunction a) (skKey a) data).findSome? fun o =>
    match peekPa s b.job (b.body + BitVec.ofNat 64 o) with
    | some pa => if dataBad s none pa 1 then some pa else none
    | none => none

/-- Perform a load in a window. -/
def skLoad (s : State) (r : Region) (a : W64) : State × W64 :=
  match skFunction a with
  | 0 => skPoint s r (skKey a)
  | 1 => skRank s r (skKey a)
  | _ => skStatus s r
/-- Perform a store in a window. -/
def skStore (s : State) (r : Region) (a : W64) (data : W32) : State :=
  match skFunction a with
  | 0 => skInsert s r (skKey a) data
  | _ => skDelete s r (skKey a) data

end Sys2Proof.Machine
end

