-- ==== Sys2Proof/Machine/Access.lean ====
section
/-! DEFINITION. The accesses of lanes: their checks and faults (spec/09 R242 to R244), the scratchpad (spec/06 R159), and how
they are performed (spec/05 R117, R127). -/

namespace Sys2Proof.Machine

/-! Where a lane's access goes -/

/-- The outcome of a lane's checks. -/
inductive LaneRes where
  /-- Global memory at a PA. -/
  | ok (pa : Nat)
  /-- A byte of a group's scratchpad. -/
  | scr (g off : Nat)
  /-- A sketch access (R278). -/
  | skt
  /-- The walk met uncorrectable data (R417). -/
  | dead (pa : Nat)
  | bad (kind cause : Nat) (rep : Option BadEntry)
  | wait (why : WaitWhy)
  deriving DecidableEq, Repr

/-- A load of policy mem that finds a clean copy at the home L2 reads DRAM all the same (R127), and waits there for a refresh that
comes first (R413). -/
def memHold (s : State) (mem : Bool) (r : LaneRes) : LaneRes :=
  match r with
  | .ok pa => if mem && memDue s pa then .wait .refresh else r
  | r => r

structure LaneAcc where
  lane : Nat
  addr : W64
  res  : LaneRes
  deriving DecidableEq, Repr

/-- The address of a lane: `vo` 0 means no lane offset (R50, R230); `sh` is 1 for nibbles (R229). -/
def laneAddr (W : Warp) (b : BitVec 6) (vo : BitVec 8) (off : W64) (sh l : Nat) : W64 :=
  sGet W b + (if vo = 0 then 0 else BitVec.ofNat 64 ((vGet W vo.toNat l).toNat / 2 ^ sh)) + off

/-- The checks of a global access in the order of R242. `n` is the alignment, `sk` what a sketch window makes of it. A sector
that this core's L1 would have to write back first, in a line that the host may cache, is waited for (R130, R388). -/
def checkLane (s : State) (W : Warp) (a : W64) (n : Nat) (acc : AccKind) (sk : W64 → SkRes) : LaneRes :=
  if !canonical a then .bad 4 0 none
  else if a.toNat % n ≠ 0 then .bad 3 0 none
  else match translate s (warpJob s W) a acc W.verdicts with
    | .ok pa => match dirtyLines s W.core (pa / 128) with
      | [] => .ok pa
      | l :: _ => .wait (.line l)
    | .window e =>
      if a.toNat % 8 ≠ 0 then .bad 3 0 none
      else match sk e with
        | .ok => .skt
        | .bad k c rep => .bad k c rep
        | .dead pa => .dead pa
        | .wait why => .wait why
    | .fault k b => .bad k 0 b
    | .dead pa => .dead pa
    | .wait why => .wait why

/-- Any instruction but `ld` and `st` in a window (R300). -/
def skOther (_ : W64) : SkRes := .bad 6 2 none

/-- The group and offset behind a scratchpad address (R159). A peer group whose slot has been released while its gang runs on
keeps its bytes here: the spec ends the scratchpad's life with the slot (R160) and gives an access to it neither a fault
nor a value (DESIGN CHOICE, log 69). -/
def scrPlace (s : State) (W : Warp) (a : W64) : Option (Nat × Nat) :=
  let p := warpPkt s W
  let x := a.toNat
  let rank := x / 2 ^ 19 % 4
  let off := x % 2 ^ 19
  if x / 2 ^ 22 ≠ 0 || pkScratch p ≤ off then none
  else if x / 2 ^ 21 % 2 = 0 then (if rank = 0 then some (W.group, off) else none)
  else if rank < pkGang p then some ((getGang s W.gang).groups.getD rank W.group, off)
  else none

def checkScr (s : State) (W : Warp) (a : W64) (n : Nat) : LaneRes :=
  if a.toNat % n ≠ 0 then .bad 3 0 none
  else match scrPlace s W a with
    | some (g, o) => .scr g o
    | none => .bad 5 0 none

def scrRead (s : State) (g off n : Nat) : Nat :=
  match n with
  | 0 => 0
  | k + 1 => (tabGet 0 (getG s g).scratch off).toNat + 256 * scrRead s g (off + 1) k
def scrWriteTab (t : Tab Byte) (off n v : Nat) : Tab Byte :=
  match n with
  | 0 => t
  | k + 1 => scrWriteTab (tabSet 0 t off (BitVec.ofNat 8 v)) (off + 1) k (v / 256)
def scrWrite (s : State) (g off n v : Nat) : State :=
  updG s g fun G => { G with scratch := scrWriteTab G.scratch off n v }

/-! Faults of lanes (R242 to R244) -/

/-- The bad lanes of a list with kind, cause, address and what is to be reported. -/
def badLanes (as : List LaneAcc) : List (Nat × Nat × Nat × W64 × Option BadEntry) :=
  as.filterMap fun a => match a.res with
    | .bad k c rep => some (a.lane, k, c, a.addr, rep)
    | _ => none
/-- The lanes that must wait, and what for. -/
def waitLanes (as : List LaneAcc) : List (Nat × WaitWhy) :=
  as.filterMap fun a => match a.res with
    | .wait y => some (a.lane, y)
    | _ => none
/-- Every lane that must wait is entered: the pages of all of them are asked for (R379, R380, R383), each with the kind of its
lane's access. -/
def waitAll (s : State) (w : Nat) (acc : Nat → AccKind) (ys : List (Nat × WaitWhy)) : State :=
  ys.foldl (fun u y => waitOn u (warpJob s (getW s w)) y.2 (acc y.1) (.warp w)) s
/-- The lanes whose walk met uncorrectable data, with its PA. -/
def deadLanes (as : List LaneAcc) : List (LaneAcc × Nat) :=
  as.filterMap fun a => match a.res with
    | .dead pa => some (a, pa)
    | _ => none
/-- They die, and the others go on (R164, R417). -/
def killDead (s : State) (w : Nat) (as : List LaneAcc) : State :=
  (deadLanes as).foldl (fun u d =>
    let W := getW u w
    killLanes (consumed u none d.2 8 1 (warpJob u W) (pkId (warpPkt u W))) w (laneBit d.1.lane) d.1.addr W.pc W.word) s
/-- Records of reason 3 that the faults of lanes make (R374). -/
def reports (as : List LaneAcc) : Nat := ((badLanes as).filter fun b => b.2.2.2.2.isSome).length
def goodLanes (as : List LaneAcc) : List LaneAcc :=
  as.filter fun a => match a.res with
    | .bad _ _ _ => false
    | .dead _ => false
    | .wait _ => false
    | _ => true

/-- The faults of lanes would need more records of reason 3 than can be outstanding (R380). -/
def overRecords (s : State) (as : List LaneAcc) : Bool := 0 < reports as && 1024 < s.xrecs.length + reports as

/-- Run the accesses of an instruction after its checks: it waits, or enters the handler in trap mode with `extra` as its
restart index, or records and parks the faulting lanes and goes on with the others. `acc` is the kind of each lane's access. Faults that need more records than can be
outstanding wait (R380). Where one lane faults in trap mode and another's walk met uncorrectable data, the handler comes
first and the other lane dies when the instruction is executed again (DESIGN CHOICE, log 77). -/
def onLanes (s : State) (w : Nat) (acc : Nat → AccKind) (extra : Nat) (as : List LaneAcc)
    (k : State → List LaneAcc → Out) : Out :=
  let W := getW s w
  match waitLanes as with
  | y :: ys => .next (waitAll s w acc (y :: ys))
  | [] =>
    let bad := badLanes as
    let s1 := bad.foldl (fun u b => reportBad u (warpJob u W) b.2.2.2.2 (acc b.1) (.warp w)) s
    if overRecords s as then .next s
    else match bad with
    | [] => if (deadLanes as).isEmpty then k s as else k (killDead s w as) (goodLanes as)
    | (_, kind, c, a, _) :: _ =>
      let m := maskOf (bad.map Prod.fst)
      if pkRecord (warpPkt s W) then
        let s2 := bad.foldl (fun u b => sendRecord u W b.1 b.2.1 extra W.word W.pc b.2.2.2.1) s1
        k (killDead (parkLanes s2 w m) w as) (goodLanes as)
      else .next (takeTrap s1 w ⟨0x0A, c, extra, kind, m, a, W.pc, W.word, W.started⟩ false)

/-- The lanes that consume uncorrectable data die (R164, R417); the others remain. A plain store consumes none, an atomic
and a load of `n` bytes do, and so does a sketch access. Every lane that reads the error dies by it; it is recorded once. -/
def killPoisoned (s : State) (w n : Nat) (consumes : Bool) (data : Nat → W32) (write : Bool) (as : List LaneAcc) :
    State × List LaneAcc :=
  as.foldl (fun x a =>
    let W := getW x.1 w
    let core := some W.core
    let job := warpJob x.1 W
    let id := pkId (warpPkt x.1 W)
    let dies (t : State) : State × List LaneAcc := (killLanes t w (laneBit a.lane) a.addr W.pc W.word, x.2)
    let lives : State × List LaneAcc := (x.1, x.2 ++ [a])
    match a.res with
    | .ok pa => if consumes && dataBad s core pa n then dies (consumed x.1 core pa n 1 job id) else lives
    | .scr g o =>
      if consumes && (scrBad s g o n).isSome then dies (scrConsumed x.1 g o n W.core 1 job id) else lives
    | .skt =>
      match (findBinding s job (windowBase a.addr)).bind fun b => skPoison s b write a.addr (data a.lane) with
      | some pa => dies (consumed x.1 none pa 1 1 job id)
      | none => lives
    | _ => lives) (s, [])

/-! Performing (R117, R127) -/

/-- The region of a window for a warp's access. -/
def regionOf (s : State) (W : Warp) (a : W64) : Option Region :=
  match findBinding s (warpJob s W) (windowBase a) with
  | some b => some ⟨b, some W.core⟩
  | none => none

/-- Read `n` bytes for one lane of an atomic. -/
def readLane (s : State) (W : Warp) (pl : Place) (n : Nat) (a : LaneAcc) : State × Nat :=
  match a.res with
  | .ok pa => loadAt (lapse s.ctr s W.core pa) pl pa n
  | .scr g o => (s, scrRead s g o n)
  | .skt =>
    match regionOf s W a.addr with
    | some r => let x := skLoad s r a.addr; (x.1, x.2.toNat)
    | none => (s, 0)
  | _ => (s, 0)

/-- Read `n` bytes for one lane of a load that began in `s0`. The lanes are unordered among themselves (R117), so what one of them
reads depends neither on the others nor on their evictions, and lanes that read one byte see it alike; `s` is what the lanes before
it have made of the caches. -/
def loadLane (s0 s : State) (W : Warp) (pl : Place) (n : Nat) (a : LaneAcc) : State × Nat :=
  match a.res with
  | .ok pa => ((loadAt (lapse s0.ctr s W.core pa) pl pa n).1, (loadAt (lapse s0.ctr s0 W.core pa) pl pa n).2)
  | _ => readLane s W pl n a

/-- Replace the nibble that a lane names. -/
def putNibble (hi : Bool) (old v : Nat) : Nat := if hi then old % 16 + 16 * v else old / 16 * 16 + v

/-- Write `n` bytes for one lane. -/
def writeLane (s : State) (W : Warp) (pl : Place) (n v : Nat) (w : Option Nat) (a : LaneAcc) : State :=
  match a.res with
  | .ok pa => storeAt s pl pa n v w none
  | .scr g o => scrWrite s g o n v
  | .skt =>
    match regionOf s W a.addr with
    | some r => skStore s r a.addr (BitVec.ofNat 32 v)
    | none => s
  | _ => s

/-- Write a nibble for one lane (R229). -/
def writeNib (s : State) (pl : Place) (hi : Bool) (v : Nat) (w : Option Nat) (a : LaneAcc) : State :=
  match a.res with
  | .ok pa => storeNibAt s pl pa hi v w
  | .scr g o => scrWrite s g o 1 (putNibble hi (scrRead s g o 1) (v % 16))
  | _ => s

def paRanges (n : Nat) (as : List LaneAcc) : List (Nat × Nat) :=
  as.filterMap fun a => match a.res with
    | .ok pa => some (pa, n)
    | _ => none

/-- What an instruction's stores sent on to DRAM: one write for each 32-byte unit (R147). The token of a store is signalled at once,
or with the last of them (R39, R127). -/
def storeToken (before s : State) (w : Nat) (tok : Option (BitVec 3)) : State :=
  if before.dramq.length < s.dramq.length then
    let s1 := joinWrites s before.dramq.length
    match tok with
    | none => s1
    | some _ =>
      { updW s1 w fun W => arm W tok false with
        dramq := updAt s1.dramq (s1.dramq.length - 1) fun d => { d with tok := tok } }
  else s

/-- A load's results go on their way (R59); with no performing lane its token is signalled at once (R232). -/
def pendCells (s : State) (w : Nat) (cells : List (Nat × W32)) (look : Nat) (tok : Option (BitVec 3)) : State :=
  if cells.isEmpty then s
  else updW s w fun W => let W' := arm W tok false; { W' with pend := W'.pend ++ [⟨cells, look, tok⟩] }

/-- Cells that one lane's run of words fills. -/
def runCells (r l : Nat) (ws : List W32) : List (Nat × W32) :=
  (List.range ws.length).map fun i => (vKey (r + i) l, ws.getD i 0)

end Sys2Proof.Machine
end

