-- ==== Sys2Proof/Machine/Memory.lean ====
section
/-! DEFINITION. Loads, stores, multi-register moves, the quantising store, fences and cache maintenance (spec/09 R227 to R235,
R240, R241; spec/05 R127 to R136), and the completions that belong to them. -/

namespace Sys2Proof.Machine

/-! Shared parts -/

/-- Registers `r` to `r + n − 1`. -/
def run (r n : Nat) : List Nat := (List.range n).map (r + ·)
/-- The lane-offset register, if the field names one (R50). -/
def voReg (o : BitVec 8) : List Nat := if o = 0 then [] else [o.toNat]
/-- The words of a run in one lane. -/
def runWords (W : Warp) (r n l : Nat) : List W32 := (run r n).map fun i => vGet W i l

/-- Whether a nibble access of a lane names the high nibble (R229). -/
def highNibble (W : Warp) (o : BitVec 8) (l : Nat) : Bool := o ≠ 0 && (vGet W o.toNat l).getLsbD 0
def nibbleShift (f : BitVec 5) : Nat := if isNibble f then 1 else 0
/-- The nibble or the whole of what a lane read. -/
def laneValue (W : Warp) (f : BitVec 5) (o : BitVec 8) (l x : Nat) : Nat :=
  if isNibble f then x / (if highNibble W o l then 16 else 1) % 16 else x
/-- The bytes of an access as a sketch window sees them: a nibble is no 8-byte access. -/
def skLdSt (s : State) (W : Warp) (a : W64) (write : Bool) (f : BitVec 5) (data : W32) (e : W64) : SkRes :=
  match skCheck s (warpJob s W) a write true (fmtBytes f) data e W.verdicts with
  | .ok => match bodyLines s (warpJob s W) W.core a write data with
    | [] => .ok
    | l :: _ => .wait (.line l)
  | .bad k c rep => .bad k c rep
  | .dead pa => .dead pa
  | .wait y => .wait y

/-! ld, st, lds, sts (R230) -/

/-- A load: `chk` checks a lane's address, `pl` is where it is performed. -/
def loadOp (s : State) (t o : BitVec 8) (b : BitVec 6) (l : BitVec 4) (x : MPfx)
    (chk : Warp → W64 → LaneRes) : Out :=
  let a := attr x.mem
  let f := a.fmt
  let regs := run t.toNat (fmtRegs f) ++ voReg o
  issue s (fun W => regReason W regs [b]) regs fun w W =>
    if evFull W x.ev then .next s
    else
      let as := (lanesOf (performing W)).map fun k =>
        let ea := laneAddr W b o (offM x) (nibbleShift f) k
        ⟨k, ea, chk W ea⟩
      onLanes s w (fun _ => .read) 0 as fun s1 good =>
        let p := killPoisoned s1 w (fmtBytes f) true (fun _ => 0) false good
        let r := p.2.foldl (fun z e =>
          let y := loadLane p.1 z.1 W (placeOfAttr W.core a (isStrong a)) (fmtBytes f) e
          (y.1, z.2 ++ runCells t.toNat e.lane (widen f (laneValue W f o e.lane y.2)))) (p.1, [])
        .next (complete (pendCells r.1 w r.2 l.toNat x.ev) w (lenM x) W.exm)

def execLd (t o : BitVec 8) (b : BitVec 6) (l : BitVec 4) (x : MPfx) (s : State) : Out :=
  let f := (attr x.mem).fmt
  loadOp s t o b l x fun W a =>
    memHold s ((attr x.mem).policy = 4) (checkLane s W a (fmtBytes f) .read fun e => skLdSt s W a false f 0 e)

def execLds (t o : BitVec 8) (b : BitVec 6) (l : BitVec 4) (x : MPfx) (s : State) : Out :=
  loadOp s t o b l x fun W a => checkScr s W a (fmtBytes (attr x.mem).fmt)

/-- A store: a nibble is one update of its byte (R229); the flags are those of the performing lanes. -/
def storeOp (s : State) (t o : BitVec 8) (b : BitVec 6) (x : MPfx) (chk : Warp → Nat → W64 → LaneRes) : Out :=
  let a := attr x.mem
  let f := a.fmt
  let regs := run t.toNat (fmtRegs f) ++ voReg o
  issue s (fun W => regReason W regs [b]) regs fun w W =>
    if evFull W x.ev || tileBusy W then .next s
    else
      let as := (lanesOf (performing W)).map fun k =>
        let ea := laneAddr W b o (offM x) (nibbleShift f) k
        ⟨k, ea, chk W k ea⟩
      onLanes s w (fun _ => .write) 0 as fun s1 good =>
        let p := killPoisoned s1 w (fmtBytes f) false (fun k => vGet W t.toNat k) true good
        let pl := placeOfAttr W.core a (isStrong a)
        let ys := p.2.map fun e => (e, narrow f (runWords W t.toNat (fmtRegs f) e.lane))
        let s2 := ys.foldl (fun z y =>
          if isNibble f then writeNib z pl (highNibble W o y.1.lane) y.2.1 (some w) y.1
          else writeLane z W pl (fmtBytes f) y.2.1 (some w) y.1) p.1
        let s3 := clearAt s2 (placeCore pl) (if isNibble f then [] else paRanges (fmtBytes f) p.2)
        let s4 := updW s3 w fun W => orFlags W (gather (ys.map fun y => y.2))
        .next (complete (storeToken p.1 s4 w x.ev) w (lenM x) W.exm)

def execSt (t o : BitVec 8) (b : BitVec 6) (l : BitVec 4) (x : MPfx) (s : State) : Out :=
  -- a store has no register result, so its look field imposes nothing (R59)
  let _ := l
  let f := (attr x.mem).fmt
  storeOp s t o b x fun W k a =>
    checkLane s W a (fmtBytes f) .write fun e => skLdSt s W a true f (vGet W t.toNat k) e

def execSts (t o : BitVec 8) (b : BitVec 6) (l : BitVec 4) (x : MPfx) (s : State) : Out :=
  let _ := l
  storeOp s t o b x fun W _ a => checkScr s W a (fmtBytes (attr x.mem).fmt)

/-! ldm and stm (R233, R234) -/

/-- Registers that a multi-register word moves (R80). -/
def countM (x : MPfx) : Nat := (attr x.mem).op7.toNat + 1

/-- The state in which a fault of register `j` is met: in trap mode the registers before it are written and the restart
index is `j` (R234); what they sent on to DRAM after the first `q` writes stands in whole units (R147). -/
def stopAt (s : State) (w j q : Nat) (cells : List (Nat × W32)) (as : List LaneAcc) : State :=
  if (badLanes as).isEmpty || pkRecord (warpPkt s (getW s w)) then s
  else updW (joinWrites s q) w fun W => { landCells W cells with ridx := j }

/-- Move the registers of `js` in order; an access that must wait leaves the whole instruction to be executed later from
`s0`. `step` performs one register for its lanes. -/
def moveRegs (s0 : State) (w : Nat) (acc : AccKind) (chk : State → Warp → Nat → Nat → LaneAcc)
    (step : State → Nat → List LaneAcc → State × List (Nat × W32)) (done : State → List (Nat × W32) → Out)
    (js : List Nat) (s : State) (cells : List (Nat × W32)) : Out :=
  match js with
  | [] => done s cells
  | j :: r =>
    let W := getW s w
    let as := (lanesOf (performing W)).map (chk s W j)
    match waitLanes as with
    | y :: ys => .next (waitAll s0 w (fun _ => acc) (y :: ys))
    | [] =>
      if overRecords s as then .next s0
      else onLanes (stopAt s w j s0.dramq.length cells as) w (fun _ => acc) j as fun s1 good =>
        let z := step s1 j good
        moveRegs s0 w acc chk step done r z.1 (cells ++ z.2)

/-- A resumed `ldm` forms its addresses from what its registers hold then: where the run overlaps `vo`, from the loaded value
(DESIGN CHOICE, log 79: R234 keeps the restart index alone). -/
def execLdm (t o : BitVec 8) (b : BitVec 6) (l : BitVec 4) (x : MPfx) (s : State) : Out :=
  let n := countM x
  let regs := run t.toNat n ++ voReg o
  let a := attr x.mem
  issue s (fun W => regReason W regs [b]) regs fun w W =>
    if evFull W x.ev then .next s
    else
      moveRegs s w .read
        (fun u V j k =>
          let ea := laneAddr W b o (offM x) 0 k + BitVec.ofNat 64 (4 * j)
          ⟨k, ea, memHold u (a.policy = 4) (checkLane u V ea 4 .read skOther)⟩)
        (fun u j good =>
          let p := killPoisoned u w 4 true (fun _ => 0) false good
          p.2.foldl (fun z e =>
            let y := loadLane s z.1 W (placeOfAttr W.core a (isStrong a)) 4 e
            (y.1, z.2 ++ [(vKey (t.toNat + j) e.lane, BitVec.ofNat 32 y.2)])) (p.1, []))
        (fun u cells => .next (complete (pendCells u w cells l.toNat x.ev) w (lenM x) W.exm))
        ((List.range n).drop W.ridx) s []

def execStm (t o : BitVec 8) (b : BitVec 6) (l : BitVec 4) (x : MPfx) (s : State) : Out :=
  let _ := l
  let n := countM x
  let regs := run t.toNat n ++ voReg o
  let a := attr x.mem
  issue s (fun W => regReason W regs [b]) regs fun w W =>
    if evFull W x.ev || tileBusy W then .next s
    else
      moveRegs s w .write
        (fun u V j k =>
          let ea := laneAddr W b o (offM x) 0 k + BitVec.ofNat 64 (4 * j)
          ⟨k, ea, checkLane u V ea 4 .write skOther⟩)
        (fun u j good =>
          let u1 := good.foldl (fun z e =>
            writeLane z W (placeOfAttr W.core a (isStrong a)) 4 (vGet W (t.toNat + j) e.lane).toNat (some w) e) u
          (clearAt u1 (placeCore (placeOfAttr W.core a (isStrong a))) (paRanges 4 good), []))
        (fun u _ => .next (complete (storeToken s u w x.ev) w (lenM x) W.exm))
        ((List.range n).drop W.ridx) s []

/-! The quantising store (R112, R235) -/

/-- Unbiased exponent of the largest element of a format. -/
def quantEmax (f : BitVec 5) : Int :=
  match f.toNat with
  | 0x03 => 8
  | 0x04 => 15
  | 0x05 => 2
  | _ => 6

/-- The magnitude of a finite value as bits that order like it. -/
def magBits (x : W32) : Nat := x.toNat % 2 ^ 31

/-- The block scale, the elements of the lanes and the flags (R112). -/
def quantise (f : BitVec 5) (xs : List (Nat × W32)) : W32 × List (Nat × (Nat × Flags)) × Flags :=
  let amax := (xs.map fun e => magBits e.2).foldl max 0
  if 0x7F800000 ≤ amax then (0x7FC00000, xs.map fun e => (e.1, narrowVal f .nan), fNV)
  else if amax = 0 then (0x3F800000, xs.map fun e => (e.1, narrowVal f (dec32 e.2)), 0)
  else match dec32 (BitVec.ofNat 32 amax) with
    | .fin _ m e0 =>
      let e := max ((Nat.log2 m : Int) + e0 - quantEmax f) (-149)
      let scaled (x : W32) : FVal := match dec32 x with
        | .fin sg k g => .fin sg k (g - e)
        | v => v
      ((round32 .rne (.fin false 1 e)).1, xs.map fun y => (y.1, narrowVal f (scaled y.2)), 0)
    | _ => (0x7FC00000, [], 0)

/-- Byte of element `i` from the base, and whether it is a high nibble. -/
def quantOff (f : BitVec 5) (i : Nat) : Nat × Bool := if isNibble f then (i / 2, i % 2 = 1) else (i, false)

/-- Block `j` and the blocks after it. -/
def quantBlocks (s0 : State) (w : Nat) (f : BitVec 5) (pl : Place) (t : Nat) (base sbase : W64) (W0 : Warp)
    (done : State → Out) (js : List Nat) (s : State) : Out :=
  match js with
  | [] => done s
  | j :: r =>
    let W := getW s w
    if performing W = 0 then done s
    else
      let sa := sbase + BitVec.ofNat 64 (4 * j)
      let as := (lanesOf (performing W)).map fun k =>
        let ea := base + BitVec.ofNat 64 (quantOff f (32 * j + k)).1
        ⟨k, ea, checkLane s W ea 1 .write skOther⟩
      match waitLanes as, warpAccess s W sa 4 .write with
      | y :: ys, .wait z => .next (waitAll s0 w (fun _ => .write) (y :: ys ++ [(0, z)]))
      | y :: ys, _ => .next (waitAll s0 w (fun _ => .write) (y :: ys))
      | [], .wait y => .next (waitAll s0 w (fun _ => .write) [(0, y)])
      | [], .bad kind c rep =>
        .next (faultAt (updW (reportBad (joinWrites s s0.dramq.length) (warpJob s W) rep .write (.warp w)) w fun W =>
          { W with ridx := j }) w 0x0A c j kind sa)
      | [], .dead q =>
        done (killLanes (consumed s none q 8 1 (warpJob s W) (pkId (warpPkt s W))) w (performing W) sa W.pc W.word)
      | [], .ok spa =>
        if overRecords s as then .next s0
        else onLanes (stopAt s w j s0.dramq.length [] as) w (fun _ => .write) j as fun s1 good =>
          let q := quantise f (good.map fun e => (e.lane, vGet W0 (t + j) e.lane))
          let s2 := good.foldl (fun z e =>
            let v := ((tabFind q.2.1 e.lane).getD (0, 0)).1
            if isNibble f then writeNib z pl (quantOff f (32 * j + e.lane)).2 v (some w) e
            else writeLane z W pl 1 v (some w) e) s1
          let s3 := clearAt s2 (placeCore pl) (if isNibble f then [] else paRanges 1 good)
          let s4 := if good.isEmpty then s3 else storeAt s3 pl spa 4 q.1.toNat (some w) none
          let fl := gather (q.2.1.map Prod.snd) ||| q.2.2
          quantBlocks s0 w f pl t base sbase W0 done r (updW s4 w fun W => orFlags W fl)

def execStmQuantise (t : BitVec 8) (b : BitVec 6) (l : BitVec 4) (x : MPfx) (s : State) : Out :=
  let _ := l
  let n := countM x
  let regs := run t.toNat n
  let a := attr x.mem
  let f := a.fmt
  issue s (fun W => orElse (reasonIf (b = 63) 0x15) (regReason W regs [b, b + 1])) regs fun w W =>
    if evFull W x.ev || tileBusy W then .next s
    else
      let base := sGet W b + offM x
      if performing W = 0 then .next (advance s w (lenM x))
      else if !canonical base then .next (faultAt s w 0x0A 0 0 4 base)
      else if base.toNat % (if isNibble f then 16 else 32) ≠ 0 then .next (faultAt s w 0x0A 0 0 3 base)
      else
        quantBlocks s w f (placeOfAttr W.core a (isStrong a)) t.toNat base (sGet W (b + 1)) W
          (fun u => .next (complete (storeToken s u w x.ev) w (lenM x) W.exm))
          ((List.range n).drop W.ridx) s

/-! Fences (R132 to R134) -/

/-- The scope of a fence: device by default. -/
def fenceScope (x : MPfx) : Nat := scopeOf (attr x.mem)

/-- A fence begins: one of gang scope or wider writes the dirty sectors of the core's L1 back and drops what is clean; a
sector dirtied after this is not its concern (R129). -/
def execFence (x : MPfx) (s : State) : Out :=
  issue s (fun _ => none) [] fun w W =>
    if evFull W x.ev || tileBusy W then .next s
    else
      let wide := decide (3 ≤ fenceScope x)
      withLines s (if wide then coreLines s W.core else []) <|
      let s1 := if wide then l1Fence s W.core else s
      .next (advance (updW s1 w fun W =>
        { arm W x.ev false with fence := some ⟨fenceScope x, (attr x.mem).policy = 4, x.ev⟩ }) w (lenM x))

/-- A fence in flight has nothing more to wait for (R132, R134). -/
def fenceReady (s : State) (w : Nat) (f : FenceRec) : Bool :=
  (!f.mem || !s.dramq.any fun d => d.warp = some w) && fenceDone s w (f.scope = 5)

def execFenceComplete (w : Nat) (s : State) : Out :=
  let W := getW s w
  match W.fence with
  | none => .next s
  | some f =>
    if fenceReady s w f then
      let s1 := if 3 ≤ f.scope then l1DropClean s W.core else s
      .next (signal (updW s1 w fun W => { W with fence := none }) w f.tok)
    else .next s

/-! clean, inval, pref (R135, R136, R240, R241) -/

/-- The physical runs behind the `n` bytes from `a`: pages that map nothing are skipped, and so is a page whose walk meets
uncorrectable data (DESIGN CHOICE, log 77: R417 does not name these instructions among the reads that kill lanes). -/
def mappedRuns (s : State) (job : Nat) (a : W64) (n : Nat) : List (Nat × Nat) :=
  let first := a.toNat / 2 ^ 16
  let last := (a.toNat + (n - 1)) / 2 ^ 16
  (List.range (last - first + 1)).filterMap fun i =>
    let lo := max a.toNat ((first + i) * 2 ^ 16)
    let hi := min (a.toNat + n) ((first + i + 1) * 2 ^ 16)
    match peekPa s job (BitVec.ofNat 64 lo) with
    | some pa => some (pa, hi - lo)
    | none => none
/-- A page of the `n` bytes from `a` whose walk has to wait for a refresh (R413). -/
def pagesHeld (s : State) (job : Nat) (a : W64) (n : Nat) : Bool :=
  rowsHeld s && (List.range ((a.toNat + (n - 1)) / 2 ^ 16 - a.toNat / 2 ^ 16 + 1)).any fun i =>
    peekHeld s job (BitVec.ofNat 64 (max a.toNat ((a.toNat / 2 ^ 16 + i) * 2 ^ 16)))
/-- The sectors of a run. -/
def runSectors (r : Nat × Nat) : List Nat :=
  (List.range ((r.1 + r.2 - 1) / 128 - r.1 / 128 + 1)).map (r.1 / 128 + ·)

/-- Send the dirty units of an L2 sector on to DRAM; the copy stays, clean (R135). Where writes of the sector were on their way
already, one that adds nothing stands behind them for this warp's fence (R134, R146). -/
def sendClean (s : State) (w k : Nat) : State :=
  let held := s.dramq.any fun d => d.sector = k
  let s1 := l2Send s (some w) k
  if held then { s1 with dramq := s1.dramq ++ [⟨k, 0, 0, some w, none⟩] } else s1

/-- The command record that carries the token of a `clean` or `inval`. -/
def maintCmd (s : State) (W : Warp) (w : Nat) (kind : CmdKind) (tok : Option (BitVec 3)) : Cmd where
  id := s.nextCmd
  kind := kind
  warp := w
  launch := W.launch
  job := warpJob s W
  core := W.core
  sa := 0
  sb := 0
  peer := none
  mem := false
  tok := tok
  dest := none
  hdr := W.pc
  word := W.word
  descs := []
  at_ := 0
  done := 0
  batch := none
  started := true
  verdicts := []
  packets := 0
  landed := 0
  failed := 0
  sig := false
  owed := []
  cut := []

/-- Arm the token of a maintenance instruction. -/
def maintToken (s : State) (w : Nat) (kind : CmdKind) (tok : Option (BitVec 3)) : State :=
  match tok with
  | none => s
  | some _ =>
    let W := getW s w
    { updW s w fun W => arm W tok false with
      cmds := s.cmds ++ [maintCmd s W w kind tok], nextCmd := s.nextCmd + 1 }

/-- A maintenance instruction: `act` acts on one sector of the range. -/
def maintOp (s : State) (n b : BitVec 6) (x : MPfx) (kind : CmdKind) (act : State → Nat → Nat → Nat → State) : Out :=
  issue s (fun W => regReason W [] [b, n]) [] fun w W =>
    let a := sGet W b + offM x
    let len := (sGet W n).toNat
    if evFull W x.ev then .next s
    else if len = 0 then .next (advance (maintToken s w kind x.ev) w (lenM x))
    else if !canonical a || (a.toNat + (len - 1)) / 2 ^ 56 ≠ a.toNat / 2 ^ 56 then .next (faultAt s w 0x0A 0 0 4 (nextAddr W))
    else if pagesHeld s (warpJob s W) a len then .next s
    else
      let ks := ((mappedRuns s (warpJob s W) a len).filter fun r => paSpace r.1 < 2).flatMap runSectors
      withLines s (ks.flatMap (dirtyLines s W.core)) <|
      .next (advance (maintToken (ks.foldl (fun t k => act t w W.core k) s) w kind x.ev) w (lenM x))

def execClean (n b : BitVec 6) (k : BitVec 4) (x : MPfx) (s : State) : Out :=
  let _ := k
  maintOp s n b x .clean fun t w core j => sendClean (poisonBack (l1Clean t core j) j) w j

/-- The write-back of an `inval` is on its way like any other; a vat unit's write may pass it (R136). -/
def execInval (n b : BitVec 6) (k : BitVec 4) (x : MPfx) (s : State) : Out :=
  let _ := k
  maintOp s n b x .inval fun t w core j => l2Drop (sendClean (poisonBack (l1Evict t core j) j) w j) j

/-- The sector that a lane of a `pref` asks for: none where its address would fault. -/
def prefSector (s : State) (W : Warp) (a : W64) : Option Nat :=
  if !canonical a then none
  else match peekPa s (warpJob s W) a with
    | some pa => if 2 ≤ paSpace pa || paFenced s pa then none else some (pa / 128)
    | none => none
/-- Fill a sector as the policy says (R241). -/
def prefFill (s : State) (core policy k : Nat) : State :=
  match policy with
  | 4 => s
  | 2 => l2Fill s k
  | 3 => l2Fill s k
  | _ => l1Fill s core k
/-- A lane of a `pref` has to wait for a refresh: of a table on its way, or of the sector itself (R413). -/
def prefDue (s : State) (W : Warp) (policy : Nat) (a : W64) : Bool :=
  policy ≠ 4 && canonical a && rowsHeld s && (peekHeld s (warpJob s W) a ||
    match prefSector s W a with
    | some k => readDue s (128 * k)
    | none => false)

def execPref (o : BitVec 8) (b : BitVec 6) (l : BitVec 4) (x : MPfx) (s : State) : Out :=
  let _ := l
  issue s (fun W => regReason W (voReg o) [b]) (voReg o) fun w W =>
    let p := (attr x.mem).policy.toNat
    let as := (lanesOf W.exm).map fun k => laneAddr W b o (offM x) 0 k
    if evFull W x.ev || as.any (prefDue s W p) then .next s
    else .next (advance ((as.filterMap (prefSector s W)).foldl (fun t k => prefFill t W.core p k) s) w (lenM x))

/-! Completions -/

/-- The lanes of a mask meet an uncorrectable error of the register file as their results arrive (R417, R420): they die
and nothing is written in them. -/
def loseLanes (s : State) (w : Nat) (m : W32) : State :=
  let W := getW s w
  let hit := m &&& liveLanes W &&& maskOf ((W.pend.flatMap fun p => p.cells).map fun c => c.1 % 32)
  let s1 := updW s w fun W => { W with pend := W.pend.map fun p =>
    { p with cells := p.cells.filter fun c => !hit.getLsbD (c.1 % 32) } }
  (lanesOf hit).foldl (fun t l =>
    killLanes (errRecord (rcount t (dieOf W.core) 3) 3 1 (dieOf W.core) (warpJob t W) (pkId (warpPkt t W)) (W.core % 1024) 0) w
      (laneBit l) 0 W.pc W.word) s1

/-- Results of loads and atomics arrive (R59); `ue` names the lanes in which an uncorrectable error is met. -/
def execLoadResultWrite (w : Nat) (ue : W32) (s : State) : Out :=
  if (getW s w).pend.isEmpty then .next s
  else
    let was := (getW s w).exm
    let s1 := landAll (loseLanes s w ue) w
    .next (if (getW s1 w).exm = 0 && was ≠ 0 then unwind s1 w else s1)

/-- Two writes on their way touch one 32-byte unit, or the second is one that adds nothing and stands behind all those of its
sector. Each unit is seen by itself (R147, R327), so writes of different units of a sector may pass each other. -/
def clashes (e d : DramWrite) : Bool :=
  e.sector = d.sector && (d.bytes = 0 || wholeUnits e.bytes &&& wholeUnits d.bytes ≠ 0)
/-- Whether write `k` on its way may be performed: no refresh of its bank takes priority (R413), the earlier ones of its units
come first, and a write that carries a token comes after its warp's. -/
def dramReady (s : State) (k : Nat) : Bool :=
  match s.dramq[k]? with
  | none => false
  | some d =>
    !paDue s (128 * d.sector) && (s.dramq.take k).all fun e => !clashes e d && (d.tok.isNone || e.warp ≠ d.warp)

/-- A write reaches DRAM. Of its units, those that the home L2 holds dirty are newer there and are written from there; the copy is
left clean, its other dirty units being sent on too (R127). -/
def execStorePerformed (k : Nat) (s : State) : Out :=
  match s.dramq[k]? with
  | none => .next s
  | some d =>
    if dramReady s k then
      let s0 := dramPut s d.sector d.bytes d.data
      let s1 := match l2Find s d.sector with
        | some x => if x.dirty = 0 then s0 else l2Send (unitsBack s0 d.sector d.bytes) d.warp d.sector
        | none => s0
      let s2 := { s1 with dramq := s1.dramq.eraseIdx k }
      match d.warp with
      | some w => .next (signal s2 w d.tok)
      | none => .next s2
    else .next s

/-- The units of a dirty sector in which its write-back finds an uncorrectable error are poisoned and recorded (R422). -/
def poisonSector (s : State) (k : Nat) (ue : BitVec 4) : State :=
  match l2Find s k with
  | none => s
  | some x => (List.range 4).foldl (fun t u =>
      if ue.getLsbD u && x.dirty &&& byteMask (32 * u) 32 ≠ 0 then poisonNew t (4 * k + u) 4 5 else t) s

/-- A cache evicts a sector of a core's L1, or of the home L2 (R127, R319); `ue` names the units that the write-back finds
uncorrectable. A sector whose write-back would write a line that the host may cache waits for its back-invalidates. -/
def execEviction (core : Option Nat) (sector : Nat) (ue : BitVec 4) (s : State) : Out :=
  match core with
  | some c =>
    match dirtyLines s c sector with
    | [] => .next (l1Evict s c sector)
    | ls => .next (ls.foldl askLine s)
  | none => .next (l2Evict (poisonBack (poisonSector s sector ue) sector) sector)

/-- The token of a `clean` or `inval` counts down (R240). -/
def execCleanInvalComplete (k : Nat) (s : State) : Out :=
  match s.cmds.find? fun c => c.id = k && (c.kind = .clean || c.kind = .inval) with
  | none => .next s
  | some c => .next (signal { s with cmds := s.cmds.filter fun e => e.id ≠ k } c.warp c.tok)

/-! The fault log (R246) -/

/-- An address for the fault log's words; a non-canonical one has no translation (R9). -/
def logAt (s : State) (l job : Nat) (a : W64) : XRes :=
  if canonical a then translate s job a .write (lvs s (.log l)) else .fault 4 none

/-- A record could not be appended: it is counted as dropped when the log can be written (R246). -/
def dropRecord (s : State) (l job : Nat) (log : W64) : State :=
  let s1 := updL s l fun L => { L with dropped := true }
  if log = 0 then s1
  else match logAt s1 l job (log + 8) with
    | .ok pa => l2Store s1 pa 8 (l2Read s1 pa 8 + 1)
    | _ => s1

/-- The launch engine appends the oldest record that it has. A malformed entry that it meets is reported (R374); a record whose
log's count, or an entry on the way to it, is uncorrectable is dropped (DESIGN CHOICE, log 77). -/
def execFaultRecordAppend (s : State) : Out :=
  match s.recq with
  | [] => .next s
  | r :: rest =>
    let L := getL s r.launch
    let log : W64 := BitVec.ofNat 64 (pkFaultLog L.packet)
    let s0 := { s with recq := rest }
    let who : LaunchAcc := .log r.launch
    -- the append is over, and its verdicts with it (R381)
    let drop (t : State) (bad : Option BadEntry) : Out :=
      .next (spendVerdicts (dropRecord (reportBad t L.job bad .write (.launcher who)) r.launch L.job log) who)
    let lost (pa n : Nat) : Out := drop (consumed s0 none pa n 0 L.job (pkId L.packet)) none
    if log = 0 then .next (dropRecord s0 r.launch L.job log)
    else match logAt s r.launch L.job log with
      | .wait why => .next (waitOn s L.job why .write (.launcher who))
      | .fault _ bad => drop s0 bad
      | .dead pa => lost pa 8
      | .window _ => drop s0 none
      | .ok pa =>
        let i := l2Read s pa 8
        let at_ := log + BitVec.ofNat 64 (64 + 32 * i)
        if dataBad s none pa 8 then lost pa 8
        else if pkLogCap L.packet ≤ i then drop s0 none
        else match logAt s r.launch L.job at_ with
          | .wait why => .next (waitOn s L.job why .write (.launcher who))
          | .fault _ bad => drop s0 bad
          | .dead q => lost q 8
          | .window _ => drop s0 none
          | .ok ra =>
            .next (spendVerdicts (l2Store (clearCovered (l2Store s0 ra 32 r.body.toNat) [(ra, 32)]) pa 8 (i + 1)) who)

end Sys2Proof.Machine
end

