-- ==== Sys2Proof/Machine/Atomics.lean ====
section
/-! DEFINITION. Atomic updates (spec/09 R236 to R239). -/

namespace Sys2Proof.Machine

/-- Whether an atomic type is 64 bits wide. -/
def wide (f : BitVec 5) : Bool := f = 0x0B || f = 0x11 || f = 0x13
def atomBytes (f : BitVec 5) : Nat := if wide f then 8 else 4
def unsignedTy (f : BitVec 5) : Bool := f = 0x12 || f = 0x13

/-- Order of two values of `n` bits. -/
def ltBits (n : Nat) (u : Bool) (x y : Nat) : Bool :=
  if u then x < y else (BitVec.ofNat n x).toInt < (BitVec.ofNat n y).toInt

/-- The new value of an update (R236): `old`, the data and the swap value, in `n` bits. -/
def atomNew (op n : Nat) (u : Bool) (old x swap : Nat) : Nat :=
  match op with
  | 0 => (old + x) % 2 ^ n
  | 1 => (old + x) % 2 ^ n
  | 2 => if ltBits n u x old then x else old
  | 3 => if ltBits n u old x then x else old
  | 4 => old &&& x
  | 5 => old ||| x
  | 6 => old ^^^ x
  | 7 => x
  | 8 => if old = x then swap else old
  | _ => (add32 (BitVec.ofNat 32 old) (BitVec.ofNat 32 x)).1.toNat

/-- Where an atomic is performed (R239). -/
def atomPlace (core : Nat) (a : MemAttr) : Place :=
  if a.policy = 4 then .mem (some core)
  else if scopeOf a ≤ 2 && a.policy.toNat ≤ 1 then .l1 core
  else .l2 (some core)

/-- One lane's update: the state and the old value. -/
def atomLane (s : State) (W : Warp) (w : Nat) (a : MemAttr) (t : BitVec 8) (e : LaneAcc) : State × Nat :=
  let n := atomBytes a.fmt
  let k := n / 4
  let x := (narrow (if wide a.fmt then 0x0B else 0x0A) (runWords W t.toNat k e.lane)).1
  let y := (narrow (if wide a.fmt then 0x0B else 0x0A) (runWords W (t.toNat + k) k e.lane)).1
  let pl := atomPlace W.core a
  let r := readLane s W (if a.policy = 4 then .l2 (some W.core) else pl) n e
  (writeLane r.1 W pl n (atomNew a.op7.toNat (8 * n) (unsignedTy a.fmt) r.2 x y) (some w) e, r.2)

/-- Registers that an atomic reads (R237). -/
def atomRegs (a : MemAttr) (t : BitVec 8) : List Nat :=
  run t.toNat (atomBytes a.fmt / 4 * (if a.op7 = 8 then 2 else 1))

/-- Only add, xchg and cas reach host memory (spec/21 R389). -/
def hostAtom (op : Nat) (r : LaneRes) : LaneRes :=
  match r with
  | .ok pa => if paSpace pa = 2 && !(op ≤ 1 || op = 7 || op = 8) then .bad 2 0 none else .ok pa
  | r => r

/-- The updates of all lanes, in ascending order; `done` gets the returned cells. -/
def atomOp (s : State) (t o : BitVec 8) (b : BitVec 6) (x : MPfx) (done : State → State → Nat → List (Nat × W32) → State) :
    Out :=
  let a := attr x.mem
  let regs := atomRegs a t ++ voReg o
  issue s (fun W => regReason W regs [b]) regs fun w W =>
    if evFull W x.ev || tileBusy W then .next s
    else
      let as := (lanesOf (performing W)).map fun k =>
        let ea := laneAddr W b o (offM x) 0 k
        ⟨k, ea, hostAtom a.op7.toNat (checkLane s W ea (atomBytes a.fmt) .atomic skOther)⟩
      onLanes s w (fun _ => .atomic) 0 as fun s1 good =>
        let p := killPoisoned s1 w (atomBytes a.fmt) true (fun _ => 0) true good
        let r := p.2.foldl (fun z e =>
          let y := atomLane z.1 W w a t e
          (y.1, z.2 ++ runCells t.toNat e.lane (widen (if wide a.fmt then 0x0B else 0x0A) y.2))) (p.1, [])
        .next (complete (done p.1 r.1 w r.2) w (lenM x) W.exm)

def execAtom (t o : BitVec 8) (b : BitVec 6) (l : BitVec 4) (x : MPfx) (s : State) : Out :=
  atomOp s t o b x fun before u w cells => pendCells (joinWrites u before.dramq.length) w cells l.toNat x.ev

def execRed (t o : BitVec 8) (b : BitVec 6) (l : BitVec 4) (x : MPfx) (s : State) : Out :=
  let _ := l
  atomOp s t o b x fun before u w _ => storeToken before u w x.ev

end Sys2Proof.Machine
end

