-- ==== Sys2Proof/Machine/VecOps.lean ====
section
/-! DEFINITION. What every vector instruction shares (spec/08 R204, R205): sources are read before results are written, results go to
the lanes of EXM, and a register that a web register binds takes part in its stream (R223 to R226). -/

namespace Sys2Proof.Machine

/-- Read access to operands: register and lane. -/
abbrev VRead := Nat → Nat → W32

/-- What a vector instruction computes: a vector by lane, or bits of a predicate, and flags. -/
structure VRes where
  lanes : List (Nat × W32)
  pred  : Option (Nat × W32)
  flags : Flags
  deriving DecidableEq, Repr

/-- A result in each lane of EXM. -/
def eachLane (W : Warp) (f : Nat → W32 × Flags) : VRes :=
  let rs := (lanesOf W.exm).map fun l => (l, f l)
  ⟨rs.map fun r => (r.1, r.2.1), none, gather (rs.map fun r => r.2)⟩
/-- Bits of a predicate in the lanes of EXM. -/
def eachBit (W : Warp) (p : Nat) (f : Nat → Bool) : VRes :=
  ⟨[], some (p, maskOf ((lanesOf W.exm).filter f)), 0⟩

/-- Write the result in the registers (R204). -/
def putRes (W : Warp) (d : Nat) (r : VRes) : Warp :=
  let W1 := r.lanes.foldl (fun x e => vSet x d e.1 e.2) W
  let W2 := match r.pred with
    | some (p, m) => pSet W1 p ((pGet W1 p &&& ~~~ W.exm) ||| m)
    | none => W1
  orFlags W2 r.flags

/-! Web streams (R223) -/

def webPolicy (d : BitVec 256) : BitVec 3 := (d >>> 229).setWidth 3
def webFmt (d : BitVec 256) : BitVec 5 := (d >>> 224).setWidth 5
def webStart (d : BitVec 256) : W32 := (d >>> 192).setWidth 32
def webVstride (d : BitVec 256) : W64 := (d >>> 128).setWidth 64
def webCount (d : BitVec 256) : W32 := (d >>> 96).setWidth 32
def webEstride (d : BitVec 256) : W32 := (d >>> 64).setWidth 32
def webBase (d : BitVec 256) : W64 := d.setWidth 64

/-- A malformed stream descriptor. -/
def webMalformed (d : BitVec 256) : Bool :=
  (d >>> 232).toNat ≠ 0 || 5 ≤ (webPolicy d).toNat ||
  !([0, 0x0A, 0x10, 0x12, 0x01, 0x02, 0x03, 0x04, 0x06, 0x07].contains (webFmt d).toNat) ||
  webCount d = 0 || webCount d < webStart d || !canonical (webBase d)

/-- A stream that an instruction consumes: its web register, the vector register, whether it is read and written. -/
structure Stream where
  slot  : Nat
  reg   : Nat
  read  : Bool
  write : Bool
  deriving DecidableEq, Repr

/-- The streams of an instruction with these sources and destination (R225). -/
def streamsOf (W : Warp) (srcs : List Nat) (dst : Option Nat) : List Stream :=
  (List.range 4).filterMap fun i =>
    let x := wGet W i
    let r := x.bound && srcs.contains x.reg.toNat
    let w := x.bound && decide (dst = some x.reg.toNat)
    if r || w then some ⟨i, x.reg.toNat, r, w⟩ else none

/-- The address of element `l` of the vector at the stream's position. -/
def streamAddr (W : Warp) (x : Stream) (l : Nat) : W64 :=
  let t := wGet W x.slot
  webBase t.desc + t.pos * webVstride t.desc + BitVec.ofNat 64 l * (webEstride t.desc).signExtend 64

def streamFmt (W : Warp) (x : Stream) : BitVec 5 := webFmt (wGet W x.slot).desc
def streamPlace (W : Warp) (x : Stream) : Place :=
  placeOfAttr W.core ⟨0, 0, webPolicy (wGet W x.slot).desc, 0, 0⟩ false
def streamAcc (x : Stream) : AccKind := if x.read && x.write then .atomic else if x.write then .write else .read

/-- The check of one lane's element. -/
def streamLane (s : State) (W : Warp) (x : Stream) (l : Nat) : LaneAcc :=
  let a := streamAddr W x l
  ⟨l, a, memHold s (x.read && webPolicy (wGet W x.slot).desc = 4)
    (checkLane s W a (fmtBytes (streamFmt W x)) (streamAcc x) skOther)⟩

/-- The first stream whose check of a lane does not pass: its check, and the kind of its access. Where several streams fail in a lane, that of the lowest
web register gives the fault (DESIGN CHOICE, log 71: R226 gives no order). -/
def streamLaneAll (s : State) (W : Warp) (xs : List Stream) (l : Nat) : LaneAcc × AccKind :=
  let rs := xs.map fun x => (streamLane s W x l, streamAcc x)
  match rs.find? fun a => (match a.1.res with | .ok _ => false | _ => true) with
  | some a => a
  | none => (⟨l, 0, .ok 0⟩, .read)

/-- The web fault that the streams raise before any access (R225): exhausted, or a write to a ds8 stream; where both hold,
exhausted is reported (DESIGN CHOICE, log 71: R225 gives no order). -/
def streamFault (W : Warp) (xs : List Stream) : Option Nat :=
  if xs.any fun x => (webCount (wGet W x.slot).desc).toNat ≤ (wGet W x.slot).pos.toNat then some 1
  else if xs.any fun x => x.write && decide (streamFmt W x = 0x07) then some 4
  else none

def webFault (s : State) (w cause : Nat) : State := faultAt s w 0x0B cause 0 0 0

/-- Read one stream for the lanes that are left; lanes with uncorrectable data die. -/
def readStream (w : Nat) (x : Stream) (st : State × Tab W32 × List Nat) : State × Tab W32 × List Nat :=
  let W := getW st.1 w
  let as := st.2.2.map fun l => streamLane st.1 W x l
  let f := streamFmt W x
  let y := killPoisoned st.1 w (fmtBytes f) true (fun _ => 0) false as
  y.2.foldl (fun z a =>
    let r := loadLane y.1 z.1 W (streamPlace W x) (fmtBytes f) a
    (r.1, tabPut z.2.1 (vKey x.reg a.lane) ((widen f r.2).headD 0), z.2.2 ++ [a.lane])) (y.1, st.2.1, [])

/-- Write one stream with the result of each performing lane. -/
def writeStream (s : State) (w : Nat) (x : Stream) (res : List (Nat × W32)) : State :=
  let W := getW s w
  let f := streamFmt W x
  let as := (res.filter fun e => (performing W).getLsbD e.1).map fun e => (streamLane s W x e.1, narrow f [e.2])
  let s1 := joinWrites (as.foldl (fun t a => writeLane t W (streamPlace W x) (fmtBytes f) a.2.1 (some w) a.1) s) s.dramq.length
  updW (clearAt s1 (placeCore (streamPlace W x)) (paRanges (fmtBytes f) (as.map Prod.fst))) w fun W => orFlags W (gather (as.map fun a => a.2))

/-- The positions after the instruction. -/
def bumpStreams (W : Warp) (xs : List Stream) : Warp :=
  xs.foldl (fun W x => let t := wGet W x.slot; wSet W x.slot { t with pos := t.pos + 1 }) W

/-- The operands with the stream elements read. -/
def operands (W : Warp) (els : Tab W32) : VRead := fun r l =>
  match tabFind els (vKey r l) with
  | some v => v
  | none => vGet W r l

/-- An instruction that consumes streams. -/
def streamOp (s : State) (w len : Nat) (xs : List Stream) (dst : Option Nat) (f : Warp → VRead → VRes) : Out :=
  let W := getW s w
  match streamFault W xs with
  | some c => .next (webFault s w c)
  | none =>
    if (xs.any Stream.write) && tileBusy W then .next s
    else
      let as := (lanesOf (performing W)).map (streamLaneAll s W xs)
      let kind (l : Nat) : AccKind := ((as.find? fun a => a.1.lane = l).map Prod.snd).getD .read
      onLanes s w kind 0 (as.map Prod.fst) fun s1 good =>
        let r := (xs.filter Stream.read).foldl (fun z x => readStream w x z) (s1, [], good.map LaneAcc.lane)
        let W1 := getW r.1 w
        let v := f W1 (operands W1 r.2.1)
        let s2 := match xs.find? Stream.write, dst with
          | some x, _ => updW (writeStream r.1 w x v.lanes) w fun W => orFlags W v.flags
          | none, some d => updW r.1 w fun W => putRes W d v
          | none, none => updW r.1 w fun W => putRes W 0 v
        .next (complete (updW s2 w fun W => bumpStreams W xs) w len W.exm)

/-- A vector instruction of `len` words with its destination, sources and scalar sources: in the lanes of EXM it writes what
`f` computes from the operands. -/
def vecOp (s : State) (len : Nat) (dst : Option Nat) (srcs : List Nat) (ss : List (BitVec 6)) (f : Warp → VRead → VRes) :
    Out :=
  let named := dst.toList ++ srcs
  issue s (fun W => regReason W named ss) named fun w W =>
    match streamsOf W srcs dst with
    | [] => .next (advance (updW s w fun W => putRes W (dst.getD 0) (f W (vGet W))) w len)
    | xs => streamOp s w len xs dst f

/-- A form with two sources, lane by lane. -/
def vec2 (s : State) (t : Option TyPfx) (d a b : BitVec 8) (f : W32 → W32 → W32 × Flags) : Out :=
  vecOp s (lenT t) (some d.toNat) [a.toNat, b.toNat] [] fun W rd =>
    eachLane W fun l => f (rd a.toNat l) (rd b.toNat l)
/-- A form that also reads the old destination. -/
def vec3 (s : State) (t : Option TyPfx) (d a b : BitVec 8) (f : W32 → W32 → W32 → W32 × Flags) : Out :=
  vecOp s (lenT t) (some d.toNat) [a.toNat, b.toNat, d.toNat] [] fun W rd =>
    eachLane W fun l => f (rd a.toNat l) (rd b.toNat l) (rd d.toNat l)
/-- A form with one source. -/
def vec1 (s : State) (len : Nat) (d a : BitVec 8) (f : W32 → W32 × Flags) : Out :=
  vecOp s len (some d.toNat) [a.toNat] [] fun W rd => eachLane W fun l => f (rd a.toNat l)

/-- The type's format code, 0 for the default. -/
def tyOf (t : Option TyPfx) : Nat :=
  match t with
  | some p => p.fa.toNat
  | none => 0
def isU (t : Option TyPfx) : Bool := tyOf t = 0x12

end Sys2Proof.Machine
end

