-- ==== Sys2Proof/Machine/Vector.lean ====
section
/-! DEFINITION. Vector integer, bitwise, move, select and immediate forms (spec/08 R206 to R210). None sets a flag. -/

namespace Sys2Proof.Machine

/-- An integer result: no flag. -/
def plain (x : W32) : W32 × Flags := (x, 0)

def vmulh32 (u : Bool) (x y : W32) : W32 :=
  if u then BitVec.ofNat 32 (x.toNat * y.toNat / 2 ^ 32) else BitVec.ofInt 32 (x.toInt * y.toInt / 2 ^ 32)
def shl32 (x n : W32) : W32 := if 32 ≤ n.toNat then 0 else x <<< n.toNat
def shr32 (x n : W32) : W32 := if 32 ≤ n.toNat then 0 else x >>> n.toNat
def sra32 (x n : W32) : W32 :=
  if 32 ≤ n.toNat then (if x.getLsbD 31 then BitVec.allOnes 32 else 0) else x.sshiftRight n.toNat
def ltInt (u : Bool) (x y : W32) : Bool := if u then x.toNat < y.toNat else x.toInt < y.toInt
def minInt (u : Bool) (x y : W32) : W32 := if ltInt u y x then y else x
def maxInt (u : Bool) (x y : W32) : W32 := if ltInt u x y then y else x

def execVadd (d a b : BitVec 8) (t : Option TyPfx) (s : State) : Out := vec2 s t d a b fun x y => plain (x + y)
def execVsub (d a b : BitVec 8) (t : Option TyPfx) (s : State) : Out := vec2 s t d a b fun x y => plain (x - y)
def execVmul (d a b : BitVec 8) (t : Option TyPfx) (s : State) : Out := vec2 s t d a b fun x y => plain (x * y)
def execVmulh (d a b : BitVec 8) (t : Option TyPfx) (s : State) : Out :=
  vec2 s t d a b fun x y => plain (vmulh32 (isU t) x y)
def execVmad (d a b : BitVec 8) (t : Option TyPfx) (s : State) : Out := vec3 s t d a b fun x y z => plain (x * y + z)
def execVand (d a b : BitVec 8) (t : Option TyPfx) (s : State) : Out := vec2 s t d a b fun x y => plain (x &&& y)
def execVor (d a b : BitVec 8) (t : Option TyPfx) (s : State) : Out := vec2 s t d a b fun x y => plain (x ||| y)
def execVxor (d a b : BitVec 8) (t : Option TyPfx) (s : State) : Out := vec2 s t d a b fun x y => plain (x ^^^ y)
def execVshl (d a b : BitVec 8) (t : Option TyPfx) (s : State) : Out := vec2 s t d a b fun x y => plain (shl32 x y)
def execVshr (d a b : BitVec 8) (t : Option TyPfx) (s : State) : Out := vec2 s t d a b fun x y => plain (shr32 x y)
def execVsra (d a b : BitVec 8) (t : Option TyPfx) (s : State) : Out := vec2 s t d a b fun x y => plain (sra32 x y)
def execVmin (d a b : BitVec 8) (t : Option TyPfx) (s : State) : Out :=
  vec2 s t d a b fun x y => plain (minInt (isU t) x y)
def execVmax (d a b : BitVec 8) (t : Option TyPfx) (s : State) : Out :=
  vec2 s t d a b fun x y => plain (maxInt (isU t) x y)

/-! One source (R207) -/

def execVmov (d a : BitVec 8) (t : Option TyPfx) (s : State) : Out := vec1 s (lenT t) d a plain
def execVnot (d a : BitVec 8) (t : Option TyPfx) (s : State) : Out := vec1 s (lenT t) d a fun x => plain (~~~ x)
def execVabs (d a : BitVec 8) (t : Option TyPfx) (s : State) : Out :=
  vec1 s (lenT t) d a fun x => plain (if x.getLsbD 31 then 0 - x else x)
def execVneg (d a : BitVec 8) (t : Option TyPfx) (s : State) : Out := vec1 s (lenT t) d a fun x => plain (0 - x)
def execVclz (d a : BitVec 8) (t : Option TyPfx) (s : State) : Out :=
  vec1 s (lenT t) d a fun x => plain (BitVec.ofNat 32 (clzNat 32 x.toNat))
def execVpopc (d a : BitVec 8) (t : Option TyPfx) (s : State) : Out :=
  vec1 s (lenT t) d a fun x => plain (BitVec.ofNat 32 (popNat 32 x.toNat))
def execVlane (d : BitVec 8) (t : Option TyPfx) (s : State) : Out :=
  vecOp s (lenT t) (some d.toNat) [] [] fun W _ => eachLane W fun l => plain (BitVec.ofNat 32 l)
def execVbcast (d : BitVec 8) (x_s : BitVec 6) (t : Option TyPfx) (s : State) : Out :=
  vecOp s (lenT t) (some d.toNat) [] [x_s] fun W _ => eachLane W fun _ => plain ((sGet W x_s).setWidth 32)

/-! Compare and select (R209, R210) -/

/-- The conditions of `vcmp` (R77). -/
def vcmpHolds (c : Nat) (u : Bool) (x y : W32) : Bool :=
  match c with
  | 0 => x = y
  | 1 => x ≠ y
  | 2 => ltInt u x y
  | 3 => !ltInt u y x
  | 4 => ltInt u y x
  | _ => !ltInt u x y

def execVcmp (c : BitVec 4) (p : BitVec 3) (a b : BitVec 8) (t : Option TyPfx) (s : State) : Out :=
  vecOp s (lenT t) none [a.toNat, b.toNat] [] fun W rd =>
    eachBit W p.toNat fun l => vcmpHolds c.toNat (isU t) (rd a.toNat l) (rd b.toNat l)

/-- `vsel` with predicate `p`. -/
def vselOp (s : State) (t : Option TyPfx) (d a b : BitVec 8) (p : Nat) : Out :=
  vecOp s (lenT t) (some d.toNat) [a.toNat, b.toNat] [] fun W rd =>
    eachLane W fun l => plain (if (pGet W p).getLsbD l then rd a.toNat l else rd b.toNat l)
def execVselP0P3 (d a b : BitVec 8) (p : BitVec 2) (t : Option TyPfx) (s : State) : Out := vselOp s t d a b p.toNat
def execVselP4P7 (d a b : BitVec 8) (p : BitVec 2) (t : Option TyPfx) (s : State) : Out :=
  vselOp s t d a b (p.toNat + 4)

/-! Immediate forms (R208) -/

def execVaddImm (d a : BitVec 8) (i : BitVec 10) (x : ImmPfx) (t : Option TyPfx) (s : State) : Out :=
  vec1 s (lenIT x t) d a fun y => plain (y + immVS x i)
def execVmulImm (d a : BitVec 8) (i : BitVec 10) (x : ImmPfx) (t : Option TyPfx) (s : State) : Out :=
  vec1 s (lenIT x t) d a fun y => plain (y * immVS x i)
def execVandImm (d a : BitVec 8) (i : BitVec 10) (x : ImmPfx) (t : Option TyPfx) (s : State) : Out :=
  vec1 s (lenIT x t) d a fun y => plain (y &&& immVU x i)
def execVshlImm (d a : BitVec 8) (n : BitVec 5) (t : Option TyPfx) (s : State) : Out :=
  vec1 s (lenT t) d a fun y => plain (y <<< n.toNat)
def execVshrImm (d a : BitVec 8) (n : BitVec 5) (t : Option TyPfx) (s : State) : Out :=
  vec1 s (lenT t) d a fun y => plain (y >>> n.toNat)
def execVsraImm (d a : BitVec 8) (n : BitVec 5) (t : Option TyPfx) (s : State) : Out :=
  vec1 s (lenT t) d a fun y => plain (y.sshiftRight n.toNat)
def execVli (d : BitVec 8) (i : BitVec 10) (x : ImmPfx) (t : Option TyPfx) (s : State) : Out :=
  vecOp s (lenIT x t) (some d.toNat) [] [] fun W _ => eachLane W fun _ => plain (immVS x i)

end Sys2Proof.Machine
end

