-- ==== Sys2Proof/Machine/Float.lean ====
section
/-! DEFINITION. FP32, packed BF16, special functions and conversions (spec/08 R211 to R218). -/

namespace Sys2Proof.Machine

def nan32 : W32 := 0x7FC00000

/-- fmin or fmax of two values of a format that `dec` decodes (R212). -/
def fminmax {n : Nat} (dec : BitVec n → FVal) (nan : BitVec n) (mx : Bool) (x y : BitVec n) : BitVec n :=
  let a := dec x
  let b := dec y
  if a = .nan then (if b = .nan then nan else y)
  else if b = .nan then x
  else if fEq a b then (if x.msb = mx then y else x)
  else if fLt a b = mx then y else x
def fmin32 (x y : W32) : W32 := fminmax dec32 nan32 false x y
def fmax32 (x y : W32) : W32 := fminmax dec32 nan32 true x y

/-- Act on bit 31 of a value that is no NaN (R213). -/
def signOp (x : W32) (s : Bool) : W32 :=
  if isNan32 x then nan32 else (x &&& 0x7FFFFFFF) ||| (if s then 0x80000000 else 0)

def execFmin (d a b : BitVec 8) (t : Option TyPfx) (s : State) : Out := vec2 s t d a b fun x y => plain (fmin32 x y)
def execFmax (d a b : BitVec 8) (t : Option TyPfx) (s : State) : Out := vec2 s t d a b fun x y => plain (fmax32 x y)
def execFcpsgn (d a b : BitVec 8) (t : Option TyPfx) (s : State) : Out :=
  vec2 s t d a b fun x y => plain (signOp x (y.getLsbD 31))
def execFadd (d a b : BitVec 8) (t : Option TyPfx) (s : State) : Out := vec2 s t d a b add32
def execFsub (d a b : BitVec 8) (t : Option TyPfx) (s : State) : Out := vec2 s t d a b sub32
def execFmul (d a b : BitVec 8) (t : Option TyPfx) (s : State) : Out := vec2 s t d a b mul32
def execFfma (d a b : BitVec 8) (t : Option TyPfx) (s : State) : Out := vec3 s t d a b fma32

/-! Packed BF16 (R216) -/

def elem0 (x : W32) : BitVec 16 := x.setWidth 16
def elem1 (x : W32) : BitVec 16 := (x >>> 16).setWidth 16
/-- Both elements of a pair, with the flags of both. -/
def pair (f : (W32 → BitVec 16) → BitVec 16 × Flags) : W32 × Flags :=
  let lo := f elem0
  let hi := f elem1
  (hi.1 ++ lo.1, lo.2 ||| hi.2)

def execHadd (d a b : BitVec 8) (t : Option TyPfx) (s : State) : Out :=
  vec2 s t d a b fun x y => pair fun e => finB16 (fAdd .rne (decB16 (e x)) (decB16 (e y)))
def execHmul (d a b : BitVec 8) (t : Option TyPfx) (s : State) : Out :=
  vec2 s t d a b fun x y => pair fun e => finB16 (fMul (decB16 (e x)) (decB16 (e y)))
def execHfma (d a b : BitVec 8) (t : Option TyPfx) (s : State) : Out :=
  vec3 s t d a b fun x y z => pair fun e => finB16 (fFma .rne (decB16 (e x)) (decB16 (e y)) (decB16 (e z)))
def execHmin (d a b : BitVec 8) (t : Option TyPfx) (s : State) : Out :=
  vec2 s t d a b fun x y => pair fun e => (fminmax decB16 0x7FC0 false (e x) (e y), 0)
def execHmax (d a b : BitVec 8) (t : Option TyPfx) (s : State) : Out :=
  vec2 s t d a b fun x y => pair fun e => (fminmax decB16 0x7FC0 true (e x) (e y), 0)

/-! One source (R213 to R215, R217) -/

def rndOf (r : BitVec 2) : Rnd :=
  match r.toNat with
  | 0 => .rne
  | 1 => .rz
  | 2 => .rd
  | _ => .ru

/-- R214. -/
def frnd32 (r : Rnd) (x : W32) : W32 :=
  match dec32 x with
  | .nan => nan32
  | .inf _ => x
  | .fin sg m e => if m = 0 then x else (round32 .rne (.fin sg (roundInt r sg m e).1.natAbs 0)).1

/-- R215. -/
def fclass32 (x : W32) : W32 :=
  let sg := x.getLsbD 31
  match dec32 x with
  | .nan => 0x100
  | .inf _ => if sg then 1 else 0x80
  | .fin _ m _ =>
    if m = 0 then (if sg then 8 else 0x10)
    else if m < 2 ^ 23 then (if sg then 4 else 0x20)
    else if sg then 2 else 0x40

def execFabs (d a : BitVec 8) (t : Option TyPfx) (s : State) : Out := vec1 s (lenT t) d a fun x => plain (signOp x false)
def execFneg (d a : BitVec 8) (t : Option TyPfx) (s : State) : Out :=
  vec1 s (lenT t) d a fun x => plain (signOp x (!x.getLsbD 31))
def execFrnd (d a : BitVec 8) (r : BitVec 2) (t : Option TyPfx) (s : State) : Out :=
  vec1 s (lenT t) d a fun x => plain (frnd32 (rndOf r) x)
def execFclass (d a : BitVec 8) (t : Option TyPfx) (s : State) : Out := vec1 s (lenT t) d a fun x => plain (fclass32 x)
def execEx2 (d a : BitVec 8) (t : Option TyPfx) (s : State) : Out := vec1 s (lenT t) d a fEx2
def execLg2 (d a : BitVec 8) (t : Option TyPfx) (s : State) : Out := vec1 s (lenT t) d a fLg2
def execRcp (d a : BitVec 8) (t : Option TyPfx) (s : State) : Out := vec1 s (lenT t) d a fRcp
def execRsq (d a : BitVec 8) (t : Option TyPfx) (s : State) : Out := vec1 s (lenT t) d a fRsq
def execSin (d a : BitVec 8) (t : Option TyPfx) (s : State) : Out := vec1 s (lenT t) d a fSin
def execCos (d a : BitVec 8) (t : Option TyPfx) (s : State) : Out := vec1 s (lenT t) d a fCos

/-! FP compare (R209) -/

def fcmpHolds (c : Nat) (x y : W32) : Bool :=
  let a := dec32 x
  let b := dec32 y
  let un := a = .nan ∨ b = .nan
  match c with
  | 0 => fEq a b
  | 1 => !fEq a b
  | 2 => fLt a b
  | 3 => fLt a b || fEq a b
  | 4 => fLt b a
  | 5 => fLt b a || fEq a b
  | 6 => !un
  | _ => un

def execFcmp (c : BitVec 4) (p : BitVec 3) (a b : BitVec 8) (t : Option TyPfx) (s : State) : Out :=
  vecOp s (lenT t) none [a.toNat, b.toNat] [] fun W rd =>
    eachBit W p.toNat fun l => fcmpHolds c.toNat (rd a.toNat l) (rd b.toNat l)

/-! Conversion (R218) -/

/-- Convert by destination and source format. -/
def cvt32 (p : TyPfx) (r : Rnd) (x : W32) : W32 × Flags :=
  match p.fa.toNat, p.fb.toNat with
  | 0x01, 0x10 => round32 r (ofInt x.toInt)
  | 0x01, 0x12 => round32 r (.fin false x.toNat 0)
  | 0x10, _ => let q := toIntSat r (-2 ^ 31) (2 ^ 31 - 1) (dec32 x); (BitVec.ofInt 32 q.1, q.2)
  | 0x12, _ => let q := toIntSat r 0 (2 ^ 32 - 1) (dec32 x); (BitVec.ofInt 32 q.1, q.2)
  | 0x02, _ => let q := roundB16 r (dec32 x); (q.1.setWidth 32, q.2)
  | _, _ => ((round32 .rne (decB16 (elem0 x))).1, 0)

/-- Without a type prefix the reason is 0x1C, after every other check. -/
def execCvt (d a : BitVec 8) (r : BitVec 2) (t : Option TyPfx) (s : State) : Out :=
  match t with
  | some p => vec1 s 2 d a (cvt32 p (rndOf r))
  | none => issue s (fun W => orElse (regReason W [d.toNat, a.toNat] []) (some 0x1C)) [] fun _ _ => .next s

end Sys2Proof.Machine
end

