-- ==== Sys2Proof/Machine/Cross.lean ====
section
/-! DEFINITION. Cross-lane instructions (spec/08 R219 to R222, spec/06 R162, R165): each acts within the lane tiles of DECK. -/

namespace Sys2Proof.Machine

/-- The tile width (R165); the codes 6 and 7, which only a save image can bring, count as 5 (DESIGN CHOICE, log 73). -/
def tileW (W : Warp) : Nat := 2 ^ min 5 W.deck.toNat
/-- The first lane of a lane's tile. -/
def tileBase (W : Warp) (l : Nat) : Nat := l - l % tileW W
/-- The lanes of the tile at `b`. -/
def tileLanes (W : Warp) (b : Nat) : List Nat := (List.range (tileW W)).map (b + ·)
/-- The contributing lanes of the tile at `b`. -/
def contribs (W : Warp) (b : Nat) : List Nat := (tileLanes W b).filter fun l => W.exm.getLsbD l
/-- The first lanes of the tiles. -/
def tileBases (W : Warp) : List Nat := (List.range 32).filter fun l => l % tileW W = 0
/-- em when some tile has no contributing lane (R106, R221). -/
def emFlag (W : Warp) : Flags := if (tileBases W).any fun b => (contribs W b).isEmpty then fEM else 0

/-- The source lane of `shfl`, none outside the tile (R219). -/
def shflSrc (W : Warp) (m k v : Nat) : Option Nat :=
  let w := tileW W
  let b := tileBase W k
  match m with
  | 0 => some (b + v % w)
  | 1 => if k % w < v then none else some (k - v)
  | 2 => if w ≤ k % w + v then none else some (k + v)
  | _ => some (b + (k % w ^^^ v % w))

def execShfl (d a b : BitVec 8) (m : BitVec 2) (t : Option TyPfx) (s : State) : Out :=
  vecOp s (lenT t) (some d.toNat) [a.toNat, b.toNat] [] fun W rd =>
    eachLane W fun l => plain (match shflSrc W m.toNat l (rd b.toNat l).toNat with
      | none => rd a.toNat l
      | some k => if W.exm.getLsbD k then rd a.toNat k else 0)

/-- The ballot of a lane's tile (R220). -/
def ballot (W : Warp) (c : BitVec 1) (p l : Nat) : W32 :=
  let v := if c = 1 then ~~~ pGet W p else pGet W p
  maskOf (contribs W (tileBase W l)) &&& v

def execVoteAny (d : BitVec 3) (c : BitVec 1) (x_s : BitVec 3) (t : Option TyPfx) (s : State) : Out :=
  vecOp s (lenT t) none [] [] fun W _ => eachBit W d.toNat fun l => ballot W c x_s.toNat l ≠ 0
def execVoteAll (d : BitVec 3) (c : BitVec 1) (x_s : BitVec 3) (t : Option TyPfx) (s : State) : Out :=
  vecOp s (lenT t) none [] [] fun W _ =>
    eachBit W d.toNat fun l => ballot W c x_s.toNat l = maskOf (contribs W (tileBase W l))
def execVoteBallot (d : BitVec 8) (c : BitVec 1) (x_s : BitVec 3) (t : Option TyPfx) (s : State) : Out :=
  vecOp s (lenT t) (some d.toNat) [] [] fun W _ => eachLane W fun l => plain (ballot W c x_s.toNat l)

/-! Reductions and scans (R109, R110, R221, R222) -/

/-- A canonical NaN for any NaN (R91). -/
def canon32 (x : W32) : W32 := if isNan32 x then nan32 else x

/-- The kind of element. -/
inductive RedTy where
  | int (u : Bool) | f32
  deriving DecidableEq, Repr
def redTy (t : Option TyPfx) : RedTy :=
  match tyOf t with
  | 0x01 => .f32
  | 0x12 => .int true
  | _ => .int false

/-- The identity of R221. -/
def redId (o : Nat) (t : RedTy) : W32 :=
  match o, t with
  | 0, .f32 => 0x80000000
  | 0, .int _ => 0
  | 1, .f32 => 0x7F800000
  | 1, .int u => if u then 0xFFFFFFFF else 0x7FFFFFFF
  | 2, .f32 => 0xFF800000
  | 2, .int u => if u then 0 else 0x80000000
  | 3, _ => 0xFFFFFFFF
  | _, _ => 0

/-- One step of an operation. -/
def redStep (o : Nat) (t : RedTy) (x y : W32) : W32 × Flags :=
  match o, t with
  | 0, .f32 => add32 x y
  | 0, .int _ => plain (x + y)
  | 1, .f32 => plain (fmin32 x y)
  | 1, .int u => plain (minInt u x y)
  | 2, .f32 => plain (fmax32 x y)
  | 2, .int u => plain (maxInt u x y)
  | 3, _ => plain (x &&& y)
  | _, _ => plain (x ||| y)

/-- What a lane brings: its value, or the identity (R162). -/
def redIn (W : Warp) (rd : VRead) (a o : Nat) (t : RedTy) (l : Nat) : W32 :=
  if W.exm.getLsbD l then (if t = .f32 then canon32 (rd a l) else rd a l) else redId o t

/-- One level of the tree: adjacent values. -/
def redLevel (o : Nat) (t : RedTy) (xs : List W32) : List (W32 × Flags) :=
  match xs with
  | x :: y :: r => redStep o t x y :: redLevel o t r
  | [x] => [(x, 0)]
  | [] => []
/-- The pairwise tree with the flags of every rounding (R109). -/
def redTree (o : Nat) (t : RedTy) (fuel : Nat) (xs : List W32) (f : Flags) : W32 × Flags :=
  match fuel with
  | 0 => (xs.headD 0, f)
  | k + 1 =>
    if xs.length ≤ 1 then (xs.headD 0, f)
    else let ys := redLevel o t xs; redTree o t k (ys.map Prod.fst) (f ||| gather ys)

/-- Whether lane value `x` beats the best so far for argmax: greater, NaN below every number, +0 above −0. -/
def argBeats (t : RedTy) (x best : W32) : Bool :=
  match t with
  | .int u => ltInt u best x
  | .f32 =>
    if isNan32 x then false
    else if isNan32 best then true
    else if fEq (dec32 x) (dec32 best) then best.msb && !x.msb
    else fLt (dec32 best) (dec32 x)
def argmax (W : Warp) (rd : VRead) (a : Nat) (t : RedTy) (b : Nat) : W32 :=
  match contribs W b with
  | [] => 0xFFFFFFFF
  | l :: r => BitVec.ofNat 32 (r.foldl (fun best k => if argBeats t (rd a k) (rd a best) then k else best) l)

/-- The result of a tile and its flags (R221). -/
def redTile (W : Warp) (rd : VRead) (a o : Nat) (t : RedTy) (b : Nat) : W32 × Flags :=
  if o = 5 then plain (argmax W rd a t b)
  else redTree o t 6 ((tileLanes W b).map (redIn W rd a o t)) 0

def execVred (d a o : BitVec 8) (t : Option TyPfx) (s : State) : Out :=
  vecOp s (lenT t) (some d.toNat) [a.toNat] [] fun W rd =>
    let ts := (tileBases W).map fun b => (b, redTile W rd a.toNat o.toNat (redTy t) b)
    let r := eachLane W fun l => plain ((tabGet (0, 0) ts (tileBase W l)).1)
    { r with flags := gather (ts.map Prod.snd) ||| emFlag W }

/-- The running results of a tile, lane by lane (R110, R222). -/
def scanFrom (o : Nat) (t : RedTy) (acc : W32) (xs : List W32) : List (W32 × Flags) :=
  match xs with
  | [] => []
  | x :: r => let y := redStep o t acc x; y :: scanFrom o t y.1 r
def scanTile (W : Warp) (rd : VRead) (a o : Nat) (t : RedTy) (b : Nat) : List (W32 × Flags) :=
  match (tileLanes W b).map (redIn W rd a o t) with
  | [] => []
  | x :: r => (x, 0) :: scanFrom o t x r

def execVscan (d a o : BitVec 8) (t : Option TyPfx) (s : State) : Out :=
  vecOp s (lenT t) (some d.toNat) [a.toNat] [] fun W rd =>
    let rs := (tileBases W).flatMap fun b => scanTile W rd a.toNat o.toNat (redTy t) b
    let r := eachLane W fun l => plain (rs.getD l (0, 0)).1
    { r with flags := gather rs ||| emFlag W }

end Sys2Proof.Machine
end

