-- ==== Sys2Proof/Machine/Fetch.lean ====
section
/-! DEFINITION. What a warp issues next: the words at its place (spec/02 R35 to R42), and the steps that stand in for a word
while something holds the warp (a wait to end, a fence to complete, a loop's back-edge, a clause to start). -/

namespace Sys2Proof.Machine

/-- The port that a word needs, none for a word of no family (R26, R37). -/
def portOf (x : W32) : Option Nat :=
  let op := x.toNat / 2 ^ 26
  if op ≤ 0x10 then some 0
  else if op ≤ 0x25 then some 1
  else if op ≤ 0x31 then some 2
  else if op ≤ 0x38 then some 3
  else none

/-- The instructions of the vector port (R26). -/
def isVectorPort (i : Instr) : Bool := isWord i && portOf (encodeWord i) = some 1
/-- Words that read vector registers: those of the vector port, those that store or post from them, loads and hints with a lane
offset, and `jxt`. -/
def readsVector (i : Instr) : Bool :=
  isVectorPort i || match i with
  | .st _ _ _ _ _ | .sts _ _ _ _ _ | .stm _ _ _ _ _ | .stmQuantise _ _ _ _ | .atom _ _ _ _ _ | .red _ _ _ _ _ => true
  | .bqpost _ _ _ _ _ _ | .jxt _ _ _ _ => true
  | .ld _ o _ _ _ | .lds _ o _ _ _ | .ldm _ o _ _ _ | .pref o _ _ _ => o ≠ 0
  | _ => false

/-- The words from the warp's place to the end of its clause, as they were fetched (R67). -/
def clauseWords (W : Warp) : List W32 := W.code.drop W.word

/-- An `rfe` outside a handler is an unassigned function before its fields are looked at (R82, R85). -/
def rfeReason (W : Warp) (ws : List W32) (r : Reason) : Reason :=
  if W.level = 0 ∧ r = 0x13 ∧ (ws.headD 0).toNat / 2 ^ 26 = 0x0F ∧ (ws.headD 0).toNat % 2 ^ 8 = 9 then 0x12 else r

/-- The instruction at the warp's place in a started clause. A word that fails a check of R84 that needs only the word
is an encoding without a meaning, with its reason (R85, R86). -/
def wordAt (W : Warp) : Instr :=
  match decodeInClause (clauseWords W) with
  | .ok (i, _) =>
    match earlyReason i with
    | some r => .unassignedEncoding r
    | none => i
  | .error (.illegal r) => .unassignedEncoding (rfeReason W (clauseWords W) r)
  | .error .truncated => .unassignedEncoding 0x10

/-- Memory, engine and matrix instructions do not issue while a fence is in flight (R132). -/
def waitsForFence : Instr → Bool
  | .ld _ _ _ _ _ | .st _ _ _ _ _ | .lds _ _ _ _ _ | .sts _ _ _ _ _ | .ldm _ _ _ _ _ | .stm _ _ _ _ _
  | .stmQuantise _ _ _ _ | .atom _ _ _ _ _ | .red _ _ _ _ _ | .fence _ | .clean _ _ _ _ | .inval _ _ _ _
  | .pref _ _ _ _ | .sld _ _ _ _ _ | .sst _ _ _ _ _ | .wbind _ _ _ | .cpy _ _ _ _ _ | .cpwait _ | .rsel _ _ _ _
  | .rput _ _ _ _ _ | .rputSig _ _ _ _ _ | .rget _ _ _ _ _ | .radd _ _ _ _ _ | .rsig _ _ _ _ _ | .skcfg _ _ _ _
  | .skfold _ _ _ _ _ | .skmerge _ _ _ _ | .tmerge _ _ _ _ _ | .bqpost _ _ _ _ _ _ | .spawn _ _ _ _ _
  | .mma _ _ _ _ _ _ _ | .omap _ _ _ | .omapld _ _ | .mmsk _ _ | .mzero _ | .jxt _ _ _ _ => true
  | _ => false

/-- A clause that the warp resumes and whose words have not been fetched again (R41). -/
def resumes (W : Warp) : Bool := W.started && W.code.isEmpty

/-- What the warp issues, apart from a fence in flight. -/
def placeOf (s : State) (w : Nat) : Instr :=
  let W := getW s w
  match W.stat with
  | .waitTok _ => .waitEnd w
  | .waitCp _ => .cpwaitEnd w
  | _ =>
    if W.flow && atLoopEnd W then .loopBackEdge w
    else if !W.started || resumes W then decodeHeader (fetchWord s W W.pc).2
    else wordAt W

/-- A vector instruction that may make stream accesses (R223, R225) waits for a fence like a memory instruction. -/
def streamsWait (W : Warp) (i : Instr) : Bool := isVectorPort i && W.w.any fun e => e.2.bound

/-- A warp stands at one of the points of R358: a clause start, or a stalled wait. -/
def atPoint (W : Warp) : Bool :=
  match W.stat with
  | .running => !W.started && !(W.flow && atLoopEnd W)
  | .waitTok _ | .waitCp _ | .waitBar _ | .retired | .killed | .saved => true
  | .waitPost | .waitTile => false
/-- Its gang is being stopped and it stands at such a point: it starts nothing more, and a fence in flight is completed
(R359, R360). -/
def stopsHere (s : State) (W : Warp) : Bool :=
  match (getGang s W.gang).stat with
  | .stopping _ => atPoint W
  | .held | .running | .saved _ | .released => false

/-- A warp that issues no word: it waits for a barrier, a post or its tile operation, or has exited. -/
def stands (W : Warp) : Bool :=
  match W.stat with
  | .waitBar _ | .waitPost | .waitTile | .retired => true
  | .running | .waitTok _ | .waitCp _ | .killed | .saved => false

/-- What the warp issues next. A failed operand fetch is taken first (R276); while a fence is in flight its completion
stands before a word that must wait, where the warp issues no word or where the gang is being stopped, and may stand before any
other (R132, R360). -/
def nextOf (s : State) (w : Nat) : Instr :=
  let W := getW s w
  match (match W.tile with | some t => t.fault | none => none) with
  | some _ => .mmaBlockApply w
  | none =>
    let i := placeOf s w
    match W.fence with
    | some _ => if stands W || stopsHere s W || waitsForFence i || streamsWait W i || !Config.passesFence s.ctr then .fenceComplete w else i
    | none => i

/-- Whether an instruction is a word of a clause: the windows of lookahead count those (R59). -/
def countsInWindow (i : Instr) : Bool :=
  match i with
  | .unassignedEncoding _ => true
  | .clauseStart _ _ _ _ _ _ => false
  | _ => isWord i

/-- Before a word issues, results whose window has passed are written (R59). -/
def prepare (s : State) (w : Nat) (i : Instr) : State :=
  if countsInWindow i then landWindow s w else s

end Sys2Proof.Machine
end

