-- ==== Sys2Proof/Machine/Control.lean ====
section
/-! DEFINITION. Control (spec/02 R35 to R42, R64 to R67; spec/06 R164 to R175; spec/07 R189 to R203; spec/18 R350 to R357):
clauses, branches, the reel, loops, barriers, traps and waits. -/

namespace Sys2Proof.Machine

/-! Clauses (R35 to R38, R67) -/

/-- The checks of R37 on a header and its words: the reason of R84. -/
def clauseReason (n p : Nat) (rsv : Bool) (ws : List W32) : Option Nat :=
  if n = 0 then some 1
  else if rsv then some 2
  else if (ws.getLastD 0).toNat / 2 ^ 26 = 0x3E then some 3
  else if ws.any fun x => match portOf x with
      | some k => p / 2 ^ k % 2 = 0
      | none => false
    then some 4
  else none

/-- What fetching the words of a clause meets first (R67): a wait, or the cause and address of a fetch fault, with the
uncorrectable word or the malformed entry to report. -/
inductive FetchRes where
  | ok (ws : List W32) | fault (cause : Nat) (pa : Option Nat) (a : W64) (bad : Option BadEntry) | wait (why : WaitWhy)
  deriving DecidableEq, Repr

/-- Fetch the words at `a`, `a + 4` and on. -/
def fetchRun (s : State) (W : Warp) (a : W64) (n : Nat) : FetchRes :=
  match n with
  | 0 => .ok []
  | k + 1 =>
    match fetchWord s W a with
    | (.ok pa, x) =>
      if dataBad s none pa 4 then .fault 1 (some pa) a none
      else match fetchRun s W (a + 4) k with
        | .ok ws => .ok (x :: ws)
        | r => r
    | (.wait why, _) => .wait why
    | (.fault _ bad, _) => .fault 0 none a bad
    | (.dead q, _) => .fault 1 (some q) a none
    | (.window _, _) => .fault 0 none a none

/-- A trap raised at the clause's header (R37, R67): the warp stands before the clause. The same restart point is saved when
the check of a clause that is resumed at word j fails: the word index is lost, and a later `rfe` executes the clause
from its first word (DESIGN CHOICE, log 64: R37 and R67 put the fault at the header, R41 says nothing of it). -/
def headerTrap (W : Warp) (cls cause : Nat) (addr : W64) : Trap :=
  ⟨cls, cause, 0, 0, W.exm, addr, W.pc, 0, false⟩

/-- A fetch fault at the warp's header: the error or the malformed entry is recorded and the warp enters its handler (R67,
R374, R417). -/
def fetchFault (s : State) (w cause : Nat) (pa : Option Nat) (a : W64) (bad : Option BadEntry) : State :=
  let W := getW s w
  let s1 := match pa with
    | some q => consumed s none q 4 0 (warpJob s W) (pkId (warpPkt s W))
    | none => reportBad s (warpJob s W) bad .fetch (.warp w)
  takeTrap s1 w (headerTrap W 9 cause a) false

/-- The check of the clause at the warp's header (R37, R67): its words, a wait, or the warp in its handler. -/
inductive ClauseRes where
  | ok (ws : List W32) | wait (why : WaitWhy) | stop (s : State)

/-- The header's words are fetched and R37 is applied. Every word is fetched first, so that a clause whose header breaks R37 and
one of whose words cannot be fetched takes the fetch fault (DESIGN CHOICE, log 81: R37, R67 and R85 give no order of the two). -/
def checkWords (s : State) (w n p : Nat) (rsv : Bool) : ClauseRes :=
  let W := getW s w
  match fetchRun s W W.pc (n + 1) with
  | .wait why => .wait why
  | .fault c pa a bad => .stop (fetchFault s w c pa a bad)
  | .ok ws =>
    match clauseReason n p rsv (ws.drop 1) with
    | some r => .stop (takeTrap s w (headerTrap W 2 r W.pc) false)
    | none => .ok (ws.drop 1)

/-- The landing check of the header goes first (R64). -/
def checkClause (s : State) (w n p : Nat) (rsv : Bool) : ClauseRes :=
  let W := getW s w
  match landCheck s W W.pc with
  | .wait why => .wait why
  | .landing => .stop (takeTrap s w (headerTrap W 8 0 W.pc) false)
  | .fetch bad => .stop (fetchFault s w 0 none W.pc bad)
  | .dead q => .stop (fetchFault s w 1 (some q) W.pc none)
  | .ok => checkWords s w n p rsv

/-- Relocate an address of the old range (R368). -/
def relocate (x : Swap) (a : W64) : W64 :=
  if a - x.obase < x.len then a + (x.nbase - x.obase) else a

/-- The loop records of a table after a swap. -/
def relocateLoops (x : Swap) (t : Tab LoopRec) : Tab LoopRec :=
  t.map fun e => (e.1, { e.2 with start := relocate x e.2.start })

/-- The swap of one warp: the loop records that handler entries hid move too (R354, R368). -/
def swapWarp (x : Swap) (W : Warp) : Warp :=
  { W with
    pc := relocate x W.pc
    entry := W.entry + (x.nbase - x.obase)
    calls := W.calls.map fun c => { c with ret := relocate x c.ret }
    reel := W.reel.map fun e => { e with resume := relocate x e.resume }
    loops := relocateLoops x W.loops
    h := { W.h with loops := relocateLoops x W.h.loops }
    k := { W.k with loops := relocateLoops x W.k.loops } }

/-- The swap that is to take effect at a clause start of `w` (R368). -/
def swapFor (s : State) (w : Nat) : Option Swap :=
  match s.swap with
  | some x => if x.warps.contains w && (getW s w).pc - x.obase < x.len then some x else none
  | none => none

/-- The swap ends when every warp of the launch has swapped or retired (R367). -/
def endSwap (s : State) : State :=
  match s.swap with
  | some x =>
    let L := getL s x.launch
    if (x.warps.all fun w => warpGone (getW s w)) && (L.endState ≠ 0 || pkGangs L.packet ≤ L.nextGang) then
      { s with swap := none, msix := s.msix ++ [5] }
    else s
  | none => s

/-- One warp swaps (R367, R368). -/
def swapNow (s : State) (w : Nat) (x : Swap) : State :=
  let s1 := updW s w (swapWarp x)
  endSwap { s1 with swap := some { x with warps := x.warps.filter (· ≠ w) }, swapCount := s1.swapCount + 1 }

/-- A clause starts (R38): its check, the wait mask and its join, a code swap. -/
def startClause (s : State) (w : Nat) (n p : BitVec 4) (m : BitVec 6) (swaps : Bool) (ws : List W32) : State :=
  if !joinReady s w m then s
  else match (if swaps then swapFor s w else none), joinLines s w m with
    | some x, _ => swapNow s w x
    | none, l :: ls => askLines s (l :: ls)
    | none, [] =>
      updW (join s w m) w fun W => { W with
        started := true, word := 0, n := n.toNat, code := ws, codeAt := W.pc, ports := p, flow := true, verdicts := [] }

/-- A clause is resumed at its word after its check: no wait mask (R41). A warp that passed a barrier as its clause's last
word goes on behind the clause (R358). -/
def resumeClause (s : State) (w : Nat) (n p : BitVec 4) (ws : List W32) : State :=
  updW s w fun W =>
    if n.toNat ≤ W.word then { atClause W (W.pc + BitVec.ofNat 64 (4 + 4 * n.toNat)) with flow := true, verdicts := [] }
    else { W with n := n.toNat, code := ws, codeAt := W.pc, ports := p, verdicts := [] }

/-- The header issues, and its words are fetched and checked, only when the tokens of its wait mask are ready, or when the clause
is resumed (DESIGN CHOICE, log 81: R38 and R67 give no order of the wait and the check). -/
def execClauseStart (n p : BitVec 4) (m : BitVec 6) (y x_s : BitVec 1) (rsv : BitVec 10) (s : State) : Out :=
  withWarp s fun w W =>
    -- the yield bit is a hint (R40)
    let _ := y
    if atJoin W then .next (settle s w)
    else match checkClause s w n.toNat p.toNat (rsv ≠ 0) with
      | .stop t => .next t
      | .wait why => .next (waitOn s (warpJob s W) why .fetch (.warp w))
      | .ok ws => .next (if resumes W then resumeClause s w n p ws else startClause s w n p m (x_s = 1) ws)

/-- An undefined or refused encoding raises its reason (R42, R69, R84 to R86). -/
def execUnassignedEncoding (r : Reason) (s : State) : Out :=
  withWarp s fun w _ => .next (illegal s w r.toNat)

/-! Transfers (R189, R190) -/

/-- Go to a target that is checked under R64, with the change of state that goes with it. The landing or fetch fault of a
taken transfer has the target as its address (DESIGN CHOICE, log 65: R66 gives `HADDR` for sequential flow only). -/
def transfer (s : State) (w : Nat) (a : W64) (go : State → State) : Out :=
  match landCheck s (getW s w) a with
  | .ok => .next (go s)
  | .landing => .next (faultAt s w 8 0 0 0 a)
  | .fetch bad => .next (faultAt (reportBad s (warpJob s (getW s w)) bad .fetch (.warp w)) w 9 0 0 0 a)
  | .dead q => .next (faultAt (consumed s none q 8 0 (warpJob s (getW s w)) (pkId (warpPkt s (getW s w)))) w 9 1 0 0 a)
  | .wait why => .next (waitOn s (warpJob s (getW s w)) why .fetch (.warp w))

def noReason (_ : Warp) : Option Nat := none

def execBr (o : BitVec 19) (s : State) : Out :=
  issue s noReason [] fun w W => transfer s w (targetB W o) fun t => jumpTo t w (targetB W o)

def execBc (c : BitVec 4) (p : BitVec 3) (o : BitVec 19) (s : State) : Out :=
  issue s noReason [] fun w W =>
    if condHolds W c.toNat p.toNat then transfer s w (targetB W o) fun t => jumpTo t w (targetB W o)
    else .next (advance s w 1)

/-- The address after the clause's last word (R65). -/
def afterClause (W : Warp) : W64 := W.pc + BitVec.ofNat 64 (4 + 4 * W.n)

def execCall (o : BitVec 19) (s : State) : Out :=
  issue s noReason [] fun w W =>
    if 16 ≤ W.calls.length then .next (faultAt s w 6 1 0 0 0)
    else transfer s w (targetB W o) fun t =>
      settle (updW t w fun W => atClause { W with calls := ⟨afterClause W, W.reel.length⟩ :: W.calls } (targetB W o)) w

def execRet (s : State) : Out :=
  issue s noReason [] fun w W =>
    match W.calls with
    | [] => .next (faultAt s w 6 2 0 0 0)
    | c :: r =>
      if c.reelsp ≠ W.reel.length then .next (faultAt s w 6 3 0 0 0)
      else transfer s w c.ret fun t => jumpTo (updW t w fun W => { W with calls := r }) w c.ret

/-! The reel (R166, R167, R191) -/

/-- `pif` with the lanes for which the condition holds. -/
def pifWith (o : BitVec 19) (c : Warp → W32) (s : State) : Out :=
  issue s noReason [] fun w W =>
    let t := W.exm &&& c W
    let f := W.exm &&& ~~~ c W
    let l := targetB W o
    if 32 ≤ W.reel.length then .next (faultAt s w 5 1 0 0 0)
    else if t = 0 ∨ (t &&& ~~~ W.demm = 0 ∧ f &&& ~~~ W.demm ≠ 0) then
      transfer s w l fun u =>
        jumpTo (updW u w fun W => { W with reel := ⟨.elseK, t, l, []⟩ :: W.reel, exm := f }) w l
    else
      .next (advance (updW s w fun W => { W with reel := ⟨.ifK, f, l, []⟩ :: W.reel, exm := t }) w 1)

def execPif (p : BitVec 3) (o : BitVec 19) (s : State) : Out := pifWith o (fun W => pGet W p.toNat) s
def execPifNot (p : BitVec 3) (o : BitVec 19) (s : State) : Out := pifWith o (fun W => ~~~ pGet W p.toNat) s

def execPelse (o : BitVec 19) (s : State) : Out :=
  issue s noReason [] fun w W =>
    let l2 := targetB W o
    match W.reel with
    | [] => .next (faultAt s w 5 2 0 0 0)
    | e :: r =>
      if e.kind ≠ .ifK then .next (faultAt s w 5 3 0 0 0)
      else
        let f := e.mask
        let t := W.exm
        if f = 0 ∨ (f &&& ~~~ W.demm = 0 ∧ t &&& ~~~ W.demm ≠ 0) then
          transfer s w l2 fun u => jumpTo (updW u w fun W => { W with reel := ⟨.elseK, f, l2, []⟩ :: r }) w l2
        else
          transfer s w e.resume fun u =>
            jumpTo (updW u w fun W => { W with reel := ⟨.elseK, t, l2, []⟩ :: r, exm := f }) w e.resume

def execPend (s : State) : Out :=
  issue s noReason [] fun w W =>
    match W.reel with
    | [] => .next (faultAt s w 5 2 0 0 0)
    | e :: r =>
      if e.kind = .jxtK ∨ e.kind = .joinK then .next (faultAt s w 5 3 0 0 0)
      else .next (advance (updW s w fun W => { W with exm := W.exm ||| e.mask, reel := r }) w 1)

/-! Loops (R195 to R197) -/

/-- Bytes from the clause's header to the end and to the start of the body. -/
def loopEndOff (o : BitVec 19) : Int := 4 * o.toInt
def loopStartOff (W : Warp) : Int := 8 + 4 * (W.word : Int)

/-- Reason 0x15 for a counter that does not exist, 0x1E for a body that is empty or too long (R73, R195). -/
def loopReason (l : BitVec 2) (k : BitVec 5) (o : BitVec 19) (W : Warp) : Option Nat :=
  orElse (reasonIf (l = 3 || !sOk W (k.setWidth 6)) 0x15)
    (reasonIf (loopEndOff o ≤ loopStartOff W || loopEndOff o - loopStartOff W > 1024) 0x1E)

def execLoop (l : BitVec 2) (k : BitVec 5) (o : BitVec 19) (s : State) : Out :=
  issue s (loopReason l k o) [] fun w W =>
    let start := W.pc + BitVec.ofInt 64 (loopStartOff W)
    let words := ((loopEndOff o - loopStartOff W) / 4).toNat
    let stop := targetB W o
    if (tabFind W.loops l.toNat).isSome then .next (faultAt s w 7 1 0 0 0)
    else if W.loops.any fun e => loopEnd e.2 < stop then .next (faultAt s w 7 2 0 0 0)
    else
      let v := sGet W (k.setWidth 6)
      if v = 0 then transfer s w stop fun t => jumpTo t w stop
      else .next (advance (updW s w fun W =>
        { lcSet W l.toNat v with loops := tabPut W.loops l.toNat ⟨start, words, W.reel.length, W.loops.length⟩ }) w 1)

/-- The innermost active loop that satisfies `p`: the one of highest rank, of two equal ones that of the lower counter (DESIGN
CHOICE, log 88: a transfer that clears an outer loop lets a later loop take the rank of one that stands, and R196 names none). -/
def innermost (W : Warp) (p : LoopRec → Bool) : Option (Nat × LoopRec) :=
  (W.loops.filter fun e => p e.2).foldl (fun b e =>
    match b with
    | none => some e
    | some c => if c.2.rank < e.2.rank then some e else some c) none

def dropLoop (W : Warp) (n : Nat) : Warp := { W with loops := tabErase W.loops n }

def execLbrk (s : State) : Out :=
  issue s noReason [] fun w W =>
    match innermost W fun _ => true with
    | none => .next (faultAt s w 7 4 0 0 0)
    | some (n, r) =>
      if r.reelsp ≠ W.reel.length then .next (faultAt s w 7 3 0 0 0)
      else transfer s w (loopEnd r) fun t => jumpTo (updW t w fun W => dropLoop W n) w (loopEnd r)

/-- The clause that holds a code address, as a search back from it meets it. -/
inductive ClauseAt where
  | found (h : W64) (word : Nat) | none | wait (why : WaitWhy)
  deriving DecidableEq, Repr

/-- The nearest header before `a` among the words `i + 1` to `i + fuel` back; a clause that ends before `a` has `a` as the
header of the next (DEDUCED, log 14). -/
def searchBack (s : State) (W : Warp) (a : W64) (i fuel : Nat) : ClauseAt :=
  match fuel with
  | 0 => .none
  | k + 1 =>
    let h := a - BitVec.ofNat 64 (4 * (i + 1))
    match fetchWord s W h with
    | (.wait why, _) => .wait why
    | (.ok _, x) =>
      if x.toNat / 2 ^ 26 = 0x3F then (if i < x.toNat / 2 ^ 22 % 16 then .found h i else .none)
      else searchBack s W a (i + 1) k
    | (.fault _ _, _) => .none
    | (.dead _, _) => .none
    | (.window _, _) => .none

/-- The clause that holds a loop's start: the one whose words the warp holds, or the one that a search finds. -/
def clauseOf (s : State) (W : Warp) (a : W64) : ClauseAt :=
  let i := (a - W.codeAt).toNat / 4 - 1
  if (a - W.codeAt).toNat % 4 = 0 && 4 ≤ (a - W.codeAt).toNat && i < W.code.length then .found W.codeAt i
  else searchBack s W a 0 16

/-- The check of the clause at which a back-edge has arrived, by its header. -/
def checkBack (s : State) (w h : Nat) : ClauseRes := checkWords s w (h / 2 ^ 22 % 16) (h / 2 ^ 18 % 16) (h % 2 ^ 10 ≠ 0)
/-- The warp is in the first word of that clause. -/
def enterBack (s : State) (w : Nat) (W : Warp) (a : W64) (h : Nat) (ws : List W32) : State :=
  setW s w { atClause W a with
    started := true, n := ws.length, code := ws, codeAt := a, ports := BitVec.ofNat 4 (h / 2 ^ 18), flow := true }

/-- The warp `W` at a loop's start that is a header: it is reached with no landing check and no wait mask, and its words
are fetched (R67, R196). A group that has arrived there at its join is taken as arrived (R170), and a warp that a code swap
waits for swaps where the clause is a swap point (R368). -/
def backToHeader (s : State) (w : Nat) (W : Warp) (a : W64) : State :=
  let s1 := setW s w (atClause W a)
  if atJoin (atClause W a) then settle s1 w
  else
    let h := (fetchWord s W a).2.toNat
    match checkBack s1 w h with
    | .wait why => waitOn s (warpJob s W) why .fetch (.warp w)
    | .stop t => t
    | .ok ws =>
      match (if h / 2 ^ 10 % 2 = 1 then swapFor s1 w else none) with
      | none => enterBack s w W a h ws
      | some x =>
        let s2 := swapNow s1 w x
        let V := getW s2 w
        let g := (fetchWord s2 V V.pc).2.toNat
        match checkBack s2 w g with
        | .wait why => waitOn s (warpJob s W) why .fetch (.warp w)
        | .stop t => t
        | .ok vs => enterBack s2 w V V.pc g vs

/-- The back-edge of warp `W` to a loop's start: no landing check and no wait mask (R196). A start inside a clause whose
words the warp no longer holds is resumed as R41 resumes a word. -/
def backTo (s : State) (w : Nat) (W : Warp) (a : W64) : State :=
  match clauseOf s W a with
  | .wait why => waitOn s (warpJob s W) why .fetch (.warp w)
  | .found h j =>
    let W1 := { W with pc := h, word := j, n := W.code.length, started := true, flow := false, ridx := 0 }
    setW s w (if h = W.codeAt then W1 else { W1 with code := [] })
  | .none => backToHeader s w W a

/-- The warp has completed the last word of a body (R196). -/
def execLoopBackEdge (w : Nat) (s : State) : Out :=
  let W := getW s w
  match (if W.flow then innermost W fun r => loopEnd r = nextAddr W else none) with
  | none => .next s
  | some (n, r) =>
    if r.reelsp ≠ W.reel.length then .next (faultAt s w 7 3 0 0 (loopEnd r))
    else
      let W1 := lcSet W n (lcGet W n - 1)
      if lcGet W n - 1 ≠ 0 then .next (backTo s w W1 r.start)
      else
        let s2 := setW s w (dropLoop W1 n)
        .next (if atLoopEnd (getW s2 w) then s2 else settle s2 w)

/-! Barriers, exit, demote (R164, R172 to R175, R198) -/

def execNop (s : State) : Out := issue s noReason [] fun w _ => .next (advance s w 1)

/-- The place after a barrier instruction, where the warp goes on when its phase completes (R358). -/
def passBar (s : State) (w : Nat) : State :=
  updW s w fun W => { advanceW W 1 with barH := W.pc, barJ := W.word + 1 }

/-- A barrier orders the operand fetches of the warp's pending tile operation too, so it waits for them (R175, R273). -/
def execBar (n : BitVec 6) (s : State) : Out :=
  issue s (fun _ => reasonIf (15 < n.toNat) 0x1E) [] fun w W =>
    if tileBusy W then .next s
    else .next (arriveBar (passBar s w) w n.toNat 0 true)

def execBarv (n b : BitVec 6) (s : State) : Out :=
  issue s (fun W => orElse (regReason W [] [b]) (reasonIf (15 < n.toNat) 0x1E)) [] fun w W =>
    if tileBusy W then .next s
    else .next (arriveBar (passBar s w) w n.toNat (sGet W b).toNat false)

/-- `exit` retires the lanes of EXM; in a handler it retires every live lane (R172, R355). In a handler of a warp under the
converged-exit flag this goes before R172's fault, whatever the reel holds (DESIGN CHOICE, log 88: R171, R172 and R355 overlap). -/
def execExit (s : State) : Out :=
  issue s noReason [] fun w W =>
    if W.level ≠ 0 then .next (retireWarp s w)
    else if pkCexit (warpPkt s W) && W.reel ≠ [] then .next (faultAt s w 5 4 0 0 0)
    else
      let s1 := landAll s w
      .next (unwind (updW s1 w fun W => dropLanes W W.exm) w)

def execDemote (s : State) : Out :=
  issue s noReason [] fun w _ => .next (advance (updW s w fun W => { W with demm := W.demm ||| W.exm }) w 1)

/-! Traps and waits (R199, R350 to R356) -/

/-- `trap n`: the restart point is the word after it, or the header that follows (R199). -/
def execTrap (n : BitVec 6) (s : State) : Out :=
  issue s noReason [] fun w W =>
    let W' := advanceW W 1
    .next (takeTrap s w ⟨1, 0, n.toNat, 0, W.exm, 0, W'.pc, W'.word, W'.started⟩ false)

/-- The return to the restart point of a checked bank (R356). A resumed clause is read and checked again before a word of it
issues (R41). Where the restart point is the end of an active loop, the back-edge is still to be made: the spec does
not say whether the return counts as sequential flow, and the model lets it (DESIGN CHOICE, log 66). -/
def returnTo (s : State) (w : Nat) (b : Bank) (hdr : W32) : State :=
  unwindIfEmpty (resumeTile (updW (landAll s w) w fun W => { returnW W b hdr with flow := true }) w) w

/-- Word j − 1 of a restart's clause, or a wait for it. A word that cannot be fetched is no prefix: the check of the
resumed clause raises its fault (R41, R67). -/
def prevWord (s : State) (W : Warp) (b : Bank) : W32 ⊕ WaitWhy :=
  let j := b.retw.toNat % 16
  if b.retw.toNat / 16 % 2 = 0 || j = 0 then .inl 0
  else match fetchWord s W (b.reth + BitVec.ofNat 64 (4 * j)) with
    | (.wait why, _) => .inr why
    | (_, x) => .inl x

def execRfe (s : State) : Out :=
  issue s (fun W => reasonIf (W.level = 0) 0x12) [] fun w W =>
    let b := bankOf W W.level
    if b.reel.toNat % 64 ≠ W.reel.length then .next (faultAt s w 5 5 0 0 0)
    else if b.reel.toNat / 2 ^ 8 % 32 ≠ W.calls.length then .next (faultAt s w 6 4 0 0 0)
    else match prevWord s W b with
      | .inr why => transfer s w b.reth fun t => waitOn t (warpJob t W) why .fetch (.warp w)
      | .inl prev => transfer s w b.reth fun t =>
          let hdr := (fetchWord t W b.reth).2
          if badRestart W b hdr prev then faultAt t w 3 0x1E 0 0 b.reth else returnTo t w b hdr

/-- A hint (R40). -/
def execYield (s : State) : Out := issue s noReason [] fun w _ => .next (advance s w 1)

/-- The end of a wait whose tokens are signalled: the join, and the warp goes on (R139, R199). -/
def endWait (s : State) (w : Nat) (m : BitVec 6) : State :=
  advance (join (updW s w fun W => { W with stat := .running }) w m) w 1

def execWait (n : BitVec 6) (s : State) : Out :=
  issue s noReason [] fun w _ =>
    if n = 0 then .next (advance s w 1)
    else if joinReady s w n then withLines s (joinLines s w n) (.next (endWait s w n))
    else .next (updW s w fun W => { W with stat := .waitTok n })

def execWaitEnd (w : Nat) (s : State) : Out :=
  match (getW s w).stat with
  | .waitTok m => if joinReady s w m then withLines s (joinLines s w m) (.next (endWait s w m)) else .next s
  | _ => .next s

def execDeck (c : BitVec 6) (s : State) : Out :=
  issue s (fun _ => reasonIf (c.toNat < 1 || 5 < c.toNat) 0x1E) [] fun w _ =>
    .next (advance (updW s w fun W => { W with deck := c.setWidth 3 }) w 1)

/-! The divergent jump (R170, R192 to R194) -/

/-- What a lane of `jxt` meets (R193). -/
inductive JxtLane where
  | ok (off : W32)
  /-- A demoted lane that would fault goes to J; a malformed entry that it met is reported all the same, with its access (R374). -/
  | toJoin (rep : Option BadEntry) (acc : AccKind)
  | bad (kind cause : Nat) (addr : W64) (rep : Option BadEntry)
  /-- `n` bytes that it uses, the table's entry or what a walk reads, are uncorrectable. -/
  | dead (pa n : Nat) (addr : W64)
  | wait (why : WaitWhy) (acc : AccKind)
  deriving DecidableEq, Repr

/-- Resolve the target of a lane whose entry was read. -/
def jxtTarget (s : State) (W : Warp) (off : W32) : JxtLane :=
  let t := W.entry + off.setWidth 64
  match landCheck s W t with
  | .ok => .ok off
  | .landing => .bad 8 0 t none
  | .fetch bad => .bad 9 0 t bad
  | .dead q => .dead q 8 t
  | .wait why => .wait why .fetch

/-- Resolve one lane (R193), without its reads' effect on the caches. -/
def jxtLane (s : State) (W : Warp) (sT sN : W64) (vi : W32) : JxtLane :=
  let a := sT + BitVec.ofNat 64 (4 * vi.toNat)
  if sN.toNat ≤ vi.toNat then .bad 7 0 a none
  else match warpAccess s W a 4 .read with
    | .ok pa =>
      if dataBad s (some W.core) pa 4 then .dead pa 4 a
      else jxtTarget s W (BitVec.ofNat 32 (loadAt s (.l1 W.core) pa 4).2)
    | .bad k c rep => .bad k c a rep
    | .dead q => .dead q 8 a
    | .wait why => .wait why .read

/-- The access that a fault of a lane stopped: the target's fetch, or the entry's read. -/
def jxtAcc (kind : Nat) : AccKind := if kind = 9 then .fetch else .read
/-- A demoted lane never faults. -/
def jxtDemoted (d : Bool) (r : JxtLane) : JxtLane :=
  match r with
  | .bad k c a rep => if d then .toJoin rep (jxtAcc k) else .bad k c a rep
  | r => r

/-- Push the entries and serve the first group, in the lanes that are left (R170). -/
def jxtServe (s : State) (w : Nat) (j : W64) (tg : Tab W32) : State :=
  let W := getW s w
  if W.exm = 0 then unwind s w
  else
    let m := maskOf (tg.map Prod.fst) &&& W.exm
    let W1 := { W with reel := ⟨.jxtK, m, j, tg⟩ :: ⟨.joinK, W.exm, j, []⟩ :: W.reel }
    match resumeReel W1 33 with
    | .go W2 => settle (setW s w W2) w
    | .retire _ => retireWarp s w

def execJxt (t n j : BitVec 6) (x_i : BitVec 8) (s : State) : Out :=
  issue s (fun W => regReason W [x_i.toNat] [t, n, j]) [x_i.toNat] fun w W =>
    let J := W.entry + sGet W j
    if 31 ≤ W.reel.length then .next (faultAt s w 5 1 0 0 0)
    else transfer s w J fun s0 =>
      let lanes := lanesOf W.exm
      let rs := lanes.map fun l =>
        (l, jxtDemoted (W.demm.getLsbD l) (jxtLane s0 W (sGet W t) (sGet W n) (vGet W x_i.toNat l)))
      -- waits are served first
      match rs.filterMap (fun r => match r.2 with | .wait y k => some (y, k) | _ => none) with
      | y :: ys => (y :: ys).foldl (fun u z => waitOn u (warpJob u W) z.1 z.2 (.warp w)) s0
      | [] =>
        let bad := rs.filterMap fun r => match r.2 with | .bad k c a rep => some (r.1, k, c, a, rep) | _ => none
        let mal := rs.filterMap fun r => match r.2 with
          | .bad k _ _ (some e) => some (e, jxtAcc k)
          | .toJoin (some e) acc => some (e, acc)
          | _ => none
        let s1 := mal.foldl (fun u e => reportBad u (warpJob u W) (some e.1) e.2 (.warp w)) s0
        let reps := mal.length
        -- the records that the faults need must be had (R380)
        if 0 < reps && 1024 < s0.xrecs.length + reps then s0
        else if !pkRecord (warpPkt s W) && bad ≠ [] then
          match bad with
          | (_, k, c, a, _) :: _ =>
            takeTrap s1 w ⟨0x0A, c, 0, k, maskOf (bad.map Prod.fst), a, W.pc, W.word, true⟩ false
          | [] => s1
        else
          let s2 := bad.foldl (fun u b => sendRecord u W b.1 b.2.1 0 W.word W.pc b.2.2.2.1) s1
          let s3 := parkLanes s2 w (maskOf (bad.map Prod.fst))
          let s4 := rs.foldl (fun u r => match r.2 with
            | .dead pa n a =>
              killLanes (consumed u (some W.core) pa n 1 (warpJob u W) (pkId (warpPkt u W))) w (laneBit r.1) a W.pc W.word
            | .ok _ =>
              -- the read of the entry fills the L1
              match warpAccess u W (sGet W t + BitVec.ofNat 64 (4 * (vGet W x_i.toNat r.1).toNat)) 4 .read with
              | .ok pa => (loadAt u (.l1 W.core) pa 4).1
              | _ => u
            | _ => u) s3
          let tg : Tab W32 := rs.filterMap fun r => match r.2 with | .ok off => some (r.1, off) | _ => none
          jxtServe s4 w J tg

end Sys2Proof.Machine
end

