-- ==== Sys2Proof/Machine/EngineOps.lean ====
section
/-! DEFINITION. What the engine commands share (spec/09 R247, R248, R251; spec/05 R137, R138): acceptance, descriptors, the engine's
accesses at the home L2 or a scratchpad, completion words and batches. -/

namespace Sys2Proof.Machine

/-- A block whose firmware is switching takes no new work (spec/24 R434). -/
def fwHolds (s : State) (block : Nat) : Bool := s.fwState = 2 && s.fwBlock = block
/-- An event that writes lines that the host may cache: their back-invalidates go, and it is held until the host has answered
(spec/21 R388). -/
def withHost (s : State) (ls : List Nat) (i : Instr) (k : Out) : Out :=
  match ls with
  | [] => k
  | l :: r => .next { askLines s (l :: r) with heldIn := s.heldIn ++ [i] }
/-- An event is held where a row that it opens must wait (spec/22 R413); it is taken again after a refresh. -/
def holdDue (s : State) (due : Bool) (i : Instr) (o : Out) : Out :=
  if due then .next { s with heldIn := s.heldIn ++ [i] } else o
/-- What was held is taken again. -/
def takeHeld (s : State) : State := { s with agenda := s.heldIn ++ s.agenda, heldIn := [] }
/-- Work that reaches a block while its firmware is switched is held (spec/24 R434). -/
def holdIn (s : State) (block : Nat) (i : Instr) (o : Out) : Out :=
  if fwHolds s block then .next { s with heldIn := s.heldIn ++ [i] } else o
/-- A command that may not go on: it waits on a record, or its engines' firmware is switching and it has not started. -/
def cmdHeld (s : State) (c : Cmd) (block : Nat) : Bool :=
  waitsRecord s (.cmd c.id) || waitsRecord s (.loop c.id) || (fwHolds s block && !c.started)

/-! Accesses of an engine -/

/-- Where a byte of an engine access lies, the error code of R248, a malformed entry (R374), or a
wait. -/
inductive EngAt where
  | pa (a : Nat) | scr (g off : Nat) | err (code : Nat) | mal (b : BadEntry)
  /-- The walk met uncorrectable data at a PA (R417). -/
  | dead (a : Nat)
  | wait (why : WaitWhy)
  deriving DecidableEq, Repr

/-- The completion-word code of a fault kind (R248). -/
def kindCode (k : Nat) : Nat :=
  match k with
  | 1 => 0x02
  | 2 => 0x03
  | 3 => 0x04
  | 4 => 0x05
  | 5 => 0x06
  | 6 => 0x07
  | _ => 0x02

/-- The place of one byte of global memory for an engine of a job. -/
def engGlobal (s : State) (job : Nat) (a : W64) (acc : AccKind) (vs : List (Nat × Nat)) : EngAt :=
  if !canonical a then .err 0x05
  else match translate s job a acc vs with
    | .ok pa => .pa pa
    | .window _ => .err 0x07
    | .fault _ (some b) => .mal b
    | .fault k none => .err (kindCode k)
    | .dead pa => .dead pa
    | .wait y => .wait y

/-- The place of one byte for a command: `scr` says that the address names a scratchpad. -/
def engAt (s : State) (c : Cmd) (scr : Bool) (a : W64) (acc : AccKind) : EngAt :=
  if scr then
    match scrPlace s (getW s c.warp) a with
    | some (g, o) => .scr g o
    | none => .err 0x06
  else engGlobal s c.job a acc c.verdicts

def engGet (s : State) (p : EngAt) : Byte :=
  match p with
  | .pa a => l2Byte s a
  | .scr g o => tabGet 0 (getG s g).scratch o
  | _ => 0
def engPut (s : State) (p : EngAt) (b : Byte) : State :=
  match p with
  | .pa a => l2Store s a 1 b.toNat
  | .scr g o => scrWrite s g o 1 b.toNat
  | _ => s
def engPoison (s : State) (p : EngAt) : Bool :=
  match p with
  | .pa a => dataBad s none a 1
  | .scr g o => (scrBad s g o 1).isSome
  | _ => false

/-- What stops a run of bytes: a wait, an error code, a malformed entry, or uncorrectable data at
a PA or in a scratchpad. -/
inductive Stop where
  | wait (why : WaitWhy) (acc : AccKind) | err (code : Nat) | mal (b : BadEntry) (acc : AccKind) | bad (pa : Nat) | scr (g off : Nat)
  deriving DecidableEq, Repr

/-- A wait with the access that meets it. -/
abbrev WaitAcc := WaitWhy × AccKind

/-- The error code of a stop (R248). -/
def stopCode (e : Stop) : Nat :=
  match e with
  | .err k => k
  | .mal _ _ => 0x02
  | .bad _ => 0x08
  | .scr _ _ => 0x08
  | .wait _ _ => 0
/-- The records of a stop: of uncorrectable data that a command consumed (R417, R422), or of a malformed entry (R374). -/
def noteStop (s : State) (c : Cmd) (e : Stop) : State :=
  match e with
  | .bad pa => consumed s none pa 1 2 c.job (pkId (getL s c.launch).packet)
  | .scr g o => scrConsumed s g o 1 (getG s g).core 2 c.job (pkId (getL s c.launch).packet)
  | .mal b acc => reportBad s c.job (some b) acc (.cmd c.id)
  | .err _ => s
  | .wait _ _ => s

/-- The places of `n` bytes from `a`, or what the first bad one meets; a read also meets uncorrectable data. -/
def engRun (s : State) (c : Cmd) (scr : Bool) (a : W64) (n : Nat) (acc : AccKind) : List EngAt × Option Stop :=
  let ps := (List.range n).map fun i => engAt s c scr (a + BitVec.ofNat 64 i) acc
  (ps, ps.findSome? fun p => match p with
    | .err k => some (.err k)
    | .mal b => some (.mal b acc)
    | .dead a => some (.bad a)
    | .wait y => some (.wait y acc)
    | .pa a => if acc = .read && engPoison s p then some (.bad a) else none
    | .scr g o => if acc = .read && engPoison s p then some (.scr g o) else none)

/-- Read `n` bytes as a number, or what stops the read. -/
def engRead (s : State) (c : Cmd) (scr : Bool) (a : W64) (n : Nat) : Nat × Option Stop :=
  let r := engRun s c scr a n .read
  (leNat (r.1.map (engGet s)), r.2)

/-- The sectors that a list of places lies in. -/
def placeSectors (ps : List EngAt) : List Nat :=
  (ps.filterMap fun p => match p with
    | .pa a => if paSpace a < 2 then some (a / 128) else none
    | _ => none).eraseDups

/-- Write bytes at places that were checked. -/
def engWrite (s : State) (ps : List EngAt) (bs : List Byte) : State :=
  let s1 := (ps.zip bs).foldl (fun t e => engPut t e.1 e.2) s
  clearCovered s1 (ps.filterMap fun p => match p with | .pa a => some (a, 1) | _ => none)

/-- An engine's writes to some sectors have reached DRAM (R138): the dirty units that stand at the home L2, and what was evicted
from it and is on its way. -/
def flushSectors (s : State) (ks : List Nat) : State :=
  ks.foldl (fun t k => drainSector (l2WriteBack t k) k (BitVec.allOnes 128)) s

/-! Completion (R248) -/

/-- The place of a completion word: its PA, or that there is none or it cannot be used, with a malformed entry to report. -/
inductive Compl where
  | word (pa : Nat) | unusable (bad : Option BadEntry)
  /-- The walk met uncorrectable data at a PA: it cannot be used (R417). -/
  | dead (pa : Nat)
  | wait (y : WaitAcc)
  deriving DecidableEq, Repr

def complAt (s : State) (c : Cmd) (a : W64) : Compl :=
  if a = 0 || a.toNat % 8 ≠ 0 then .unusable none
  else match engGlobal s c.job a .write c.verdicts with
    | .pa p => .word p
    | .wait y => .wait (y, .write)
    | .mal b => .unusable (some b)
    | .dead pa => .dead pa
    | .err _ => .unusable none
    | .scr _ _ => .unusable none

def complWord (code progress : Nat) : Nat := progress % 2 ^ 48 + 2 ^ 48 * code + 2 ^ 56 * (if code = 0 then 1 else 2)

/-- Append a kind 0x0A record for a command (R245). -/
def cmdRecord (s : State) (c : Cmd) (code : Nat) (addr : W64) : State :=
  sendRecord s (getW s c.warp) 0 0x0A code c.word c.hdr addr

/-- End a descriptor at `da` with its code and progress; its completion word may have to wait. -/
def endDesc (s : State) (c : Cmd) (da compl : W64) (code progress : Nat) : State × Option WaitAcc :=
  match complAt s c compl with
  | .wait y => (s, some y)
  | .word pa => (l2Store s pa 8 (complWord code progress), none)
  | .unusable bad =>
    let s1 := reportBad s c.job bad .write (.cmd c.id)
    (if code = 0 then s1 else cmdRecord s1 c code da, none)
  | .dead pa =>
    let s1 := noteStop s c (.bad pa)
    (if code = 0 then s1 else cmdRecord s1 c code da, none)

/-! Batches (R251) -/

def joinBatch (W : Warp) : Warp := { W with openN := W.openN + 1, openUsed := true }
def closeBatch (W : Warp) : Warp :=
  if W.openUsed then
    { W with
      closed := if W.openN = 0 then W.closed else tabPut W.closed W.openId W.openN
      openId := W.openId + 1, openN := 0, openUsed := false }
  else W
/-- A command of a batch has completed; while the warp is saved the completion is kept for its restore (R365). -/
def batchDone (s : State) (w : Nat) (b : Option Nat) : State :=
  match b with
  | none => s
  | some k =>
    let W := getW s w
    if W.stat = .saved then updGang s W.gang fun g => { g with doneBatch := g.doneBatch ++ [(w, k)] }
    else setW s w (if k = W.openId then { W with openN := W.openN - 1 }
      else { W with closed := tabSet 0 W.closed k (tabGet 0 W.closed k - 1) })
/-- Batches outstanding, the open one included (R251). -/
def outstanding (W : Warp) : Nat := W.closed.length + (if W.openN = 0 then 0 else 1)

/-- A command is over: its token is signalled and its batch is told. -/
def endCmd (s : State) (c : Cmd) : State :=
  batchDone (signal { s with cmds := s.cmds.filter fun e => e.id ≠ c.id } c.warp c.tok) c.warp c.batch

def findCmd (s : State) (k : Nat) (kind : CmdKind) : Option Cmd := s.cmds.find? fun c => c.id = k && c.kind = kind
def updCmd (s : State) (k : Nat) (f : Cmd → Cmd) : State :=
  { s with cmds := s.cmds.map fun c => if c.id = k then f c else c }
/-- A command waits on a record or a copy. -/
def cmdWait (s : State) (c : Cmd) (y : WaitAcc) : State := waitOn s c.job y.1 y.2 (.cmd c.id)

/-! Acceptance (R247) -/

/-- The number of descriptors that a register names. -/
def descCount (x : W64) : Nat := if x = 0 then 1 else x.toNat

/-- A peer id names a device or a tree (R390). -/
def peerBits (p : W64) : Bool := p.toNat / 2 ^ 16 = 0 && p.toNat / 2 ^ 10 % 32 = 0
def routeAt (s : State) (dev : Nat) : Nat := (barGet s 0x40028).toNat + 8 * dev
/-- Uncorrectable data in the route entry of a device (R417). -/
def routeBad (s : State) (dev : Nat) : Option Nat := tblBad s (routeAt s dev) 8
/-- The route entry of a device (R393): the relaxed mask and the ordered port, empty when malformed or uncorrectable. -/
def routeOf (s : State) (dev : Nat) : Nat × Nat :=
  let e := tblRead s (routeAt s dev) 8
  if (routeBad s dev).isSome then (0, 63)
  else if e / 2 ^ 42 ≠ 0 || (35 < e % 64 && e % 64 ≠ 63) then (0, 63) else (e / 64 % 2 ^ 36, e % 64)
def devId (s : State) : Nat := (barGet s 0x40000).toNat % 1024
/-- Whether a peer is inside the scale-up domain for a command; `mcOk` says that the command takes a tree. -/
def peerOk (s : State) (p : W64) (mcOk : Bool) : Bool :=
  peerBits p &&
  if p.getLsbD 15 then mcOk
  -- what an uncorrectable entry says is not known: the command ends with code 0x08 when it uses it (R417)
  else p.toNat % 1024 = devId s || (routeBad s (p.toNat % 1024)).isSome || routeOf s (p.toNat % 1024) ≠ (0, 63)

/-- The acceptance value of R247. -/
def acceptance (s : State) (n : Nat) (a : W64) (peer : Option W64) (mcOk : Bool) : Nat :=
  if 64 < n then 1
  else if a.toNat % 64 ≠ 0 || !canonical a then 2
  else match peer with
    | some p => if peerOk s p mcOk then 0 else 3
    | none => 0

/-- Write the acceptance value, or record a refusal (R247). -/
def replyOr (s : State) (w : Nat) (r : BitVec 1) (d : BitVec 6) (v code : Nat) (addr : W64) : State :=
  if r = 1 then updW s w fun W => sSet W d (BitVec.ofNat 64 v)
  else if v = 0 then s
  else let W := getW s w; sendRecord s W 0 0x0A code W.word W.pc addr

/-- One descriptor as the engine reads it, or what stops the read. -/
def descAt (s : State) (c : Cmd) (a : W64) : DescRead × Option Stop :=
  match engRead s c false a 64 with
  | (v, none) => (.ok (BitVec.ofNat 512 v), none)
  | (_, some e) => (.bad (stopCode e), some e)

/-- The command record of an engine instruction. -/
def newCmd (s : State) (w : Nat) (kind : CmdKind) (x : EPfx) (a b : W64) (peer : Option W64) : Cmd :=
  let W := getW s w
  { maintCmd s W w kind x.ev with
    sa := a, sb := b, peer := peer, mem := (attr x.mem).policy = 4, started := false, verdicts := W.verdicts }

/-- Read the `n` descriptors of a command at its issue, after the fork (R137, R251). -/
def readDescs (s : State) (c : Cmd) (n : Nat) : List (DescRead × Option Stop) :=
  (List.range n).map fun i => descAt s c (c.sa + BitVec.ofNat 64 (64 * i))

/-- A descriptor closes the batch when its close bit is set, or when it cannot be read (R251). -/
def closes (d : DescRead) : Bool :=
  match d with
  | .ok x => x.getLsbD 386
  | .bad _ => true

/-- Registers of an engine word: the peer's number stands in a scalar register. -/
def engRegs (x : EPfx) (rs : List (BitVec 6)) : List (BitVec 6) := rs ++ x.peer.toList
/-- The reason of an E word that names vector registers `vs` and scalar registers `rs`: a register out of range, then
0x1D for a destination without a reply (R51, R85). -/
def engReason (vs : List Nat) (rs : List (BitVec 6)) (d : BitVec 6) (r : BitVec 1) (x : EPfx) (W : Warp) : Option Nat :=
  orElse (regReason W vs (engRegs x (rs ++ [d]))) (reasonIf (r = 0 && d ≠ 0) 0x1D)

/-- The value of the peer register. -/
def peerVal (W : Warp) (x : EPfx) : Option W64 := x.peer.map fun r => sGet W r

/-- The issue of an engine command: suppressed when every lane is demoted (R163), held while its token is full, a tile
operation fetches or 8 batches are closed, then refused or accepted (R247). -/
def engineOp (s : State) (a b d : BitVec 6) (r : BitVec 1) (x : EPfx) (batched : Bool) (k : Nat → Warp → Out) : Out :=
  issue s (engReason [] [a, b] d r x) [] fun w W =>
    if suppressed W then .next (advance s w (lenE x))
    else if evFull W x.ev || tileBusy W || (batched && 8 ≤ W.closed.length) then .next s
    else k w W

/-- Accept a command: the fork writes the core's L1 back (R137), the token is armed and the command queued. -/
def accept (s : State) (w : Nat) (c : Cmd) : State :=
  { updW s w fun W => arm W c.tok (isFabric c.kind) with cmds := s.cmds ++ [c], nextCmd := s.nextCmd + 1 }

/-- An engine command with descriptors. -/
def descOp (s : State) (a b d : BitVec 6) (r : BitVec 1) (x : EPfx) (kind : CmdKind) (batched mcOk : Bool)
    (post : State → Cmd → State) : Out :=
  engineOp s a b d r x batched fun w W =>
    let n := descCount (sGet W b)
    let v := acceptance s n (sGet W a) (peerVal W x) mcOk
    if v ≠ 0 then .next (advance (replyOr s w r d v (if v = 3 then 0x09 else 0x01) (sGet W a)) w (lenE x))
    else
      withLines s (coreLines s W.core) <|
      let s1 := l1WriteBack s W.core
      let c0 := newCmd s1 w kind x (sGet W a) (sGet W b) (peerVal W x)
      let ds := readDescs s1 c0 n
      let reps := (ds.filter fun d => match d.2 with | some (.mal _ _) => true | _ => false).length
      match ds.filterMap (fun d => match d.2 with | some (.wait y k) => some (y, k) | _ => none) with
      | y :: ys => .next ((y :: ys).foldl (fun t z => waitOn t (warpJob t W) z.1 z.2 (.eng w)) s)
      | [] =>
        -- the records that malformed entries need must be had (R380)
        if 0 < reps && 1024 < s.xrecs.length + reps then .next s else
        let ds' := ds.map Prod.fst
        let c := { c0 with descs := ds', verdicts := [], batch := if batched then some W.openId else none }
        let s2 := accept (ds.foldl (fun t d => match d.2 with | some e => noteStop t c0 e | none => t) s1) w c
        let s3 := if batched then
            updW s2 w fun W => let W' := joinBatch W; if ds'.any closes then closeBatch W' else W'
          else s2
        .next (advance (post (replyOr s3 w r d 0 0 0) c) w (lenE x))

end Sys2Proof.Machine
end

