-- ==== Sys2Proof/Machine/Packets.lean ====
section
/-! DEFINITION. Packets (spec/21 R396 to R400): their check, routes, sequences and windows, and the reads that this device makes at
another one (spec/10 R273, spec/11 R294). -/

namespace Sys2Proof.Machine

/-! The CRC-64 (R396) -/

/-- One bit of the reflected CRC. -/
def crcBit (poly : Nat) (c : Nat) : Nat := if c % 2 = 1 then (c / 2) ^^^ poly else c / 2
def crcByte (poly : Nat) (c : Nat) (b : Byte) : Nat :=
  (List.range 8).foldl (fun a _ => crcBit poly a) (c ^^^ b.toNat)
/-- The polynomial 0x42F0_E1EB_A9EA_3693, reflected. -/
def crc64 (bs : List Byte) : BitVec 64 :=
  BitVec.ofNat 64 (bs.foldl (crcByte 0xC96C5795D7870F42) (2 ^ 64 - 1) ^^^ (2 ^ 64 - 1))

/-- The header of a packet as 256 bits. -/
def headerOf (k : Packet) : Nat :=
  let b (x : Bool) : Nat := if x then 1 else 0
  k.value.toNat + 2 ^ 89 * k.afmt.toNat + 2 ^ 92 * k.op.toNat + 2 ^ 96 * b k.last + 2 ^ 97 * b k.close
    + 2 ^ 98 * b k.relaxed + 2 ^ 99 * b k.mc + 2 ^ 100 * k.dst.toNat + 2 ^ 110 * k.src.toNat + 2 ^ 120 * k.job.toNat
    + 2 ^ 128 * k.group.toNat + 2 ^ 144 * k.len.toNat + 2 ^ 160 * k.seq.toNat + 2 ^ 192 * k.remote.toNat
/-- Bytes of data that follow a header: a request for data carries none. -/
def carries (op : BitVec 4) (len : Nat) : Nat := if op = 1 || op = 9 || op = 10 then 0 else len
def packetCrc (k : Packet) : BitVec 64 := crc64 (leBytes 32 (headerOf k) ++ k.data)
def sealed (k : Packet) : Packet := { k with crc := packetCrc k }
/-- A packet from its bytes: header, data, CRC. -/
def parsePacket (h : Nat) (data : List Byte) (crc : Nat) : Packet where
  remote := BitVec.ofNat 64 (h / 2 ^ 192)
  seq := BitVec.ofNat 32 (h / 2 ^ 160)
  group := BitVec.ofNat 16 (h / 2 ^ 128)
  job := BitVec.ofNat 8 (h / 2 ^ 120)
  src := BitVec.ofNat 10 (h / 2 ^ 110)
  dst := BitVec.ofNat 10 (h / 2 ^ 100)
  mc := h / 2 ^ 99 % 2 = 1
  relaxed := h / 2 ^ 98 % 2 = 1
  close := h / 2 ^ 97 % 2 = 1
  last := h / 2 ^ 96 % 2 = 1
  op := BitVec.ofNat 4 (h / 2 ^ 92)
  afmt := BitVec.ofNat 3 (h / 2 ^ 89)
  value := BitVec.ofNat 64 h
  len := BitVec.ofNat 16 (h / 2 ^ 144)
  data := data
  crc := BitVec.ofNat 64 crc

/-- Arrivals for a job are taken here (R391). -/
def jobTaken (s : State) (job : Nat) : Bool :=
  (barGet s (0x40008 + 8 * (job / 64))).getLsbD (job % 64) && jobValid s job

/-! Routes (R393, R399, R400) -/

def Port.blank : Port := ⟨0, 0, false, 0, 0, [], [], 0, 0, 0, 0, false, [], 0, [], [], 0, 0⟩
def portOfNo (s : State) (p : Nat) : Port := tabGet Port.blank s.ports p
def putPort (s : State) (p : Nat) (x : Port) : State := { s with ports := tabSet Port.blank s.ports p x }
/-- Packets may be handed to a port: it is up, or it waits for a key and will send them after the switch (R395); 63 stands for the
way back inside the module (R390). -/
def portUp (s : State) (p : Nat) : Bool := p = 63 || (p < 36 && ((portOfNo s p).state = 2 || (portOfNo s p).state = 3))

def bridleAt (s : State) (tree : Nat) : Nat := (barGet s 0x40030).toNat + 8 * tree
/-- The bridle entry of a tree: forward mask and local bit, none when it is not valid or uncorrectable. -/
def bridleOf (s : State) (tree : Nat) : Option (Nat × Bool) :=
  let e := tblRead s (bridleAt s tree) 8
  if (tblBad s (bridleAt s tree) 8).isSome then none
  else if e / 2 ^ 38 ≠ 0 || e / 2 ^ 37 % 2 = 0 then none else some (e % 2 ^ 36, e / 2 ^ 36 % 2 = 1)

/-- Uncorrectable data in the entry that leads to a peer, a device or a tree by its key: what is sent for a command that uses it
ends with code 0x08 (R417); an answer or a relay finds no route (DESIGN CHOICE, log 77). -/
def pathBad (s : State) (key : Nat) : Option Nat :=
  if 1024 ≤ key then tblBad s (bridleAt s (key - 1024)) 8 else if key = devId s then none else routeBad s key

def maskPorts (m : Nat) : List Nat := (List.range 36).filter fun p => m / 2 ^ p % 2 = 1

/-- The port of a packet to a device: the ordered one, or any usable port of the relaxed mask (R399). -/
def pickPort (s : State) (dev : Nat) (relaxed : Bool) : Option Nat :=
  if dev = devId s then some 63
  else
    let r := routeOf s dev
    let ordered := if r.2 = 63 || !portUp s r.2 then none else some r.2
    if !relaxed || r.1 = 0 then ordered
    else
      let ps := (maskPorts r.1).filter fun p => portUp s p
      match ps with
      | [] => none
      | p :: _ => some (ps.getD (Config.choice s.ctr % ps.length) p)

/-! Sequences (R397) -/

def PeerTx.blank : PeerTx := ⟨0, []⟩
def txOf (s : State) (key : Nat) : PeerTx := tabGet PeerTx.blank s.peerTx key
def putTx (s : State) (key : Nat) (x : PeerTx) : State := { s with peerTx := tabSet PeerTx.blank s.peerTx key x }
/-- The key of a peer: a device, or a tree. -/
def peerKey (dev : Nat) (mc : Bool) : Nat := if mc then 1024 + dev else dev

/-- Send a packet on ports with the next sequence of its peer. -/
def sendOn (s : State) (key : Nat) (ports : List Nat) (k : Packet) (cmd : Option Nat) : State :=
  let x := txOf s key
  let k' := sealed { k with seq := x.nextSeq }
  let s1 := putTx s key ⟨x.nextSeq + 1, x.sent ++ ports.map fun p => ⟨k', cmd, p, 1⟩⟩
  { s1 with outbox := s1.outbox ++ ports.map fun p => (p, k'), ctr := s1.ctr + 1 }
/-- Room in the window of a peer. -/
def txRoom (s : State) (key : Nat) : Bool := (txOf s key).sent.length < 4096

/-! Reads at another device (R273, R294, R396) -/

/-- What a read at another device has come to. -/
inductive FarAns where
  | data (bs : List Byte) | fail (code : Nat) | wait
  deriving DecidableEq, Repr

/-- The packet of a read: op 9 for an operand, op 10 for a part of a sketch. Its value names the read and the part. -/
def farPacket (s : State) (job dev op : Nat) (a : W64) (n : Nat) (value : Nat) (last : Bool) : Packet where
  remote := a
  seq := 0
  group := 0
  job := BitVec.ofNat 8 job
  src := BitVec.ofNat 10 (devId s)
  dst := BitVec.ofNat 10 dev
  mc := false
  relaxed := false
  close := false
  last := last
  op := BitVec.ofNat 4 op
  afmt := 0
  value := BitVec.ofNat 64 value
  len := BitVec.ofNat 16 n
  data := []
  crc := 0

/-- Who asks is a command that has started. -/
def askerStarted (s : State) (who : Waiter) : Bool := s.cmds.any fun c => who = .cmd c.id && c.started
/-- Read `n` bytes at `a` of another device, or part `part` of the sketch that is bound there: the request is sent once, and its
answer is kept until what asked for it is done with it. While the fabric engines' firmware is switched only a command that has
started asks (spec/24 R434). -/
def farRead (s : State) (who : Waiter) (job dev op : Nat) (a : W64) (n part : Nat) (last : Bool) : State × FarAns :=
  match s.farReads.find? fun r => r.who = who && r.dev = dev && r.at_ = a && r.len = n && r.part = part with
  | some r =>
    if r.code ≠ 0 then (s, .fail r.code)
    else match r.data with
      | some d => (s, .data d)
      | none => (s, .wait)
  | none =>
    match pathBad s dev, pickPort s dev false with
    | some pa, _ => (consumed s none pa 8 2 job 0, .fail 0x08)
    | none, none => (s, .fail 0x09)
    | none, some p =>
      if !txRoom s dev || (fwHolds s 3 && !askerStarted s who) then (s, .wait)
      else
        let id := s.nextCmd
        let s1 := { s with nextCmd := id + 1, farReads := s.farReads ++ [⟨id, who, dev, a, n, part, none, 0⟩] }
        (sendOn s1 dev [p] (farPacket s1 job dev op a n (2 ^ 32 * id + part) last) (some id), .wait)
/-- What asked is done with its reads. -/
def dropFar (s : State) (who : Waiter) : State := { s with farReads := s.farReads.filter fun r => r.who ≠ who }
/-- An answer is still awaited. -/
def farWaits (s : State) (who : Waiter) : Bool :=
  s.farReads.any fun r => r.who = who && r.data.isNone && r.code = 0

end Sys2Proof.Machine
end

