-- ==== Sys2Proof/Machine/Copy.lean ====
section
/-! DEFINITION. The copy and select engines (spec/09 R249 to R252). -/

namespace Sys2Proof.Machine

/-- Bits [lo + n − 1 : lo] of a descriptor. -/
def fld (d : BitVec 512) (lo n : Nat) : Nat := d.toNat / 2 ^ lo % 2 ^ n
def fldA (d : BitVec 512) (lo : Nat) : W64 := BitVec.ofNat 64 (fld d lo 64)

def execCpy (a b d : BitVec 6) (r : BitVec 1) (x : EPfx) (s : State) : Out :=
  descOp s a b d r x .cpy true false fun t _ => t
def execRsel (a d : BitVec 6) (r : BitVec 1) (x : EPfx) (s : State) : Out :=
  descOp s a 0 d r x .rsel true false fun t _ => t

/-- `cpwait n` may end: few enough batches are outstanding and the fence of its join is done (R139, R251, R273). -/
def cpwaitReady (s : State) (w n : Nat) : Bool :=
  outstanding (getW s w) ≤ n && fenceDone s w false && !tileBusy (getW s w)
/-- `cpwait` ends: it joins the completed batches as a device fence (R251). -/
def endCpwait (s : State) (w : Nat) : State :=
  advance (joinFence (updW s w fun W => { W with stat := .running }) (getW s w)) w 1

def execCpwait (n : BitVec 6) (s : State) : Out :=
  issue s (fun _ => none) [] fun w W =>
    let s1 := if n = 0 then updW s w closeBatch else s
    if cpwaitReady s1 w n.toNat then withLines s1 (coreLines s1 W.core) (.next (endCpwait s1 w))
    else .next (updW s1 w fun W => { W with stat := .waitCp n.toNat })

def execCpwaitEnd (w : Nat) (s : State) : Out :=
  match (getW s w).stat with
  | .waitCp n =>
    if cpwaitReady s w n then withLines s (coreLines s (getW s w).core) (.next (endCpwait s w)) else .next s
  | _ => .next s

/-! Copy (R249, R250) -/

/-- A run of work of one descriptor: the state, what is done, what stopped it, and the sectors written. -/
structure Work where
  s    : State
  done : Nat
  stop : Option Stop
  wr   : List Nat

/-- Copy `k` bytes. A source byte that the command has already written may be read old or new (R250). -/
def copyChunk (s0 : State) (c : Cmd) (sscr dscr : Bool) (src dst : W64) (k : Nat) (u : Work) : Work :=
  let r := engRun u.s c sscr src k .read
  let t := engRun u.s c dscr dst k .write
  match r.2, t.2 with
  | some e, _ => { u with stop := some e }
  | none, some e => { u with stop := some e }
  | none, none =>
    let bs := (List.range k).map fun i =>
      let p := r.1.getD i (.err 0)
      if Config.copySeesNew u.s.ctr (u.done + i) then engGet u.s p else engGet s0 p
    { s := engWrite u.s t.1 bs, done := u.done + k, stop := none, wr := u.wr ++ placeSectors t.1 }

/-- The bytes of one row from `x`, by 32-byte units counted from the destination's address (DESIGN CHOICE, log 85: R250 does not
say from where a row's units are counted, which decides what has been copied when an error ends the row). -/
def copyRow (s0 : State) (c : Cmd) (sscr dscr : Bool) (src dst : W64) (n fuel x : Nat) (u : Work) : Work :=
  match fuel with
  | 0 => u
  | f + 1 =>
    if n ≤ x || u.stop.isSome then u
    else
      let o := BitVec.ofNat 64 x
      let k := min (n - x) (32 - (dst + o).toNat % 32)
      copyRow s0 c sscr dscr src dst n f (x + k) (copyChunk s0 c sscr dscr (src + o) (dst + o) k u)

/-- The rows of a copy in ascending order. -/
def copyRows (s0 : State) (c : Cmd) (d : BitVec 512) (u : Work) : Work :=
  let n := fld d 128 32
  (List.range (fld d 160 32)).foldl (fun v r =>
    if v.stop.isSome then v
    else copyRow s0 c (d.getLsbD 384) (d.getLsbD 385) (fldA d 0 + BitVec.ofNat 64 r * fldA d 192)
      (fldA d 64 + BitVec.ofNat 64 r * fldA d 256) n n 0 v) u

def copyDesc (s0 : State) (c : Cmd) (d : BitVec 512) (s : State) : Work :=
  if fld d 387 125 ≠ 0 || fld d 160 32 = 0 || fld d 128 32 = 0 then ⟨s, 0, some (.err 0x01), []⟩
  else copyRows s0 c d ⟨s, 0, none, []⟩

/-! Select (R252) -/

/-- The width of an element, none for a format that is malformed. -/
def selBytes (f : Nat) : Option Nat :=
  match f with
  | 0x01 => some 4
  | 0x02 => some 2
  | 0x10 => some 4
  | 0x12 => some 4
  | _ => none
/-- The unsigned key of an element of `n` bits. -/
def selKey (f n x : Nat) : Nat :=
  match f with
  | 0x12 => x
  | 0x10 => x ^^^ 0x80000000
  | _ => if 2 ^ (n - 1) ≤ x then x ^^^ (2 ^ n - 1) else x ^^^ 2 ^ (n - 1)

/-- The indices of the `k` greatest keys, ties in ascending index, then all ones. -/
def selTop (keys : List Nat) (k : Nat) : List Nat :=
  let es := (keys.zip (List.range keys.length)).mergeSort fun a b => b.1 < a.1 || (a.1 = b.1 && a.2 ≤ b.2)
  let top := (es.map Prod.snd).take k
  top ++ List.replicate (k - top.length) (2 ^ 32 - 1)

/-- Write the indices, four bytes each. -/
def selWrite (c : Cmd) (scr : Bool) (out : W64) (is : List Nat) (u : Work) : Work :=
  match is with
  | [] => u
  | i :: r =>
    if u.stop.isSome then u
    else
      let t := engRun u.s c scr (out + BitVec.ofNat 64 (4 * u.done)) 4 .write
      match t.2 with
      | some e => { u with stop := some e }
      | none => selWrite c scr out r ⟨engWrite u.s t.1 (leBytes 4 i), u.done + 1, none, u.wr ++ placeSectors t.1⟩

def selDesc (c : Cmd) (d : BitVec 512) (s : State) : Work :=
  let bad (k : Nat) : Work := ⟨s, 0, some (.err k), []⟩
  let n := fld d 128 32
  let k := fld d 160 16
  match selBytes (fld d 192 5) with
  | none => bad 0x01
  | some wd =>
    if fld d 387 125 ≠ 0 || fld d 197 123 ≠ 0 || fld d 176 16 ≠ 0 || k = 0 || 4096 < k || n = 0 || 2 ^ 31 < n then bad 0x01
    else if fld d 0 64 % wd ≠ 0 || fld d 64 64 % 4 ≠ 0 then bad 0x04
    else match engRead s c (d.getLsbD 384) (fldA d 0) (n * wd) with
      | (_, some e) => ⟨s, 0, some e, []⟩
      | (v, none) =>
        let keys := (List.range n).map fun i => selKey (fld d 192 5) (8 * wd) (v / 2 ^ (8 * wd * i) % 2 ^ (8 * wd))
        selWrite c (d.getLsbD 385) (fldA d 64) (selTop keys k) ⟨s, 0, none, []⟩

/-! Completion -/

/-- Carry out the descriptors of a command in ascending order, each with its completion word; a wait stops the whole. -/
def runDescs (c : Cmd) (body : BitVec 512 → State → Work) (ds : List DescRead) (i : Nat) (s : State) :
    State × Option WaitAcc :=
  match ds with
  | [] => (s, none)
  | d :: r =>
    let da := c.sa + BitVec.ofNat 64 (64 * i)
    let fin (u : State) (compl : W64) (code prog : Nat) : State × Option WaitAcc :=
      match endDesc u c da compl code prog with
      | (_, some y) => (u, some y)
      | (v, none) => runDescs c body r (i + 1) v
    match d with
    | .bad k => fin s 0 k 0
    | .ok x =>
      let u := body x s
      match u.stop with
      | some (.wait y k) => (s, some (y, k))
      | some e => fin (noteStop (if c.mem then flushSectors u.s u.wr else u.s) c e) (fldA x 320) (stopCode e) u.done
      | none => fin (if c.mem then flushSectors u.s u.wr else u.s) (fldA x 320) 0 u.done

/-- A command with descriptors completes; if a page that it needs is not resident it waits and nothing is done yet. -/
def completeDescs (s : State) (c : Cmd) (body : BitVec 512 → State → Work) : State :=
  match runDescs c body c.descs 0 { s with ctr := s.ctr + 1 } with
  | (_, some y) => cmdWait s c y
  | (t, none) => endCmd t c

def execCopyCommandComplete (k : Nat) (s : State) : Out :=
  match findCmd s k .cpy with
  | none => .next s
  | some c => if cmdHeld s c 6 then .next s else .next (completeDescs s c (copyDesc s c))

def execSelectCommandComplete (k : Nat) (s : State) : Out :=
  match findCmd s k .rsel with
  | none => .next s
  | some c => if cmdHeld s c 6 then .next s else .next (completeDescs s c (selDesc c))

end Sys2Proof.Machine
end

