-- ==== Sys2Proof/Machine/Matrix.lean ====
section
/-! DEFINITION. Matrix mode and the tile instructions (spec/10 R257 to R276; spec/04 R111, R113, R114). -/

namespace Sys2Proof.Machine

/-! Claims (R257 to R263) -/

/-- A key of v or of cells lies in a claimed tile. -/
def inClaim (c : BitVec 8) (k : Nat) : Bool := c.getLsbD (k / 1024)
/-- Load the claimed registers into the cells, bit for bit (R258). -/
def claimTiles (W : Warp) (c : BitVec 8) : Warp :=
  { W with mode := true, mclaim := c, cells := W.v.filter fun e => inClaim c e.1 }
/-- The registers with every cell of the claimed tiles written back (R259). -/
def cellsBack (W : Warp) : Tab W32 :=
  W.cells.foldl (fun v e => tabSet 0 v e.1 e.2) (W.v.filter fun e => !inClaim W.mclaim e.1)
def releaseTiles (W : Warp) : Warp :=
  { W with v := cellsBack W, mode := false, mclaim := 0, cells := [] }

/-- Reasons of `mode.mx` (R200, R225, R355). -/
def modeMxReason (c : BitVec 8) (W : Warp) : Option Nat :=
  orElse (reasonIf ((List.range 8).any fun n => c.getLsbD n && W.nv < 32 * n + 32) 0x15)
    (reasonIf (c = 0 || W.mode || W.level ≠ 0 ||
      (W.w.any fun e => e.2.bound && c.getLsbD (e.2.reg.toNat / 32))) 0x1E)

def execModeMx (c : BitVec 8) (s : State) : Out :=
  issue s (modeMxReason c) [] fun w _ =>
    .next (advance (updW (landAll s w) w fun W => claimTiles W c) w 1)

def execModeVx (s : State) : Out :=
  issue s (fun W => reasonIf (W.level ≠ 0) 0x1E) [] fun w W =>
    if !W.mode then .next (advance (landAll s w) w 1)
    else if W.tile.isSome then .next s
    else .next (advance (updW (landAll s w) w releaseTiles) w 1)

/-! Operand maps (R265 to R268) -/

def mapBase (m : BitVec 256) : W64 := m.setWidth 64
def mapSbase (m : BitVec 256) : W64 := (m >>> 64).setWidth 64
def mapOstride (m : BitVec 256) : W64 := ((m >>> 128).setWidth 32 : W32).signExtend 64
def mapSstride (m : BitVec 256) : W64 := ((m >>> 160).setWidth 32 : W32).signExtend 64
def mapFmt (m : BitVec 256) : Nat := (m >>> 192).toNat % 32
def mapOuter (m : BitVec 256) : Bool := m.getLsbD 197
def mapLoc (m : BitVec 256) : Nat := (m >>> 198).toNat % 4
def mapScl (m : BitVec 256) : Bool := m.getLsbD 200
def mapPeer (m : BitVec 256) : Nat := (m >>> 216).toNat % 2 ^ 16
/-- The element width in bytes (R266). -/
def mapWidth (m : BitVec 256) : Nat := if mapFmt m = 2 then 2 else 1

/-- R271 cause 1; a peer that is a tree or sets a zero bit of R390 is malformed too. -/
def mapMalformed (m : BitVec 256) : Bool :=
  (m >>> 201).toNat % 2 ^ 15 ≠ 0 || (m >>> 232).toNat ≠ 0 || mapLoc m = 3 || !([2, 3, 4, 5, 7] : List Nat).contains (mapFmt m) ||
  (mapPeer m ≠ 0 && mapLoc m ≠ 2) || 2 ^ 10 ≤ mapPeer m
/-- R271 cause 3. -/
def mapAligned (m : BitVec 256) : Bool :=
  (mapBase m).toNat % mapWidth m = 0 && (mapOstride m).toNat % mapWidth m = 0 &&
  (!mapScl m || ((mapSbase m).toNat % 4 = 0 && (mapSstride m).toNat % 4 = 0))

/-- The formats of A and B and the products per step (R53, R113). -/
def pairOf (f : BitVec 5) : Nat × Nat × Nat :=
  match f.toNat with
  | 0 => (2, 2, 1)
  | 1 => (3, 3, 2)
  | 2 => (3, 4, 2)
  | 3 => (4, 3, 2)
  | 4 => (4, 4, 2)
  | 5 => (5, 5, 4)
  | 6 => (7, 3, 4)
  | _ => (7, 2, 2)

/-- Address of element (r, k) and whether it is the high nibble of its byte (R266). -/
def elemAddr (m : BitVec 256) (r k : Nat) : W64 × Bool :=
  let o (x : Nat) : W64 := BitVec.ofNat 64 x * mapOstride m
  if mapFmt m = 5 then
    if mapOuter m then (mapBase m + o k + BitVec.ofNat 64 (r / 2), r % 2 = 1)
    else (mapBase m + o r + BitVec.ofNat 64 (k / 2), k % 2 = 1)
  else if mapOuter m then (mapBase m + o k + BitVec.ofNat 64 (r * mapWidth m), false)
  else (mapBase m + o r + BitVec.ofNat 64 (k * mapWidth m), false)
def scaleAddr (m : BitVec 256) (r b : Nat) : W64 :=
  mapSbase m + BitVec.ofNat 64 r * mapSstride m + BitVec.ofNat 64 (4 * b)

/-- Exact decoding of an element (R99). -/
def elemVal (f v : Nat) (hi : Bool) : FVal :=
  match f with
  | 2 => decB16 (BitVec.ofNat 16 v)
  | 3 => decE4M3 (BitVec.ofNat 8 v)
  | 4 => decE5M2 (BitVec.ofNat 8 v)
  | 5 => decE2M1 (if hi then v / 16 else v % 16)
  | _ => decDs8 (BitVec.ofNat 8 v)

def execOmap (m : BitVec 3) (a b : BitVec 6) (s : State) : Out :=
  issue s (fun W => regReason W [] [a, b]) [] fun w W =>
    let x := (mGet W m.toNat >>> 128 <<< 128) ||| (sGet W a).setWidth 256 ||| ((sGet W b).setWidth 256 <<< 64)
    .next (advance (updW s w fun W => mSet W m.toNat x) w 1)

def execOmapld (m : BitVec 3) (a : BitVec 6) (s : State) : Out :=
  issue s (fun W => regReason W [] [a]) [] fun w W =>
    if allDemoted W then .next (advance s w 1)
    else onWarpAccess s w (sGet W a) 32 1 .read fun pa =>
      if dataBad s (some W.core) pa 32 then .next (warpReadError s w pa 32 1 (sGet W a))
      else
        let r := loadAt s (.l1 W.core) pa 32
        .next (advance (updW r.1 w fun W => mSet W m.toNat (BitVec.ofNat 256 r.2)) w 1)

/-! Masks and clearing (R269, R270) -/

def execMmsk (a b : BitVec 6) (s : State) : Out :=
  issue s (fun W => regReason W [] [a, b]) [] fun w W =>
    .next (advance (updW s w fun W' =>
      { W' with mrowm := (sGet W a).setWidth 32, mcolm := (sGet W b).setWidth 32 }) w 1)

/-- A tile lies beyond the allocated vector registers (R54). -/
def tileOut (W : Warp) (t : BitVec 3) : Bool := W.nv < 32 * t.toNat + 32

/-- What bars a tile form before it acts: the held-register causes 2 and 3 (R263), as a cause. -/
def tileCause (W : Warp) (t : BitVec 3) : Option Nat :=
  if !W.mode then some 2 else if !W.mclaim.getLsbD t.toNat then some 3 else none

/-- Write +0.0 to every cell of a tile. -/
def zeroTile (W : Warp) (t : Nat) : Warp := { W with cells := W.cells.filter fun e => e.1 / 1024 ≠ t }

def execMzero (t : BitVec 3) (s : State) : Out :=
  issue s (fun W => orElse (reasonIf (tileOut W t) 0x15) (reasonIf (W.level ≠ 0) 0x1E)) [] fun w W =>
    match tileCause W t with
    | some c => .next (faultAt s w 4 c 0 0 0)
    | none =>
      if W.tile.isSome then .next s
      else .next (advance (updW s w fun W => zeroTile W t.toNat) w 1)

/-! mma (R271 to R274) -/

/-- The operand-map fault's cause (R271). -/
def mapCause (f : BitVec 5) (a b : BitVec 256) (k : W64) : Option Nat :=
  if mapMalformed a || mapMalformed b then some 1
  else if mapFmt a ≠ (pairOf f).1 || mapFmt b ≠ (pairOf f).2.1 then some 2
  else if !mapAligned a || !mapAligned b then some 3
  else if 2 ^ 20 < k.toNat then some 4
  else none

/-- The operation that an accepted `mma` leaves pending (R272). -/
def newTile (s : State) (W : Warp) (c m n : BitVec 3) (k : Nat) (f : BitVec 5) (ev : Option (BitVec 3)) : TileOp where
  acc := c
  fmt := f
  k := k
  mapA := mGet W m.toNat
  mapB := mGet W n.toNat
  rowm := W.mrowm
  colm := W.mcolm
  tok := ev
  next := 0
  steps := 0
  order := s.tileNo
  halt := false
  stopped := false
  fault := none
  verdicts := []

def execMma (c m n : BitVec 3) (k : BitVec 6) (f : BitVec 5) (l : BitVec 4) (ev : Option (BitVec 3)) (s : State) : Out :=
  issue s (fun W => orElse (reasonIf (tileOut W c) 0x15) (orElse (regReason W [] [k]) (reasonIf (W.level ≠ 0) 0x1E))) []
      fun w W =>
    match tileCause W c with
    | some x => .next (faultAt s w 4 x 0 0 0)
    | none =>
      -- the look field imposes no stall (R272)
      let _ := l
      if W.tile.isSome || evFull W ev then .next s
      else match mapCause f (mGet W m.toNat) (mGet W n.toNat) (sGet W k) with
        | some x => .next (faultAt s w 0x0C x 0 0 0)
        | none =>
          let K := (sGet W k).toNat
          if K = 0 then .next (advance s w (1 + one ev))
          else
            let t := newTile s W c m n K f ev
            .next (advance { updW s w fun W => { arm W ev false with tile := some t } with tileNo := s.tileNo + 1 } w
              (1 + one ev))

/-! The tile sequencer (R272 to R276) -/

/-- The partition of a warp (R155). -/
def partOf (W : Warp) : Nat := 4 * W.core + W.wid % 4

/-- What stops an operand fetch: a code of R248 with the address, a wait for a page, or for another device's answer. -/
inductive TileStop where
  | fail (code : Nat) (a : W64) | wait (why : WaitWhy) | far
  deriving DecidableEq, Repr

/-- Fetch `n` bytes of an operand (R265, R273). -/
def tileFetch (s : State) (w : Nat) (t : TileOp) (m : BitVec 256) (a : W64) (n : Nat) :
    State × Nat × Option TileStop :=
  let W := getW s w
  let job := warpJob s W
  let id := pkId (warpPkt s W)
  let core := some W.core
  let glob : State × Nat × Option TileStop :=
    match engGlobal s job a .read t.verdicts with
    | .pa pa =>
      if dataBad s core pa n then (consumed s core pa n 2 job id, 0, some (.fail 0x08 a))
      else let r := loadAt s (.l1 W.core) pa n; (r.1, r.2, none)
    | .scr _ _ => (s, 0, none)
    | .err k => (s, 0, some (.fail k a))
    | .dead q => (consumed s none q 8 2 job id, 0, some (.fail 0x08 a))
    | .mal b => (reportBad s job (some b) .read (.tile w), 0, some (.fail 0x02 a))
    | .wait y => (s, 0, some (.wait y))
  match mapLoc m with
  | 0 =>
    match scrPlace s W a with
    | some (g, o) =>
      if (scrBad s g o n).isSome then (scrConsumed s g o n W.core 2 job id, 0, some (.fail 0x08 a))
      else (s, scrRead s g o n, none)
    | none => (s, 0, some (.fail 0x06 a))
  | 1 => glob
  | _ =>
    let p := mapPeer m
    if !peerOk s (BitVec.ofNat 64 p) false then (s, 0, some (.fail 0x09 a))
    else
      -- a request to this device loops back and arrives like any other (R390, R391), after the warp's own stores (R125)
      let own := if p % 1024 = devId s && canonical a then peekPa s job a else none
      match own.map fun pa => dirtyLines s W.core (pa / 128) with
      | some (l :: _) => (s, 0, some (.wait (.line l)))
      | _ =>
      let s := match own with
        | some pa => l1Clean s W.core (pa / 128)
        | none => s
      match farRead s (.tile w) job (p % 1024) 9 a n 0 true with
      | (u, .data bs) => (u, leNat (bs.take n), none)
      | (u, .fail code) => (u, 0, some (.fail code a))
      | (u, .wait) => (u, 0, some .far)

/-- What a fetch of one line of a block has given: the elements and the scale, or what stopped it. -/
structure Line where
  s     : State
  vals  : List FVal
  scale : W32
  stop  : Option TileStop

/-- One element of a line; indices at K or beyond are zero and make no access (R272). -/
def lineElem (w : Nat) (t : TileOp) (m : BitVec 256) (r k : Nat) (x : Line) : Line :=
  if x.stop.isSome then x
  else if t.k ≤ k then { x with vals := x.vals ++ [.fin false 0 0] }
  else
    let a := elemAddr m r k
    let g := tileFetch x.s w t m a.1 (mapWidth m)
    { x with s := g.1, vals := x.vals ++ [elemVal (mapFmt m) g.2.1 a.2], stop := g.2.2 }

/-- Line `r` of an operand in block `b`: its 32 elements, then its scale, 1.0 where there is none (R111). Of several fetches that
fail the first in this order is reported: lines ascending, in a line its elements in ascending k, then its scale (DESIGN CHOICE,
log 38: R276 gives no order). -/
def lineOf (s : State) (w : Nat) (t : TileOp) (m : BitVec 256) (b r : Nat) : Line :=
  let x := (List.range 32).foldl (fun y i => lineElem w t m r (32 * b + i) y) ⟨s, [], 0x3F800000, none⟩
  if x.stop.isSome || !mapScl m then x
  else
    let g := tileFetch x.s w t m (scaleAddr m r b) 4
    { x with s := g.1, scale := BitVec.ofNat 32 g.2.1, stop := g.2.2 }

/-- The lines of an operand in a block, but for the excluded ones (R269): index, elements, scale. -/
structure Lines where
  s    : State
  ls   : List (Nat × List FVal × W32)
  stop : Option TileStop

def linesOf (s : State) (w : Nat) (t : TileOp) (m : BitVec 256) (mask : W32) (b : Nat) : Lines :=
  (List.range 32).foldl (fun x r =>
    if x.stop.isSome || mask.getLsbD r then x
    else
      let y := lineOf x.s w t m b r
      ⟨y.s, x.ls ++ [(r, y.vals, y.scale)], y.stop⟩) ⟨s, [], none⟩

/-- The exact sum of a step's products: products of infinities with both signs are invalid even beside a NaN (R114). -/
def stepSum (ps : List (FVal × Bool)) : FVal × Bool :=
  let r : FVal × Bool := match ps with
    | [] => (.fin false 0 0, false)
    | p :: r => r.foldl (fun a p => let q := fAdd .rne a.1 p.1; (q.1, a.2 || p.2 || q.2)) p
  let both := (ps.any fun p => decide (p.1 = .inf false)) && ps.any fun p => decide (p.1 = .inf true)
  (r.1, r.2 || both)

/-- The products of one step. -/
def stepProducts (xs ys : List FVal) (i p : Nat) : List (FVal × Bool) :=
  (List.range p).map fun j => fMul (xs.getD (i + j) (.fin false 0 0)) (ys.getD (i + j) (.fin false 0 0))

/-- The sum p of a block over its steps, rounded at each (R113). -/
def blockSum (xs ys : List FVal) (n p : Nat) : W32 × Flags :=
  (List.range ((n + p - 1) / p)).foldl (fun a i =>
    let q := stepSum (stepProducts xs ys (p * i) p)
    let r := fin32 ((fAdd .rne (dec32 a.1) q.1).1, q.2 || (fAdd .rne (dec32 a.1) q.1).2)
    (r.1, a.2 ||| r.2)) (0, 0)

/-- One cell over one block (R113). -/
def cellBlock (acc : W32) (xs ys : List FVal) (sa sb : W32) (n p : Nat) : W32 × Flags :=
  let q := blockSum xs ys n p
  let sab := mul32 sa sb
  let t := mul32 q.1 sab.1
  let r := add32 acc t.1
  (r.1, q.2 ||| sab.2 ||| t.2 ||| r.2)

/-- Apply a fetched block to every cell that neither mask excludes, and OR its flags into FPST (R113, R114). -/
def applyBlock (W : Warp) (t : TileOp) (as bs : List (Nat × List FVal × W32)) : Warp :=
  let p := (pairOf t.fmt).2.2
  let n := min 32 (t.k - t.next)
  as.foldl (fun W a => bs.foldl (fun W b =>
    let key := 1024 * t.acc.toNat + 32 * a.1 + b.1
    let r := cellBlock (tabGet 0 W.cells key) a.2.1 b.2.1 a.2.2 b.2.2 n p
    orFlags { W with cells := tabSet 0 W.cells key r.1 } r.2) W) W

/-- Steps of the block in work (R113, R272). -/
def blockSteps (t : TileOp) : Nat := (min 32 (t.k - t.next) + (pairOf t.fmt).2.2 - 1) / (pairOf t.fmt).2.2

/-- An operation whose fetch has failed: the failure stands until the warp takes it (R276). An operation that a handler's
entry stops is stopped before its block, and meets the failure again when it resumes. -/
def failTile (t : TileOp) (k : Nat) (a : W64) : TileOp :=
  if t.halt then { t with steps := 0, halt := false, stopped := true }
  else { t with steps := 0, fault := some (BitVec.ofNat 8 k, a) }

/-- Apply the block in work, block `next`/32 (R275); the index stands at a multiple of 32 unless an edit of a save image has changed
it, which R370 promises no result (DESIGN CHOICE, log 88: the model then covers min 32 (K − next) indices and goes on at next + 32).
A wait holds the sequencer, and an operation that is to stop stops behind it (R274 to R276). -/
def runBlock (s : State) (w : Nat) (t : TileOp) : State :=
  let W := getW s w
  let b := t.next / 32
  let stop (u : State) (e : TileStop) : State :=
    match e with
    | .wait y => waitOn u (warpJob u W) y .read (.tile w)
    | .far => u
    | .fail k a => updW (dropFar u (.tile w)) w fun W => { W with tile := some (failTile t k a) }
  let x := linesOf s w t t.mapA t.rowm b
  match x.stop with
  | some e => stop x.s e
  | none =>
    let y := linesOf x.s w t t.mapB t.colm b
    match y.stop with
    | some e => stop y.s e
    | none =>
      let t' := { t with next := t.next + 32, steps := 0, halt := false, stopped := t.halt, verdicts := [] }
      let s1 := updW (dropFar y.s (.tile w)) w fun W => { applyBlock W t x.ls y.ls with tile := some t' }
      if t.k ≤ t'.next then endTile s1 w t' else s1

/-- Enter the handler with a failed fetch of the operation (R276). -/
def tileFault (s : State) (w : Nat) (t : TileOp) (code : BitVec 8) (a : W64) : State :=
  let s1 := updW s w fun W => { W with tile := some { t with fault := none, verdicts := [] } }
  let W := getW s1 w
  takeTrap s1 w ⟨0x0D, code.toNat, 0, 0, W.exm, a, W.pc, W.word, W.started⟩ false

/-- Whether a warp that waits for a failed operation may enter its handler: not while it waits for a barrier (R276). -/
def mayEnter (W : Warp) : Bool :=
  match W.stat with
  | .running | .waitTok _ | .waitCp _ | .waitTile => true
  | .waitBar _ | .waitPost | .retired | .killed | .saved => false

end Sys2Proof.Machine
end

