-- ==== Sys2Proof/Machine/Sched.lean ====
section
/-! DEFINITION. The issue scheduler of a partition (spec/17 R348, R349) and its datapath's configuration (spec/10 R264). -/

namespace Sys2Proof.Machine

/-! What holds a word at issue -/

/-- The token that an instruction arms (R39). -/
def tokOf : Instr → Option (BitVec 3)
  | .ld _ _ _ _ x | .st _ _ _ _ x | .lds _ _ _ _ x | .sts _ _ _ _ x | .ldm _ _ _ _ x | .stm _ _ _ _ x
  | .atom _ _ _ _ x | .red _ _ _ _ x => x.ev
  | .stmQuantise _ _ _ x | .clean _ _ _ x | .inval _ _ _ x | .pref _ _ _ x => x.ev
  | .fence x => x.ev
  | .cpy _ _ _ _ x | .rput _ _ _ _ x | .rputSig _ _ _ _ x | .rget _ _ _ _ x | .radd _ _ _ _ x | .rsig _ _ _ _ x
  | .skfold _ _ _ _ x | .tmerge _ _ _ _ x | .spawn _ _ _ _ x => x.ev
  | .rsel _ _ _ x | .skcfg _ _ _ x | .skmerge _ _ _ x => x.ev
  | .bqpost _ _ _ _ _ x => x.ev
  | .mma _ _ _ _ _ _ ev => ev
  | _ => none

/-- Stores, atomics, engine commands, fences and barriers, which a tile operation's fetches hold back (R175, R273). -/
def afterTile : Instr → Bool
  | .st _ _ _ _ _ | .sts _ _ _ _ _ | .stm _ _ _ _ _ | .stmQuantise _ _ _ _ | .atom _ _ _ _ _ | .red _ _ _ _ _
  | .sst _ _ _ _ _ | .fence _ | .cpy _ _ _ _ _ | .rsel _ _ _ _ | .rput _ _ _ _ _ | .rputSig _ _ _ _ _
  | .rget _ _ _ _ _ | .radd _ _ _ _ _ | .rsig _ _ _ _ _ | .skcfg _ _ _ _ | .skfold _ _ _ _ _ | .skmerge _ _ _ _
  | .tmerge _ _ _ _ _ | .spawn _ _ _ _ _ | .bqpost _ _ _ _ _ _ | .bar _ | .barv _ _ => true
  | _ => false

/-- What else holds an instruction. -/
def holds (s : State) (w : Nat) (W : Warp) (i : Instr) : Bool :=
  match i with
  | .clauseStart _ _ m _ _ _ => !resumes W && !joinReady s w m
  | .waitEnd _ => match W.stat with
    | .waitTok m => !joinReady s w m
    | _ => false
  | .cpwaitEnd _ => match W.stat with
    | .waitCp n => !cpwaitReady s w n
    | _ => false
  | .fenceComplete _ => match W.fence with
    | some f => !fenceReady s w f
    | none => false
  -- in a handler these raise reason 0x1E at once (R355)
  | .modeVx => W.level = 0 && W.mode && W.tile.isSome
  | .mma _ _ _ _ _ _ _ => W.level = 0 && W.tile.isSome
  | .mzero _ => W.level = 0 && W.tile.isSome
  | .cpy _ _ _ _ _ => 8 ≤ W.closed.length
  | .rsel _ _ _ _ => 8 ≤ W.closed.length
  | .rdsys _ n => fpstBusy W n.toNat
  | .wrsys _ n => fpstBusy W n.toNat
  | _ => false

/-! Stop points of pre-emption (R358) -/

/-- A `spawn` of the warp whose acceptance value its register still waits for: the warp issues nothing more until the
value is written (R51, R202; log 18). -/
def awaitsValue (s : State) (w : Nat) : Bool := s.cmds.any fun c => c.warp = w && c.dest.isSome

/-- A warp stands where pre-emption takes effect; one that waits on a fault record does not (R380). -/
def atStop (s : State) (w : Nat) (W : Warp) : Bool :=
  W.fence.isNone && !awaitsValue s w && !waitsRecord s (.warp w) && !waitsRecord s (.eng w) && !waitsRecord s (.tile w) &&
  atPoint W

/-- A warp's gang lets it issue: it runs, or it is being stopped and the warp is not yet where it stops, or only completes its
fence there (R342, R360). -/
def gangRuns (s : State) (W : Warp) : Bool :=
  match (getGang s W.gang).stat with
  | .running => true
  | .stopping _ => !atPoint W || W.fence.isSome
  | .held | .saved _ | .released => false

/-- A failed operand fetch stands for a warp that may take it (R276). -/
def tileFailed (W : Warp) : Bool :=
  match W.tile with
  | some t => t.fault.isSome
  | none => false

/-- A warp that may issue, apart from what holds its next word; a handler waits for the block that its entry stops (R354). A warp
that waits for a barrier or has exited still completes its fence (R132, R360). -/
def mayIssue (s : State) (w : Nat) (W : Warp) : Bool :=
  gangRuns s W && !waitsRecord s (.warp w) && !waitsRecord s (.eng w) && !awaitsValue s w && !halting W &&
  match W.stat with
  | .running | .waitTok _ | .waitCp _ => true
  | .waitTile => tileFailed W || W.fence.isSome
  | .waitBar _ | .waitPost | .retired => W.fence.isSome
  | .killed | .saved => false

/-- Ready but for the datapath's configuration: the warps of a partition whose next instruction nothing holds (R348). What holds a
word at issue (a full token, R39; eight closed batches, R251; a pending tile operation, R273) holds it before the late checks of
R85 raise their fault (DESIGN CHOICE, log 88: R86 gives no order of the two). -/
def readyIn (s : State) (part : Nat) : List (Nat × Instr) :=
  (List.range s.warps.length).filterMap fun w =>
    let W := getW s w
    if partOf W = part && mayIssue s w W then
      let i := nextOf s w
      if tileFailed W then some (w, i)
      else if evFull W (tokOf i) || (afterTile i && tileBusy W) || holds s w W i then none
      else some (w, i)
    else none

/-! The tile sequencer's turn and the datapath (R264, R273, R275) -/

/-- An operation that has not started a block and whose warp stands where its gang is being stopped: it stops at once
(R275, R360). -/
def preStopped (s : State) (W : Warp) (t : TileOp) : Bool :=
  t.steps = 0 && stopsHere s W

/-- No operation accepted earlier runs on the partition (R273). -/
def tileTurn (s : State) (W : Warp) (t : TileOp) : Bool :=
  (List.range s.warps.length).all fun v =>
    let V := getW s v
    match V.tile with
    | some u => partOf V ≠ partOf W || u.stopped || u.fault.isSome || preStopped s V u || t.order ≤ u.order
    | none => true

/-- The next step of an operation is ready. -/
def tileRuns (s : State) (w : Nat) (W : Warp) (t : TileOp) : Bool :=
  !t.stopped && t.fault.isNone && W.stat ≠ .saved && !waitsRecord s (.tile w) && !farWaits s (.tile w) && !preStopped s W t && tileTurn s W t

/-- A step of the grid is ready on a partition. -/
def stepReady (s : State) (part : Nat) : Bool :=
  (List.range s.warps.length).any fun w =>
    let W := getW s w
    partOf W = part && match W.tile with
      | some t => tileRuns s w W t
      | none => false
/-- A vector-port instruction is ready on a partition. -/
def vectorReady (s : State) (part : Nat) : Bool := (readyIn s part).any fun r => isVectorPort r.2

def Datapath.blank : Datapath := ⟨.idle, 0, 0, 0⟩
/-- The bubble of a change lasts 2 cycles. -/
def inBubble (s : State) (d : Datapath) : Bool := 0 < (d.ready - s.clock).toNat && (d.ready - s.clock).toNat ≤ 2
/-- A partition's datapath: idle when it has run nothing in the 2 cycles before this one. -/
def dpAt (s : State) (part : Nat) : Datapath :=
  let d := tabGet Datapath.blank s.grids part
  if !inBubble s d && 3 ≤ (s.clock - d.last).toNat && 2 ≤ (s.clock - d.ready).toNat then { d with conf := .idle, run := 0 } else d
/-- Whether the datapath takes work of one kind now: it is in that configuration or idle, in no bubble, and has run fewer
than 16 pieces since work of the other kind became ready. -/
def dpLets (s : State) (part : Nat) (c : GridConf) (other : Bool) : Bool :=
  let d := dpAt s part
  !inBubble s d && (d.conf = .idle || d.conf = c) && !(other && 16 ≤ d.run)
/-- The datapath has run one piece of work of a kind. -/
def dpRan (s : State) (part : Nat) (c : GridConf) (other : Bool) : State :=
  let d := dpAt s part
  let d' : Datapath := { d with conf := c, run := if other then d.run + 1 else 0, last := s.clock }
  { s with grids := tabSet Datapath.blank s.grids part d' }

/-- The operation in work on the grid has ended, so that no step follows while work of the other kind is ready (R264). -/
def dpEnded (s : State) (part : Nat) : State :=
  { s with grids := tabSet Datapath.blank s.grids part { tabGet Datapath.blank s.grids part with run := 16 } }

/-- Whether the datapath lets an instruction issue. -/
def datapathLets (s : State) (part : Nat) (i : Instr) : Bool :=
  !isVectorPort i || dpLets s part .vector (stepReady s part)

/-- One step of the sequencer for a warp's operation; the last step of a block applies it (R113, R274). -/
def tileStep (s : State) (w : Nat) (t : TileOp) : State :=
  if t.steps + 1 < blockSteps t then updW s w fun W => { W with tile := some { t with steps := t.steps + 1 } }
  else runBlock s w t

/-- No operation of a warp is in work: it has completed, or it is stopped or has failed. -/
def tileOver (W : Warp) : Bool :=
  match W.tile with
  | none => true
  | some t => t.stopped || t.fault.isSome

/-- The sequencer runs the next step of a warp's operation, or the warp takes a failed fetch. A gang that is being stopped
enters no handler from where it stops (R359), while a fence of it completes there too. -/
def execMmaBlockApply (w : Nat) (s : State) : Out :=
  let W := getW s w
  match W.tile with
  | none => .next s
  | some t =>
    match t.fault with
    | some (code, a) => if mayEnter W && gangRuns s W && !stopsHere s W then .next (tileFault s w t code a) else .next s
    | none =>
      let part := partOf W
      let vec := vectorReady s part
      if tileRuns s w W t && dpLets s part .grid vec then
        let s1 := tileStep (dpRan s part .grid vec) w t
        .next (if vec && tileOver (getW s1 w) then dpEnded s1 part else s1)
      else .next s

/-- Warp `a` goes before warp `b` (R348). -/
def before (a b : Warp) : Bool :=
  let ka := if 192 ≤ a.waits then a.waits else a.waits + 16 * a.lag
  let kb := if 192 ≤ b.waits then b.waits else b.waits + 16 * b.lag
  let oa := decide (192 ≤ a.waits)
  let ob := decide (192 ≤ b.waits)
  if oa ≠ ob then oa else if ka ≠ kb then kb < ka else a.slot < b.slot

/-- The choice of R348 among ready warps. -/
def pick (s : State) (l : List Nat) : Option Nat :=
  l.foldl (fun b w => match b with
    | none => some w
    | some c => if before (getW s w) (getW s c) then some w else some c) none

/-! Tether mode (spec/23 R423) -/

/-- The vector register that a vector word writes (R44 to R47). -/
def vectorDest (i : Instr) : Option Nat :=
  if isVectorPort i then
    let x := (encodeWord i).toNat
    let op := x / 2 ^ 26
    if op = 0x19 || op = 0x23 || op = 0x25 then none else some (x / 2 ^ 18 % 256)
  else none
/-- A vector word that stores through a stream (R225). -/
def storesStream (W : Warp) (i : Instr) : Bool :=
  W.w.any fun e => e.2.bound && decide (vectorDest i = some e.2.reg.toNat)
/-- Whether an instruction releases an operation that the shadow must have produced too: stores, those of streams among them,
atomics, commands, and loads in a sketch window. -/
def releases (s : State) (W : Warp) (i : Instr) : Bool :=
  match i with
  | .fence _ | .bar _ | .barv _ _ => false
  | .ld _ o b _ x => (lanesOf (performing W)).any fun k => inWindow s (warpJob s W) (laneAddr W b o (offM x) 0 k)
  | _ => afterTile i || storesStream W i
/-- The leading warp and its shadow differ: the operation is not performed and the launch is killed with code 0x08. -/
def tetherKill (s : State) (w : Nat) : State :=
  let W := getW s w
  let loc := W.warpId.toNat + 32 * W.groupId.toNat
  endLaunch (errRecord s 6 3 (dieOf W.core) (warpJob s W) (pkId (warpPkt s W)) loc 0) W.launch 4 8

/-- The lanes of a warp in whose registers an uncorrectable error stands, as a word that reads them meets it (R417). -/
def regBad (s : State) (w : Nat) : Option Upset :=
  s.upsets.find? fun u => match u with
    | .reg v m => v = w && m &&& (getW s w).exm ≠ 0
    | _ => false
/-- The lanes that meet the error die before the word issues; the others go on (R164, R357, R417). -/
def loseRegs (s : State) (w : Nat) (u : Upset) : State :=
  let W := getW s w
  let m := match u with
    | .reg _ m => m &&& W.exm
    | _ => 0
  let s1 := sramError s u W.core 1 (warpJob s W) (pkId (warpPkt s W)) 0
  -- in the lanes outside EXM, which did not meet it, the error stands (R417)
  let rest := match u with
    | .reg v n => if n &&& ~~~ m = 0 then [] else [Upset.reg v (n &&& ~~~ m)]
    | _ => []
  unwindIfEmpty (killLanes { s1 with upsets := s1.upsets ++ rest } w m 0 W.pc W.word) w

/-- One cycle of a partition: the warp chosen issues next, and every other ready warp waits one cycle more. -/
def execSchedulerCycle (part : Nat) (s0 : State) : Out :=
  let s := endSwap s0
  let rs := readyIn s part
  let ok := (rs.filter fun r => datapathLets s part r.2)
  let s1 := rs.foldl (fun t r => updW t r.1 fun W => { W with waits := W.waits + 1 }) { s with
    turn := (part + 1) % 4096 }
  match pick s (ok.map Prod.fst) with
  | none => .next s1
  | some w =>
    if pkTether (warpPkt s (getW s w)) && Config.shadowDiffers s.ctr &&
        ok.any (fun r => r.1 = w && releases s (getW s w) r.2) then .next (tetherKill s1 w)
    else
      let vec := ok.any fun r => r.1 = w && isVectorPort r.2
      match (if ok.any fun r => r.1 = w && readsVector r.2 then regBad s w else none) with
      | some u => .next (loseRegs s1 w u)
      | none =>
        let s2 := if vec then dpRan s1 part .vector (stepReady s part) else s1
        .next { updW s2 w fun W => { W with waits := 0 } with cur := some w }

/-- The datapath changes when work of the other kind is ready, with a bubble of 2 cycles (R264). -/
def execDatapathConfigurationChange (part : Nat) (s : State) : Out :=
  let d := dpAt s part
  let change (c : GridConf) : Out :=
    .next { s with grids := tabSet Datapath.blank s.grids part ⟨c, 0, d.last, s.clock + 2⟩ }
  if inBubble s d then .next s
  else match d.conf with
    | .idle => .next s
    | .vector => if stepReady s part then change .grid else .next s
    | .grid => if vectorReady s part then change .vector else .next s

end Sys2Proof.Machine
end

