-- ==== Sys2Proof/Machine/LaunchOps.lean ====
section
/-! DEFINITION. What the launch engine's steps share (spec/17 R330 to R347): queue descriptors, packets and their checks, room on
cores, and the placement of a gang. -/

namespace Sys2Proof.Machine

/-- An access to the driver's tables at a PA that spec/20 R371 says does not exist stops the machine. -/
def withPa (pa n : Nat) (k : Out) : Out :=
  if paExists pa && paExists (pa + (n - 1)) then k else .fault (.noSuchAddress pa)

/-- A read of the tables at `pa` waits for a refresh of its bank that comes first (spec/22 R413; log 87). -/
def withRow (s : State) (pa n : Nat) (k : Out) : Out := if runDue s pa n then .next s else k
/-- The same of what the step writes there: lines that the host may cache are asked for first (spec/21 R388). -/
def withPaLines (s : State) (pa n : Nat) (k : Out) : Out := withPa pa n (withLines s (heldLines s pa n) k)

/-! Queues (R333) -/

def qAt (s : State) (q : Nat) : Nat := (barGet s 0x10000).toNat + 64 * q
def qDesc (s : State) (q : Nat) : Nat := tblRead s (qAt s q) 64
def qf (d lo n : Nat) : Nat := d / 2 ^ lo % 2 ^ n
def qRing (d : Nat) : Nat := qf d 0 64
def qLen (d : Nat) : Nat := 2 ^ qf d 128 4
def qWrite (d : Nat) : Nat := qf d 64 32
def qRead (d : Nat) : Nat := qf d 96 32
def qJob (d : Nat) : Nat := qf d 144 8
def qPrio (d : Nat) : Nat := qf d 132 3
def qOn (d : Nat) : Bool := qf d 135 1 = 1
def qSpawn (d : Nat) : Bool := qf d 136 1 = 1
/-- Packets held, modulo 2^32. -/
def qHeld (d : Nat) : Nat := (qWrite d + 2 ^ 32 - qRead d) % 2 ^ 32
def qSlot (d i : Nat) : Nat := qRing d + 128 * (i % qLen d)
/-- The descriptor breaks its layout, or its job is not valid. -/
def qBad (s : State) (d : Nat) : Bool :=
  qf d 137 7 ≠ 0 || qf d 152 360 ≠ 0 || qf d 128 4 < 4 || qRing d % 4096 ≠ 0 || !jobValid s (qJob d)
def qPut (s : State) (q lo v : Nat) : State := tblStore s (qAt s q + lo) 4 v
/-- Clear enable: bit 135 of the descriptor. -/
def qDisable (s : State) (q : Nat) : State :=
  let b := l2Byte s (qAt s q + 16)
  tblStore s (qAt s q + 16) 1 (b &&& 0x7F).toNat

/-! Packets (R335) -/

def pkGraph (p : BitVec 1024) : Nat := pktField p 896 32
def pkPreempt (p : BitVec 1024) : Bool := p.getLsbD 892
def pkDep (p : BitVec 1024) (i : Nat) : W64 × Nat :=
  (BitVec.ofNat 64 (pktField p (448 + 128 * i) 64), pktField p (512 + 128 * i) 64)
def pkGcount (p : BitVec 1024) : W64 := BitVec.ofNat 64 (pktField p 384 64)
def pkLcount (p : BitVec 1024) : W64 := BitVec.ofNat 64 (pktField p 320 64)
def pkStatus (p : BitVec 1024) : W64 := BitVec.ofNat 64 (pktField p 256 64)
def pkParams (p : BitVec 1024) : W64 := BitVec.ofNat 64 (pktField p 128 64)
def pkData (p : BitVec 1024) : W64 := BitVec.ofNat 64 (pktField p 64 64)
def pkPwords (p : BitVec 1024) : Nat := pktField p 848 10

/-- A nonzero `rsv` (R335). -/
def pkRsv (p : BitVec 1024) : Bool := pktField p 928 96 ≠ 0 || pktField p 893 3 ≠ 0 || pktField p 858 6 ≠ 0
def pktMalformed (p : BitVec 1024) : Bool :=
  pkRsv p || 512 < pkPwords p || 1792 < pktField p 864 11 ||
  pkGangs p = 0 || (pkStatus p).toNat % 16 ≠ 0 || pkFaultLog p % 64 ≠ 0 || (pkParams p).toNat % 8 ≠ 0 ||
  (pkEntry p).toNat % 4 ≠ 0 || (pkParams p = 0 && pkPwords p ≠ 0) ||
  !([pkEntry p, pkData p, pkParams p, BitVec.ofNat 64 (pkFaultLog p), pkStatus p, pkLcount p, pkGcount p,
    (pkDep p 0).1, (pkDep p 1).1].all canonical)

/-- The state of one dependence (R338): whether it is met, what page must be served first, or that the counter at a PA is
uncorrectable (R417). -/
inductive DepRes where
  | met | unmet | wait (why : WaitWhy) | dead (pa : Nat)
  deriving DecidableEq, Repr
def depState (s : State) (a : LaunchAcc) (job : Nat) (d : W64 × Nat) : DepRes :=
  if d.1 = 0 || !canonical d.1 then .met
  else match translate s job d.1 .read (lvs s a) with
    | .ok pa => match badIn s pa 8 with
      | some q => .dead q
      | none => if d.2 ≤ l2Read s pa 8 then .met else .unmet
    | .wait y => .wait y
    | .window _ => .met
    | .fault _ _ => .met
    | .dead _ => .met
def depsState (s : State) (a : LaunchAcc) (job : Nat) (p : BitVec 1024) : DepRes :=
  match depState s a job (pkDep p 0), depState s a job (pkDep p 1) with
  | .wait y, _ => .wait y
  | .dead q, _ => .dead q
  | .met, r => r
  | .unmet, .wait y => .wait y
  | .unmet, .dead q => .dead q
  | .unmet, .met => .unmet
  | .unmet, .unmet => .unmet

/-! Room on cores (R155, R331) -/

/-- A group occupies its core until its gang's last group is released: a gang's groups retire together (R3, R178). -/
def occupies (s : State) (G : Group) : Bool :=
  match (getGang s G.gang).stat with
    | .held | .running | .stopping _ => true
    | .saved _ | .released => false
def groupsOn (s : State) (core : Nat) : List Group := s.groups.filter fun G => G.core = core && occupies s G
/-- The split that a core offers to a group: a core without a group takes the new one (R331). -/
def splitOf (s : State) (core : Nat) : Nat :=
  if (groupsOn s core).isEmpty then (barGet s 0x10010).toNat % 8 else tabGet 7 s.splits core
def groupPkt (s : State) (G : Group) : BitVec 1024 := (getL s (getGang s G.gang).launch).packet

/-- Warps of a group of a packet on partition `i` of its core. A tethered warp has a shadow on its partition and counts twice
(spec/23 R423). -/
def warpsOnPart (p : BitVec 1024) (i : Nat) : Nat := (pkGroup p + 3 - i) / 4 * (if pkTether p then 2 else 1)
/-- One group fits an empty core with `k` 64 KiB steps of scratchpad (R336 check 2). -/
def fitsEmpty (p : BitVec 1024) (k : Nat) : Bool :=
  warpsOnPart p 0 ≤ 16 && warpsOnPart p 0 * pkVregs p ≤ 1024 && pkScratch p ≤ 65536 * k

/-- Slots in use on a partition: a warp keeps its slot, and its shadow's, until it retires or is saved (R348, R423). -/
def slotsUsed (s : State) (part : Nat) : List Nat :=
  (s.warps.filter fun W => partOf W = part && !warpGone W && W.stat ≠ .saved).flatMap fun W => W.slot :: W.shadowSlot.toList
/-- A warp takes the lowest free slots of its partition: one, and one for the shadow of a tethered warp (R348, R423). -/
def takeSlots (s : State) (part : Nat) (tether : Bool) (W : Warp) : Warp :=
  let free (no : List Nat) : Nat := (firstBelow 16 fun i => !no.contains i).getD 0
  let used := slotsUsed s part
  let a := free used
  { W with slot := a, shadowSlot := if tether then some (free (a :: used)) else none }

/-- `n` groups of a packet fit on a core now (R155). -/
def groupsFit (s : State) (p : BitVec 1024) (core n : Nat) : Bool :=
  let gs := groupsOn s core
  core < 1024 && s.admitted.getLsbD (core / 128) && (List.range 4).all (fun i =>
    (slotsUsed s (4 * core + i)).length + n * warpsOnPart p i ≤ 16 &&
    (gs.foldl (fun a G => let q := groupPkt s G; a + warpsOnPart q i * pkVregs q) 0)
      + n * warpsOnPart p i * pkVregs p ≤ 1024) &&
  (gs.foldl (fun a G => a + pkScratch (groupPkt s G)) 0) + n * pkScratch p ≤ 65536 * splitOf s core
def groupFits (s : State) (p : BitVec 1024) (core : Nat) : Bool := groupsFit s p core 1
/-- The number of groups of a packet that a core holds now: each takes a slot at least. -/
def roomFor (s : State) (p : BitVec 1024) (core : Nat) : Nat :=
  ((List.range 16).filter fun n => groupsFit s p core (n + 1)).length

/-- Distinct cores of one cluster of four, one for each group. -/
def gangFits (s : State) (p : BitVec 1024) (cores : List Nat) : Bool :=
  cores.length = pkGang p && cores.Nodup && cores.all (fun c => groupFits s p c) &&
  cores.all fun c => c / 4 = cores.headD 0 / 4
/-- Insert a core before the first that has no more room. -/
def insertRoom (s : State) (p : BitVec 1024) (c : Nat) (l : List Nat) : List Nat :=
  match l with
  | [] => [c]
  | d :: r => if roomFor s p d ≤ roomFor s p c then c :: d :: r else d :: insertRoom s p c r
/-- Cores of a cluster that hold a gang, those with the most room first: so a co-resident launch's gangs fit where they can
fit at all (R339). -/
def fitIn (s : State) (p : BitVec 1024) (cluster : Nat) : Option (List Nat) :=
  let cs := (((List.range 4).map (4 * cluster + ·)).filter fun c => groupFits s p c).foldr (insertRoom s p) []
  if pkGang p ≤ cs.length then some (cs.take (pkGang p)) else none
def fitAny (s : State) (p : BitVec 1024) : Option (List Nat) := (List.range 256).findSome? fun c => fitIn s p c

/-! Placement (R155, R157, R337, R342, R344) -/

/-- A warp before its first instruction. -/
def freshWarp (s : State) (l gang group wid core : Nat) : Warp :=
  let p := (getL s l).packet
  let W := { Warp.blank with
    launch := l, gang := gang, group := group, wid := wid, core := core, nv := pkVregs p, ns := pkSregs p
    gangId := BitVec.ofNat 32 (getGang s gang).gid, groupId := BitVec.ofNat 2 (getG s group).rank, warpId := BitVec.ofNat 5 wid
    pc := pkEntry p, entry := pkEntry p }
  takeSlots s (4 * core + wid % 4) (pkTether p) (sSet (sSet W 1 (pkParams p)) 2 (pkData p))

/-- The core takes the split in force for it; its L1 is written back and emptied, as by a fence of gang scope (R331, R344). The
datapaths of a core without a group are idle (R264). -/
def openCore (s : State) (core : Nat) : State :=
  l1Fence { s with
    splits := tabSet 7 s.splits core (splitOf s core)
    grids := if (groupsOn s core).isEmpty then s.grids.filter fun e => e.1 / 4 ≠ core else s.grids } core

def placeGroup (s : State) (l gang rank core : Nat) : State :=
  let g := s.groups.length
  let n := pkGroup (getL s l).packet
  let s1 := openCore s core
  let s2 := { s1 with groups := s1.groups ++ [⟨gang, rank, core, [], [], [], false⟩] }
  (List.range n).foldl (fun t i =>
    let w := t.warps.length
    let t1 := updG { t with warps := t.warps ++ [freshWarp t l gang g i core] } g fun G => { G with warps := G.warps ++ [w] }
    match t1.swap with
    | some x => if x.launch = l then { t1 with swap := some { x with warps := x.warps ++ [w] } } else t1
    | none => t1) s2

/-- Whether a gang that is placed now starts at once (R342). -/
def startStat (s : State) (p : BitVec 1024) : GangStat :=
  if pkRelease p ≤ s.time.toNat then .running else .held

/-- Place the next gang of a launch on cores on which it fits. -/
def placeGang (s : State) (l : Nat) (cores : List Nat) : State :=
  let L := getL s l
  let x := s.gangs.length
  let s1 := { s with gangs := s.gangs ++ [⟨l, L.nextGang, [], startStat s L.packet, [], []⟩] }
  let s2 := (cores.zip (List.range cores.length)).foldl (fun t c =>
    updGang (placeGroup t l x c.2 c.1) x fun G => { G with groups := G.groups ++ [t.groups.length] }) s1
  updL s2 l fun L => { L with
    nextGang := L.nextGang + 1, gangs := L.gangs ++ [x], waitFrom := some s.clock, starved := false }

/-! Who may be placed (R338, R339, R340) -/

/-- Saved gangs of a launch, which return to placement first (R340). -/
def savedGangs (s : State) (L : Launch) : List Nat :=
  L.gangs.filter fun g => match (getGang s g).stat with
    | .saved _ => true
    | .held | .running | .stopping _ | .released => false
/-- A launch that waits for the placement of a gang. -/
def wantsPlace (s : State) (L : Launch) : Bool :=
  !L.complete && L.endState = 0 && !L.hold && (L.nextGang < pkGangs L.packet || savedGangs s L ≠ [])
/-- A launch that holds back gangs of equal priority: it starves, or is co-resident (R338, R339). -/
def holdsBack (L : Launch) : Bool := L.starved || pkCores L.packet
/-- No launch that goes before holds back a gang of launch `l`. Of two that would hold each other back, the one taken first
goes first (DESIGN CHOICE, log 74). -/
def mayPlace (s : State) (l : Nat) : Bool :=
  let M := getL s l
  (List.range s.launches.length).all fun x =>
    let L := getL s x
    x = l || !wantsPlace s L || decide (L.prio < M.prio) ||
      (if holdsBack L then L.prio = M.prio && holdsBack M && decide (l < x)
       else L.prio = M.prio || (fitAny s L.packet).isNone)

/-- The admitted clusters and the gangs of a packet that each holds when empty; a co-resident launch must fit them
(R339). -/
def fitsModule (s : State) (p : BitVec 1024) : Bool :=
  let split := (barGet s 0x10010).toNat % 8
  -- groups of one kernel that one empty core holds
  let byRegs := if warpsOnPart p 0 = 0 then 0
    else min (16 / warpsOnPart p 0) (1024 / (warpsOnPart p 0 * pkVregs p))
  let perCore := if pkScratch p = 0 then byRegs else min byRegs (65536 * split / pkScratch p)
  let dies := ((List.range 8).filter fun d => s.admitted.getLsbD d).length
  -- four cores, each group of a gang on a distinct one
  let perCluster := 4 * perCore / pkGang p
  pkGangs p ≤ 32 * dies * perCluster

/-! Checks of R336 -/

/-- What check 4 makes of one address: mapped, unmapped, a page to serve first, or uncorrectable data at a PA on the way to it
(R417). A dependence also needs the r right (R338). -/
inductive MapRes where
  | ok | bad (e : Option BadEntry) | wait (why : WaitWhy) | dead (pa : Nat)
  deriving DecidableEq, Repr
def mapState (s : State) (x : LaunchAcc) (job : Nat) (a : W64) (read : Bool) : MapRes :=
  if a = 0 then .ok
  else match translate s job a .read (lvs s x) with
    | .ok _ => .ok
    | .wait y => .wait y
    | .window _ => .bad none
    | .fault k e => if k = 2 && !read then .ok else .bad e
    | .dead q => .dead q

/-- The answer of R336: the refusal code, 0 for none, with the malformed entries that check 4 met (R374) and the PAs of what was
uncorrectable, or a wait. -/
inductive Check where
  | code (n : Nat) (bad : List BadEntry) (dead : List Nat) | wait (why : WaitWhy)
  deriving DecidableEq, Repr
def refusal (s : State) (x : LaunchAcc) (job : Nat) (p : BitVec 1024) : Check :=
  if pktMalformed p then .code 1 [] []
  else if !fitsEmpty p ((barGet s 0x10010).toNat % 8) then .code 2 [] []
  else if pkCores p && !fitsModule s p then .code 3 [] []
  else
    let rs := [mapState s x job (pkParams p) false, mapState s x job (BitVec.ofNat 64 (pkFaultLog p)) false,
      mapState s x job (pkStatus p) false, mapState s x job (pkLcount p) false, mapState s x job (pkGcount p) false,
      mapState s x job (pkDep p 0).1 true, mapState s x job (pkDep p 1).1 true]
    let deads := rs.filterMap fun r => match r with | .dead q => some q | .ok | .bad _ | .wait _ => none
    match rs.findSome? fun r => match r with | .wait y => some y | .ok | .bad _ | .dead _ => none with
    | some y => .wait y
    -- an address that could not be looked up for an uncorrectable entry has no code of its own (log 77)
    | none => .code (if rs.all fun r => decide (r = .ok) then 0 else if deads = [] then 4 else 8)
        (rs.filterMap fun r => match r with | .bad e => e | .ok | .wait _ | .dead _ => none) deads

/-! Cancel and hold commands (R346, R366) -/

/-- A launch of a job matches a command (R346). -/
def matchesCmd (r : Running) (job : Nat) (p : BitVec 1024) : Bool :=
  job = r.job && match r.kind with
    | 0 => pkId p = r.ident.toNat
    | 1 => pkGraph p = r.ident.toNat
    | _ => true
/-- The launches that a command matches and that are not complete. -/
def matched (s : State) (r : Running) : List Nat :=
  (List.range s.launches.length).filter fun l =>
    let L := getL s l
    !L.complete && matchesCmd r L.job L.packet
/-- The packets of rings that match, by queue and packet index. -/
def ringPackets (s : State) (r : Running) : List (Nat × Nat) :=
  (List.range 64).flatMap fun q =>
    let d := qDesc s q
    if !qOn d then []
    else ((List.range (min (qHeld d) (qLen d))).filter fun i =>
      matchesCmd r (qJob d) (BitVec.ofNat 1024 (tblRead s (qSlot d (qRead d + i)) 128))).map fun i => (q, (qRead d + i) % 2 ^ 32)
/-- The cancel ends when every matched launch has completed (R347). -/
def endCancel (s : State) : State :=
  match s.cancel with
  | none => s
  | some r => if matched s r = [] && ringPackets s r = [] then { s with cancel := none, msix := s.msix ++ [5] } else s

end Sys2Proof.Machine
end

