-- ==== Sys2Proof/Machine/Launch.lean ====
section
/-! DEFINITION. The launch engine (spec/17 R330 to R347; spec/07 R202): doorbells, `spawn`, dispatch, placement, release,
completion and cancel. -/

namespace Sys2Proof.Machine

/-! Feeding the queues (R333, R334) -/

/-- Uncorrectable data in a queue's descriptor. -/
def queueBad (s : State) (q : Nat) : Option Nat := tblBad s (qAt s q) 64
/-- A descriptor that is uncorrectable is recorded each time the engine reads it; the queue is not served, a doorbell leaves no
trace, and a `spawn` fails as for its packet (DESIGN CHOICE, log 77: R417 gives code 0x08 to commands only). -/
def noteQueue (s : State) (q : Nat) : State :=
  match queueBad s q with
  | some pa => consumed s none pa 32 0 0 0
  | none => s
/-- A write to LDOORq; between stages 0 and 3 it is discarded (R429). A broken descriptor is taken out of service (R333). -/
def execDoorbell (q : BitVec 6) (v : W64) (s : State) : Out :=
  if s.stage ≠ 3 then .next s
  else withPa (qAt s q.toNat) 64 <| withHost s (heldLines s (qAt s q.toNat) 64) (.doorbell q v) <|
    holdDue s (runDue s (qAt s q.toNat) 64) (.doorbell q v) <|
    let d := qDesc s q.toNat
    if (queueBad s q.toNat).isSome then .next (noteQueue s q.toNat) else
    let n := (v.toNat % 2 ^ 32 + 2 ^ 32 - qRead d) % 2 ^ 32
    if qOn d && qBad s d then .next (qDisable s q.toNat)
    else if qSpawn d || !qOn d || qLen d < n || n < qHeld d then .next s
    else .next (qPut s q.toNat 8 (v.toNat % 2 ^ 32))

/-- `spawn`: the command goes to the launch engine, which answers with the acceptance value (R202). -/
def execSpawn (a b d : BitVec 6) (r : BitVec 1) (x : EPfx) (s : State) : Out :=
  engineOp s a b d r x false fun w W =>
    withLines s (coreLines s W.core) <|
    let s1 := l1WriteBack s W.core
    let c := { newCmd s1 w .spawn x (sGet W a) (sGet W b) none with dest := if r = 1 then some d else none, verdicts := [] }
    .next (advance (accept s1 w c) w (lenE x))

/-- What reading a spawned packet meets: the code of R248 and what to record of it, the packet, or a wait. -/
inductive SpawnRead where
  | bad (code : Nat) (e : Option Stop) | ok (p : BitVec 1024) | wait (y : WaitAcc)
  deriving DecidableEq, Repr
/-- Read and check the packet of a `spawn`. Uncorrectable data answers with value 3 and code 0x08 (DESIGN CHOICE, log 72: R202
names no value for it, R417 the code). -/
def spawnPacket (s : State) (c : Cmd) : SpawnRead :=
  if !canonical c.sa then .bad 0x05 none
  else if c.sa.toNat % 64 ≠ 0 then .bad 0x04 none
  else match engRead s c false c.sa 128 with
    | (v, none) => if pktMalformed (BitVec.ofNat 1024 v) then .bad 0x01 none else .ok (BitVec.ofNat 1024 v)
    | (_, some (.wait y k)) => .wait (y, k)
    | (_, some e) => .bad (stopCode e) (some e)

/-- The answer of a `spawn` (R202): the value to sd, or a record of a refusal. -/
def spawnReply (s : State) (c : Cmd) (v code : Nat) : State :=
  let s1 := match c.dest with
    | some d => updW s c.warp fun W => sSet W d (BitVec.ofNat 64 v)
    | none => if v = 0 then s else cmdRecord s c code c.sa
  endCmd s1 c

/-- The spawns of one queue are served in the order of their issue (R334). -/
def execSpawnAppend (k : Nat) (s : State) : Out :=
  match findCmd s k .spawn with
  | none => .next s
  | some c =>
    if waitsRecord s (.cmd k) || s.cmds.any (fun e => e.kind = .spawn && e.id < k && e.sb = c.sb) then .next s
    else if 63 < c.sb.toNat then .next (spawnReply s c 2 0x0D)
    else
      let q := c.sb.toNat
      withRow s (qAt s q) 64 <| withPaLines s (qAt s q) 64 <|
        let d := qDesc s q
        if (queueBad s q).isSome then .next (spawnReply (noteQueue s q) c 3 0x08)
        else if qOn d && qBad s d && s.stage = 3 then .next (spawnReply (qDisable s q) c 2 0x0D)
        else if !qOn d || !qSpawn d || qJob d ≠ c.job || s.stage ≠ 3 then .next (spawnReply s c 2 0x0D)
        else match spawnPacket s c with
          | .wait y => .next (cmdWait s c y)
          | .bad code e =>
            let s1 := match e with
              | some x => noteStop s c x
              | none => s
            .next (spawnReply s1 c 3 code)
          | .ok p =>
            if qLen d ≤ qHeld d then .next (spawnReply s c 1 0x0C)
            else withRow s (qSlot d (qWrite d)) 128 <| withPaLines s (qSlot d (qWrite d)) 128 <|
              let at_ := qSlot d (qWrite d)
              let s1 := tblStore s at_ 128 p.toNat
              .next (spawnReply (qPut s1 q 8 ((qWrite d + 1) % 2 ^ 32)) c 0 0)

/-! Dispatch (R336, R338) -/

/-- The state of a queue's head. -/
inductive Head where
  /-- Empty, off, or held back by the launch taken before. -/
  | none
  | broken
  | ready (p : BitVec 1024) (cancelled : Bool)
  /-- The packet, or a counter that it depends on, is uncorrectable in the `n` bytes at a PA: the launch is refused with code 0x08,
  one whose packet is lost as an empty one (R417; DESIGN CHOICE, log 77). -/
  | spoiled (p : BitVec 1024) (pa n : Nat)
  /-- The descriptor is uncorrectable: the queue is not served. -/
  | dead
  | unmet
  | wait (why : WaitWhy)
  deriving DecidableEq, Repr

/-- The launch last taken from a queue still has gangs to place (R338). -/
def queueBusy (s : State) (q : Nat) : Bool :=
  s.launches.any fun L => L.queue = q && L.endState = 0 && !L.complete && decide (L.nextGang < pkGangs L.packet)

def headOf (s : State) (q : Nat) : Head :=
  let d := qDesc s q
  if (queueBad s q).isSome then .dead
  else if !qOn d then .none
  else if qBad s d then .broken
  else if qHeld d = 0 || queueBusy s q then .none
  else match tblBad s (qSlot d (qRead d)) 128 with
  | some pa => .spoiled 0 pa 32
  | Option.none =>
    let p := BitVec.ofNat 1024 (tblRead s (qSlot d (qRead d)) 128)
    match s.cancel with
    | some r => if matchesCmd r (qJob d) p then .ready p true else deps d p
    | Option.none => deps d p
where
  deps (d : Nat) (p : BitVec 1024) : Head :=
    match depsState s (.queue q) (qJob d) p with
    | .met => .ready p false
    | .unmet => .unmet
    | .dead pa => .spoiled p pa 8
    | .wait y => .wait y

/-- The ready heads by queue, priority and packet. -/
def readyHeads (s : State) : List (Nat × Nat × BitVec 1024 × Bool) :=
  (List.range 64).filterMap fun q => match headOf s q with
    | .ready p c => some (q, qPrio (qDesc s q), p, c)
    | .spoiled p _ _ => some (q, qPrio (qDesc s q), p, false)
    | .none | .broken | .unmet | .dead | .wait _ => none

/-- Highest priority first; within one, the first queue at or after the level's position (R338). -/
def bestHead (s : State) (hs : List (Nat × Nat × BitVec 1024 × Bool)) : Option (Nat × Nat × BitVec 1024 × Bool) :=
  let dist (h : Nat × Nat × BitVec 1024 × Bool) : Nat := (h.1 + 64 - tabGet 0 s.qpos h.2.1) % 64
  hs.foldl (fun b h => match b with
    | none => some h
    | some c => if c.2.1 < h.2.1 || (c.2.1 = h.2.1 && dist h < dist c) then some h else some c) none

/-- Take the head of a queue: readidx counts it and a launch stands for it, refused or cancelled at once or with its gangs
to be placed, or held where XCMD named its packet (R366). -/
def takeHead (s : State) (q prio : Nat) (p : BitVec 1024) (cancelled : Bool) (code : Nat) : State :=
  let d := qDesc s q
  let s1 := qPut s q 12 ((qRead d + 1) % 2 ^ 32)
  let me := (q, qRead d)
  let L : Launch := { Launch.blank with
    packet := p, queue := q, job := qJob d, prio := prio, waitFrom := some s.clock, hold := s.xheld.contains me
    endState := if cancelled then 2 else if code = 0 then 0 else 3, endCode := code }
  { s1 with
    launches := s1.launches ++ [L], qpos := tabSet 0 s1.qpos prio ((q + 1) % 64)
    lverdicts := (spendVerdicts s1 (.queue q)).lverdicts
    xheld := s1.xheld.filter fun e => e ≠ me
    canStat := if cancelled then s1.canStat + 1 else s1.canStat }

/-- Every queue descriptor that breaks its layout is taken out of service (R333), and one that is uncorrectable is recorded. -/
def dropBroken (s : State) : State :=
  (List.range 64).foldl (fun t q => if headOf s q = .broken then qDisable t q
    else if headOf s q = .dead then noteQueue t q else t) s

/-- Uncorrectable data that the engine consumed for a launch are recorded (R417, R420). -/
def noteDead (s : State) (job n : Nat) (p : BitVec 1024) (dead : List Nat) : State :=
  dead.foldl (fun t pa => consumed t none pa n 2 job (pkId p)) s

/-- A head that the engine takes while its firmware is switched: what a running cancel takes out, and what the launches in flight
have spawned (R434). -/
def taken (s : State) (h : Nat × Nat × BitVec 1024 × Bool) : Bool := !fwHolds s 1 || h.2.2.2 || qSpawn (qDesc s h.1)
/-- The engine serves one ready head. -/
def execDispatch (s : State) : Out :=
  if s.stage ≠ 3 then .next s
  else withRow s (qAt s 0) 4096 <| withPaLines s (qAt s 0) 4096 <|
    let s1 := dropBroken s
    match bestHead s1 ((readyHeads s1).filter (taken s1)) with
    | none => .next s1
    | some (q, prio, p, c) =>
      let at_ := qSlot (qDesc s1 q) (qRead (qDesc s1 q))
      let job := qJob (qDesc s1 q)
      withRow s at_ 128 <| withPa at_ 128 <|
        if c then .next (takeHead s1 q prio p true 0)
        else match headOf s1 q with
        | .spoiled _ pa n => .next (takeHead (noteDead s1 job n p [pa]) q prio p false 8)
        | _ => match refusal s1 (.queue q) job p with
          | .wait y => .next (waitOn s1 job y .read (.launcher (.queue q)))
          | .code n bad dead =>
            -- the records that the check needs must be had (R380)
            if bad ≠ [] && 1024 < s1.xrecs.length + bad.length then .next s1 else
            .next (takeHead (bad.foldl (fun t b => reportBad t job (some b) .read (.launcher (.queue q)))
              (noteDead s1 job 8 p dead)) q prio p false n)

/-- The engine reads the counters of the heads' dependences; a page that is not resident is asked for (R338). Its waiting writes
are tried again. -/
def execCounterPoll (s : State) : Out :=
  if s.stage ≠ 3 then .next s
  else .next ((List.range 64).foldl (fun t q => match headOf s q with
    | .wait y => waitOn t (qJob (qDesc s q)) y .read (.launcher (.queue q))
    | .none | .broken | .ready _ _ | .spoiled _ _ _ | .dead | .unmet => t) (retryFrees s))

/-! Placement and release (R338 to R342) -/

/-- Place as many gangs as `cores` holds, one after another, each on cores where it fits. -/
def placeAll (s : State) (l n : Nat) (cores : List Nat) : Option State :=
  match n with
  | 0 => if cores = [] then some s else none
  | k + 1 =>
    let p := (getL s l).packet
    let cs := cores.take (pkGang p)
    if gangFits s p cs then placeAll (placeGang s l cs) l k (cores.drop (pkGang p)) else none

/-- The launch engine places the next gang of a launch, or all gangs of a co-resident one in one step (R338, R339). -/
def execGangPlacement (l : Nat) (cores : List Nat) (s : State) : Out :=
  let L := getL s l
  if s.stage ≠ 3 || s.launches.length ≤ l || !wantsPlace s L || savedGangs s L ≠ [] || !mayPlace s l ||
      pkGangs L.packet ≤ L.nextGang then .next s
  else
    match placeAll s l (if pkCores L.packet then pkGangs L.packet else 1) cores with
    | some t => withLines s (cores.flatMap (coreLines s)) (.next t)
    | none => .next s

/-- After 64 us of waiting the next gang holds back gangs of equal or lower priority (R338). -/
def execPlacementStarvationTimeout (l : Nat) (s : State) : Out :=
  let L := getL s l
  match L.waitFrom with
  | some c =>
    if wantsPlace s L && 6400 * s.coreClk ≤ (s.clock - c).toNat then .next (updL s l fun L => { L with starved := true })
    else .next s
  | none => .next s

/-- A held gang starts when TIME reaches its release value (R342). -/
def execGangRelease (g : Nat) (s : State) : Out :=
  let x := getGang s g
  if x.stat = .held && startStat s (getL s x.launch).packet = .running then
    .next (updGang s g fun y => { y with stat := .running })
  else .next s

/-! Completion (R343 to R345) -/

/-- Nothing of the launch is left to run. -/
def launchOver (s : State) (l : Nat) : Bool :=
  let L := getL s l
  !L.complete && (L.endState ≠ 0 || L.nextGang = pkGangs L.packet) &&
  (L.gangs.all fun g => decide ((getGang s g).stat = .released)) &&
  (s.cmds.all fun c => c.launch ≠ l) && (s.recq.all fun r => r.launch ≠ l) &&
  (s.vatWait.all fun e => e.2.launch ≠ l) &&
  s.vats.all fun e => (e.2.queue.all fun c => c.launch ≠ l) && match e.2.run with
    | some r => r.cmd.launch ≠ l
    | none => true

/-- The status record (R345). -/
def statusRecord (L : Launch) : Nat :=
  let st := if L.endState = 0 then 1 else L.endState
  let code := if 3 ≤ st then L.endCode else if L.dropped then 5 else 0
  st + 2 ^ 8 * code + 2 ^ 64 * L.parked + 2 ^ 96 * L.dead

/-- A place that completion writes: none for an address of 0 and for one that no longer translates. -/
def complPa (s : State) (l job : Nat) (a : W64) (acc : AccKind) : XRes :=
  if a = 0 then .fault 1 none
  else if !canonical a then .fault 4 none
  else translate s job a acc (lvs s (.launch l))
def placeIn (r : XRes) : Option Nat :=
  match r with
  | .ok pa => some pa
  | .window _ => none
  | .fault _ _ => none
  | .dead _ => none
  | .wait _ => none
/-- Malformed entries that places met are reported, each with its access (R374, R379), and uncorrectable ones are recorded. -/
def reportAll (s : State) (l job id : Nat) (rs : List (XRes × AccKind)) : State :=
  rs.foldl (fun t r => match r.1 with
    | .fault _ bad => reportBad t job bad r.2 (.launcher (.launch l))
    | .dead pa => consumed t none pa 8 0 job id
    | .ok _ => t
    | .window _ => t
    | .wait _ => t) s
/-- The records that they make. -/
def reportCount (rs : List (XRes × AccKind)) : Nat :=
  (rs.filter fun r => match r.1 with
    | .fault _ bad => bad.isSome
    | _ => false).length

/-- Add 1 to an 8-byte counter at the home L2. An uncorrectable counter is recorded and keeps its data: there is no command that
could end with code 0x08 (DESIGN CHOICE, log 77). -/
def bump (s : State) (job id : Nat) (pa : Option Nat) : State :=
  match pa with
  | some a =>
    if dataBad s none a 8 then consumed s none a 8 0 job id else l2Store s a 8 ((l2Read s a 8 + 1) % 2 ^ 64)
  | none => s

/-- The cores of a launch's groups. -/
def launchCores (s : State) (L : Launch) : List Nat :=
  (L.gangs.flatMap fun g => (getGang s g).groups.map fun h => (getG s h).core).eraseDups

/-- Complete a launch: write-backs of what its warps wrote in the L1s, the status record, the counters (R343). -/
def finishLaunch (s : State) (l : Nat) (st a b c : Option Nat) : State :=
  let L := getL s l
  let s1 := (launchCores s L).foldl (fun t c => l1WriteBackOf t l c) s
  let v := statusRecord L
  let s2 := match st with
    | some pa => l2Store (l2Store s1 (pa + 8) 8 (v / 2 ^ 64)) pa 8 (v % 2 ^ 64)
    | none => s1
  let s3 := if st.isSome && 3 ≤ v % 256 then { s2 with msix := s2.msix ++ [7] } else s2
  let add (t : State) (x : Option Nat) : State := bump t L.job (pkId L.packet) x
  let s4 := add (add (add s3 a) b) c
  endCancel (spendVerdicts (updL s4 l fun L => { L with complete := true }) (.launch l))

def execLaunchComplete (l : Nat) (s : State) : Out :=
  if s.launches.length ≤ l || !launchOver s l then .next s
  else
    let L := getL s l
    let at_ (a : W64) (acc : AccKind) : XRes × AccKind := (complPa s l L.job a acc, acc)
    let ps := [at_ (pkStatus L.packet) .write, at_ (pkLcount L.packet) .atomic, at_ (pkGcount L.packet) .atomic,
      at_ (jobCount s L.job) .atomic]
    match ps.filterMap fun r => match r.1 with
        | .wait y => some (y, r.2)
        | .ok _ => none
        | .window _ => none
        | .dead _ => none
        | .fault _ _ => none with
    | y :: ys => .next ((y :: ys).foldl (fun t z => waitOn t L.job z.1 z.2 (.launcher (.launch l))) s)
    | [] =>
      let pa (i : Nat) : Option Nat := placeIn (ps.getD i (.fault 1 none, .write)).1
      -- the records that the places need must be had (R380)
      if 0 < reportCount ps && 1024 < s.xrecs.length + reportCount ps then .next s
      else withLines s ((launchCores s L).flatMap (wroteLines s l)) <|
        .next (finishLaunch (reportAll s l L.job (pkId L.packet) ps) l (pa 0) (pa 1) (pa 2) (pa 3))

/-- A core without a group takes the new split (R331). -/
def execLsplitApply (core : Nat) (s : State) : Out :=
  if s.stage = 3 && core < 1024 && (groupsOn s core).isEmpty then
    .next { s with splits := tabSet 7 s.splits core ((barGet s 0x10010).toNat % 8) }
  else .next s

/-! Cancel (R346, R347) -/

/-- A command of the layout of R346 and R366, with its `op` bit. -/
def parseCmd (v : W64) (opBit : Bool) : Option Running :=
  let n := v.toNat
  if n / 2 ^ 62 = 3 || n / 2 ^ 40 % 2 ^ 21 ≠ 0 || (!opBit && n / 2 ^ 61 % 2 = 1) then none
  else some ⟨n / 2 ^ 62, n / 2 ^ 32 % 256, BitVec.ofNat 32 n, n / 2 ^ 61 % 2, []⟩

/-- A write to LCANCEL. -/
def execCancel (v : W64) (s : State) : Out :=
  match s.cancel, parseCmd v false with
  | some _, _ => .next s
  | none, none => .next s
  | none, some r =>
    if s.stage ≠ 3 then .next s
    else holdIn s 1 (.cancel v) <|
      let ls := matched s r
      let s1 := ls.foldl (fun t l => endLaunch t l 2 0) { s with cancel := some r, canStat := ls.length }
      .next (endCancel s1)

end Sys2Proof.Machine
end

