-- ==== Sys2Proof/Machine/Context.lean ====
section
/-! DEFINITION. Pre-emption, save images, restores and code swaps (spec/18 R358 to R368; spec/17 R340). -/

namespace Sys2Proof.Machine

/-! Runs of a job's virtual memory -/

/-- Write `n` bytes at a virtual address, byte by byte at the home L2; pages were checked before. -/
def putVa (s : State) (job : Nat) (a : W64) (n v : Nat) : State :=
  match n with
  | 0 => s
  | k + 1 =>
    let s1 := match engGlobal s job a .write [] with
      | .pa pa => l2Store s pa 1 (v % 256)
      | .scr _ _ => s
      | .err _ => s
      | .mal _ => s
      | .dead _ => s
      | .wait _ => s
    putVa s1 job (a + 1) k (v / 256)
def zeroVa (s : State) (job : Nat) (a : W64) (n : Nat) : State := putVa s job a n 0
/-- Read `n` bytes at a virtual address. -/
def getVa (s : State) (job : Nat) (a : W64) (n : Nat) : Nat :=
  match n with
  | 0 => 0
  | k + 1 =>
    let b := match engGlobal s job a .read [] with
      | .pa pa => (l2Byte s pa).toNat
      | .scr _ _ => 0
      | .err _ => 0
      | .mal _ => 0
      | .dead _ => 0
      | .wait _ => 0
    b + 256 * getVa s job (a + 1) k
/-- The first page of a run that an access of the launch engine for a gang does not translate. -/
inductive RunRes where
  | ok | bad (e : Option BadEntry)
  /-- The walk for a page met uncorrectable data at a PA (R417). -/
  | dead (pa : Nat)
  | wait (why : WaitWhy)
  deriving DecidableEq, Repr
def runState (s : State) (g job : Nat) (a : W64) (n : Nat) (acc : AccKind) : RunRes :=
  match translateRun s job a n acc (lvs s (.gang g)) with
  | none => .ok
  | some (_, .wait y) => .wait y
  | some (_, .fault _ e) => .bad e
  | some (_, .dead pa) => .dead pa
  | some _ => .bad none
/-- The first uncorrectable unit that the launch engine reads in a run (R417). -/
def runDead (s : State) (job : Nat) (a : W64) (n : Nat) : Option Nat :=
  (mappedRuns s job a n).findSome? fun r => badIn s r.1 r.2

/-! The layout of an image (R362, R363) -/

def warpImage (p : BitVec 1024) : Nat := 0x2000 + 128 * pkVregs p
def groupImage (p : BitVec 1024) : Nat := 0x100 + pkScratch p + pkGroup p * warpImage p
def imageSize (p : BitVec 1024) : Nat := 0x100 + pkGang p * groupImage p

/-- A run of an image: offset, bytes, value. -/
abbrev Piece := Nat × Nat × Nat

def loopPiece (o : Nat) (t : Tab LoopRec) : List Piece :=
  t.map fun e => (o + 16 * e.1, 12, e.2.start.toNat + 2 ^ 64 * e.2.words + 2 ^ 80 * e.2.reelsp + 2 ^ 88 * e.2.rank)
def bankPiece (o : Nat) (b : Bank) : List Piece := (List.range 8).map fun i => (o + 8 * i, 8, (bankField b i).toNat)
def webPiece (o : Nat) (x : WebSlot) : Piece :=
  (o, 42, x.desc.toNat + 2 ^ 256 * x.pos.toNat + 2 ^ 320 * x.reg.toNat + 2 ^ 328 * (if x.bound then 1 else 0))
def kindCodeR (k : ReelKind) : Nat :=
  match k with
  | .ifK => 0
  | .elseK => 1
  | .jxtK => 2
  | .joinK => 3
def reelPiece (o : Nat) (e : ReelEntry) : List Piece :=
  (o, 13, e.resume.toNat + 2 ^ 64 * e.mask.toNat + 2 ^ 96 * kindCodeR e.kind) ::
    (if e.kind = .jxtK then (List.range 32).map fun k => (o + 16 + 4 * k, 4, (tabGet 0 e.targets k).toNat) else [])

/-- The restart point and rstate of a warp that stands at a stop point (R358, R363). -/
def restartOf (W : Warp) : W64 × Nat :=
  let lv := 2 ^ 17 * W.level
  match W.stat with
  | .waitBar n => (W.barH, 3 + 2 ^ 4 * W.barJ + 2 ^ 13 * n + lv)
  | .waitTok _ => (W.pc, 1 + 2 ^ 4 * W.word + lv)
  | .waitCp _ => (W.pc, 1 + 2 ^ 4 * W.word + lv)
  | _ => (W.pc, lv)

def tilePieces (t : TileOp) : List Piece :=
  [(0x90, 4, t.acc.toNat + 2 ^ 3 * t.fmt.toNat + (match t.tok with
      | some k => 2 ^ 8 * k.toNat + 2 ^ 11
      | none => 0)),
   (0x94, 4, t.k), (0x98, 4, t.rowm.toNat), (0x9C, 4, t.colm.toNat), (0x300, 32, t.mapA.toNat), (0x320, 32, t.mapB.toNat)]

/-- The copy batches of a warp: ten words (R251, R363). -/
def batchPieces (W : Warp) : List Piece :=
  ((List.range W.closed.length).map fun b => (0x340 + 4 * b, 4, (W.closed.getD b (0, 0)).2)) ++
  [(0x360, 4, W.openN), (0x364, 4, W.closed.length + (if W.openUsed then 16 else 0))]

/-- What a warp's image holds that is not zero (R363, R364). -/
def warpPieces (W : Warp) : List Piece :=
  if warpGone W then [(0x008, 4, 4)]
  else
    let r := restartOf W
    [(0x000, 8, r.1.toNat), (0x008, 4, r.2), (0x00C, 4, W.exm.toNat), (0x010, 4, W.fltm.toNat), (0x014, 4, W.demm.toNat),
     (0x018, 4, W.deadm.toNat), (0x01C, 4, W.fpst.toNat), (0x020, 1, W.deck.toNat), (0x021, 1, W.reel.length),
     (0x022, 1, W.calls.length), (0x023, 1, loopAct W), (0x024, 1, if W.mode then 1 else 0), (0x025, 1, W.mclaim.toNat),
     (0x028, 8, evcnt W), (0x030, 4, W.mrowm.toNat), (0x034, 4, W.mcolm.toNat), (0x038, 4, (mstep W).toNat),
     (0x040, 4, W.gangId.toNat), (0x044, 1, W.warpId.toNat), (0x045, 1, W.groupId.toNat)] ++
    ((List.range 3).map fun i => (0x48 + 8 * i, 8, (lcGet W i).toNat)) ++ loopPiece 0x60 W.loops ++
    (match W.tile with
      | some t => tilePieces t
      | none => []) ++
    ((List.range 8).map fun i => (0xC0 + 4 * i, 4, (pGet W i).toNat)) ++
    bankPiece 0x100 W.h ++ bankPiece 0x180 W.k ++ [(0x1C0, 8, W.kuser.toNat)] ++
    ((List.range 8).map fun i => (0x200 + 32 * i, 32, (mGet W i).toNat)) ++ batchPieces W ++
    (if W.level = 0 then [] else loopPiece 0x368 W.h.loops) ++ (if W.level < 2 then [] else loopPiece 0x398 W.k.loops) ++
    ((List.range 4).map fun i => webPiece (0x400 + 64 * i) (wGet W i)) ++
    ((List.range W.calls.length).map fun i =>
      let c := W.calls.reverse.getD i ⟨0, 0⟩
      (0x500 + 16 * i, 9, c.ret.toNat + 2 ^ 64 * c.reelsp)) ++
    ((List.range 64).map fun i => (0x600 + 8 * i, 8, (sGet W (BitVec.ofNat 6 i)).toNat)) ++
    ((List.range W.reel.length).flatMap fun i =>
      reelPiece (0x800 + 144 * i) (W.reel.reverse.getD i ⟨.ifK, 0, 0, []⟩)) ++
    (cellsBack W).map fun e => (0x2000 + 128 * (e.1 / 32) + 4 * (e.1 % 32), 4, e.2.toNat)

def barWord (b : Bar) : Nat :=
  b.arrivals + 2 ^ 6 * b.expected + 2 ^ 12 * (if b.byBar then 1 else 0) + 2 ^ 13 * (if b.opn then 1 else 0)

/-- What a group's image holds (R362). -/
def groupPieces (s : State) (p : BitVec 1024) (G : Group) : List Piece :=
  ((List.range 16).map fun n => (8 * n, 8, barWord (barOf G n))) ++
  (G.scratch.map fun e => (0x100 + e.1, 1, e.2.toNat)) ++
  (List.range G.warps.length).flatMap fun i =>
    (warpPieces (getW s (G.warps.getD i 0))).map fun e => (0x100 + pkScratch p + i * warpImage p + e.1, e.2)

/-- A gang's image (R362). -/
def gangPieces (s : State) (g : Nat) : List Piece :=
  let x := getGang s g
  let p := (getL s x.launch).packet
  [(0, 128, p.toNat), (0x80, 4, x.gid), (0x84, 1, x.groups.length)] ++
  (List.range x.groups.length).flatMap fun i =>
    (groupPieces s p (getG s (x.groups.getD i 0))).map fun e => (0x100 + i * groupImage p + e.1, e.2)

/-! Save slots (R361) -/

def xhValid (e : Nat) : Bool := e / 2 ^ 176 = 1
def slotUnits (e : Nat) : Nat := e / 2 ^ 128 % 2 ^ 32
def slotCount (e : Nat) : Nat := e / 2 ^ 160 % 2 ^ 16
def slotBase (e slot : Nat) : W64 := poolBase e + 0x10000 + BitVec.ofNat 64 (slot * slotUnits e * 0x10000)

/-- The outcome of claiming slots. -/
inductive Claim where
  /-- No slot, with a malformed entry to report that the bitmap or the check of its pages met, and its access (R379). -/
  | none (job : Nat) (e : Option (BadEntry × AccKind))
  /-- No slot: the bitmap, or an entry on the way to it, is uncorrectable at a PA (DESIGN CHOICE, log 77). -/
  | dead (job pa : Nat)
  | ok (s : State) | wait (g job : Nat) (why : WaitWhy) (acc : AccKind)

/-- Claim a slot for a gang: it is being stopped from then on. -/
def claimSlot (s : State) (g : Nat) : Claim :=
  let x := getGang s g
  let L := getL s x.launch
  let e := xhEntry s L.job
  if let some pa := xhBad s L.job then .dead L.job pa
  else if !xhValid e || slotUnits e * 0x10000 < imageSize L.packet then .none L.job none
  else match runState s g L.job (poolBase e) 0x10000 .atomic with
    | .wait y => .wait g L.job y .atomic
    | .bad b => .none L.job (b.map fun e => (e, .atomic))
    | .dead pa => .dead L.job pa
    | .ok =>
      let used (i : Nat) : Bool := getVa s L.job (poolBase e + BitVec.ofNat 64 (i / 8)) 1 / 2 ^ (i % 8) % 2 = 1
      match runDead s L.job (poolBase e) ((slotCount e + 7) / 8), firstBelow (slotCount e) fun i => !used i with
      | some pa, _ => .dead L.job pa
      | Option.none, Option.none => .none L.job none
      | Option.none, some i =>
        match runState s g L.job (slotBase e i) (slotUnits e * 0x10000) .write with
        | .wait y => .wait g L.job y .write
        | .bad b => .none L.job (b.map fun e => (e, .write))
        | .dead pa => .dead L.job pa
        | .ok =>
          let a := poolBase e + BitVec.ofNat 64 (i / 8)
          let s1 := putVa s L.job a 1 (getVa s L.job a 1 + 2 ^ (i % 8))
          .ok (updGang s1 g fun y => { y with stat := .stopping i })

/-- Claim slots for several gangs, all or none. -/
def claimAll (s : State) (gs : List Nat) : Claim :=
  match gs with
  | [] => .ok s
  | g :: r => match claimSlot s g with
    | .ok t => claimAll t r
    | .none j b => .none j b
    | .dead j pa => .dead j pa
    | .wait h j y a => .wait h j y a

/-! Choosing gangs to pre-empt (R340) -/

/-- The gangs that are pre-empted with one: all placed gangs of a co-resident launch (R339). -/
def withPeers (s : State) (g : Nat) : List Nat :=
  let L := getL s (getGang s g).launch
  if pkCores L.packet then L.gangs.filter fun h => (getGang s h).stat = .running || (getGang s h).stat = .held else [g]

/-- The state as it would be with a gang's cores free. -/
def freed (s : State) (g : Nat) : State :=
  let x := getGang s g
  x.groups.foldl (fun t h => (getG t h).warps.foldl (fun u w =>
    updW u w fun W => if warpGone W then W else { W with stat := .saved }) t) (updGang s g fun y => { y with stat := .released })
/-- The state as it would be with the cores of a gang, and of those that go with it, free. -/
def freedAll (s : State) (gs : List Nat) : State := gs.foldl freed s
/-- The state as it will be when the gangs that are being stopped have left. -/
def afterStops (s : State) : State :=
  (List.range s.gangs.length).foldl (fun t g => match (getGang s g).stat with
    | .stopping _ => freed t g
    | .held | .running | .saved _ | .released => t) s

def gangIn (s : State) (g cluster : Nat) : Bool := (getGang s g).groups.any fun h => (getG s h).core / 4 = cluster

/-- Gang `a` is taken before gang `b`: lowest priority, then the launch taken last, then the highest GANGID. -/
def takenBefore (s : State) (a b : Nat) : Bool :=
  let x := getGang s a
  let y := getGang s b
  let px := (getL s x.launch).prio
  let py := (getL s y.launch).prio
  if px ≠ py then px < py else if x.launch ≠ y.launch then y.launch < x.launch else y.gid ≤ x.gid

/-- A placed gang of a launch of lower priority than `prio`. -/
def outranked (s : State) (prio g : Nat) : Bool :=
  let x := getGang s g
  (x.stat = .running || x.stat = .held) && decide ((getL s x.launch).prio < prio)
/-- Gangs of launches of lower priority than `prio` on a cluster that slots can take, peers and all, in the order of R340. -/
def victims (s : State) (prio cluster : Nat) : List Nat :=
  ((List.range s.gangs.length).filter fun g =>
    outranked s prio g && gangIn s g cluster &&
    match claimAll s (withPeers s g) with
    | .none _ _ => false
    | .dead _ _ => false
    | .ok _ => true
    | .wait _ _ _ _ => true).mergeSort fun a b => takenBefore s a b

/-- The first victims of a list whose leaving, with their peers, lets a gang of `p` fit on the cluster. -/
def neededFor (s : State) (p : BitVec 1024) (cluster : Nat) (vs acc : List Nat) : Option (List Nat) :=
  if (fitIn s p cluster).isSome then some acc
  else match vs with
    | [] => none
    | g :: r =>
      let gs := if (getGang s g).stat = .released then [] else withPeers s g
      neededFor (freedAll s gs) p cluster r (acc ++ gs)

/-- Place up to `n` gangs of a launch where they fit: what is left of `n`. -/
def placeAhead (s : State) (l n : Nat) : State × Nat :=
  match n with
  | 0 => (s, 0)
  | k + 1 => match fitAny s (getL s l).packet with
    | some cs => placeAhead (placeGang s l cs) l k
    | none => (s, k + 1)
/-- The gangs of a launch that must be placed in one step: all of a co-resident one (R339). -/
def atOnce (s : State) (L : Launch) : Nat :=
  if !pkCores L.packet then 1
  else if savedGangs s L ≠ [] then (savedGangs s L).length else pkGangs L.packet - L.nextGang
/-- A launch that may pre-empt waits for cores, those of stopping gangs counted: the state with what fits placed. -/
def callsFor (s : State) (l : Nat) : Option State :=
  let L := getL s l
  let (t, left) := placeAhead (afterStops s) l (atOnce s L)
  if !wantsPlace s L || !pkPreempt L.packet || left = 0 then none else some t
/-- The gang that is pre-empted next for a waiting launch. -/
def victimFor (s : State) (l : Nat) : Option Nat :=
  let L := getL s l
  match callsFor s l with
  | none => none
  | some t =>
    let opts := (List.range 256).filterMap fun c => neededFor t L.packet c (victims s L.prio c) []
    match opts.foldl (fun b o => match b with
      | none => some o
      | some q => if o.length < q.length then some o else some q) none with
    | some (g :: _) => some g
    | _ => none

/-! Pre-emption (R359 to R361) -/

/-- A gang's command, if XCMD names it. -/
def inXcmd (s : State) (g : Nat) : Bool :=
  match s.xcmd with
  | some r => r.left.contains g
  | none => false
/-- XCMD is done with a gang; the command ends with the last one (R366). -/
def xcmdDone (s : State) (g : Nat) (moved : Bool) : State :=
  match s.xcmd with
  | none => s
  | some r =>
    if !r.left.contains g then s
    else
      let r' := { r with left := r.left.filter (· ≠ g) }
      let s1 := { s with
        xcmdCount := if moved then s.xcmdCount + 1 else s.xcmdCount
        xcmdNoSlot := s.xcmdNoSlot || !moved }
      if r'.left = [] then { s1 with xcmd := none, msix := s1.msix ++ [5] } else { s1 with xcmd := some r' }

/-- Save one warp: it drains and takes a device-scope fence (R63, R141). -/
def quietWarp (s : State) (w : Nat) : State :=
  let s1 := landAll s w
  l1Fence (updW s1 w stopTile) (getW s1 w).core

/-- Write a gang's image and release its cores (R360 steps 3 to 6). -/
def saveGang (s : State) (g slot : Nat) : State :=
  let x := getGang s g
  let L := getL s x.launch
  let ws := x.groups.flatMap fun h => (getG s h).warps
  let s1 := ws.foldl quietWarp s
  let base := slotBase (xhEntry s1 L.job) slot
  -- every unit of the image is written whole (R422)
  let s2 := clearCovered ((gangPieces s1 g).foldl (fun t e => putVa t L.job (base + BitVec.ofNat 64 e.1) e.2.1 e.2.2)
    (zeroVa s1 L.job base (imageSize L.packet))) (mappedRuns s1 L.job base (imageSize L.packet))
  let s3 := ws.foldl (fun t w => updW t w fun W => if warpGone W then W else { W with stat := .saved }) s2
  spendVerdicts (updGang s3 g fun y => { y with stat := .saved slot, doneTok := [], doneBatch := [] }) (.gang g)

/-- No block of a warp's tile operation is in work (R275, R360). -/
def tileAtRest (W : Warp) : Bool :=
  match W.tile with
  | some t => t.stopped || t.steps = 0
  | none => true
/-- Every warp of a gang stands where it stops, and its tile blocks have been applied (R358, R360). -/
def gangStopped (s : State) (g : Nat) : Bool :=
  (getGang s g).groups.all fun h => (getG s h).warps.all fun w => atStop s w (getW s w) && tileAtRest (getW s w)

/-- A warp whose shadow, catching up before the save, differs from it (spec/23 R423). -/
def catchUp (s : State) (g : Nat) : Option Nat :=
  if pkTether (getL s (getGang s g).launch).packet then
    ((getGang s g).groups.flatMap fun h => (getG s h).warps).find? fun w =>
      !warpGone (getW s w) && Config.shadowLags s.ctr w
  else none

/-- The engine looks at a gang for a waiting launch. -/
def lookedAt (s : State) (g : Nat) : Bool :=
  (List.range s.launches.length).any fun l => (callsFor s l).isSome && outranked s (getL s l).prio g
/-- A gang that no slot can take is passed over; what the claim met is recorded (R340, R361, R374, R417). -/
def passOver (s : State) (g : Nat) : State :=
  match claimAll s (withPeers s g) with
  | .none job e => reportBad s job (e.map Prod.fst) ((e.map Prod.snd).getD .atomic) (.launcher (.gang g))
  | .dead job pa => consumed s none pa 8 0 job 0
  | .ok _ => s
  | .wait _ _ _ _ => s

/-- A gang that a command or a waiting launch calls for is stopped; once its warps stand at their stop points it is saved. A page
of its slot that must be served or copied by then is waited for (R379, R383). -/
def execPreemption (g : Nat) (s : State) : Out :=
  let x := getGang s g
  match x.stat with
  | .stopping slot =>
    if !gangStopped s g then .next s
    -- the warps' fences write back what the host may cache once it has answered (R388)
    else withLines s (x.groups.flatMap fun h => coreLines s (getG s h).core) <| match catchUp s g, runState s g (getL s x.launch).job (slotBase (xhEntry s (getL s x.launch).job) slot)
        (imageSize (getL s x.launch).packet) .write with
      | some w, _ => .next (tetherKill s w)
      | none, .wait y => .next (waitOn s (getL s x.launch).job y .write (.launcher (.gang g)))
      | none, .bad e => .next (xcmdDone (saveGang (reportBad s (getL s x.launch).job e .write (.launcher (.gang g))) g slot) g true)
      | none, .dead pa => .next (xcmdDone (saveGang (consumed s none pa 8 0 (getL s x.launch).job
          (pkId (getL s x.launch).packet)) g slot) g true)
      | none, .ok => .next (xcmdDone (saveGang s g slot) g true)
  | .saved _ | .released => .next (xcmdDone s g true)
  | .running | .held =>
    if !(inXcmd s g || (List.range s.launches.length).any fun l => victimFor s l = some g) then
      .next (if lookedAt s g then passOver s g else s)
    else
      -- the claim is over, and its verdicts with it (R381)
      let ends (t : State) : State := (withPeers s g).foldl (fun u h => spendVerdicts u (.gang h)) t
      match claimAll s (withPeers s g) with
      | .ok t => .next (ends t)
      | .none _ _ => .next (xcmdDone (ends (passOver s g)) g false)
      | .dead _ _ => .next (xcmdDone (ends (passOver s g)) g false)
      | .wait h job y acc => .next (waitOn s job y acc (.launcher (.gang h)))

/-! XCMD (R366) -/

/-- XCMD's pre-empt: placed gangs are stopped, and the launches are held, those still in a ring too. -/
def execXcmdPreempt (v : W64) (s : State) : Out :=
  match s.xcmd, parseCmd v true with
  | none, some r =>
    if s.stage ≠ 3 || r.op ≠ 0 then .next s
    else holdIn s 1 (.xcmdPreempt v) <|
      let ls := matched s r
      let gs := ls.flatMap fun l => (getL s l).gangs.filter fun g =>
        match (getGang s g).stat with
        | .running | .held | .stopping _ => true
        | .saved _ | .released => false
      let held := (ringPackets s r).filter fun e => !s.xheld.contains e
      let s1 := ls.foldl (fun t l => updL t l fun L => { L with hold := true }) { s with
        xcmdCount := 0, xcmdNoSlot := false, xheld := s.xheld ++ held }
      .next (if gs = [] then { s1 with msix := s1.msix ++ [5] } else { s1 with xcmd := some { r with left := gs } })
  | _, _ => .next s

def execXcmdResume (v : W64) (s : State) : Out :=
  match s.xcmd, parseCmd v true with
  | none, some r =>
    if s.stage ≠ 3 || r.op ≠ 1 then .next s
    else holdIn s 1 (.xcmdResume v) <|
      let ls := (matched s r).filter fun l => (getL s l).hold
      let n := ls.foldl (fun a l => a + (savedGangs s (getL s l)).length) 0
      let free := ringPackets s r
      .next (ls.foldl (fun t l => updL t l fun L => { L with hold := false }) { s with
        xheld := s.xheld.filter fun e => !free.contains e, xcmdCount := n, xcmdNoSlot := false, msix := s.msix ++ [5] })
  | _, _ => .next s

/-! Restore (R365) -/

/-- Reading an image. -/
abbrev Image := Nat → Nat → Nat

def loopAt (im : Image) (o n : Nat) : LoopRec :=
  ⟨BitVec.ofNat 64 (im (o + 16 * n) 8), im (o + 16 * n + 8) 2, im (o + 16 * n + 10) 1, im (o + 16 * n + 11) 1⟩
def loopsAt (im : Image) (o act : Nat) : Tab LoopRec :=
  ((List.range 3).filter fun n => act / 2 ^ n % 2 = 1).map fun n => (n, loopAt im o n)
def bankAt (im : Image) (o lo : Nat) (old : Bank) : Bank :=
  let f (i : Nat) : W64 := BitVec.ofNat 64 (im (o + 8 * i) 8)
  { old with
    cause := f 0, reth := f 1, retw := f 2, mask := f 3, addr := f 4, exm := f 5, reel := f 6, scr := f 7
    loops := loopsAt im lo ((f 6).toNat / 2 ^ 16 % 8) }
def webAt (im : Image) (i : Nat) : WebSlot :=
  let o := 0x400 + 64 * i
  ⟨BitVec.ofNat 256 (im o 32), BitVec.ofNat 64 (im (o + 32) 8), BitVec.ofNat 8 (im (o + 40) 1), im (o + 41) 1 % 2 = 1⟩
def reelKindOf (c : Nat) : ReelKind :=
  match c % 4 with
  | 0 => .ifK
  | 1 => .elseK
  | 2 => .jxtK
  | _ => .joinK
def reelAt (im : Image) (i : Nat) : ReelEntry :=
  let o := 0x800 + 144 * i
  let k := reelKindOf (im (o + 12) 1)
  ⟨k, BitVec.ofNat 32 (im (o + 8) 4), BitVec.ofNat 64 (im o 8), if k = .jxtK then
    (List.range 32).filterMap fun l =>
      let t : W32 := BitVec.ofNat 32 (im (o + 16 + 4 * l) 4)
      if t = 0 then none else some (l, t)
    else []⟩
def tabFrom {α : Type} [DecidableEq α] (d : α) (n : Nat) (f : Nat → α) : Tab α :=
  (List.range n).filterMap fun i => if f i = d then none else some (i, f i)

def tileAt (im : Image) : Option TileOp :=
  let m := im 0x38 4
  let x := im 0x90 4
  if m / 2 ^ 31 % 2 = 0 then none
  else some ⟨BitVec.ofNat 3 x, BitVec.ofNat 5 (x / 2 ^ 3), im 0x94 4 % 2 ^ 21, BitVec.ofNat 256 (im 0x300 32),
    BitVec.ofNat 256 (im 0x320 32), BitVec.ofNat 32 (im 0x98 4), BitVec.ofNat 32 (im 0x9C 4),
    if x / 2 ^ 11 % 2 = 1 then some (BitVec.ofNat 3 (x / 2 ^ 8)) else none, m % 2 ^ 21, 0, 0, false, true, none, []⟩

/-- The token of an operation that an edit of the image has dropped: `MSTEP` has pend = 0 and the pending tile names a token
still. It is signalled, as that of an operation dropped by `exit` is, so that a wait on it ends (R276, R370; DEDUCED,
log 82). -/
def droppedTok (im : Image) : Option Nat :=
  let x := im 0x90 4
  if im 0x38 4 / 2 ^ 31 % 2 = 0 && x / 2 ^ 11 % 2 = 1 then some (x / 2 ^ 8 % 8) else none

/-- A nonzero `rsv` of a control record (R363, R364), that of `FPST` too (R106). -/
def rsvBad (im : Image) : Bool :=
  im 0x08 4 / 2 ^ 19 ≠ 0 || im 0x1C 4 / 2 ^ 6 ≠ 0 || im 0x26 2 ≠ 0 || im 0x3C 4 ≠ 0 || im 0x46 2 ≠ 0 || im 0x90 4 / 2 ^ 12 ≠ 0 || im 0xA0 32 ≠ 0 ||
  im 0xE0 32 ≠ 0 || im 0x364 4 / 2 ^ 5 ≠ 0 || im 0x3C8 56 ≠ 0 || im 0x1A00 1536 ≠ 0 || im 0x38 4 / 2 ^ 21 % 2 ^ 10 ≠ 0 ||
  im 0x110 8 / 2 ^ 7 ≠ 0 || im 0x190 8 / 2 ^ 7 ≠ 0 || im 0x100 8 / 2 ^ 35 ≠ 0 || im 0x180 8 / 2 ^ 35 ≠ 0 ||
  (List.range 3).any (fun n => im (0x6C + 16 * n) 4 ≠ 0 || im (0x374 + 16 * n) 4 ≠ 0 || im (0x3A4 + 16 * n) 4 ≠ 0) ||
  (List.range 4).any (fun i => im (0x429 + 64 * i) 1 / 2 ≠ 0 || im (0x42A + 64 * i) 22 ≠ 0) ||
  (List.range 16).any (fun i => im (0x509 + 16 * i) 7 ≠ 0) ||
  (List.range 32).any fun i => im (0x80C + 144 * i) 1 / 4 ≠ 0 || im (0x80D + 144 * i) 3 ≠ 0

/-- The nesting ranks of the active loops are each of 0 to their number less one (R365). -/
def ranksBad (t : Tab LoopRec) : Bool :=
  !(List.range t.length).all fun r => (t.filter fun e => e.2.rank = r).length = 1

/-- An image of a warp is malformed (R365); `n` is the word count of the header at its restart point, where that can be
read. -/
def imageBad (im : Image) (nv : Nat) (n : Option Nat) : Bool :=
  let st := im 0x08 4
  let kind := st % 16
  let j := st / 2 ^ 4 % 16
  rsvBad im || 32 < im 0x21 1 || 16 < im 0x22 1 || 4 < kind || 2 < st / 2 ^ 17 % 4 ||
  (match n with
    | some k => kind ≤ 2 && j ≠ 0 && k ≤ j || (kind = 1 || kind = 2) && k = 0 || kind = 3 && k < j
    | none => false) ||
  (List.range 4).any (fun i =>
    let x := webAt im i
    x.bound && (webMalformed x.desc || nv ≤ x.reg.toNat)) ||
  (match tileAt im with
    | some t => 7 < t.fmt.toNat || (im 0x25 1) / 2 ^ t.acc.toNat % 2 = 0 ||
        (mapCause t.fmt t.mapA t.mapB (BitVec.ofNat 64 t.k)).isSome
    | none => false) ||
  ranksBad (loopsAt im 0x60 (im 0x23 1 % 8))

/-- Batches of a restored warp: a closed one whose commands have all completed leaves the list (R365). -/
def batchesAt (im : Image) (W : Warp) (done : List (Nat × Nat)) (w : Nat) : Tab Nat :=
  let keys := W.closed.map Prod.fst
  let key (b : Nat) : Nat := keys.getD b (W.openId + 1 + b)
  (List.range (min 8 (im 0x364 4 % 16))).filterMap fun b =>
    let c := im (0x340 + 4 * b) 4 - (done.filter fun e => e = (w, key b)).length
    if c = 0 then none else some (key b, c)

/-- The warp that an image holds (R363 to R365). `DECK` takes the three bits as written, a code of 0, 6 or 7 too (DESIGN CHOICE,
log 73: R365 lists no check of it). A warp that restarts inside a clause has no words yet: its header is read again before
it issues (R41). -/
def warpFrom (im : Image) (W : Warp) (w core : Nat) (doneTok doneBatch : List (Nat × Nat)) : Warp :=
  let st := im 0x08 4
  let kind := st % 16
  let reth : W64 := BitVec.ofNat 64 (im 0 8)
  let ev (k : Nat) : Nat := im 0x28 8 / 2 ^ (6 * k) % 64 - (doneTok.filter fun e => e = (w, k)).length
    - (if droppedTok im = some k then 1 else 0)
  let mode := im 0x24 1 % 2 = 1
  let claim : BitVec 8 := BitVec.ofNat 8 (im 0x25 1)
  let v := tabFrom 0 (32 * W.nv) fun i => (BitVec.ofNat 32 (im (0x2000 + 4 * i) 4) : W32)
  { W with
    core := core
    gangId := BitVec.ofNat 32 (im 0x40 4)
    warpId := BitVec.ofNat 5 (im 0x44 1)
    groupId := BitVec.ofNat 2 (im 0x45 1)
    stat := if kind = 3 then .waitBar (st / 2 ^ 13 % 16) else .running
    level := st / 2 ^ 17 % 4
    pc := reth
    started := kind ≠ 0
    word := if kind = 0 then 0 else st / 2 ^ 4 % 16
    n := 0
    code := []
    codeAt := 0
    ports := 0
    flow := decide (kind = 3)
    ridx := if kind = 2 then st / 2 ^ 8 % 32 else 0
    barH := reth
    barJ := st / 2 ^ 4 % 16
    exm := BitVec.ofNat 32 (im 0x0C 4)
    fltm := BitVec.ofNat 32 (im 0x10 4)
    demm := BitVec.ofNat 32 (im 0x14 4)
    deadm := BitVec.ofNat 32 (im 0x18 4)
    fpst := BitVec.ofNat 6 (im 0x1C 4)
    deck := BitVec.ofNat 3 (im 0x20 1)
    mode := mode
    mclaim := claim
    mrowm := BitVec.ofNat 32 (im 0x30 4)
    mcolm := BitVec.ofNat 32 (im 0x34 4)
    ev := tabFrom 0 6 ev
    lc := tabFrom 0 3 fun i => (BitVec.ofNat 64 (im (0x48 + 8 * i) 8) : W64)
    loops := loopsAt im 0x60 (im 0x23 1 % 8)
    calls := ((List.range (im 0x22 1)).map fun i =>
      (⟨BitVec.ofNat 64 (im (0x500 + 16 * i) 8), im (0x508 + 16 * i) 1⟩ : CallRec)).reverse
    reel := ((List.range (im 0x21 1)).map (reelAt im)).reverse
    v := v
    s := tabFrom 0 64 fun i => if i = 0 then 0 else (BitVec.ofNat 64 (im (0x600 + 8 * i) 8) : W64)
    p := tabFrom 0 8 fun i => (BitVec.ofNat 32 (im (0xC0 + 4 * i) 4) : W32)
    m := tabFrom 0 8 fun i => (BitVec.ofNat 256 (im (0x200 + 32 * i) 32) : BitVec 256)
    w := tabFrom WebSlot.blank 4 (webAt im)
    cells := if mode then v.filter fun e => inClaim claim e.1 else []
    h := bankAt im 0x100 0x368 W.h
    k := bankAt im 0x180 0x398 W.k
    kuser := BitVec.ofNat 64 (im 0x1C0 8)
    tile := tileAt im
    pend := []
    fence := none
    closed := batchesAt im W doneBatch w
    openN := im 0x360 4 - (doneBatch.filter fun e => e = (w, W.openId)).length
    openUsed := im 0x364 4 / 16 % 2 = 1
    verdicts := []
    waits := 0
    lag := 0 }

/-- Restore one warp of a group from its image at `a`; kind 4 is a warp that had retired. -/
def restoreWarp (s : State) (job : Nat) (a : W64) (w core : Nat) (x : Gang) : State :=
  let im : Image := fun o n => getVa s job (a + BitVec.ofNat 64 o) n
  let W := getW s w
  if im 8 4 % 16 = 4 then updW s w fun W => { W with stat := if warpGone W then W.stat else .retired, core := core }
  else
    resumeTile (setW s w (takeSlots s (4 * core + W.wid % 4) (pkTether (warpPkt s W))
      (warpFrom im W w core x.doneTok x.doneBatch))) w

/-- The offsets in a gang's image of its warps' images. -/
def warpOffsets (p : BitVec 1024) : List (Nat × Nat × Nat) :=
  (List.range (pkGang p)).flatMap fun i => (List.range (pkGroup p)).map fun k =>
    (i, k, 0x100 + i * groupImage p + 0x100 + pkScratch p + k * warpImage p)
/-- The warp of a gang whose image stands `i` groups and `k` warps in, with the verdicts that the launch engine holds. -/
def warpOf (s : State) (g i k : Nat) : Warp :=
  { getW s ((getG s ((getGang s g).groups.getD i 0)).warps.getD k 0) with verdicts := lvs s (.gang g) }

/-- Whether any warp image of a gang, or a `rsv` around them, is malformed; one that cannot be read, or that holds uncorrectable
data, is taken as such (DESIGN CHOICE, logs 37 and 77). -/
def gangImageBad (s : State) (g : Nat) (base : W64) : Bool :=
  let x := getGang s g
  let L := getL s x.launch
  let p := L.packet
  let im (b : Nat) : Image := fun o n => getVa s L.job (base + BitVec.ofNat 64 (b + o)) n
  decide (runState s g L.job base (imageSize p) .read ≠ .ok) || (runDead s L.job base (imageSize p)).isSome || im 0 0x85 123 ≠ 0 ||
  pkRsv (BitVec.ofNat 1024 (im 0 0 128)) ||
  (List.range x.groups.length).any (fun i =>
    let gb := 0x100 + i * groupImage p
    im gb 0x80 128 ≠ 0 || (List.range 16).any fun n => im gb (8 * n) 8 / 2 ^ 14 ≠ 0) ||
  (warpOffsets p).any fun e =>
    let wi := im e.2.2
    let hdr : Option Nat := match fetchWord s (warpOf s g e.1 e.2.1) (BitVec.ofNat 64 (wi 0 8)) with
      | (.ok _, h) => some (h.toNat / 2 ^ 22 % 16)
      | _ => none
    imageBad wi (pkVregs p) hdr

/-- What a restore meets in an image that it cannot use is recorded: a malformed entry on the way to it, and uncorrectable data
(R374, R417, R420). -/
def imageReport (s : State) (g : Nat) (base : W64) : State :=
  let L := getL s (getGang s g).launch
  let p := L.packet
  match runState s g L.job base (imageSize p) .read, runDead s L.job base (imageSize p) with
  | .bad e, _ => reportBad s L.job e .read (.launcher (.gang g))
  | .dead pa, _ => consumed s none pa 8 3 L.job (pkId p)
  | _, some pa => consumed s none pa 32 3 L.job (pkId p)
  | _, none => s
/-- The malformed entries on the way to the headers of restart points that the check of a gang's images reads (R374). -/
def headerBads (s : State) (g : Nat) (base : W64) : List BadEntry :=
  let x := getGang s g
  let L := getL s x.launch
  (warpOffsets L.packet).filterMap fun e =>
    let im (o n : Nat) : Nat := getVa s L.job (base + BitVec.ofNat 64 (e.2.2 + o)) n
    if im 8 4 % 16 = 4 || im 8 4 % 256 = 0 then none
    else match fetchWord s (warpOf s g e.1 e.2.1) (BitVec.ofNat 64 (im 0 8)) with
      | (.fault _ bad, _) => bad
      | _ => none
def headerReport (s : State) (g : Nat) (base : W64) : State :=
  (headerBads s g base).foldl (fun t b => reportBad t (getL t (getGang t g).launch).job (some b) .fetch (.launcher (.gang g))) s

/-- Restore one group on a core: its scratchpad, barriers and warps. -/
def restoreGroup (s : State) (g i core : Nat) (base : W64) : State :=
  let x := getGang s g
  let L := getL s x.launch
  let p := L.packet
  let h := x.groups.getD i 0
  let gb := base + BitVec.ofNat 64 (0x100 + i * groupImage p)
  let bar (n : Nat) : Bar :=
    let v := getVa s L.job (gb + BitVec.ofNat 64 (8 * n)) 8
    ⟨v % 64, v / 2 ^ 6 % 64, v / 2 ^ 12 % 2 = 1, v / 2 ^ 13 % 2 = 1⟩
  let s1 := updG s h fun G => { G with
    core := core
    bars := tabFrom Bar.blank 16 bar
    scratch := tabFrom 0 (pkScratch p) fun o => (BitVec.ofNat 8 (getVa s L.job (gb + BitVec.ofNat 64 (0x100 + o)) 1) : Byte) }
  (List.range (pkGroup p)).foldl (fun t k =>
    restoreWarp t L.job (gb + BitVec.ofNat 64 (0x100 + pkScratch p + k * warpImage p)) ((getG t h).warps.getD k 0) core x) s1

/-- Restore a saved gang on cores: a malformed image kills the launch with code 0x07. -/
def restoreGang (s0 : State) (g slot : Nat) (cores : List Nat) : State :=
  let x := getGang s0 g
  let L := getL s0 x.launch
  let base := slotBase (xhEntry s0 L.job) slot
  let s := headerReport s0 g base
  if gangImageBad s g base then endLaunch (imageReport s g base) x.launch 4 7
  else
    -- the cores are opened while the gang is still away, then it takes them before its warps run
    let s1 := updGang (cores.foldl openCore s) g fun y => { y with
      stat := startStat s L.packet, doneTok := [], doneBatch := [] }
    let s2 := (cores.zip (List.range cores.length)).foldl (fun t c => restoreGroup (updGang t g fun y => { y with
      doneTok := x.doneTok, doneBatch := x.doneBatch }) g c.2 c.1 base) s1
    updL (updGang (freeSlot s2 L.job slot) g fun y => { y with doneTok := [], doneBatch := [] }) x.launch fun L =>
      { L with waitFrom := some s.clock, starved := false }

/-- Restore gangs one after another, each on cores where it fits. -/
def restoreAll (s : State) (gs : List Nat) (cores : List Nat) : Option State :=
  match gs with
  | [] => if cores = [] then some s else none
  | g :: r =>
    let p := (getL s (getGang s g).launch).packet
    let cs := cores.take (pkGang p)
    match (getGang s g).stat with
    | .saved slot =>
      if gangFits s p cs then restoreAll (restoreGang s g slot cs) r (cores.drop (pkGang p)) else none
    | .held | .running | .stopping _ | .released => some s

/-- Whether the page of a restart point's header must be served before a gang's images can be checked (R363, R379). -/
def headerWait (s : State) (g : Nat) (base : W64) : Option WaitWhy :=
  let x := getGang s g
  let L := getL s x.launch
  (warpOffsets L.packet).findSome? fun e =>
    let im (o n : Nat) : Nat := getVa s L.job (base + BitVec.ofNat 64 (e.2.2 + o)) n
    if im 8 4 % 16 = 4 || im 8 4 % 256 = 0 then none
    else match fetchWord s (warpOf s g e.1 e.2.1) (BitVec.ofNat 64 (im 0 8)) with
      | (.wait y, _) => some y
      | _ => none

/-- Whether a page of the images of gangs, or of their headers, must be served first. -/
def imageWait (s : State) (gs : List Nat) : Option (Nat × Nat × WaitWhy × AccKind) :=
  gs.findSome? fun g =>
    let L := getL s (getGang s g).launch
    match (getGang s g).stat with
    | .saved slot =>
      let base := slotBase (xhEntry s L.job) slot
      match runState s g L.job base (imageSize L.packet) .read with
      | .wait y => some (g, L.job, y, .read)
      | .ok => (headerWait s g base).map fun y => (g, L.job, y, .fetch)
      | .bad _ => none
      | .dead _ => none
    | .held | .running | .stopping _ | .released => none

/-- A saved gang returns to placement ahead of its launch's unplaced gangs; a co-resident launch returns whole (R339,
R340). -/
def execGangRestore (g : Nat) (cores : List Nat) (s : State) : Out :=
  let L := getL s (getGang s g).launch
  let gs := if pkCores L.packet then savedGangs s L else [g]
  let peers := pkCores L.packet && L.gangs.any fun h => match (getGang s h).stat with
    | .held | .running | .stopping _ => true
    | .saved _ | .released => false
  if peers || s.stage ≠ 3 || !wantsPlace s L || (savedGangs s L).head? ≠ some g ||
      !mayPlace s (getGang s g).launch then .next s
  else match imageWait s gs with
    | some (h, job, y, acc) => .next (waitOn s job y acc (.launcher (.gang h)))
    | none =>
      let reps := (gs.map fun h => match (getGang s h).stat with
        | .saved slot => (headerBads s h (slotBase (xhEntry s L.job) slot)).length
        | .held | .running | .stopping _ | .released => 0).foldl (· + ·) 0
      -- the records that the headers' entries need must be had (R380)
      if 0 < reps && 1024 < s.xrecs.length + reps then .next s else
      match restoreAll s gs cores with
      | some t => withLines s (cores.flatMap (coreLines s)) <| .next (gs.foldl (fun u h => spendVerdicts u (.gang h)) t)
      | none => .next s

/-! Code swap (R367) -/

/-- A write to XSWAP with the PA of a descriptor. -/
def execSwapStart (v : W64) (s : State) : Out :=
  if s.swap.isSome || s.stage ≠ 3 then .next s
  else holdIn s 1 (.swapStart v) <| withPa v.toNat 64 <| holdDue s (runDue s v.toNat 64) (.swapStart v) <|
    let d := tblRead s v.toNat 64
    let obase : W64 := BitVec.ofNat 64 d
    let nbase : W64 := BitVec.ofNat 64 (d / 2 ^ 64)
    let job := d / 2 ^ 224 % 256
    match (List.range s.launches.length).find? fun l =>
      let L := getL s l
      !L.complete && L.endState = 0 && L.job = job && pkId L.packet = d / 2 ^ 192 % 2 ^ 32 with
    | none => .next { s with swapBad := true }
    | some l =>
      if d / 2 ^ 232 ≠ 0 || obase.toNat % 4 ≠ 0 || nbase.toNat % 4 ≠ 0 ||
          (pkEntry (getL s l).packet).toNat < obase.toNat then .next { s with swapBad := true }
      else
        let ws := (List.range s.warps.length).filter fun w => (getW s w).launch = l && !warpGone (getW s w)
        .next (endSwap { s with
          swap := some ⟨l, obase, nbase, BitVec.ofNat 64 (d / 2 ^ 128), ws⟩, swapBad := false, swapCount := 0 })

end Sys2Proof.Machine
end

