-- ==== Sys2Proof/Machine/FabricOps.lean ====
section
/-! DEFINITION. What the source of a fabric command does (spec/09 R253 to R256; spec/21 R396 to R401): cutting it into packets,
resends, and its completion. -/

namespace Sys2Proof.Machine

/-! Cutting a command into packets (R254, R396) -/

/-- The fields of a fabric descriptor (R253). -/
def fdLocal (d : BitVec 512) : W64 := fldA d 0
def fdRemote (d : BitVec 512) : W64 := fldA d 64
def fdLen (d : BitVec 512) : Nat := fld d 128 32
def fdGroup (d : BitVec 512) : BitVec 16 := BitVec.ofNat 16 (fld d 160 16)
def fdRelaxed (d : BitVec 512) : Bool := d.getLsbD 176
def fdClose (d : BitVec 512) : Bool := d.getLsbD 177
def fdSigadd (d : BitVec 512) : Bool := d.getLsbD 178
def fdAfmt (d : BitVec 512) : Nat := fld d 179 3
def fdScr (d : BitVec 512) : Bool := d.getLsbD 182

def afmtBytes (f : Nat) : Nat :=
  match f with
  | 2 => 8
  | 3 => 2
  | _ => 4
def hasSignal (k : CmdKind) : Bool := k = .rputSig || k = .rsig

/-- The error of a descriptor that is found before anything is sent. R253 gives close to `rput.sig` and `rsig` only and does not
say what the bit does in another descriptor: it makes the descriptor malformed (DESIGN CHOICE, log 86).
An element format of 4 to 7 is malformed in `radd` alone, whose field it is, and ignored elsewhere (DESIGN CHOICE, log 88). -/
def fdError (k : CmdKind) (d : BitVec 512) : Nat :=
  if fld d 384 128 ≠ 0 || fld d 183 9 ≠ 0 || (k = .radd && 3 < fdAfmt d) || (fdClose d && !hasSignal k) ||
      (if k = .rsig then fdLen d ≠ 0 else fdLen d = 0) || (k = .radd && fdLen d % afmtBytes (fdAfmt d) ≠ 0) then 0x01
  else if (hasSignal k && fld d 192 64 % 8 ≠ 0) ||
      (k = .radd && (fdRemote d).toNat % afmtBytes (fdAfmt d) ≠ 0) then 0x04
  else if (k ≠ .rsig && !canonical (fdRemote d)) || (hasSignal k && !canonical (fldA d 192)) then 0x05
  else 0

/-- The peer of a command: without a peer prefix it is this device, over the same path (R247). -/
def cmdPeer (s : State) (c : Cmd) : W64 := c.peer.getD (BitVec.ofNat 64 (devId s))
/-- Where the packets of a command go: its peer key, and the ports, or none. -/
def cmdKey (s : State) (c : Cmd) : Nat := peerKey ((cmdPeer s c).toNat % 1024) ((cmdPeer s c).getLsbD 15)
def cmdPorts (s : State) (c : Cmd) (relaxed : Bool) : Option (List Nat) :=
  let p := cmdPeer s c
  if p.getLsbD 15 then (bridleOf s (p.toNat % 1024)).map fun e => maskPorts e.1 ++ (if e.2 then [63] else [])
  else (pickPort s (p.toNat % 1024) relaxed).map fun q => [q]

/-- A signal's packet, whose afmt field carries nothing else, says there that its command has policy mem (DESIGN CHOICE, log
19). -/
def afmtOf (c : Cmd) (d : BitVec 512) (op : Nat) : Nat := if 4 ≤ op then (if c.mem then 1 else 0) else fdAfmt d
/-- A packet of a command. -/
def cmdPacket (s : State) (c : Cmd) (d : BitVec 512) (op : Nat) (remote : W64) (len : Nat) (data : List Byte) (value : W64)
    (last : Bool) : Packet where
  remote := remote
  seq := 0
  group := fdGroup d
  job := BitVec.ofNat 8 c.job
  src := BitVec.ofNat 10 (devId s)
  dst := BitVec.ofNat 10 (cmdPeer s c).toNat
  mc := (cmdPeer s c).getLsbD 15
  relaxed := fdRelaxed d && op < 4
  close := fdClose d && 4 ≤ op
  last := last
  op := BitVec.ofNat 4 op
  afmt := BitVec.ofNat 3 (afmtOf c d op)
  value := value
  len := BitVec.ofNat 16 len
  data := data
  crc := 0

def dataOp (k : CmdKind) : Nat :=
  match k with
  | .rget => 1
  | .radd => 3
  | _ => 0

/-- The open group of a command's descriptor. -/
def ofGroup (s : State) (c : Cmd) (d : BitVec 512) (g : OpenGroup) : Bool :=
  g.warp = c.warp && g.key = cmdKey s c && g.grp = fdGroup d
/-- A group's packets took these ports: data open the group, and a signal belongs to one that is open (R401). -/
def noteGroup (s : State) (c : Cmd) (d : BitVec 512) (data : Bool) (ports : List Nat) : State :=
  if fdGroup d = 0 || dataOp c.kind ≠ 0 then s
  else if s.openGroups.any (ofGroup s c d) then
    { s with openGroups := s.openGroups.map fun g => if ofGroup s c d g then { g with ports := g.ports ++ ports } else g }
  else if data then { s with openGroups := s.openGroups ++ [⟨c.warp, cmdKey s c, fdGroup d, ports⟩] }
  else s

/-- The next data packet's bytes: up to 4,096, and none across a 4 KiB boundary of the remote address. -/
def nextLen (d : BitVec 512) (done : Nat) : Nat :=
  min (fdLen d - done) (4096 - (fdRemote d + BitVec.ofNat 64 done).toNat % 4096)

/-- What one turn of a command's work at the source comes to. -/
inductive Pump where
  /-- Something was done; there may be more. -/
  | more (s : State)
  /-- It waits for acknowledgements, the window or a page. -/
  | held (s : State)

/-- Descriptor `i` sends packets: it is well-formed, its group has not been aborted, and `p` holds of it. -/
def sends (c : Cmd) (i : Nat) (p : BitVec 512 → Bool) : Bool :=
  !c.cut.contains i && match c.descs.getD i (.bad 0) with
    | .ok d => fdError c.kind d = 0 && p d
    | .bad _ => false
/-- A later descriptor of the command sends packets, so that none of this one's is the command's last (R396). -/
def restSends (c : Cmd) : Bool := (List.range c.descs.length).any fun i => c.at_ < i && sends c i fun _ => true
/-- A later descriptor has packets of the ordered channel to send. -/
def restOrdered (c : Cmd) : Bool :=
  (List.range c.descs.length).any fun i => c.at_ < i && sends c i fun d => !fdRelaxed d
/-- What the value of a put's or an add's packet says: its command, whether that has policy mem, and its descriptor (DESIGN
CHOICE, log 19). -/
def putKey (c : Cmd) : Nat := 2 ^ 32 * c.id + (if c.mem then 2 ^ 31 else 0) + c.at_

def failCmd (s : State) (c : Cmd) (code : Nat) : State :=
  updCmd s c.id fun e => { e with failed := if e.failed = 0 then code else e.failed, started := true }

/-- Send the next data packet of a descriptor. Its value, which the spec gives signals and answers only, names the command: to a
request's answer with the offset, to the target of a put so that it can tell puts apart and knows the policy (DESIGN CHOICE, log
19). -/
def sendData (s : State) (c : Cmd) (d : BitVec 512) : Pump :=
  match cmdPorts s c (fdRelaxed d) with
  | none => .more (failCmd s c 0x09)
  | some ports =>
    if !txRoom s (cmdKey s c) then .held s
    else
      let n := nextLen d c.done
      let o : W64 := BitVec.ofNat 64 c.done
      let last := c.done + n = fdLen d && !hasSignal c.kind && !restSends c
      let go (u : State) (data : List Byte) (value : W64) (acks : Nat) : Pump :=
        let u1 := noteGroup (sendOn u (cmdKey s c) ports
          (cmdPacket s c d (dataOp c.kind) (fdRemote d + o) n data value last) (some c.id)) c d true ports
        .more (updCmd u1 c.id fun e => { e with
          done := e.done + n, packets := e.packets + acks * ports.length, started := true })
      if c.kind = .rget then go s [] (BitVec.ofNat 64 (2 ^ 32 * c.id + c.done)) 2
      else match engRead s c (fdScr d) (fdLocal d + o) n with
        | (v, none) => go s (leBytes n v) (BitVec.ofNat 64 (putKey c)) 1
        | (_, some (.wait y a)) => .held (cmdWait s c (y, a))
        | (_, some e) => .more (failCmd (noteStop s c e) c (stopCode e))

/-- Send the signal of a descriptor on the ordered channel (R399). -/
def sendSignal (s : State) (c : Cmd) (d : BitVec 512) : Pump :=
  match cmdPorts s c false with
  | none => .more (failCmd s c 0x09)
  | some ports =>
    if !txRoom s (cmdKey s c) then .held s
    else
      let op := if fdSigadd d then 5 else 4
      let u := noteGroup (sendOn s (cmdKey s c) ports
        (cmdPacket s c d op (fldA d 192) 0 [] (fldA d 256) (!restSends c)) (some c.id)) c d false ports
      .more (updCmd u c.id fun e => { e with packets := e.packets + ports.length, sig := true, started := true })

/-- A put of a group that is still open at this source: it completes with its group, which may still be aborted (R401). -/
def groupOpen (s : State) (c : Cmd) (d : BitVec 512) : Bool :=
  fdGroup d ≠ 0 && !fdClose d && dataOp c.kind = 0 && s.openGroups.any (ofGroup s c d)
/-- A descriptor of a command that ends with its group belongs to an open group. -/
def owesTo (s : State) (g : OpenGroup) (c : Cmd) (e : Nat × Nat × Nat) : Bool :=
  e.2.2 = 0 && match c.descs.getD e.1 (.bad 0) with
    | .ok d => ofGroup s c d g
    | .bad _ => false
/-- What ends with a group ends published (1) or aborted (2). -/
def settleGroup (s : State) (g : OpenGroup) (how : Nat) : State :=
  { s with cmds := s.cmds.map fun c => { c with owed := c.owed.map fun e => if owesTo s g c e then (e.1, e.2.1, how) else e } }
/-- The closing signal of a group has been acknowledged. -/
def closeGroup (s : State) (c : Cmd) (d : BitVec 512) : State :=
  if fdClose d then
    { (s.openGroups.filter (ofGroup s c d)).foldl (fun t g => settleGroup t g 1) s with
      openGroups := s.openGroups.filter fun g => !ofGroup s c d g }
  else s

/-- The work of a command goes on with its next descriptor. -/
def stepDesc (s : State) (c : Cmd) : State :=
  updCmd s c.id fun e => { e with
    at_ := e.at_ + 1, done := 0, packets := 0, landed := 0, failed := 0, sig := false, verdicts := [] }
/-- End the descriptor in work and go to the next. -/
def nextDesc (s : State) (c : Cmd) (compl : W64) (code prog : Nat) : Pump :=
  match endDesc s c (c.sa + BitVec.ofNat 64 (64 * c.at_)) compl code prog with
  | (_, some y) => .held (cmdWait s c y)
  | (t, none) =>
    if c.at_ + 1 < c.descs.length || c.owed ≠ [] then .more (stepDesc t c) else .held (endCmd t c)
/-- End a descriptor that waited for its group: what a link fault aborted has landed nothing (R255, R401). -/
def endOwed (s : State) (c : Cmd) (e : Nat × Nat × Nat) : Pump :=
  let compl : W64 := match c.descs.getD e.1 (.bad 0) with
    | .ok d => fldA d 320
    | .bad _ => 0
  match endDesc s c (c.sa + BitVec.ofNat 64 (64 * e.1)) compl (if e.2.2 = 1 then 0 else 0x0A) (if e.2.2 = 1 then e.2.1 else 0) with
  | (_, some y) => .held (cmdWait s c y)
  | (t, none) => .more (updCmd t c.id fun x => { x with owed := x.owed.erase e })

/-- An earlier command of the same warp to the same peer still has ordered packets to send (R255). -/
def orderHeld (s : State) (c : Cmd) (d : BitVec 512) : Bool :=
  !fdRelaxed d && s.cmds.any fun e =>
    e.id < c.id && e.warp = c.warp && isFabric e.kind && e.kind ≠ .skmerge && cmdKey s e = cmdKey s c &&
    (restOrdered e || (e.failed = 0 && sends e e.at_ fun x => !fdRelaxed x && (e.done < fdLen x || (hasSignal e.kind && !e.sig))))

/-- What a command sends, where the entry that leads to its peer can be used (R417). -/
def routed (s : State) (c : Cmd) (p : Pump) : Pump :=
  match pathBad s (cmdKey s c) with
  | some pa => .more (failCmd (noteStop s c (.bad pa)) c 0x08)
  | none => p
/-- A grouped put that was refused has landed nothing (R255). -/
def landedOf (c : Cmd) : Nat := if c.failed = 0x0B then 0 else c.landed
/-- One turn of a command's work. A descriptor whose group is still open lets those after it go on and ends with the group. -/
def pumpStep (s : State) (c : Cmd) : Pump :=
  match c.owed.find? fun e => e.2.2 ≠ 0 with
  | some e => endOwed s c e
  | none =>
    if c.descs.length ≤ c.at_ then .held (if c.owed = [] then endCmd s c else s)
    else match c.descs.getD c.at_ (.bad 0x01) with
      | .bad k => nextDesc s c 0 k 0
      | .ok d =>
        let code := if fdError c.kind d = 0 && c.cut.contains c.at_ then 0x0A else fdError c.kind d
        if code ≠ 0 then nextDesc s c (fldA d 320) code 0
        else if c.failed ≠ 0 then (if c.packets = 0 then nextDesc s c (fldA d 320) c.failed (landedOf c) else .held s)
        else if orderHeld s c d then .held s
        else if c.done < fdLen d then routed s c (sendData s c d)
        else if hasSignal c.kind && !c.sig then
          (if fdRelaxed d && c.packets ≠ 0 then .held s else routed s c (sendSignal s c d))
        else if c.packets ≠ 0 then .held s
        else if groupOpen s c d then
          (if c.at_ + 1 < c.descs.length then
            .more (stepDesc (updCmd s c.id fun e => { e with owed := e.owed ++ [(c.at_, c.done, 0)] }) c)
          else .held s)
        else nextDesc (closeGroup s c d) c (fldA d 320) 0 c.done

/-- A command of the warp and peer of an open group: the group, which is in flight, may need it to close (R434). -/
def nearGroup (s : State) (c : Cmd) : Bool := s.openGroups.any fun g => g.warp = c.warp && g.key = cmdKey s c
/-- Carry a command on as far as it goes. -/
def pumpCmd (s : State) (k fuel : Nat) : State :=
  match fuel with
  | 0 => s
  | n + 1 =>
    match s.cmds.find? fun c => c.id = k with
    | none => s
    | some c =>
      if waitsRecord s (.cmd c.id) || (fwHolds s 3 && !c.started && !nearGroup s c) then s
      else match pumpStep s c with
        | .more t => pumpCmd t k n
        | .held t => t

def isPacketCmd (k : CmdKind) : Bool :=
  match k with
  | .rput | .rputSig | .rget | .radd | .rsig => true
  | .cpy | .rsel | .skcfg | .skfold | .skmerge | .tmerge | .spawn | .clean | .inval => false

/-- The packet that tells the target of a group to drop it. -/
def abortPacket (s : State) (job : Nat) (g : OpenGroup) : Packet where
  remote := 0
  seq := 0
  group := g.grp
  job := BitVec.ofNat 8 job
  src := BitVec.ofNat 10 (devId s)
  dst := BitVec.ofNat 10 g.key
  mc := 1024 ≤ g.key
  relaxed := 1024 > g.key
  close := false
  last := true
  op := 8
  afmt := 0
  value := 0
  len := 0
  data := []
  crc := 0

/-- Ports that still lead to a group's target: any usable one of the route, or of the tree. -/
def leftPorts (s : State) (key : Nat) : List Nat :=
  if 1024 ≤ key then
    match bridleOf s (key - 1024) with
    | some e => (maskPorts e.1).filter (portUp s) ++ (if e.2 then [63] else [])
    | none => []
  else if key = devId s then [63]
  else
    let r := routeOf s key
    let ordered := if r.2 = 63 || !portUp s r.2 then [] else [r.2]
    (ordered ++ (maskPorts r.1).filter (portUp s)).take 1

/-- Tell the target of an aborted group, once the peer's window has room (R397, R401). -/
def tellAbort (s : State) (g : OpenGroup) : State :=
  match leftPorts s g.key with
  | [] => s
  | ps =>
    if txRoom s g.key then sendOn s g.key ps (abortPacket s (warpJob s (getW s g.warp)) g) none
    else { s with aborts := s.aborts ++ [g] }

/-- Carry every fabric command on, in the order of issue. -/
def pumpRound (s : State) : State := (s.cmds.filter fun c => isPacketCmd c.kind).foldl (fun t c => pumpCmd t c.id 8192) s
/-- Two rounds: a closing signal that completes in the first ends the puts of its group in the second. -/
def pumpAll (s : State) : State := pumpRound (pumpRound (s.aborts.foldl tellAbort { s with aborts := [] }))

/-! Answers at the source (R397, R398) -/

/-- One answered copy of a packet: `extra` counts data that will not come, `bytes` those that are completed. A read at another
device that fails keeps its code for what asked. -/
def answered (s : State) (cmd : Option Nat) (extra bytes code : Nat) : State :=
  match cmd with
  | none => s
  | some k =>
    let s1 := updCmd s k fun c => { c with
      packets := c.packets - 1 - extra, landed := c.landed + bytes, failed := if c.failed = 0 then code else c.failed }
    if code = 0 then s1 else { s1 with farReads := s1.farReads.map fun r => if r.id = k then { r with code := code } else r }

/-- The launch that a packet was sent for, 0 for none. -/
def launchOf (s : State) (x : Sent) : Nat :=
  let of (l : Nat) : Nat := pkId (getL s l).packet
  match x.cmd with
  | none => 0
  | some k => match s.cmds.find? fun c => c.id = k with
    | some c => of c.launch
    | none => match s.farReads.find? fun r => r.id = k with
      | some ⟨_, .tile w, _, _, _, _, _, _⟩ => of (getW s w).launch
      | some ⟨_, .cmd j, _, _, _, _, _, _⟩ => match s.cmds.find? fun c => c.id = j with
        | some c => of c.launch
        | none => 0
      | _ => 0
/-- A read at another device that a command asked for, and of which no other has failed. -/
def readEnds (s : State) (x : Sent) : Bool :=
  match s.farReads.find? fun r => x.cmd = some r.id && r.code = 0 with
  | some r => (s.cmds.any fun c => r.who = .cmd c.id) && !s.farReads.any fun q => q.who = r.who && q.code ≠ 0
  | none => false
/-- The record of exhausted resends, and the count of the commands that they end (R397, R418, R420). -/
def exhausted (s : State) (x : Sent) : State :=
  let ends := (s.cmds.any fun c => x.cmd = some c.id && c.failed = 0) || readEnds s x
  let s1 := if ends then barSet s 0x200050 (barGet s 0x200050 + 1) else s
  errRecord s1 8 2 (Config.portDie x.port % 8) x.pkt.job.toNat (launchOf s x) (devId s + 2 ^ 16 * (x.port % 64)) 0

/-- A packet of a group took another port (R401). -/
def noteResend (s : State) (key p : Nat) (x : Sent) : State :=
  match x.cmd.bind fun k => s.cmds.find? fun c => c.id = k with
  | none => s
  | some c =>
    if x.pkt.group = 0 || dataOp c.kind ≠ 0 then s
    else { s with openGroups := s.openGroups.map fun g =>
      if g.warp = c.warp && g.key = key && g.grp = x.pkt.group then { g with ports := g.ports ++ [p] } else g }
/-- Send a packet again, on another port of a relaxed route where there is one; after the fifth failed send it is given up
with code 0x0A. -/
def resend (s : State) (key : Nat) (x : Sent) : State :=
  let y := txOf s key
  let drop (l : List Sent) : List Sent := l.erase x
  let extra := if x.pkt.op = 1 then 1 else 0
  if 5 ≤ x.sends then answered (exhausted (putTx s key { y with sent := drop y.sent }) x) x.cmd extra 0 0x0A
  else
    let p := if key < 1024 && x.port ≠ 63 then (pickPort s key x.pkt.relaxed).getD x.port else x.port
    let s1 := noteResend (putTx s key { y with sent := y.sent.map fun e =>
      if e = x then { x with port := p, sends := x.sends + 1 } else e }) key p x
    { s1 with outbox := s1.outbox ++ [(p, x.pkt)], ctr := s1.ctr + 1 }

/-- The packet that an answer names: its copy on the port for a tree, the packet itself for a device. -/
def sentFor (s : State) (key : Nat) (p : Nat) (seq : W32) : Option Sent :=
  (txOf s key).sent.find? fun x => x.pkt.seq = seq && (key < 1024 || x.port = p)

/-- An answer reaches the source: an acknowledgement, a final negative one with its code, or a request to send again. -/
def answer (s : State) (p : Nat) (key : Nat) (seq : W32) (ok : Bool) (code : Nat) : State :=
  match sentFor s key p seq with
  | none => s
  | some x =>
    let y := txOf s key
    let s1 := putTx s key { y with sent := y.sent.erase x }
    -- the bytes of a put are completed with the last copy that is answered
    let more := (txOf s1 key).sent.any fun e => e.pkt.seq = seq
    if ok then pumpAll (answered s1 x.cmd 0 (if more then 0 else x.pkt.data.length) 0)
    else if code = 0 then pumpAll (resend s key x)
    else pumpAll (answered s1 x.cmd (if x.pkt.op = 1 then 1 else 0) 0 code)

end Sys2Proof.Machine
end

