-- ==== Sys2Proof/Machine/Sketch.lean ====
section
/-! DEFINITION. The sketch engine's commands (spec/11 R289 to R299). -/

namespace Sys2Proof.Machine

def execSkcfg (a d : BitVec 6) (r : BitVec 1) (x : EPfx) (s : State) : Out :=
  descOp s a 0 d r x .skcfg false false fun t _ => t
def execSkmerge (a d : BitVec 6) (r : BitVec 1) (x : EPfx) (s : State) : Out :=
  descOp s a 0 d r x .skmerge false false fun t _ => t

/-- `skfold` has no descriptor: its acceptance looks at the window base (R291). -/
def execSkfold (a b d : BitVec 6) (r : BitVec 1) (x : EPfx) (s : State) : Out :=
  engineOp s a b d r x false fun w W =>
    let base := sGet W a
    if !canonical base || base.toNat % 2 ^ 47 ≠ 0 then
      .next (advance (replyOr s w r d 2 (if canonical base then 0x10 else 0x05) base) w (lenE x))
    else
      withLines s (coreLines s W.core) <|
      let s1 := l1WriteBack s W.core
      let c := { newCmd s1 w .skfold x base (sGet W b) none with verdicts := [] }
      .next (advance (replyOr (accept s1 w c) w r d 0 0 0) w (lenE x))

/-! Order of the commands of a window (R298) -/

/-- The source of a merge lies at another device (R293). -/
def mergeFar (s : State) (c : Cmd) : Bool :=
  match c.peer with
  | some p => p.toNat % 1024 ≠ devId s
  | none => false
/-- The windows that a command names as destination or as local source. -/
def skWindows (s : State) (c : Cmd) : List W64 :=
  match c.kind, c.descs with
  | .skcfg, [.ok d] => [fldA d 0]
  | .skfold, _ => [c.sa]
  | .skmerge, [.ok d] => if mergeFar s c then [fldA d 0] else [fldA d 0, fldA d 64]
  | _, _ => []
/-- Every command that was accepted earlier and names one of its windows is over. -/
def skTurn (s : State) (c : Cmd) : Bool :=
  s.cmds.all fun e => !(e.id < c.id && e.job = c.job && (skWindows s e).any fun v => (skWindows s c).contains v)

/-! The body of a region -/

/-- The offsets of one byte of each page of a run, and of its last byte. -/
def pageOffs (len : Nat) : List Nat := ((List.range ((len + 65535) / 65536)).map (65536 * ·)) ++ [len - 1]

/-- The first translation of the pages of a body that fails as an engine code, in the order of R290: what no service can mend
goes before a page that must be served, and that before the rest. What a write alone waits for comes later. A body whose
frames have left the home stack is carried on with by `skfold` and `skmerge`: R290 gives cause 7 for accesses only (DESIGN
CHOICE, log 83). -/
def bodyCheck (s : State) (c : Cmd) (body : W64) (len : Nat) (acc : AccKind) : Option Stop :=
  let ps := (pageOffs len).map fun o => engGlobal s c.job (body + BitVec.ofNat 64 o) acc c.verdicts
  let has (k : Nat) : Bool := ps.any fun p => decide (p = .err k)
  let first (f : EngAt → Option Stop) : Option Stop := ps.findSome? f
  let wait := first fun p => match p with | .wait y => if writeWait y then none else some (.wait y acc) | _ => none
  let mal := first fun p => match p with | .mal b => some (.mal b acc) | _ => none
  let dead := first fun p => match p with | .dead a => some (.bad a) | _ => none
  if has 0x05 then some (.err 0x05)
  else if has 0x07 then some (.err 0x07)
  else if wait.isSome then wait
  else if mal.isSome then mal
  else if has 0x02 then some (.err 0x02)
  else if has 0x03 then some (.err 0x03)
  else dead

/-- What the writes of a run of a body, once it has been checked, still wait for: a copy, lines that the host holds, or a refresh
(R383, R388, R413). -/
def bodyHeld (s : State) (c : Cmd) (body : W64) (len : Nat) : Option WaitAcc :=
  match (pageOffs len).findSome? fun o => match engGlobal s c.job (body + BitVec.ofNat 64 o) .atomic c.verdicts with
    | .wait y => some (y, .atomic)
    | _ => none with
  | some y => some y
  | none => match heldVa s c.job body len with
    | l :: _ => some (.line l, .atomic)
    | [] => if dueVa s c.job body len then some (.refresh, .atomic) else none

/-- The stacks of the frames of a body. -/
def bodyStacks (s : State) (job : Nat) (body : W64) (len : Nat) : List Nat :=
  (pageOffs len).map fun o =>
    match peekPa s job (body + BitVec.ofNat 64 o) with
    | some pa => if paSpace pa < 2 then paStack pa else 8
    | none => 8

/-- The first unit of uncorrectable data in a run of a body. -/
def bodyPoison (s : State) (b : Binding) (off len : Nat) : Option Nat :=
  (mappedRuns s b.job (b.body + BitVec.ofNat 64 off) len).findSome? fun r => badIn s r.1 r.2

/-- An uncorrectable error in the cells sets err (R287). -/
def setErr (s : State) (r : Region) : State :=
  let h := hdrGet s r
  hdrPut h.1 r { h.2 with flags := h.2.flags ||| flErr }

/-- Flags, n and pop of a header lie in its first unit, which a command that counts consumes (R417). -/
def hdrPoison (s : State) (b : Binding) : Option Nat := bodyPoison s b 0 32
/-- The slots of the duplicate window (R296). -/
def slotPoison (s : State) (b : Binding) : Option Nat := bodyPoison s b 64 128
/-- A sketch command that meets uncorrectable data of a region: in the header that it reads it ends with 0x08 (R299, R417); in
the `n` bytes of cells at `lo` it sets err too, once the header can be written (R287). -/
inductive Struck where
  | no | stop (t : State) (pa : Nat) | wait (y : WaitAcc)
/-- The same of the cells alone. -/
def cellsStruck (s : State) (c : Cmd) (b : Binding) (lo n : Nat) : Struck :=
  match bodyPoison s b lo n with
  | some pa => match bodyHeld s c b.body 256 with
    | some y => .wait y
    | none => .stop (setErr s ⟨b, none⟩) pa
  | none => .no
def struck (s : State) (c : Cmd) (b : Binding) (lo n : Nat) : Struck :=
  match hdrPoison s b with
  | some pa => .stop s pa
  | none => cellsStruck s c b lo n

/-- Count the cells that are not zero. -/
def recount (s : State) (r : Region) : State × Nat :=
  let x := cellsGet s r (allCells r.b)
  (x.1, (x.2.filter (· ≠ 0)).length)

/-- Write every byte of header and cells to zero. -/
def zeroBody (s : State) (r : Region) (len : Nat) : State :=
  let s1 := (List.range len).foldl (fun t i => rgWrite t r i 1 0) s
  clearCovered s1 (mappedRuns s r.b.job r.b.body len)

/-- A command's cell writes have reached DRAM when its policy asks for it (R298). -/
def flushBody (s : State) (c : Cmd) (b : Binding) : State :=
  if c.mem then
    flushSectors s ((mappedRuns s b.job b.body (256 + cellBytes b.type b.lgsize b.depth)).flatMap runSectors)
  else s

/-- A sketch command with a completion word ends in `t`; while its completion word waits for a page it stays in `s`. -/
def skEnd (s t : State) (c : Cmd) (compl : W64) (code prog : Nat) : Out :=
  match endDesc t c c.sa compl code prog with
  | (_, some y) => .next (cmdWait s c y)
  | (t, none) => .next (endCmd t c)

/-! skcfg (R289, R290) -/

/-- A malformed descriptor of `skcfg`. -/
def skcfgBad (d : BitVec 512) : Bool :=
  let type := fld d 256 4
  let lg := fld d 260 6
  let depth := fld d 266 4
  let thr := fld d 270 8
  fld d 279 233 ≠ 0 || 6 < type ||
  if type = 0 then lg ≠ 0 || depth ≠ 0 || thr ≠ 0 || d.getLsbD 278 || fld d 128 64 ≠ 0 || fld d 64 64 ≠ 0
  else lg < (lgRange type).1 || (lgRange type).2 < lg ||
    (if type ≤ 4 then depth = 0 || 8 < depth else depth ≠ 0) || (2 < type && thr ≠ 0)

def skcfgBinding (d : BitVec 512) (job home : Nat) : Binding where
  job := job
  window := fldA d 0
  body := fldA d 64
  type := fld d 256 4
  lgsize := fld d 260 6
  depth := fld d 266 4
  thr := if fld d 270 8 = 0 then 128 else fld d 270 8
  seed := fldA d 128
  home := home

def unbind (s : State) (job : Nat) (w : W64) : State :=
  { s with bindings := s.bindings.filter fun b => !(b.job = job && b.window = w) }

/-- Bind a window with the body checked (R290). -/
def skcfgBind (s : State) (c : Cmd) (d : BitVec 512) : Out :=
  let init := d.getLsbD 278
  let b0 := skcfgBinding d c.job 0
  let len := 256 + cellBytes b0.type b0.lgsize b0.depth
  let fin (t : State) (code : Nat) : Out := skEnd s t c (fldA d 192) code 0
  if b0.body.toNat % 512 ≠ 0 then fin s 0x04
  else match bodyCheck s c b0.body len .atomic with
    | some (.wait y k) => .next (cmdWait s c (y, k))
    | some e => fin (noteStop s c e) (stopCode e)
    | none =>
      let homes := bodyStacks s c.job b0.body len
      let home := homes.headD 8
      if home = 8 || homes.any fun k => k ≠ home then fin s 0x16
      else
        let b := { b0 with home := home }
        let r : Region := ⟨b, none⟩
        -- with init 0 the cells alone are consumed: the header is as found
        match (if init then .no else cellsStruck s c b 256 (len - 256)) with
        | .wait y => .next (cmdWait s c y)
        | .stop t pa => fin (noteStop (flushBody t c b) c (.bad pa)) 0x08
        | .no =>
          -- with init 0 the header alone is written
          match bodyHeld s c b0.body (if init then len else 256) with
          | some y => .next (cmdWait s c y)
          | none =>
          let s1 := if init then zeroBody s r len
            else let p := recount s r; let h := hdrGet p.1 r; hdrPut h.1 r { h.2 with pop := p.2 }
          let s2 := unbind (flushBody s1 c b) c.job b.window
          fin { s2 with bindings := s2.bindings ++ [b] } 0

def execSkcfgExecute (k : Nat) (s : State) : Out :=
  match findCmd s k .skcfg with
  | none => .next s
  | some c =>
    if !skTurn s c || cmdHeld s c 5 then .next s
    else match c.descs with
      | [.ok d] =>
        let fin (t : State) (code : Nat) : Out := skEnd s t c (fldA d 192) code 0
        if skcfgBad d then fin s 0x01
        else if !canonical (fldA d 0) then fin s 0x05
        else if (fldA d 0).toNat % 2 ^ 47 ≠ 0 || !inWindow s c.job (fldA d 0) then fin s 0x10
        else if fld d 256 4 = 0 then fin (unbind s c.job (fldA d 0)) 0
        else skcfgBind s c d
      | [.bad code] => skEnd s s c 0 code 0
      | _ => skEnd s s c 0 0x01 0

/-! skfold (R291, R292) -/

/-- Pair up a list by a function of cell `c` and cell `c + h`. -/
def halve (f : Nat → Nat → Nat × BitVec 8) (cs : List Nat) : List (Nat × BitVec 8) :=
  let h := cs.length / 2
  (List.range h).map fun c => f (cs.getD c 0) (cs.getD (c + h) 0)
/-- Pair up neighbours. -/
def pairUp (f : Nat → Nat → Nat × BitVec 8) (cs : List Nat) : List (Nat × BitVec 8) :=
  (List.range (cs.length / 2)).map fun c => f (cs.getD (2 * c) 0) (cs.getD (2 * c + 1) 0)

def sum15 (a b : Nat) : Nat × BitVec 8 := if a = 15 || b = 15 || 15 ≤ a + b then (15, flCsat) else (a + b, 0)
def foldDistinct (a b : Nat) : Nat × BitVec 8 :=
  (max (if a ≠ 0 then a + 1 else 0) (if b ≠ 0 then 1 else 0), 0)
def signed32 (a : Nat) : Int := (BitVec.ofNat 32 a).toInt

/-- The cells after one halving, row by row (R292). -/
def foldCells (b : Binding) (cs : List Nat) : List (Nat × BitVec 8) :=
  match b.type with
  | 1 => halve (fun x y => (x ||| y, 0)) cs
  | 2 => halve sum15 cs
  | 5 => pairUp foldDistinct cs
  | 6 => pairUp (satAdd (2 ^ 32 - 1)) cs
  | t =>
    let w := 2 ^ b.lgsize
    (List.range b.depth).flatMap fun r =>
      halve (fun x y => if t = 4 then clamp32 x (signed32 y) else satAdd (2 ^ 32 - 1) x y) ((cs.drop (r * w)).take w)

/-- Write a list of cells at their places. -/
def putCells (s : State) (r : Region) (vs : List Nat) : State :=
  (List.range vs.length).foldl (fun t c =>
    let p := cellAt r.b.type c
    let x := rgRead t r p.off (cellLen p)
    let old := x.2 / 2 ^ p.sh % 2 ^ p.bits
    rgWrite x.1 r p.off (cellLen p) (x.2 - old * 2 ^ p.sh + vs.getD c 0 * 2 ^ p.sh)) s

/-- One halving of a region. -/
def foldOnce (x : State × Binding) : State × Binding :=
  let r : Region := ⟨x.2, none⟩
  let cs := cellsGet x.1 r (allCells x.2)
  let new := foldCells x.2 cs.2
  let b := { x.2 with lgsize := x.2.lgsize - 1 }
  let r' : Region := ⟨b, none⟩
  let s1 := putCells cs.1 r' (new.map Prod.fst)
  let p := recount s1 r'
  let h := hdrGet p.1 r'
  let fl := new.foldl (fun a v => a ||| v.2) (flFold ||| h.2.flags)
  (hdrPut h.1 r' (satOf b { h.2 with pop := p.2, flags := fl }), b)

def iter {α : Type} (f : α → α) (n : Nat) (x : α) : α :=
  match n with
  | 0 => x
  | k + 1 => iter f k (f x)

def putBinding (s : State) (b : Binding) : State :=
  { s with bindings := s.bindings.map fun e => if e.job = b.job && e.window = b.window then b else e }

def execSkfoldExecute (k : Nat) (s : State) : Out :=
  match findCmd s k .skfold with
  | none => .next s
  | some c =>
    let h := descCount c.sb
    let fail (t : State) (code : Nat) : Out := .next (endCmd (cmdRecord t c code c.sa) c)
    if !skTurn s c || cmdHeld s c 5 then .next s
    else if !inWindow s c.job c.sa then fail s 0x10
    else match findBinding s c.job c.sa with
      | none => fail s 0x11
      | some b =>
        let len := 256 + cellBytes b.type b.lgsize b.depth
        if b.lgsize < (lgRange b.type).1 + h then fail s 0x13
        else match bodyCheck s c b.body len .atomic with
          | some (.wait y a) => .next (cmdWait s c (y, a))
          | some e => fail (noteStop s c e) (stopCode e)
          | none =>
            match struck s c b 256 (len - 256) with
            | .wait y => .next (cmdWait s c y)
            | .stop t pa => fail (noteStop (flushBody t c b) c (.bad pa)) 0x08
            | .no =>
              -- the cells of the folded region are written, and the header
              match bodyHeld s c b.body (256 + cellBytes b.type (b.lgsize - 1) b.depth) with
              | some y => .next (cmdWait s c y)
              | none =>
              let x := iter foldOnce h (s, b)
              .next (endCmd (flushBody (putBinding x.1 x.2) c b) c)

/-! skmerge (R293 to R297) -/

/-- A slot of the duplicate window (R296). -/
structure DupSlot where
  source : Nat
  seq    : Nat
  next   : Nat
  valid  : Bool
  finish : Bool
  stamp  : Nat
  deriving DecidableEq, Repr

def slotGet (s : State) (r : Region) (i : Nat) : DupSlot :=
  let v := (rgRead s r (64 + 16 * i) 16).2
  ⟨v % 2 ^ 32, v / 2 ^ 32 % 2 ^ 32, v / 2 ^ 64 % 2 ^ 32, v / 2 ^ 96 % 2 = 1, v / 2 ^ 97 % 2 = 1, v / 2 ^ 112 % 2 ^ 16⟩
def slotPut (s : State) (r : Region) (i : Nat) (e : DupSlot) : State :=
  rgWrite s r (64 + 16 * i) 16 (e.source + 2 ^ 32 * e.seq + 2 ^ 64 * e.next + 2 ^ 96 * (if e.valid then 1 else 0)
    + 2 ^ 97 * (if e.finish then 1 else 0) + 2 ^ 112 * e.stamp)
def stampGet (s : State) (r : Region) : Nat := (rgRead s r 18 2).2
def stampPut (s : State) (r : Region) (v : Nat) : State := rgWrite s r 18 2 v

/-- What the duplicate window makes of chunk `c` of contribution (src, q): drop it, apply it with the slot written, or end
the command. -/
inductive DupRes where
  | drop | apply (i : Nat) (e : DupSlot) | full
  deriving DecidableEq, Repr

def dupCheck (s : State) (r : Region) (src q c : Nat) : DupRes :=
  let slots := (List.range 8).map fun i => (i, slotGet s r i)
  let fresh (i : Nat) : DupRes := .apply i ⟨src, q, 1, true, false, 0⟩
  match slots.find? fun e => e.2.valid && decide (e.2.source = src) with
  | some (i, e) =>
    if q < e.seq then .drop
    else if q = e.seq then (if e.finish || c < e.next then .drop else .apply i { e with next := c + 1 })
    else fresh i
  | none =>
    match slots.find? fun e => !e.2.valid with
    | some (i, _) => fresh i
    | none =>
      let age (e : DupSlot) : Nat := (stampGet s r + 2 ^ 16 - e.stamp) % 2 ^ 16
      match (slots.filter fun e => e.2.finish).foldl (fun best e =>
        match best with
        | none => some e
        | some b => if age b.2 < age e.2 then some e else some b) none with
      | some (i, _) => fresh i
      | none => .full

/-- The slot after a chunk was applied: with the last chunk it is done and takes the next stamp. -/
def dupFinish (s : State) (r : Region) (i : Nat) (e : DupSlot) (chunks : Nat) : State :=
  if e.next = chunks && !e.finish then
    let t := stampGet s r
    stampPut (slotPut s r i { e with finish := true, stamp := t }) r ((t + 1) % 2 ^ 16)
  else slotPut s r i e

/-- The operator of a type (R294). -/
def mergeCell (type x y : Nat) : Nat × BitVec 8 :=
  match type with
  | 1 => (x ||| y, 0)
  | 2 => sum15 x y
  | 4 => clamp32 x (signed32 y)
  | 5 => (max x y, 0)
  | _ => satAdd (2 ^ 32 - 1) x y

/-- The cells whose bytes lie in chunk `c`. -/
def chunkCells (b : Binding) (c : Nat) : List CellAt :=
  (allCells b).filter fun p => (p.off - 256) / 4096 = c

/-- Where the source's cells come from: a local region, or the device with the window base there. -/
inductive SkSrc where
  | here (r : Region) | remote (dev : Nat) (base : W64)
  deriving DecidableEq, Repr

/-- What has come of a chunk: the bytes of its cells from another device, from offset `lo` of the body on, and those of its
info: type, lgsize, depth, flags, four zeros, seed, n. -/
structure FarChunk where
  lo    : Nat
  cells : List Byte
  info  : List Byte
  deriving DecidableEq, Repr

def srcCell (s : State) (x : SkSrc) (f : FarChunk) (p : CellAt) : Nat :=
  match x with
  | .here r => (cellGet s r p).2
  | .remote _ _ => leNat ((f.cells.drop (p.off - f.lo)).take (cellLen p)) / 2 ^ p.sh % 2 ^ p.bits
def srcHdr (s : State) (x : SkSrc) (f : FarChunk) : SkHdr :=
  match x with
  | .here r => (hdrGet s r).2
  | .remote _ _ => ⟨leNat ((f.info.drop 16).take 8), 0, f.info.getD 3 0⟩
/-- The info of a source at another device matches a binding (R294). -/
def infoFits (b : Binding) (i : List Byte) : Bool :=
  (i.getD 0 0).toNat = b.type && (i.getD 1 0).toNat = b.lgsize && (i.getD 2 0).toNat = b.depth &&
  leNat ((i.drop 8).take 8) = b.seed.toNat

/-- Apply a chunk: every cell, and with the last chunk n and the flags of the source (R294). -/
def applyChunk (s : State) (r : Region) (x : SkSrc) (f : FarChunk) (c chunks : Nat) : State :=
  let vs := (chunkCells r.b c).map fun p => (p, srcCell s x f p)
  let h0 := hdrGet s r
  let y := vs.foldl (fun z e => cellMod (fun old => mergeCell r.b.type old e.2) r z e.1) h0
  let sh := srcHdr s x f
  let h := if c + 1 = chunks then
      let h1 := addN y.2 sh.n
      satOf r.b { h1 with flags := h1.flags ||| sh.flags }
    else y.2
  hdrPut y.1 r h

/-- The bytes of cells in chunk `c`. -/
def chunkLen (total c : Nat) : Nat := min 4096 (total - 4096 * c)

/-- The source of a merge. -/
def mergeSrc (s : State) (c : Cmd) (d : BitVec 512) : Option SkSrc :=
  match c.peer with
  | some p =>
    if p.toNat % 1024 = devId s then (findBinding s c.job (fldA d 64)).map fun b => .here ⟨b, none⟩
    else some (.remote (p.toNat % 1024) (fldA d 64))
  | none => (findBinding s c.job (fldA d 64)).map fun b => .here ⟨b, none⟩

/-- The source's packets loop back inside the module (R390). -/
def loopsBack (s : State) (c : Cmd) : Bool :=
  match c.peer with
  | some p => p.toNat % 1024 = devId s
  | none => false
/-- They do, and arrivals for the job are refused (R391). -/
def loopOut (s : State) (c : Cmd) : Bool := loopsBack s c && !jobTaken s c.job
/-- A wait or a malformed entry that the source of a merge meets is that of an arrival where its packets loop back (R391). -/
def srcWaiter (s : State) (c : Cmd) : Waiter := if loopsBack s c then .loop c.id else .cmd c.id
/-- The failures that are found here before the first chunk, in the order of R294, and those of the addresses (R299). A source
at another device is looked at there. -/
def mergeBad (s : State) (c : Cmd) (d : BitVec 512) : Option Nat :=
  let src := fldA d 64
  let dst := fldA d 0
  let far := mergeFar s c
  if fld d 256 256 ≠ 0 then some 0x01
  else if !canonical dst || !canonical src then some 0x05
  else if dst.toNat % 2 ^ 47 ≠ 0 || src.toNat % 2 ^ 47 ≠ 0 || !inWindow s c.job dst ||
      (c.peer.isNone && !inWindow s c.job src) then
    some 0x10
  else if far && (match c.peer with
      | some p => routeOf s (p.toNat % 1024) = (0, 63) && (pathBad s (p.toNat % 1024)).isNone
      | none => false) then some 0x09
  -- a source over the way back inside the module is refused as at any peer
  else if (findBinding s c.job dst).isSome && loopOut s c then some 0x03
  else if (findBinding s c.job dst).isSome && !far && !inWindow s c.job src then some 0x10
  else match findBinding s c.job dst, mergeSrc s c d with
    | none, _ => some 0x11
    | _, none => some 0x11
    | some b, some (.here r) =>
      if b.body = r.b.body then some 0x14
      else if b.type ≠ r.b.type || b.lgsize ≠ r.b.lgsize || b.depth ≠ r.b.depth || b.seed ≠ r.b.seed then some 0x12
      else none
    | some _, some (.remote _ _) => none

/-- What comes of chunk `i` of a merge's source: it is here, it is stopped (its source cannot be read, does not match, or it
fails to arrive: R294, R295), or another device's answer is awaited. -/
inductive SrcRes where
  | ready (f : FarChunk) | stop (e : Stop) | far
  deriving DecidableEq, Repr
/-- The chunk and its info are asked for at the other device; `last` marks the last chunk. Uncorrectable data of the source stops
the merge and sets err in no region: R287 does not say whether the source's is set by a command that reads it (DESIGN CHOICE,
log 83). -/
def srcChunk (s : State) (c : Cmd) (b : Binding) (x : SkSrc) (lo n i : Nat) (last : Bool) : State × SrcRes :=
  match x with
  | .here q => (s, if loopOut s c then .stop (.err 0x03) else match bodyCheck s c q.b.body 256 .read with
    | some e => .stop e
    | none => match bodyCheck s c (q.b.body + BitVec.ofNat 64 lo) n .read with
      | some e => .stop e
      -- n and flags go with the last chunk
      | none => match (if last then hdrPoison s q.b else none), bodyPoison s q.b lo n with
        | some pa, _ => .stop (.bad pa)
        | none, some pa => .stop (.bad pa)
        | none, none => .ready ⟨lo, [], []⟩)
  | .remote dev base =>
    let f := farRead s (.cmd c.id) c.job dev 10 base 24 (2 ^ 31 + i) false
    match f.2 with
    | .fail k => (f.1, .stop (.err k))
    | .wait => (f.1, .far)
    | .data info =>
      if !infoFits b info then (f.1, .stop (.err 0x12))
      else
        let g := farRead f.1 (.cmd c.id) c.job dev 10 base n i last
        (g.1, match g.2 with
          | .fail k => .stop (.err k)
          | .wait => .far
          | .data cells => .ready ⟨lo, cells, info⟩)

/-- Handle the next chunk of a merge: it arrives, the duplicate window drops it or not, and its cells are combined (R294 to
R296). -/
def mergeChunk (s0 : State) (c : Cmd) (d : BitVec 512) (b : Binding) (x : SkSrc) : Out :=
  let r : Region := ⟨b, none⟩
  let total := cellBytes b.type b.lgsize b.depth
  let chunks := (total + 4095) / 4096
  let i := c.at_
  let lo := 256 + 4096 * i
  let n := chunkLen total i
  let src := srcChunk s0 c b x lo n i (i + 1 = chunks)
  let s := src.1
  let fin (t : State) (code : Nat) : Out := skEnd s (flushBody (dropFar t (.cmd c.id)) c b) c (fldA d 128) code c.done
  let stop (e : Stop) : Out := match e with
    | .wait y a => .next (cmdWait s c (y, a))
    | e => fin (noteStop s c e) (stopCode e)
  let srcStop (e : Stop) : Out := match e with
    | .wait y a => .next (waitOn s c.job y a (srcWaiter s c))
    | .mal m a => fin (reportBad s c.job (some m) a (srcWaiter s c)) (stopCode e)
    | e => fin (noteStop s c e) (stopCode e)
  let next (t0 : State) (applied : Nat) : Out :=
    let t := dropFar t0 (.cmd c.id)
    let c' := { c with at_ := i + 1, done := c.done + applied, started := true }
    if i + 1 = chunks then
      match endDesc (flushBody t c b) c' c.sa (fldA d 128) 0 c'.done with
      | (_, some y) => .next (cmdWait s c y)
      | (u, none) => .next (endCmd u c')
    else .next (updCmd t c.id fun _ => c')
  -- a chunk whose cells can be combined
  let combine (far : FarChunk) (f : State → State) : Out :=
    match bodyCheck s c (b.body + BitVec.ofNat 64 lo) n .atomic with
    | some e => stop e
    | none => match struck s c b lo n with
      | .wait y => .next (cmdWait s c y)
      | .stop t pa => fin (noteStop t c (.bad pa)) 0x08
      | .no => match bodyHeld s c b.body 256, bodyHeld s c (b.body + BitVec.ofNat 64 lo) n with
        | some y, _ => .next (cmdWait s c y)
        | none, some y => .next (cmdWait s c y)
        | none, none => next (f (applyChunk s r x far i chunks)) n
  match src.2 with
  | .stop e => srcStop e
  | .far => .next s
  | .ready far => match bodyCheck s c b.body 256 .atomic with
    | some e => stop e
    | none =>
      let q := fld d 224 32
      if q = 0 then combine far id
      else match slotPoison s b with
      | some pa => stop (.bad pa)
      | none => match dupCheck s r (fld d 192 32) q i with
        | .drop => next s 0
        | .full => fin s 0x15
        | .apply j e => combine far fun t => dupFinish t r j e chunks

def execSkmergeChunk (k : Nat) (s : State) : Out :=
  match findCmd s k .skmerge with
  | none => .next s
  | some c =>
    if !skTurn s c || cmdHeld s c 5 || farWaits s (.cmd k) then .next s
    else match c.descs with
      | [.ok d] =>
        match (if c.started then none else mergeBad s c d) with
        | some code => skEnd s s c (fldA d 128) code 0
        | none =>
          match findBinding s c.job (fldA d 0), mergeSrc s c d with
          | some b, some x => mergeChunk s c d b x
          | _, _ => skEnd s s c (fldA d 128) 0x11 c.done
      | [.bad code] => skEnd s s c 0 code 0
      | _ => skEnd s s c 0 0x01 0

end Sys2Proof.Machine
end

