-- ==== Sys2Proof/Machine/Fabric.lean ====
section
/-! DEFINITION. Fabric commands (spec/09 R253 to R256) and the arrivals of packets at this device (spec/21 R391, R397 to R402). -/

namespace Sys2Proof.Machine

/-! Commands (R254) -/

/-- A fabric command: accepted at its issue, then carried on as far as the window lets it. -/
def fabricOp (s : State) (a b d : BitVec 6) (r : BitVec 1) (x : EPfx) (kind : CmdKind) (mcOk : Bool) : Out :=
  descOp s a b d r x kind false mcOk fun t c => pumpCmd t c.id 8192

def execRput (a b d : BitVec 6) (r : BitVec 1) (x : EPfx) (s : State) : Out := fabricOp s a b d r x .rput true
def execRputSig (a b d : BitVec 6) (r : BitVec 1) (x : EPfx) (s : State) : Out := fabricOp s a b d r x .rputSig true
def execRget (a b d : BitVec 6) (r : BitVec 1) (x : EPfx) (s : State) : Out := fabricOp s a b d r x .rget false
def execRadd (a b d : BitVec 6) (r : BitVec 1) (x : EPfx) (s : State) : Out := fabricOp s a b d r x .radd false
def execRsig (a b d : BitVec 6) (r : BitVec 1) (x : EPfx) (s : State) : Out := fabricOp s a b d r x .rsig false

/-! Performing a packet (R254, R391) -/

/-- What performing a packet comes to. -/
inductive Perform where
  | done (s : State) | nack (s : State) (code : Nat) | park (job : Nat) (why : WaitWhy) (acc : AccKind)

/-- The places of bytes of an arrival, or what the first bad one comes to: a wait for its page, or a negative answer. -/
def arrivalRun (s : State) (k : Packet) (a : W64) (n : Nat) (acc : AccKind) (vs : List (Nat × Nat))
    (go : List Nat → Perform) : Perform :=
  let job := k.job.toNat
  let ps := (List.range n).map fun i => engGlobal s job (a + BitVec.ofNat 64 i) acc vs
  match ps.findSome? fun p => match p with
      | .pa _ => none
      | .scr _ _ => some (.nack s 0x02)
      | .err code => some (.nack s code)
      | .mal b => some (.nack (reportBad s job (some b) acc (.fabric s.nextPark)) 0x02)
      | .dead q => some (.nack (consumed s none q 8 2 job 0) 0x08)
      | .wait y => some (.park job y acc) with
  | some r => r
  | none => go (ps.filterMap fun p => match p with | .pa a => some a | _ => none)
/-- The place of `n` bytes of an arrival, which lie in one page. -/
def arrivalAt (s : State) (k : Packet) (n : Nat) (acc : AccKind) (vs : List (Nat × Nat)) (go : Nat → Perform) : Perform :=
  if !jobTaken s k.job.toNat then .nack s 0x03
  else arrivalRun s k k.remote 1 acc vs fun ps =>
    let pa := ps.headD 0
    if !paExists (pa + (n - 1)) then .nack s 0x02
    -- every line that is written, and every row that is read, may have to be waited for (R388, R413)
    else match if accWrites acc then heldLines s pa n else [] with
      | l :: _ => .park k.job.toNat (.line l) acc
      | [] => if runDue s pa n then .park k.job.toNat .refresh acc else go pa

/-- One element of `radd` (R254). -/
def addElem (f a b : Nat) : Nat :=
  match f with
  | 0 => (add32 (BitVec.ofNat 32 a) (BitVec.ofNat 32 b)).1.toNat
  | 1 => (a + b) % 2 ^ 32
  | 2 => (a + b) % 2 ^ 64
  | _ => (finB16 (fAdd .rne (decB16 (BitVec.ofNat 16 a)) (decB16 (BitVec.ofNat 16 b)))).1.toNat

/-- Add the elements of a packet at a PA. -/
def addRun (s : State) (f pa n : Nat) (v : Nat) : State :=
  let w := afmtBytes f
  (List.range (n / w)).foldl (fun t i =>
    let a := pa + w * i
    l2Store t a w (addElem f (l2Read t a w) (v / 2 ^ (8 * w * i) % 2 ^ (8 * w)))) s

/-- The lines of 512 bytes that the pending puts of this device hold (R401). -/
def pendingLines (s : State) : Nat :=
  s.putGroups.foldl (fun a g => a + ((g.bytes.map fun e => e.at_ / 512).eraseDups).length) 0
def sameGroup (k : Packet) (g : PutGroup) : Bool := g.src = k.src && g.job = k.job && g.grp = k.group
/-- Nothing of a put lands: what has arrived of it goes, and what still arrives is refused (R255). -/
def refusePut (s : State) (k : Packet) : State :=
  { s with putGroups := s.putGroups.map fun g => if sameGroup k g then
      { g with bytes := g.bytes.filter fun e => e.key ≠ k.value, refused := k.value :: g.refused } else g }
/-- Hold the bytes of a grouped put as pending lines; a put that passes 4 MiB in all is refused. -/
def pendPut (s : State) (k : Packet) (pa : Nat) : Perform :=
  let bytes : List PendByte := (List.range k.data.length).map fun i => ⟨k.value, va57 k.remote / 2 ^ 16, pa + i, k.data.getD i 0⟩
  let s0 := if s.putGroups.any fun g => sameGroup k g then s
    else { s with putGroups := s.putGroups ++ [⟨k.src, k.job, k.group, [], []⟩] }
  let grow (g : PutGroup) : PutGroup := if sameGroup k g then { g with bytes := g.bytes ++ bytes } else g
  let s1 := { s0 with putGroups := s0.putGroups.map grow }
  if s0.putGroups.any fun g => sameGroup k g && g.refused.contains k.value then .nack s 0x0B
  else if 8192 < pendingLines s1 then .nack (refusePut s0 k) 0x0B
  else .done s1
/-- The bytes that a closing signal publishes: those of a stack that was fenced meanwhile are lost (R425). -/
def published (s : State) (k : Packet) : List PendByte :=
  (s.putGroups.filter fun g => sameGroup k g).flatMap fun g => g.bytes.filter fun e => !paFenced s e.at_
/-- The sectors of bytes of device memory. -/
def byteSectors (l : List Nat) : List Nat := ((l.filter fun a => paSpace a < 2).map fun a => a / 128).eraseDups
/-- Publish a group's bytes, in the order of their arrival (R255, R401); a unit that is written whole loses its poison (R422), and
what a command of policy mem wrote goes on to DRAM (R138). -/
def publish (s : State) (k : Packet) : State :=
  let bs := published s k
  flushSectors
    (clearCovered (bs.foldl (fun u e => l2Store u e.at_ 1 e.val.toNat) { s with putGroups := s.putGroups.filter fun g => !sameGroup k g })
      (bs.map fun e => (e.at_, 1)))
    (byteSectors ((bs.filter fun e => e.key.getLsbD 31).map PendByte.at_))
def discardGroup (s : State) (k : Packet) : State :=
  { s with putGroups := s.putGroups.filter fun g => !sameGroup k g }

/-- The answer to a request for data: a packet of op 2 with the request's value; the last of its command answers the last
request. -/
def sendBack (s : State) (k : Packet) (data : List Byte) : State :=
  match pickPort s k.src.toNat k.relaxed with
  | none => s
  | some p =>
    sendOn s k.src.toNat [p] { k with
      src := BitVec.ofNat 10 (devId s), dst := k.src, mc := false, op := 2, len := BitVec.ofNat 16 data.length
      data := data, close := false, group := 0 } none

/-- A request whose answer would find no room in the window of its source waits (R397). -/
def canAnswer (s : State) (k : Packet) : Bool := !(k.op = 1 || k.op = 9 || k.op = 10) || txRoom s k.src.toNat

/-- The bytes that a merge at another device asks for besides cells: what must match, flags and n (DESIGN CHOICE, log 10). -/
def sketchInfo (s : State) (b : Binding) : List Byte :=
  let h := (hdrGet s ⟨b, none⟩).2
  leBytes 1 b.type ++ leBytes 1 b.lgsize ++ leBytes 1 b.depth ++ leBytes 1 h.flags.toNat ++ leBytes 4 0 ++
  leBytes 8 b.seed.toNat ++ leBytes 8 h.n
/-- A request for a part of a sketch: a chunk of its cells, or from 2^31 on what must match (R294, R396). -/
def sketchPart (s : State) (k : Packet) (vs : List (Nat × Nat)) : Perform :=
  let job := k.job.toNat
  let part := k.value.toNat % 2 ^ 32
  let bad (pa : Nat) : Perform := .nack (consumed s none pa 1 2 job 0) 0x08
  if !jobTaken s job then .nack s 0x03
  else if !canonical k.remote then .nack s 0x05
  else if !inWindow s job k.remote || k.remote.toNat % 2 ^ 47 ≠ 0 then .nack s 0x10
  else match findBinding s job k.remote with
    | none => .nack s 0x11
    | some b =>
      let info := decide (2 ^ 31 ≤ part)
      let off := if info then 0 else 256 + 4096 * part
      let n := if info then 24 else min 4096 (cellBytes b.type b.lgsize b.depth - 4096 * part)
      arrivalRun s k (b.body + BitVec.ofNat 64 off) n .read vs fun ps =>
        match ps.find? fun pa => dataBad s none pa 1 with
        | some pa => bad pa
        | none => .done (sendBack s k (if info then sketchInfo s b else ps.map fun pa => l2Byte s pa))

/-- Write returned data at the command that asked for it: its value names the command and the offset. Data of another read
are kept for what asked. -/
def returned (s : State) (k : Packet) (vs : List (Nat × Nat)) : Perform :=
  let id := k.value.toNat / 2 ^ 32
  let off := k.value.toNat % 2 ^ 32
  match s.cmds.find? fun c => c.id = id && c.kind = .rget with
  | none => .done { s with farReads := s.farReads.map fun r => if r.id = id then { r with data := some k.data } else r }
  | some c =>
    match c.descs.getD c.at_ (.bad 0) with
    | .bad _ => .done s
    | .ok d =>
      if c.failed ≠ 0 then .done (answered s (some id) 0 0 0)
      else
        -- the verdicts of a resolve are the parked packet's (R381)
        let r := engRun s { c with verdicts := c.verdicts ++ vs } (fdScr d) (fdLocal d + BitVec.ofNat 64 off) k.data.length .write
        match r.2 with
        | none =>
          let s1 := engWrite s r.1 k.data
          .done (answered (if c.mem then flushSectors s1 (placeSectors r.1) else s1) (some id) 0 k.data.length 0)
        | some (.wait y a) => .park c.job y a
        | some e => .done (answered (noteStop s c e) (some id) 0 0 (stopCode e))

/-- What a packet has written here has reached DRAM where its command has policy mem (R138). -/
def memDone (t : State) (mem : Bool) (pa n : Nat) : State :=
  if mem && paSpace pa < 2 then flushSectors t (runSectors (pa, n)) else t
/-- Lines of the bytes that a closing signal publishes, which the host may cache (R388). -/
def publishLines (s : State) (k : Packet) : List Nat :=
  if k.close then (published s k).flatMap fun e => heldLines s e.at_ 1 else []
/-- Perform a signal: the group that it closes is published first (R255). -/
def signalAt (s : State) (k : Packet) (pa : Nat) (acc : AccKind) (f : State → Nat) : Perform :=
  match publishLines s k with
  | l :: _ => .park k.job.toNat (.line l) acc
  | [] =>
    let s1 := if k.close then publish s k else s
    .done (memDone (l2Store s1 pa 8 (f s1)) (k.afmt.getLsbD 0) pa 8)
/-- Perform a packet here. -/
def performPacket (s : State) (k : Packet) (vs : List (Nat × Nat)) : Perform :=
  let n := k.len.toNat
  let bad (pa n : Nat) : Perform := .nack (consumed s none pa n 2 k.job.toNat 0) 0x08
  match k.op.toNat with
  | 0 => arrivalAt s k n .write vs fun pa =>
      if k.group ≠ 0 then pendPut s k pa
      else .done (memDone (clearCovered (l2Store s pa n (leNat k.data)) [(pa, n)]) (k.value.getLsbD 31) pa n)
  | 1 => arrivalAt s k n .read vs fun pa =>
      if dataBad s none pa n then bad pa n else .done (sendBack s k (leBytes n (l2Read s pa n)))
  | 9 => arrivalAt s k n .read vs fun pa =>
      if dataBad s none pa n then bad pa n else .done (sendBack s k (leBytes n (l2Read s pa n)))
  | 2 => returned s k vs
  | 3 => arrivalAt s k n .atomic vs fun pa =>
      if paSpace pa = 2 && (k.afmt = 0 || k.afmt = 3) then .nack s 0x03
      else if dataBad s none pa n then bad pa n
      else .done (memDone (addRun s k.afmt.toNat pa n (leNat k.data)) (k.value.getLsbD 31) pa n)
  | 4 => arrivalAt s k 8 .write vs fun pa => signalAt s k pa .write fun _ => k.value.toNat
  | 5 => arrivalAt s k 8 .atomic vs fun pa =>
      if dataBad s none pa 8 then bad pa 8
      else signalAt s k pa .atomic fun t => (l2Read t pa 8 + k.value.toNat) % 2 ^ 64
  | 8 => .done (discardGroup s k)
  | 10 => sketchPart s k vs
  | _ => .done s

/-! Windows and acknowledgements (R397) -/

def PeerRx.blank : PeerRx := ⟨0, 0, []⟩
def rxKey (k : Packet) : Nat := if k.mc then 1024 * (1 + k.dst.toNat) + k.src.toNat else k.src.toNat
def rxOf (s : State) (k : Packet) : PeerRx := tabGet PeerRx.blank s.peerRx (rxKey k)
def putRx (s : State) (k : Packet) (x : PeerRx) : State := { s with peerRx := tabSet PeerRx.blank s.peerRx (rxKey k) x }
/-- The distance of a sequence above the window's base, modulo 2^32. -/
def rxDist (s : State) (k : Packet) : Nat := (k.seq - (rxOf s k).low).toNat

/-- Advance the base over set bits. -/
def slide (x : PeerRx) (fuel : Nat) : PeerRx :=
  match fuel with
  | 0 => x
  | n + 1 => if x.bits.getLsbD 0 then slide { x with low := x.low + 1, bits := x.bits >>> 1 } n else x
/-- A sequence is done. -/
def markDone (s : State) (k : Packet) : State :=
  let x := rxOf s k
  putRx s k (slide { x with bits := x.bits ||| (1#4096 <<< rxDist s k) } 4097)

/-- Answer a packet: to its source, or for a tree to the parent on the port it came from (R400). A negative answer carries
its code above the sequence. -/
def ackBack (s : State) (p : Nat) (k : Packet) (ok : Bool) (code : Nat) : State :=
  let port := if k.mc then some p else pickPort s k.src.toNat k.relaxed
  match port with
  | none => s
  | some q =>
    let a : Packet := sealed { k with
      src := BitVec.ofNat 10 (devId s), dst := if k.mc then k.dst else k.src, seq := 0, op := if ok then 6 else 7
      value := BitVec.ofNat 64 (k.seq.toNat + 2 ^ 32 * code), len := 0, data := [], group := 0, close := false, last := true }
    { s with outbox := s.outbox ++ [(q, a)], ctr := s.ctr + 1 }

/-! Multicast (R400) -/

/-- A relay whose children and own delivery are done is acknowledged to the parent. -/
def endRelay (s : State) (x : Relay) : State :=
  if x.here && x.left = [] then
    ackBack { s with relays := s.relays.filter fun r => !(rxKey r.pkt = rxKey x.pkt && r.pkt.seq = x.pkt.seq) } x.port x.pkt
      (x.code = 0) x.code
  else { s with relays := s.relays.map fun r => if rxKey r.pkt = rxKey x.pkt && r.pkt.seq = x.pkt.seq then x else r }
def relayOf (s : State) (k : Packet) : Option Relay :=
  s.relays.find? fun r => rxKey r.pkt = rxKey k && r.pkt.seq = k.seq
/-- A delivered packet of a tree tells its relay; any other is acknowledged. -/
def deliverDone (s : State) (p : Nat) (k : Packet) (code : Nat) : State :=
  if k.mc && p ≠ 63 then
    match relayOf s k with
    | some r => endRelay s { r with here := true, code := if r.code = 0 then code else r.code }
    | none => ackBack s p k (code = 0) code
  else ackBack s p k (code = 0) code

/-! Parking (R402) -/

/-- The bytes of a packet: header, data, CRC. -/
def packetBytes (k : Packet) : List Byte := leBytes 32 (headerOf k) ++ k.data ++ leBytes 8 k.crc.toNat
def packetLen (k : Packet) : Nat := 40 + k.data.length
/-- The die in whose L2 an arrival is parked. -/
def parkDie (k : Packet) : Nat := Config.targetDie k.job.toNat (k.remote.toNat / 2 ^ 16) % 8
/-- Bytes that the parking store of a die holds. -/
def parkedBytes (s : State) (die : Nat) : Nat :=
  s.parked.foldl (fun a x => if x.die = die && !x.inOverflow then a + packetLen x.pkt else a) 0
def storeRoom (s : State) (die : Nat) (k : Packet) : Bool := parkedBytes s die + packetLen k ≤ 2 ^ 21

/-! The overflow region: a list of packets in units of 64 KiB, each with an 8-byte link at its start. Its byte `n`, counted
from the first ever written, lies in unit n / 65,528 of the region, taken round and round (DESIGN CHOICE, log 42). -/

def ovLen (s : State) : Nat := (barGet s 0x40040).toNat % 2 ^ 16
def ovUnit (s : State) (n : Nat) : Nat := (barGet s 0x40038).toNat + 65536 * (n / 65528 % ovLen s)
/-- Units that bytes `lo` to `hi − 1` take. -/
def unitsOf (lo hi : Nat) : Nat := if hi ≤ lo then 0 else (hi - 1) / 65528 - lo / 65528 + 1
def overUnits (s : State) : Nat := unitsOf s.ovHead s.ovTail
/-- Append a byte; a new unit's link is zero and the unit before it takes its address. -/
def ovPut (s : State) (b : Byte) : State :=
  let n := s.ovTail
  let s1 := if n % 65528 ≠ 0 then s
    else
      let s2 := tblStore s (ovUnit s n) 8 0
      if s.ovHead < n then tblStore s2 (ovUnit s (n - 1)) 8 (ovUnit s n) else s2
  { tblStore s1 (ovUnit s n + 8 + n % 65528) 1 b.toNat with ovTail := n + 1 }

/-- The lines that a packet would take in the overflow region and that the host may cache (R388). -/
def overLines (s : State) (k : Packet) : List Nat :=
  if s.hostLines.isEmpty && s.backInv.isEmpty then []
  else ((List.range (packetLen k)).flatMap fun i =>
    let n := s.ovTail + i
    heldLines s (ovUnit s n + 8 + n % 65528) 1 ++
      if n % 65528 ≠ 0 then [] else heldLines s (ovUnit s n) 8 ++ heldLines s (ovUnit s (n - 1)) 8).eraseDups
/-- Room for one more parked packet: in the store, in the overflow region, or none. Behind one of its die that overflowed a
packet overflows too. -/
def parkRoom (s : State) (k : Packet) : Option Bool :=
  let d := parkDie k
  if storeRoom s d k && !s.parked.any (fun x => x.inOverflow && x.die = d) then some false
  else if unitsOf s.ovHead (s.ovTail + packetLen k) ≤ ovLen s && overLines s k = [] then some true
  else none
def parkPacket (s : State) (p : Nat) (k : Packet) (inOver : Bool) (job : Nat) (y : WaitWhy) (acc : AccKind) : State :=
  let s0 := if inOver then (packetBytes k).foldl ovPut s else s
  let s1 := { s0 with parked := s0.parked ++ [⟨s.nextPark, parkDie k, k, p, inOver, []⟩], nextPark := s.nextPark + 1 }
  waitOn s1 job y acc (.fabric s.nextPark)
/-- Take packets from the overflow region, in the order of their arrival, while the first one finds space. -/
def refill (s : State) (fuel : Nat) : State :=
  match fuel with
  | 0 => s
  | n + 1 =>
    match s.parked.find? fun x => x.inOverflow with
    | none => s
    | some x =>
      if storeRoom s x.die x.pkt then
        refill { s with
          parked := s.parked.map fun y => if y.ident = x.ident then { y with inOverflow := false } else y
          ovHead := s.ovHead + packetLen x.pkt } n
      else s
def isParked (s : State) (k : Packet) : Bool := s.parked.any fun x => rxKey x.pkt = rxKey k && x.pkt.seq = k.seq

/-! Arrivals -/

/-- Perform a packet that is in turn, or park it. -/
def tryPerform (s : State) (p : Nat) (k : Packet) : State :=
  match performPacket s k [] with
  | .done t => deliverDone (markDone t k) p k 0
  | .nack t code => deliverDone (markDone t k) p k code
  | .park job y acc => match parkRoom s k with
    | some o => parkPacket s p k o job y acc
    | none => s

/-- A packet that may not be performed yet: it must be parked and finds no room, or its answer finds none (R397, R402). -/
def noRoom (s : State) (k : Packet) : Bool :=
  !canAnswer s k || match performPacket s k [] with
    | .park _ _ _ => (parkRoom s k).isNone
    | .done _ => false
    | .nack _ _ => false

/-- An arrival is held back: lines of the overflow region that it would take are asked for (R388, R402). -/
def heldBack (s : State) (k : Packet) : State := askLines s (overLines s k)

/-- Early ordered packets whose turn has come (R399). -/
def drainEarly (s : State) (k : Packet) (fuel : Nat) : State :=
  match fuel with
  | 0 => s
  | n + 1 =>
    let x := rxOf s k
    match x.early.find? fun e => e.2.seq = x.low with
    | none => s
    | some e =>
      if isParked s e.2 then s
      else if noRoom s e.2 then heldBack s e.2
      else drainEarly (tryPerform (putRx s k { x with early := x.early.filter fun f => f ≠ e }) e.1 e.2) k n
/-- Every source's early packets whose turn has come. -/
def drainAll (s : State) : State :=
  s.peerRx.foldl (fun t e => match e.2.early with
    | [] => t
    | y :: _ => drainEarly t y.2 4096) s

/-- A packet for this device whose CRC holds (R397, R399). -/
def accepted (s : State) (p : Nat) (k : Packet) : State :=
  let x := rxOf s k
  let d := rxDist s k
  if 2 ^ 31 ≤ d || (d < 4096 && x.bits.getLsbD d) then (match relayOf s k with
    | some r => { s with outbox := s.outbox ++ r.left.map fun q => (q, k) }
    | none => ackBack s p k true 0)
  else if 4096 ≤ d then ackBack s p k false 0
  else if isParked s k || x.early.any (fun e => e.2 = k) then s
  else if (!k.relaxed || k.mc) && k.seq ≠ x.low then putRx s k { x with early := x.early ++ [(p, k)] }
  else drainEarly (tryPerform s p k) k 4096

/-- A tree's packet at a device that it passes (R400): forwarded on every port of the entry, and delivered here when the
entry says so. -/
def relayPacket (s : State) (p : Nat) (k : Packet) : State :=
  if p = 63 || (relayOf s k).isSome then accepted s p k
  else match bridleOf s k.dst.toNat with
    | none => ackBack s p k false 0x09
    | some (m, here) =>
      if (rxDist s k < 4096 && (rxOf s k).bits.getLsbD (rxDist s k)) || 2 ^ 31 ≤ rxDist s k then accepted s p k
      else
        let ports := maskPorts m
        let s1 := { s with
          relays := s.relays ++ [⟨k, p, ports, !here, 0⟩], outbox := s.outbox ++ ports.map fun q => (q, k) }
        if here then accepted s1 p k
        else
          let s2 := markDone s1 k
          match relayOf s2 k with
          | some r => endRelay s2 r
          | none => s2

/-- The failing-CRC record and count (R397, R420). -/
def crcFailed (s : State) (p : Nat) (k : Packet) : State :=
  errRecord (barSet s 0x200048 (barGet s 0x200048 + 1)) 7 0 (Config.portDie p % 8) k.job.toNat 0
    (k.src.toNat + 2 ^ 16 * (p % 64)) 0

/-- The answer of a child, or of the peer, to a packet sent here. -/
def ackPacket (s : State) (p : Nat) (peer : Nat) (mc : Bool) (seq : W32) (ok : Bool) (code : Nat) : State :=
  let child (r : Relay) : Bool := mc && r.pkt.dst.toNat = peer && r.pkt.seq = seq && r.left.contains p
  match s.relays.find? child with
  | some r =>
    if !ok && code = 0 then { s with outbox := s.outbox ++ [(p, r.pkt)] }
    else endRelay s { r with left := r.left.filter (· ≠ p), code := if r.code = 0 && !ok then code else r.code }
  | none => answer s p (peerKey peer mc) seq ok code

/-- A packet at this device, from a port or from inside the module. -/
def arrive (s : State) (p : Nat) (k : Packet) : State :=
  let op := k.op.toNat
  if 11 ≤ op then s
  else if !k.mc && k.dst.toNat ≠ devId s then
    match pickPort s k.dst.toNat k.relaxed with
    | some q => { s with outbox := s.outbox ++ [(q, k)], ctr := s.ctr + 1 }
    | none => s
  else if op = 6 || op = 7 then
    (if k.crc ≠ packetCrc k then crcFailed s p k
     else ackPacket s p (if k.mc then k.dst.toNat else k.src.toNat) k.mc (BitVec.ofNat 32 k.value.toNat) (op = 6)
      (k.value.toNat / 2 ^ 32 % 256))
  else if k.crc ≠ packetCrc k then ackBack (crcFailed s p k) p k false 0
  else pumpAll (if k.mc then relayPacket s p k else accepted s p k)

/-- Parked packets are tried again, in the order of their arrival, once nothing that they wait for is outstanding; one in the
overflow region is taken from there first (R402). Then the early packets that had found no room. -/
def retryParked (s : State) : State :=
  let gone (u : State) (x : Parked) (code : Nat) : State :=
    let u1 := { u with parked := u.parked.filter fun e => e.ident ≠ x.ident }
    drainEarly (deliverDone (markDone u1 x.pkt) x.port x.pkt code) x.pkt 4096
  drainAll (s.parked.foldl (fun t x0 =>
    let u := refill t t.parked.length
    match u.parked.find? fun x => x.ident = x0.ident with
    | none => u
    | some x =>
      if x.inOverflow || waitsRecord u (.fabric x.ident) || !canAnswer u x.pkt then u
      else match performPacket u x.pkt x.verdicts with
        | .park job y acc => waitOn u job y acc (.fabric x.ident)
        | .done v => gone v x 0
        | .nack v code => gone v x code) s)

/-- A group with no packet for 1 s is discarded (R401). -/
def execGroupIdleTimeout (src : BitVec 10) (job : BitVec 8) (grp : BitVec 16) (s : State) : Out :=
  .next { s with putGroups := s.putGroups.filter fun g => !(g.src = src && g.job = job && g.grp = grp) }

end Sys2Proof.Machine
end

