-- ==== Sys2Proof/Machine/Links.lean ====
section
/-! DEFINITION. The scale-up ports (spec/21 R392, R394, R395, R401, R403): flits, keys, training, and what a port going down
does. -/

namespace Sys2Proof.Machine

/-! Going down (R401, R403) -/

/-- A port has changed state (R387). -/
def portEvent (s : State) : State := { s with msix := s.msix ++ [4] }

/-- A command whose descriptor in work belongs to an open group. -/
def inGroup (s : State) (c : Cmd) (g : OpenGroup) : Bool :=
  c.warp = g.warp && isPacketCmd c.kind && cmdKey s c = g.key &&
  match c.descs.getD c.at_ (.bad 0) with
  | .ok d => fdGroup d = g.grp && dataOp c.kind = 0
  | .bad _ => false

/-- Fail the descriptor in work of a command with code 0x0A and forget its packets: nothing of a put of the group has landed
(R255). -/
def cutCmd (s : State) (c : Cmd) : State :=
  let y := txOf s (cmdKey s c)
  let s1 := putTx s (cmdKey s c) { y with sent := y.sent.filter fun x => x.cmd ≠ some c.id }
  updCmd s1 c.id fun e => { e with packets := 0, landed := 0, failed := if e.failed = 0 then 0x0A else e.failed }

/-- The descriptors of a command that belong to a group and whose turn has not come. -/
def laterIn (s : State) (c : Cmd) (g : OpenGroup) : List Nat :=
  (List.range c.descs.length).filter fun i => c.at_ < i && inGroup s { c with at_ := i } g
def cutLater (s : State) (g : OpenGroup) : State :=
  { s with cmds := s.cmds.map fun c => { c with cut := c.cut ++ laterIn s c g } }
/-- An open group is aborted: its commands fail, those of its descriptors too that waited for it or whose turn has not come, and
its target is told. -/
def abortGroup (s : State) (g : OpenGroup) : State :=
  let s1 := cutLater (settleGroup s g 2) g
  let s0 := { s1 with openGroups := s.openGroups.erase g }
  tellAbort ((s0.cmds.filter fun c => inGroup s0 c g).foldl cutCmd s0) g

/-- A packet sent through a port that went down: a relaxed one is sent again on another port, any other is given up with code
0x0A. -/
def rerouteSent (p : Nat) (s : State) (key : Nat) (x : Sent) : State :=
  if x.pkt.relaxed && key < 1024 && (pickPort s key true).isSome then resend s key x
  else
    let y := txOf s key
    let s1 := putTx s key { y with sent := y.sent.erase x }
    let _ := p
    answered s1 x.cmd (if x.pkt.op = 1 then 1 else 0) 0 0x0A

/-- A child that is lost behind a port does not answer: the relay fails with code 0x0A. -/
def loseChild (p : Nat) (s : State) (r : Relay) : State :=
  if r.left.contains p then
    endRelay s { r with left := r.left.filter (· ≠ p), code := if r.code = 0 then 0x0A else r.code }
  else s

/-- A port goes down: its buffers are discarded, groups that used it are aborted, and commands with packets sent through it
are sent another way or end with code 0x0A. -/
def portDown (s : State) (p : Nat) : State :=
  let P := portOfNo s p
  if P.state = 0 then s
  else
    let s1 := portEvent (putPort s p { P with
      state := 0, stream := [], replays := 0, switchReq := false, retry := [], txStream := [] })
    let s2 := { s1 with outbox := s1.outbox.filter (fun e => e.1 ≠ p), ctlFlits := s1.ctlFlits.filter fun c => c.1 ≠ p }
    let s3 := (s2.openGroups.filter fun g => g.ports.contains p).foldl abortGroup s2
    let lost := s3.peerTx.flatMap fun e => (e.2.sent.filter fun x => x.port = p).map fun x => (e.1, x)
    let s4 := lost.foldl (fun t e => rerouteSent p t e.1 e.2) s3
    pumpAll (s4.relays.foldl (loseChild p) s4)

/-! The fabric block's writes (R392) -/

/-- A write to FDEVID while any port is up is discarded. -/
def execFdevidWrite (v : W64) (s : State) : Out :=
  if s.stage ≠ 3 || s.ports.any fun e => e.2.state = 2 then .next s
  else .next (barSet s 0x40000 (v &&& 0x3FF))

def execPortDownCommand (p : Nat) (s : State) : Out := if s.stage ≠ 3 then .next s else .next (portDown s p)
def execLossOfSignal (p : Nat) (s : State) : Out := .next (portDown s p)
/-- A port that stays 1 ms in key wait goes down (R395). -/
def execKeyWaitTimeout (p : Nat) (s : State) : Out :=
  if (portOfNo s p).state = 3 then .next (portDown s p) else .next s

/-- The die of a port is admitted: a fenced die's ports stay down (R424). -/
def portLives (s : State) (p : Nat) : Bool := s.admitted.getLsbD (Config.portDie p % 8)

/-- A port that is down begins to train. -/
def trainPort (s : State) (p : Nat) : State := portEvent (putPort s p { portOfNo s p with state := 1 })

/-- Retraining takes an active port down first (R403). -/
def execPortRetrain (p : Nat) (s : State) : Out :=
  if s.stage ≠ 3 || 36 ≤ p || (portOfNo s p).state = 1 || !portLives s p then .next s
  else .next (trainPort (portDown s p) p)

/-- Both key counts are 0 after training (R403). No die runs before stage 2 or in ballast mode (R429, R431). -/
def execPortTrainingComplete (p : Nat) (s : State) : Out :=
  let P := portOfNo s p
  if P.state = 1 && (s.stage = 2 || s.stage = 3) then
    .next (portEvent (putPort s p { P with
      state := 2, count := 0, rxCount := 0, rxSeq := 0, replays := 0, stream := [], txSeq := 0, retry := [], txStream := []
      credits := Config.initialCredits p }))
  else .next s

/-! The payload stream of a port (R396, R402) -/

/-- The first packet of a payload stream, each at a 32-byte boundary; 32 zero bytes there are padding (log 24). -/
def cutPacket (b : List Byte) : Option (Option Packet × List Byte) :=
  if b.length < 32 then none
  else
    let h := leNat (b.take 32)
    if h = 0 then some (none, b.drop 32)
    else
      let n := carries (BitVec.ofNat 4 (h / 2 ^ 92)) (h / 2 ^ 144 % 2 ^ 16)
      let len := (n + 71) / 32 * 32
      if b.length < len then none
      else some (some (parsePacket h ((b.drop 32).take n) (leNat ((b.drop (32 + n)).take 8))), b.drop len)

/-- New work of the fabric engines while their firmware is switched: a packet from another device that answers nothing sent from
here (spec/24 R434). -/
def fabricHeld (s : State) (p : Nat) (op : BitVec 4) : Bool := fwHolds s 3 && p ≠ 63 && !(op = 2 || op = 6 || op = 7)

/-- Packets of the stream arrive, until one is incomplete or finds no room (R402). -/
def deliverStream (s : State) (p fuel : Nat) : State :=
  match fuel with
  | 0 => s
  | n + 1 =>
    let P := portOfNo s p
    match cutPacket P.stream with
    | none => s
    | some (none, r) => deliverStream (putPort s p { P with stream := r }) p n
    | some (some k, r) =>
      if fabricHeld s p k.op then s
      else if noRoom s k then heldBack s k
      else deliverStream (arrive (putPort s p { P with stream := r }) p k) p n

/-! Sending flits (R394 to R396) -/

/-- CRC-32 of IEEE 802.3. -/
def crc32 (bs : List Byte) : Nat := bs.foldl (crcByte 0xEDB88320) (2 ^ 32 - 1) ^^^ (2 ^ 32 - 1)

/-- Credits that a flit returns, each for one data flit: none while the port holds back a packet that finds no room (R402; log
24). -/
def creditsBack (s : State) (p : Nat) (P : Port) : Nat :=
  match cutPacket P.stream with
  | some (some k, _) => if noRoom s k then 0 else (Config.credits p s.ctr).toNat
  | _ => (Config.credits p s.ctr).toNat
/-- A flit takes a place in the retry buffer. -/
def flitRoom (P : Port) : Bool := P.retry.length < 2048
/-- The next flit of a port: header, cipher text and tag under the active slot's nonce, check (R394, R395). -/
def makeFlit (s : State) (p : Nat) (P : Port) (kind ack : Nat) (payload : List Byte) : List Byte :=
  let h := leBytes 8 ((P.txSeq + 1) % 2 ^ 12 + 2 ^ 12 * (ack % 2 ^ 12) + 2 ^ 24 * kind + 2 ^ 32 * creditsBack s p P)
  let nonce := (tabGet 0 P.txSalt P.slot).toNat * 2 ^ 64 + P.count
  let b := h ++ (Config.gcmSeal (2 * p + P.slot) nonce h ((payload ++ List.replicate 224 0).take 224)).toList
  b ++ leBytes 4 (crc32 b) ++ leBytes 4 0
/-- Send one flit and keep it for a replay. -/
def emitFlit (s : State) (p kind ack : Nat) (payload : List Byte) : State :=
  let P := portOfNo s p
  let f := makeFlit s p P kind ack payload
  let q := (P.txSeq + 1) % 2 ^ 12
  { putPort s p { P with txSeq := q, count := P.count + 1, retry := P.retry ++ [(q, f)] } with flits := s.flits ++ [(p, f)] }
/-- The peer has every flit up to sequence `a`. -/
def flitsAcked (P : Port) (a : Nat) : Port :=
  { P with retry := P.retry.filter fun e => 2 ^ 11 ≤ (a + 2 ^ 12 - e.1) % 2 ^ 12 }
/-- The peer asks for the flits after those that it has. -/
def replayFlits (s : State) (p : Nat) : State :=
  { s with flits := s.flits ++ (portOfNo s p).retry.map fun e => (p, e.2) }

/-! Keys (R395) -/

/-- The sender goes to the other slot, which it names in a key marker, the last flit under the old one; with the retry buffer
full it waits for room. -/
def switchKeys (s : State) (p : Nat) : State :=
  let P := portOfNo s p
  let n := 1 - P.slot
  if !flitRoom P then putPort s p { P with switchReq := true }
  else
    let s1 := emitFlit s p 2 P.rxSeq [BitVec.ofNat 8 n]
    let s2 := putPort s1 p { portOfNo s1 p with
      slot := n, count := 0, nextLoaded := false, switchReq := false, state := if P.state = 3 then 2 else P.state }
    if P.state = 3 then portEvent s2 else s2

/-- A switch is asked for; with no next key it waits for one (log 24). -/
def execKeySwitchRequest (p : Nat) (s : State) : Out :=
  let P := portOfNo s p
  if s.stage ≠ 3 || (P.state ≠ 2 && P.state ≠ 3) then .next s
  else if P.nextLoaded then .next (switchKeys s p) else .next (putPort s p { P with switchReq := true })

def execKeyAutoSwitch (p : Nat) (s : State) : Out :=
  let P := portOfNo s p
  if (P.state = 2 || P.state = 3) && P.nextLoaded && 2 ^ 39 ≤ P.count then .next (switchKeys s p) else .next s

def execKeyHardLimit (p : Nat) (s : State) : Out :=
  let P := portOfNo s p
  if P.state = 2 && 2 ^ 40 ≤ P.count then .next (portEvent (putPort s p { P with state := 3 })) else .next s

/-- The management controller loads a key into the next slot of a direction. -/
def execKeySlotLoad (p : Nat) (tx : Bool) (salt : W32) (s : State) : Out :=
  let P := portOfNo s p
  -- the slots are wiped in stage 1 and loaded after it (R429)
  if 36 ≤ p || s.stage < 2 then .next s
  else if tx then
    let s1 := putPort s p { P with txSalt := tabSet 0 P.txSalt (1 - P.slot) salt, nextLoaded := true }
    if P.switchReq && (P.state = 2 || P.state = 3) then .next (switchKeys s1 p) else .next s1
  else .next (putPort s p { P with rxSalt := tabSet 0 P.rxSalt (1 - P.rxSlot) salt })

/-- Packets that were handed to a port go on to its payload stream, each at a 32-byte boundary (R396). -/
def loadStream (s : State) (p fuel : Nat) : State :=
  match fuel with
  | 0 => s
  | n + 1 =>
    let P := portOfNo s p
    if 224 ≤ P.txStream.length then s
    else match s.outbox.find? fun e => e.1 = p with
      | none => s
      | some e =>
        let b := packetBytes e.2
        let b' := b ++ List.replicate ((32 - b.length % 32) % 32) 0
        loadStream (putPort { s with outbox := s.outbox.erase e } p { P with txStream := P.txStream ++ b' }) p n
/-- A port sends its next flit: a key marker that is due, a retry request, data, or an idle one. At a count of 2^40, and in key
wait, it sends no data until a switch (R395). -/
def sendFlit (s : State) (p : Nat) : State :=
  let P := portOfNo s p
  if (P.state ≠ 2 && P.state ≠ 3) || !flitRoom P then s
  else if P.switchReq && P.nextLoaded then switchKeys s p
  else match s.ctlFlits.find? fun c => c.1 = p with
    | some c => emitFlit { s with ctlFlits := s.ctlFlits.erase c } p 3 c.2 []
    | none =>
      if P.state = 3 || 2 ^ 40 ≤ P.count then s
      else
        let s1 := loadStream s p 8
        let Q := portOfNo s1 p
        if Q.txStream.isEmpty || Q.credits = 0 then emitFlit s1 p 1 P.rxSeq []
        else
          emitFlit (putPort s1 p { Q with txStream := Q.txStream.drop 224, credits := Q.credits - 1 }) p 0 P.rxSeq
            (Q.txStream.take 224)
def sendFlits (s : State) (p n : Nat) : State :=
  match n with
  | 0 => s
  | k + 1 => sendFlits (sendFlit s p) p k

/-! Receiving flits (R394) -/

/-- The check of a flit holds. -/
def flitChecks (flit : List Byte) : Bool := leNat ((flit.drop 248).take 4) = crc32 (flit.take 248)
/-- The payload of a flit whose tag holds: its nonce is the slot's salt and count. -/
def openFlit (P : Port) (p : Nat) (flit : List Byte) : Option (List Byte) :=
  Config.gcmOpen (2 * p + P.rxSlot) ((tabGet 0 P.rxSalt P.rxSlot).toNat * 2 ^ 64 + P.rxCount) (flit.take 248)

/-- A flit fails: it is asked for again, and after 8 failed replays the port goes down. Unless the replay begins, the next flit has
sequence `next`. -/
def flitFails (s : State) (p next : Nat) : State :=
  let P := portOfNo s p
  let s1 := putPort s p { P with
    replays := P.replays + 1, retries := min (P.retries + 1) (2 ^ 16 - 1), wire := next % 2 ^ 12 }
  if 8 < P.replays + 1 then portDown s1 p
  else if flitRoom P then emitFlit s1 p 3 P.rxSeq []
  else { s1 with ctlFlits := s1.ctlFlits ++ [(p, P.rxSeq)] }

/-- A flit that holds: it acknowledges the flits sent up to `ack` and returns credits; data go on to the stream, a marker changes
the slot, and a retry request has the flits after `ack` sent again. -/
def flitHolds (s : State) (p seq ack kind credits : Nat) (payload : List Byte) : State :=
  let P0 := flitsAcked (portOfNo s p) ack
  let P := { P0 with rxSeq := seq, rxCount := P0.rxCount + 1, replays := 0, credits := P0.credits + credits }
  if kind = 0 then deliverStream (putPort s p { P with stream := P.stream ++ payload }) p (P.stream.length + 8)
  else if kind = 2 then putPort s p { P with rxSlot := 1 - P.rxSlot, rxCount := 0 }
  else if kind = 3 then replayFlits (putPort s p P) p
  else putPort s p P

/-- A sequence that the receiver has passed, modulo 2^12. -/
def flitBehind (P : Port) (seq : Nat) : Bool := (P.rxSeq + 2 ^ 12 - seq) % 2 ^ 12 < 2 ^ 11

/-- One flit more of those under way when the replay was asked for has come by: it is discarded. -/
def laterFlit (s : State) (p : Nat) : State :=
  let P := portOfNo s p
  putPort s p { P with wire := (P.wire + 1) % 2 ^ 12 }
/-- A flit whose check fails, its sequence as it reads `seq`. While a replay is awaited it is one of the later ones, unless it reads
as the awaited one: then the replay has failed. -/
def flitGarbled (s : State) (p seq : Nat) : State :=
  let P := portOfNo s p
  let next := (P.rxSeq + 1) % 2 ^ 12
  if P.replays = 0 || seq = next then flitFails s p (next + 1) else laterFlit s p
/-- A flit whose check holds and that is not the next in turn. One that has been received is discarded. With no replay awaited the
flits before it are missing. While one is awaited, the flits under way come in sequence and are discarded; a flit out of that
sequence belongs to a replay whose first flit was lost. -/
def flitOdd (s : State) (p seq : Nat) : State :=
  let P := portOfNo s p
  if flitBehind P seq then s
  else if P.replays = 0 || seq ≠ P.wire then flitFails s p (seq + 1)
  else laterFlit s p
/-- A received flit: the next in turn is opened; others are discarded or asked for again (R394; DEDUCED, log 24). -/
def execFlitReceive (p : Nat) (flit : List Byte) (s : State) : Out :=
  let P := portOfNo s p
  let h := leNat (flit.take 8)
  let seq := h % 2 ^ 12
  if (P.state ≠ 2 && P.state ≠ 3) || flit.length ≠ 256 || s.stage < 2 || s.stage = 4 then .next s
  else if !flitChecks flit then .next (flitGarbled s p seq)
  else if seq ≠ (P.rxSeq + 1) % 2 ^ 12 then .next (flitOdd s p seq)
  else match openFlit P p flit with
    | none => .next (flitFails s p (seq + 1))
    | some payload => .next (flitHolds s p seq (h / 2 ^ 12 % 2 ^ 12) (h / 2 ^ 24 % 16) (h / 2 ^ 32 % 2 ^ 16) payload)

/-! Arrivals and answers as events (R397, R402) -/

/-- Parked arrivals are tried again, and where that frees space the ports take what they had held back (R402). -/
def retryAll (s : State) : State :=
  let t := retryParked s
  t.ports.foldl (fun u e => if e.2.stream.isEmpty then u else deliverStream u e.1 (e.2.stream.length + 8)) t

/-- A packet arrives on a port that is up; port 63 stands for this device's own packets, which are taken from those
handed to it. -/
def execPacketArrival (p : Nat) (pkt : Packet) (s : State) : Out :=
  if fabricHeld s p pkt.op || s.stage ≠ 3 then .next s
  else if p = 63 && !s.outbox.contains (63, pkt) then .next s
  else if p ≠ 63 && (36 ≤ p || (portOfNo s p).state ≠ 2) then .next s
  else if noRoom s pkt then .next (heldBack s pkt)
  else .next (retryAll (arrive (if p = 63 then { s with outbox := s.outbox.erase (63, pkt) } else s) p pkt))

/-- An answer reaches the source (R398). -/
def execPacketAckReceive (p : Nat) (peer : BitVec 10) (mc : Bool) (seq : W32) (ok : Bool) (code : BitVec 8) (s : State) :
    Out :=
  if s.stage ≠ 3 then .next s
  else if p = 63 then
    match s.outbox.find? fun e => e.1 = 63 && e.2.op = (if ok then 6 else 7) && e.2.mc = mc &&
        (if mc then e.2.dst = peer else e.2.src = peer) && e.2.value.toNat = seq.toNat + 2 ^ 32 * code.toNat with
    | none => .next s
    | some e => .next (retryAll (ackPacket { s with outbox := s.outbox.erase e } 63 peer.toNat mc seq ok code.toNat))
  else if p < 36 && (portOfNo s p).state = 2 then .next (retryAll (ackPacket s p peer.toNat mc seq ok code.toNat))
  else .next s

/-- 100 us without an answer (R397). -/
def execPacketResendTimeout (peer : BitVec 10) (mc : Bool) (seq : W32) (s : State) : Out :=
  let key := peerKey peer.toNat mc
  match (txOf s key).sent.find? fun x => x.pkt.seq = seq with
  | none => .next s
  | some x => .next (pumpAll (resend s key x))

end Sys2Proof.Machine
end

