-- ==== Sys2Proof/Machine/Transl.lean ====
section
/-! DEFINITION. The translation block's agents (spec/20 R377 to R385; spec/21 R405): walkers, the fault queue, resolves,
shootdowns, copy-on-write and the checkpoint engine. -/

namespace Sys2Proof.Machine

/-! Rings (R378): base, control, written and read indexes at offsets of a block -/

def ringBase (s : State) (o : Nat) : Nat := (barGet s o).toNat
def ringSize (s : State) (o : Nat) : Nat := 2 ^ ((barGet s (o + 8)).toNat % 16)
def ringOn (s : State) (o : Nat) : Bool := (barGet s (o + 8)).getLsbD 4
def ringWr (s : State) (o : Nat) : Nat := (barGet s (o + 0x10)).toNat % 2 ^ 32
def ringRd (s : State) (o : Nat) : Nat := (barGet s (o + 0x18)).toNat % 2 ^ 32
/-- Entries written and not consumed, modulo 2^32. -/
def ringHeld (s : State) (o : Nat) : Nat := (ringWr s o + 2 ^ 32 - ringRd s o) % 2 ^ 32
def ringPutWr (s : State) (o v : Nat) : State := barSet s (o + 0x10) (BitVec.ofNat 64 (v % 2 ^ 32))
def ringPutRd (s : State) (o v : Nat) : State := barSet s (o + 0x18) (BitVec.ofNat 64 (v % 2 ^ 32))
/-- Set an error bit of a control register. -/
def ringFlag (s : State) (o bit : Nat) : State := barSet s (o + 8) (barGet s (o + 8) ||| BitVec.ofNat 64 (2 ^ bit))
/-- A ring takes one more record. -/
def ringRoom (s : State) (o : Nat) : Bool := ringOn s o && decide (ringHeld s o < ringSize s o)
/-- Append a record of `n` bytes and raise vector `vec` when the ring was empty (R387). -/
def ringAppend (s : State) (o n v vec : Nat) : State :=
  let wr := ringWr s o
  let s1 := ringPutWr (tblStore s (ringBase s o + n * (wr % ringSize s o)) n v) o (wr + 1)
  if ringHeld s o = 0 then { s1 with msix := s1.msix ++ [vec] } else s1

def tfq : Nat := 0x30000
def tsl : Nat := 0x30048
def tpool (d : Nat) : Nat := 0x30100 + 32 * d
def tck (d : Nat) : Nat := 0x30200 + 32 * d

/-! Walks (R372, R377, R379) -/

/-- Add a leaf to the caches. -/
def cacheLeaf (s : State) (job va l : Nat) (e : W64) (at_ : Nat) : State :=
  let t : TlbEntry := ⟨job, l, va / levelSize l, e, at_⟩
  { s with tlb := t :: s.tlb.filter fun x => !(x.job = t.job && x.level = t.level && x.base = t.base) }

/-- A walk for an access: a valid leaf is cached. The record of a walk that ends otherwise is posted by the access that
waits for it, in its own step. -/
def execTranslationWalk (job : BitVec 8) (va : W64) (acc : AccKind) (s : State) : Out :=
  let _ := acc
  if s.stage ≠ 3 || !canonical va || fwHolds s 2 then .next s
  else match walk s job.toNat (va57 va) with
    | .leaf l e a => .next (cacheLeaf s job.toNat (va57 va) l e a)
    | .window _ | .nonResident _ _ | .unmapped | .malformed _ _ | .dead _ | .held => .next s

/-! The fault queue (R379) -/

/-- A 57-bit address as a 64-bit one (R9). -/
def vaOut (va : Nat) : Nat := ((BitVec.ofNat 57 va).signExtend 64).toNat
def recordBits (r : XRec) : Nat :=
  r.time.toNat + 2 ^ 64 * r.access.toNat + 2 ^ 72 * r.reason + 2 ^ 85 * r.level + 2 ^ 88 * r.job + 2 ^ 96 * r.tag.toNat
    + 2 ^ 128 * r.entry + 2 ^ 192 * vaOut r.va

/-- The oldest record that has not been posted goes to the ring when there is room, with the time at which it is posted; one that
nothing waits for is done. -/
def execFaultQueuePost (s : State) : Out :=
  match s.xrecs.find? fun r => !r.posted with
  | none => .next s
  | some r =>
    if !ringRoom s tfq || fwHolds s 2 then .next s
    else withRow s (ringBase s tfq + 32 * (ringWr s tfq % ringSize s tfq)) 32 <| withPaLines s (ringBase s tfq + 32 * (ringWr s tfq % ringSize s tfq)) 32 <|
      let s1 := ringAppend s tfq 32 (recordBits { r with time := s.clock }) 0
      .next { s1 with xrecs := if r.reason = 3 then s1.xrecs.filter fun x => x.tag ≠ r.tag
        else s1.xrecs.map fun x => if x.tag = r.tag then { x with posted := true, time := s.clock } else x }

/-! Resolves (R381) -/

/-- Give a waiter its verdict for what a record covers. -/
def verdictTo (s : State) (page kind : Nat) (who : Waiter) : State :=
  match who with
  | .warp w => updW s w fun W => { W with verdicts := W.verdicts ++ [(page, kind)] }
  | .eng w => updW s w fun W => { W with verdicts := W.verdicts ++ [(page, kind)] }
  | .tile w => updW s w fun W => { W with tile := W.tile.map fun t => { t with verdicts := t.verdicts ++ [(page, kind)] } }
  | .cmd k => updCmd s k fun c => { c with verdicts := c.verdicts ++ [(page, kind)] }
  | .loop k => updCmd s k fun c => { c with verdicts := c.verdicts ++ [(page, kind)] }
  | .fabric i => { s with parked := s.parked.map fun x =>
      if x.ident = i then { x with verdicts := x.verdicts ++ [(page, kind)] } else x }
  | .launcher a => { s with lverdicts := s.lverdicts ++ [(a, page, kind)] }

/-- Act on every waiter of an outstanding record: 0 walks again, another value is a fault kind. -/
def resolve (s : State) (tag : W32) (kind : Nat) : State :=
  match s.xrecs.find? fun r => r.tag = tag && r.reason ≠ 3 with
  | none => s
  | some r =>
    let s1 := { s with xrecs := s.xrecs.filter fun x => x.tag ≠ tag }
    let s2 := if kind = 0 then s1 else r.waiters.foldl (fun t w => verdictTo t (verdictKey r.va r.level r.reason) kind w) s1
    let s3 := if kind ≠ 0 && r.reason ≠ 1 then
        { s2 with cows := s2.cows.filter fun c => !(c.job = r.job && c.page * 2 ^ 16 = r.va) } else s2
    retryAll (pumpAll s3)

def execResolveWalkAgain (tag : W32) (s : State) : Out :=
  if s.stage ≠ 3 then .next s else holdIn s 2 (.resolveWalkAgain tag) (.next (resolve s tag 0))
def execResolveUnmapped (tag : W32) (s : State) : Out :=
  if s.stage ≠ 3 then .next s else holdIn s 2 (.resolveUnmapped tag) (.next (resolve s tag 1))
def execResolveProtection (tag : W32) (s : State) : Out :=
  if s.stage ≠ 3 then .next s else holdIn s 2 (.resolveProtection tag) (.next (resolve s tag 2))

/-! Shootdowns (R378, R382) -/

/-- Whether a cached translation touches the range of a shootdown; a length of 0 is the whole domain. -/
def inShoot (s : State) (job : Nat) (lo n : Nat) : Bool :=
  let a := (barGet s 0x30028).toNat % 2 ^ 57
  let len := (barGet s 0x30030).toNat
  let _ := job
  len = 0 || (lo < a + len && a < lo + n)

/-- Vat commands of a job that hold a page of the range, by their posts. -/
def shootVats (s : State) (job : Nat) : List Nat :=
  let hit (c : VatCmd) : Bool := c.job = job && c.pages.any fun p => inShoot s job (p.1 * 2 ^ 16) (2 ^ 16)
  let cs := (s.vats.flatMap fun e => e.2.queue ++ (match e.2.run with
    | some r => [r.cmd]
    | none => [])) ++ s.vatWait.map Prod.snd ++ s.posts.flatMap fun e => e.2.todo.map PostItem.cmd
  ((cs.filter hit).map VatCmd.post).eraseDups

/-- The cached translations of the range go, and the shootdown runs until what used them is over. -/
def startShoot (s : State) (v : W64) (snap : Bool) : State :=
  let job := v.toNat % 256
  { s with
    tlb := s.tlb.filter fun t => !(t.job = job && inShoot s job (t.base * levelSize t.level) (levelSize t.level))
    shoot := some ⟨job, snap, (s.cmds.filter fun c => c.job = job && c.started).map Cmd.id, shootVats s job,
      (s.putGroups.filter fun g => g.job.toNat = job).map fun g => (g.src, g.grp)⟩ }

def execShootdown (v : W64) (s : State) : Out :=
  if s.stage ≠ 3 || v.toNat / 2 ^ 8 ≠ 0 || s.shoot.isSome then .next s
  else holdIn s 2 (.shootdown v) (.next (startShoot s v false))
def execShootdownSnapshot (v : W64) (s : State) : Out :=
  if s.stage ≠ 3 || v.toNat / 2 ^ 8 ≠ 1 || s.shoot.isSome then .next s
  else holdIn s 2 (.shootdownSnapshot v) (.next (startShoot s v true))

/-- Cores that run warps of a job, or that have run some of a launch that is not complete: their L1 may hold its stores. -/
def jobCores (s : State) (job : Nat) : List Nat :=
  ((s.groups.filter fun G => let L := getL s (getGang s G.gang).launch; !L.complete && L.job = job).map Group.core).eraseDups

/-- What a shootdown waits for: commands, vat commands, pending lines, and stores on their way. -/
def shootWaits (s : State) (x : Shoot) : Bool :=
  s.cmds.any (fun c => x.cmds.contains c.id) ||
  s.putGroups.any (fun g => g.job.toNat = x.job && x.puts.contains (g.src, g.grp)) || s.vatWait.any (fun e => x.vats.contains e.2.post) ||
  s.dramq.any (fun d => match d.warp with
    | some w => warpJob s (getW s w) = x.job
    | none => false) ||
  s.vats.any fun e => (e.2.queue.any fun c => x.vats.contains c.post) || match e.2.run with
    | some r => x.vats.contains r.cmd.post
    | none => false

/-- A shootdown completes; with snap every dirty L1 sector of the job's cores has been written back. -/
def execShootdownComplete (s : State) : Out :=
  match s.shoot with
  | none => .next s
  | some x =>
    if shootWaits s x then .next s
    else withLines s (if x.snap then (jobCores s x.job).flatMap (coreLines s) else []) <|
      let s1 := if x.snap then (jobCores s x.job).foldl l1WriteBack s else s
      .next { s1 with shoot := none }

/-! Copy-on-write (R383, R384) -/

/-- A pool entry is a 64 KiB frame of die d's stack in the interleaved space. -/
def poolFrame (d pa : Nat) : Bool := pa % 2 ^ 16 = 0 && paSpace pa = 0 && paExists pa && paStack pa = d && paStack (pa + 65535) = d

/-- The next usable frame of a pool, with the entries before it skipped. -/
def takeFrame (s : State) (d fuel : Nat) : State × Option Nat :=
  match fuel with
  | 0 => (s, none)
  | n + 1 =>
    let o := tpool d
    if !ringOn s o || ringHeld s o = 0 then (s, none)
    else
      let pa := tblRead s (ringBase s o + 8 * (ringRd s o % ringSize s o)) 8
      let s1 := ringPutRd s o (ringRd s o + 1)
      if poolFrame d pa then (s1, some pa) else takeFrame (ringFlag s1 o 8) d n
/-- Take a frame; vector 2 when the pool falls below 64 entries. -/
def nextFrame (s : State) (d fuel : Nat) : State × Option Nat :=
  let x := takeFrame s d fuel
  (if 64 ≤ ringHeld s (tpool d) && ringHeld x.1 (tpool d) < 64 then { x.1 with msix := x.1.msix ++ [2] } else x.1, x.2)

/-- Copy a frame as the home L2 sees it, after every cached sector of the new frame has been dropped; an uncorrectable error of a
unit goes with its data. -/
def copyFrame (s : State) (old new : Nat) : State :=
  let inNew (k : Nat) : Bool := new / 128 ≤ k && k < new / 128 + 512
  let inOld (u : Nat) : Bool := old / 128 ≤ u / 4 && u / 4 < old / 128 + 512
  let bad := (s.poison.filter fun u => !isCured s none u) ++ s.upsets.filterMap fun u => match u with | .l2 k => some k | _ => none
  let s1 := { s with
    l1 := s.l1.filter fun e => !inNew (e.1 % 2 ^ 48)
    l2 := s.l2.filter fun e => !inNew e.1
    poison := (s.poison.filter fun u => !inNew (u / 4)) ++
      (bad.filter inOld).map fun u => u + new / 32 - old / 32
    cured := s.cured.filter fun e => !inNew (e.2 / 4) }
  (List.range 512).foldl (fun t i =>
    let k := new / 128 + i
    dramPut (drainSector (snoop t k (BitVec.allOnes 128)) k (BitVec.allOnes 128)) k (BitVec.allOnes 128) (l2View t (old / 128 + i))) s1

/-- The leaf with its new frame and cow clear. -/
def newLeaf (e : W64) (new : Nat) : W64 :=
  (e &&& ~~~ (0x000FFFFFFFFFFF40 : W64)) ||| BitVec.ofNat 64 new

/-- A record on which the held writes wait: reason 2 for an empty pool, 4 for a full log. -/
def cowRecord (s : State) (c : CowHold) (at_ reason : Nat) : State :=
  if s.xrecs.length ≥ 1024 || s.xrecs.any fun r => r.job = c.job && r.va = c.page * 2 ^ 16 && r.reason = reason then s
  else { s with
    xrecs := s.xrecs ++ [⟨c.page * 2 ^ 16, at_, s.xtag, c.job, 4, reason, c.access, s.clock, false, c.waiters⟩], xtag := s.xtag + 1 }

/-- The pending bytes of the job's puts to a page that has been copied are held writes too: they land in the new frame (R383,
R401). -/
def movePuts (s : State) (c : CowHold) (old new : Nat) : State :=
  { s with putGroups := s.putGroups.map fun g => if g.job.toNat ≠ c.job then g else
      { g with bytes := g.bytes.map fun b =>
          if b.page = c.page && old ≤ b.at_ && b.at_ < old + 65536 then { b with at_ := b.at_ + new - old } else b } }
/-- Carry out steps 3 to 8 with the new frame. -/
def finishCow (s : State) (c : CowHold) (e : W64) (at_ old new : Nat) : State :=
  let s1 := l2Store (movePuts (copyFrame s old new) c old new) at_ 8 (newLeaf e new).toNat
  let s2 := { s1 with
    tlb := s1.tlb.filter fun t => !(t.job = c.job && t.level = 4 && t.base = c.page)
    cows := s1.cows.filter fun x => x.ident ≠ c.ident }
  retryAll (pumpAll (ringAppend s2 tsl 16 (vaOut (c.page * 2 ^ 16) + 2 ^ 8 * c.job + 2 ^ 64 * old) 1))

/-- What a copy writes holds lines that the host may cache: the new frame, the leaf and the entry of the log (R388). -/
def cowLines (s : State) (at_ new : Nat) : List Nat :=
  heldLines s new 65536 ++ heldLines s at_ 8 ++ heldLines s (ringBase s tsl + 16 * (ringWr s tsl % ringSize s tsl)) 16
/-- A refresh comes before a row of the frames that a copy reads and writes (R413). -/
def cowDue (s : State) (old new : Nat) : Bool :=
  runDue s old 65536 || (List.range 512).any fun i => paDue s (new + 128 * i)
/-- The first write through a cow leaf: the page is copied into a frame of the pool of the die that homes the old one. -/
def execCopyOnWrite (k : Nat) (s : State) : Out :=
  match s.cows.find? fun c => c.ident = k with
  | none => .next s
  | some c =>
    if s.xrecs.any fun r => r.job = c.job && r.va = c.page * 2 ^ 16 && (r.reason = 2 || r.reason = 4) then .next s
    else match walk s c.job (c.page * 2 ^ 16) with
      | .leaf l e a =>
        if l ≠ 4 || !eCow e then .next (retryAll (pumpAll { s with cows := s.cows.filter fun x => x.ident ≠ k }))
        else if !ringRoom s tsl then .next (cowRecord s c a (if ringOn s (tpool (paStack (eAddr e))) &&
            ringHeld s (tpool (paStack (eAddr e))) ≠ 0 then 4 else 2))
        else withRow s (ringBase s (tpool (paStack (eAddr e)))) (8 * ringSize s (tpool (paStack (eAddr e)))) <|
          withRow s (ringBase s tsl + 16 * (ringWr s tsl % ringSize s tsl)) 16 <|
          withPa (ringBase s (tpool (paStack (eAddr e)))) 8 <| withPa (ringBase s tsl) 16 <|
          match nextFrame s (paStack (eAddr e)) 4097 with
          | (t, none) => .next (cowRecord t c a 2)
          | (t, some f) =>
            if cowDue s (eAddr e) f then .next s
            else withLines s (cowLines s a f) (.next (finishCow t c e a (eAddr e) f))
      | .held => .next s
      | .window _ | .nonResident _ _ | .unmapped | .malformed _ _ | .dead _ =>
        .next (retryAll (pumpAll { s with cows := s.cows.filter fun x => x.ident ≠ k }))

/-! The checkpoint engine (R385, R405) -/

/-- One datagram of a frame: its 32-byte header and 4,096 bytes. -/
def datagram (s : State) (pa : Nat) (tag : W64) (i : Nat) : List Byte :=
  let chunk := leBytes 4096 (l2Read s (pa + 4096 * i) 4096)
  leBytes 8 tag.toNat ++ leBytes 4 i ++ leBytes 4 0 ++ leBytes 8 (crc64 chunk).toNat ++ leBytes 8 pa ++ chunk

/-- The address of the record of a die's destination, SOCKDSTd. -/
def ckSock (s : State) (d : Nat) : Nat := (barGet s (0x50200 + 16 * d)).toNat
/-- Send the 16 datagrams of a frame to that destination. -/
def sendFrame (s : State) (d pa : Nat) (tag : W64) : State :=
  let dst := leBytes 32 (tblRead s (ckSock s d) 32)
  { s with datagrams := s.datagrams ++ (List.range 16).map fun i => (d, dst, datagram s pa tag i) }

/-- A frame that the engine may send. -/
def ckFrame (s : State) (pa : Nat) : Bool :=
  pa % 2 ^ 16 = 0 && paSpace pa < 2 && paExists pa && paExists (pa + 65535) && !paFenced s pa && !paFenced s (pa + 65535)

/-- A refresh comes before a row of the frame or of the record of its destination (R413). -/
def frameDue (s : State) (d pa : Nat) : Bool := runDue s pa 65536 || runDue s (ckSock s d) 32

/-- A frame of a ring is done with; vector 3 when the ring has emptied, or when `err` says that an error bit has come to be
set. -/
def ckAdvance (s : State) (d : Nat) (err : Bool) : State :=
  let s1 := ringPutRd s (tck d) (ringRd s (tck d) + 1)
  if ringHeld s1 (tck d) = 0 || err then { s1 with msix := s1.msix ++ [3] } else s1

/-- The next frame of die d's ring is sent once the one before has been acknowledged; one that is no frame is skipped. -/
def execCheckpointFrameSend (d : BitVec 3) (s : State) : Out :=
  let n := d.toNat
  let o := tck n
  if s.stage ≠ 3 || !ringOn s o || (barGet s (o + 8)).getLsbD 9 || ringHeld s o = 0 || fwHolds s 4 ||
      s.ckSends.any (fun x => x.die = n) then .next s
  else
    let at_ := ringBase s o + 16 * (ringRd s o % ringSize s o)
    withRow s at_ 16 <| withPa at_ 16 <|
      let pa := tblRead s at_ 8
      let tag : W64 := BitVec.ofNat 64 (tblRead s (at_ + 8) 8)
      if !ckFrame s pa then
        .next (ckAdvance (ringFlag s o 8) n !(barGet s (o + 8)).getLsbD 8)
      else if frameDue s n pa then .next s
      else .next { sendFrame s n pa tag with ckSends := s.ckSends ++ [⟨n, pa, tag, 1⟩] }

/-- The receiver's datagram with a frame's tag. -/
def execCheckpointAckReceive (d : BitVec 3) (tag : W64) (s : State) : Out :=
  match s.ckSends.find? fun x => x.die = d.toNat && x.tag = tag with
  | none => .next s
  | some x => .next (ckAdvance { s with ckSends := s.ckSends.erase x } d.toNat false)

/-- 1 ms without an answer: the frame is sent again, and after 16 sends the ring stops. -/
def execCheckpointResendTimeout (d : BitVec 3) (s : State) : Out :=
  match s.ckSends.find? fun x => x.die = d.toNat with
  | none => .next s
  | some x =>
    let s0 := { s with ckSends := s.ckSends.erase x }
    if 16 ≤ x.sends then
      let s1 := ringFlag s0 (tck d.toNat) 9
      .next { s1 with msix := s1.msix ++ [3] }
    else holdDue s (frameDue s d.toNat x.pa) (.checkpointResendTimeout d) <| .next { sendFrame s0 d.toNat x.pa x.tag with ckSends := s0.ckSends ++ [{ x with sends := x.sends + 1 }] }

end Sys2Proof.Machine
end

