-- ==== Sys2Proof/Machine/HostLink.lean ====
section
/-! DEFINITION. The host link (spec/21 R386 to R389): BAR2, CXL.mem, back-invalidates and the answers of host memory. The
register window is in Machine/Registers. -/

namespace Sys2Proof.Machine

/-- The window of both paths: 384 GB of the interleaved space. -/
def hostRange (off n : Nat) : Bool := off + n ≤ 8 * stackBytes
/-- Whether a run lies on a fenced stack. -/
def hostFenced (s : State) (off n : Nat) : Bool := paFenced s off || paFenced s (off + (n - 1))
/-- Memory is served to the host once the module is ready (spec/24 R429, R431). -/
def memServed (s : State) : Bool := s.stage = 3

/-- The 64-byte lines of a run. -/
def hostLinesOf (off n : Nat) : List Nat := (List.range ((off + (n - 1)) / 64 - off / 64 + 1)).map (off / 64 + ·)
/-- The sectors of a run. -/
def sectorsOf (off n : Nat) : List Nat := (List.range ((off + (n - 1)) / 128 - off / 128 + 1)).map (off / 128 + ·)

/-- A row of a run may not be opened now (R413, R434). -/
def spanDue (s : State) (off n : Nat) : Bool := rowsHeld s && (sectorsOf off n).any fun k => paDue s (128 * k)

/-- A read through BAR2 is served from DRAM, past every cache; one beyond the range is unsupported, one of a fenced stack is
aborted, and uncorrectable data come marked as poisoned. -/
def execHostBar2Read (off n : Nat) (s : State) : Out :=
  if n = 0 then .next s
  else if !hostRange off n || !memServed s then .next { s with lastRead := ([], 1) }
  else if hostFenced s off n then .next { s with lastRead := ([], 2) }
  else holdDue s (spanDue s off n) (.hostBar2Read off n) <|
    .next { s with lastRead := (leBytes n (memRead s.mem off n), if dramPoisoned s off n then 3 else 0) }

/-- The units that `m` covers whole, as runs of bytes of sector `k`. -/
def coveredRuns (k : Nat) (m : BitVec 128) : List (Nat × Nat) :=
  (List.range 4).filterMap fun u =>
    if m &&& byteMask (32 * u) 32 = byteMask (32 * u) 32 then some (128 * k + 32 * u, 32) else none
/-- The dirty units of an L2 copy that a BAR2 write of the bytes `m` leaves standing: those that it does not touch, and of those
that it touches some (R136, R388). -/
def keptUnits (s : State) (x : Sector) (m : BitVec 128) : BitVec 128 :=
  (List.range 4).foldl (fun acc u =>
    let um := byteMask (32 * u) 32
    if x.dirty &&& um ≠ 0 && (m &&& um = 0 || Config.choice (s.ctr + u) % 2 = 1) then acc ||| um else acc) 0
/-- One sector of a BAR2 write: the bytes `m` of `d` go to DRAM and the L2 copy is dropped. A unit that was dirty and that the
write touches ends with one of the two values (R136, R388); an error that its write-back finds poisons it, and a unit written
whole loses its poison (R422). -/
def bar2Sector (s : State) (k : Nat) (m : BitVec 128) (d : BitVec 1024) : State :=
  match l2Find s k with
  | none => dramPut (clearCovered (drainSector s k (wholeUnits m)) (coveredRuns k m)) k m d
  | some x =>
    let units := wholeUnits (m ||| x.dirty)
    let s0 := drainSector s k units
    let keep := keptUnits s0 x m
    let s1 := dropCured (poisonUnits s0 k keep) k (wholeUnits m &&& ~~~ keep)
    let s2 := clearCovered s1 (coveredRuns k (m &&& ~~~ keep))
    { dramPut (l2Drop s2 k) k (m ||| wholeUnits x.dirty) (mergeBytes (mergeBytes (dramView s0 k) d m) x.data keep) with
      ctr := s0.ctr + 4 }

/-- The part of a run that lies in sector `k`: its byte mask and data. -/
def sectorPart (off : Nat) (data : List Byte) (k : Nat) : BitVec 128 × BitVec 1024 :=
  (List.range 128).foldl (fun a i =>
    let p := 128 * k + i
    if off ≤ p && p < off + data.length then
      (a.1 ||| byteMask i 1, a.2 ||| ((data.getD (p - off) 0).setWidth 1024 <<< (8 * i)))
    else a) (0, 0)

/-- A write through BAR2. -/
def execHostBar2Write (off : Nat) (data : List Byte) (s : State) : Out :=
  let n := data.length
  if n = 0 || !hostRange off n || !memServed s || hostFenced s off n then .next s
  else holdDue s (spanDue s off n) (.hostBar2Write off data) <|
    .next ((sectorsOf off n).foldl (fun t k => let x := sectorPart off data k; bar2Sector t k x.1 x.2) s)

/-- A host read waits while a back-invalidate of one of its lines is outstanding. -/
def lineWaits (s : State) (off n : Nat) : Bool := (hostLinesOf off n).any fun l => s.backInv.contains l
/-- The host may cache the lines of a run from now on. -/
def mayCache (s : State) (off n : Nat) : State :=
  { s with hostLines := s.hostLines ++ (hostLinesOf off n).filter fun l => !s.hostLines.contains l }

/-- A CXL.mem read is performed at the home L2; from a fenced stack its data come marked as poisoned (R424). -/
def execCxlMemRead (off n : Nat) (s : State) : Out :=
  if n = 0 then .next s
  else if !hostRange off n || !memServed s then .next { s with lastRead := ([], 1) }
  else if hostFenced s off n then .next { s with lastRead := ([], 3) }
  else if lineWaits s off n then .next s
  else holdDue s (runDue s off n) (.cxlMemRead off n) <|
    let s1 := (sectorsOf off n).foldl l2Fill s
    .next { mayCache s1 off n with lastRead := (leBytes n (l2Read s1 off n), if dataBad s none off n then 3 else 0) }

/-- A CXL.mem write is performed at the home L2; to a fenced stack it is discarded. One that comes while the
back-invalidate of its line is outstanding is what the host had changed in its copy: it is performed, and the host keeps
no copy. -/
def execCxlMemWrite (off : Nat) (data : List Byte) (s : State) : Out :=
  let n := data.length
  if n = 0 || !hostRange off n || !memServed s || hostFenced s off n then .next s
  else holdDue s (runDue s off n) (.cxlMemWrite off data) <|
    let mine (l : Nat) : Bool := (hostLinesOf off n).contains l
    let s1 := clearCovered (l2Store { s with hostLines := s.hostLines.filter fun l => !mine l } off n (leNat data)) [(off, n)]
    .next (if lineWaits s off n then s1 else mayCache s1 off n)

/-- The host has dropped a line: error records, commands, arrivals and held work that waited to write it go on. -/
def execBackInvalidateResponse (line : Nat) (s : State) : Out :=
  let s1 := takeHeld { s with backInv := s.backInv.erase line }
  .next (retryAll (pumpAll (errFlush s1 s.errq.length)))

/-- How the host completes requests to the 4 KiB page `k` of its memory from now on: with data, or with an error, upon which an
access takes the unmapped fault (R389; log 20). -/
def execHostRequestCompletion (k : Nat) (ok : Bool) (s : State) : Out :=
  if ok then .next { s with hostBad := s.hostBad.filter (· ≠ k) }
  else .next { s with hostBad := k :: s.hostBad.filter (· ≠ k) }

end Sys2Proof.Machine
end

