-- ==== Sys2Proof/Machine/Scaleout.lean ====
section
/-! DEFINITION. The scale-out ports' frames and the time servo (spec/21 R404, R406; spec/17 R341). -/

namespace Sys2Proof.Machine

def sotx (d : Nat) : Nat := 0x50000 + 64 * d
def sorx (d : Nat) : Nat := 0x50020 + 64 * d

/-- The length of a frame. -/
def frameLen (n : Nat) : Bool := 64 ≤ n && n ≤ 9216
/-- A ring entry at `at_` that the device can use for a frame of `n` bytes: its reserved bytes 11 to 15 are zero (R10, R404) and
its buffer exists. -/
def frameBuf (s : State) (at_ pa n : Nat) : Bool :=
  tblRead s (at_ + 11) 5 = 0 && frameLen n && paExists pa && paExists (pa + (n - 1)) && !paFenced s pa &&
  !paFenced s (pa + (n - 1))

/-- The port sends the frame of the oldest entry of its transmit ring and marks the entry; an entry that breaks the layout or
names no frame is skipped and sets bit 8 of the control register (log 26). -/
def execScaleoutTransmit (d : BitVec 3) (s : State) : Out :=
  let o := sotx d.toNat
  if s.stage ≠ 3 || !ringOn s o || ringHeld s o = 0 || fwHolds s 4 then .next s
  else
    let at_ := ringBase s o + 16 * (ringRd s o % ringSize s o)
    withRow s at_ 16 <| withPaLines s at_ 16 <|
      let pa := tblRead s at_ 8
      let n := tblRead s (at_ + 8) 2
      if !frameBuf s at_ pa n then .next (ringPutRd (ringFlag s o 8) o (ringRd s o + 1))
      else withRow s pa n <|
        let s1 := { s with frames := s.frames ++ [(d.toNat, leBytes n (l2Read s pa n))] }
        .next (ringPutRd (tblStore s1 (at_ + 10) 1 (l2Byte s1 (at_ + 10) ||| 1).toNat) o (ringRd s o + 1))

/-- A received frame is written into the buffer of the next entry of the receive ring; with no room it is dropped, and with it
goes an entry that breaks the layout or names no buffer, which sets bit 8 (log 26). -/
def execScaleoutReceive (d : BitVec 3) (frame : List Byte) (s : State) : Out :=
  let o := sorx d.toNat
  let n := frame.length
  if s.stage ≠ 3 || !ringRoom s o || fwHolds s 4 || !frameLen n then .next s
  else
    let at_ := ringBase s o + 16 * (ringWr s o % ringSize s o)
    withPa at_ 16 <| withHost s (heldLines s at_ 16) (.scaleoutReceive d frame) <|
      holdDue s (runDue s at_ 16) (.scaleoutReceive d frame) <|
      let pa := tblRead s at_ 8
      -- the ring is not empty any more (R387)
      let raise (t : State) : State := if ringHeld s o = 0 then { t with msix := t.msix ++ [6] } else t
      if !frameBuf s at_ pa n then .next (raise (ringPutWr (ringFlag s o 8) o (ringWr s o + 1)))
      else withHost s (heldLines s pa n) (.scaleoutReceive d frame) <|
        holdDue s (runDue s pa n) (.scaleoutReceive d frame) <|
        let s1 := tblStore (tblStore s pa n (leNat frame)) (at_ + 8) 2 n
        let s2 := ringPutWr (tblStore s1 (at_ + 10) 1 (l2Byte s1 (at_ + 10) ||| 1).toNat) o (ringWr s o + 1)
        .next (raise s2)

/-- TIME follows the chosen port: at the first lock it is set in one forward step; later it steps forward only for more than
1 ms, and what remains is slewed. It never goes back. -/
def correctTime (s : State) (time : W64) : W64 :=
  if time ≤ s.time then s.time
  else if !s.servo.everLock then time
  else if 1000000 < (time - s.time).toNat then time
  else s.time

/-! Source selection and the measured delay (R406). The best master clock algorithm, the exchanges and their arithmetic are IEEE
1588-2019's, which R406 names and does not repeat (PRESUMED, log 49). -/

def PtpPort.blank : PtpPort := ⟨none, 0, 0, 0⟩
def ptpOf (s : State) (d : BitVec 3) : PtpPort := tabGet PtpPort.blank s.ptp d.toNat
def putPtp (s : State) (d : BitVec 3) (x : PtpPort) : State := { s with ptp := tabSet PtpPort.blank s.ptp d.toNat x }

/-- Append the `n` bits of a field to a rank. -/
def rankField (n r v : Nat) : Nat := r * 2 ^ n + v
/-- The rank of an announced clock, the least being the best: its attributes and identity in the order of the comparison, then the
steps to it, and of equal ones the sender. -/
def clockRank (c : PtpClock) : Nat :=
  rankField 80 (rankField 16 (rankField 64 (rankField 8 (rankField 16 (rankField 8 (rankField 8 c.priority1.toNat c.cls.toNat)
    c.accuracy.toNat) c.variance.toNat) c.priority2.toNat) c.identity.toNat) c.steps.toNat) c.sender.toNat
/-- The port that the algorithm chooses among all eight: the least rank, then the least number. -/
def bestPort (s : State) : Option (BitVec 3) :=
  ((List.range 8).foldl (fun (b : Option (Nat × Nat)) d =>
    match (ptpOf s (BitVec.ofNat 3 d)).clock, b with
    | none, _ => b
    | some c, none => some (clockRank c, d)
    | some c, some (r, e) => if clockRank c < r then some (clockRank c, d) else some (r, e)) none).map fun x => BitVec.ofNat 3 x.2

/-- A difference of times as the signed 32-bit offset of TSTAT, saturated. -/
def offsetBits (x : W64) : W32 :=
  if x.toInt < -2147483648 then 0x80000000 else if 2147483647 < x.toInt then 0x7FFFFFFF else x.setWidth 32
/-- Half of a difference of times. -/
def halfTime (x : W64) : W64 := BitVec.ofInt 64 (x.toInt / 2)

/-- A Sync: its arrival is timestamped at the port. The servo follows the chosen port: TIME is corrected by the offset that is left
after the path delay. The next request for a delay goes out at the corrected time, in which the arrival is kept. -/
def ptpSync (s : State) (d : BitVec 3) (origin : W64) : State :=
  let x := ptpOf s d
  let offset := s.time - origin - x.delay
  let s1 := if bestPort s = some d then
      { s with time := correctTime s (origin + x.delay), servo := ⟨d, true, true, offsetBits offset⟩ }
    else s
  putPtp s1 d { x with sync := s1.time - origin, asked := s1.time }

/-- A message of IEEE 1588 arrives at a port: an Announce tells the choice its data set; a Sync is followed if its port is the
chosen one; the answers to delay requests give the path delay, by the mean of both ways or by half the round trip. `corr` is the
message's correction, the nanoseconds that it and the messages it answers spent in the network's clocks. -/
def execPtpMessageReceive (d : BitVec 3) (m : PtpMsg) (corr : W64) (s : State) : Out :=
  let x := ptpOf s d
  if s.stage = 4 || fwHolds s 4 then .next s
  else match m with
    | .announce c => .next (putPtp s d { x with clock := some c })
    | .sync origin => .next (ptpSync s d (origin + corr))
    | .delayResp received => .next (putPtp s d { x with delay := halfTime (x.sync + (received - corr - x.asked)) })
    | .peerDelayResp received sent => .next (putPtp s d { x with delay := halfTime (s.time - x.asked - (sent - received) - corr) })

/-- No port is locked: no master is heard any more at any port, and TIME runs in holdover. -/
def execPtpLockLoss (s : State) : Out := .next { s with servo := { s.servo with locked := false }, ptp := [] }

end Sys2Proof.Machine
end

