-- ==== Sys2Proof/Machine/VatOps.lean ====
section
/-! DEFINITION. Vat units (spec/12, spec/22): images and entry words, descriptors, units' queues and channels, result records, and
the arithmetic of the entries (R310, R311). -/

namespace Sys2Proof.Machine

/-! Images (R407, R408) -/

/-- A stack's mould before anything is loaded: the standard image, whose version the spec does not state (log 17). -/
def Mould.blank : Mould := ⟨none, 0, 0, 0, 0, 0, 0, [], none⟩
def mouldOf (s : State) (st : Nat) : Mould := tabGet Mould.blank s.moulds st
def putMould (s : State) (st : Nat) (m : Mould) : State := { s with moulds := tabPut s.moulds st m }

/-- The entry words of the standard image (R408). -/
def stdEntries : List W32 := [0x80FF0000, 0x90FF0040, 0xA0800080, 0xB0800190, 0xC08000A0, 0xD08001B0]
/-- The entry word of entry `e` on a stack. -/
def entryWord (s : State) (st e : Nat) : W32 :=
  match (mouldOf s st).image with
  | some i => i.1.getD e 0
  | none => stdEntries.getD e 0
def entryValid (x : W32) : Bool := x.getLsbD 31
def entryClass (x : W32) : Nat := x.toNat / 2 ^ 28 % 8

/-! Queues (R318) -/

/-- Queue a command at a unit. -/
def enqueue (s : State) (u : Nat) (c : VatCmd) : State :=
  let x := unitOf s u
  wakeChan (putUnit s u { x with queue := x.queue ++ [c] }) (u / 8)

/-! Descriptors (R304, R309) -/

def vdA (d : BitVec 512) : W64 := fldA d 64
def vdB (d : BitVec 512) : W64 := fldA d 128
def vdC (d : BitVec 512) : W64 := fldA d 192
def vdCount (d : BitVec 512) : Nat := fld d 32 32
def vdD (d : BitVec 512) : Nat := fld d 16 8
def headDim (d : Nat) : Bool := [4, 8, 16, 32, 64, 128].contains d
/-- Tokens in a row (R304). -/
def perRow (cls d : Nat) : Nat := if cls = 0 then 512 / d else 992 / d

/-- A descriptor that breaks R309 or the limits of R310 for its class. -/
def vdBad (cls : Nat) (d : BitVec 512) : Bool :=
  fld d 256 256 ≠ 0 || fld d 24 8 ≠ 0 || fld d 0 16 ≠ 0 ||
  (cls ≠ 2 && vdB d ≠ 0) || (cls ≠ 2 && cls ≠ 3 && vdC d ≠ 0) ||
  (if cls ≤ 1 then !headDim (vdD d) else vdD d ≠ 0) ||
  (if cls = 4 then vdCount d % 4 ≠ 0 else if 2 ≤ cls then vdCount d % 32 ≠ 0 else false)

/-- Alignment of the addresses (R310). -/
def vdMisaligned (cls : Nat) (d : BitVec 512) : Bool :=
  match cls with
  | 0 => (vdA d).toNat % 2048 ≠ 0
  | 1 => (vdA d).toNat % 2048 ≠ 0
  | 2 => (vdA d).toNat % 32 ≠ 0 || (vdB d).toNat % 32 ≠ 0 || (vdC d).toNat % 32 ≠ 0
  | 3 => (vdA d).toNat % 32 ≠ 0 || (vdC d).toNat % 32 ≠ 0
  | 4 => (vdA d).toNat % 4 ≠ 0
  | _ => (vdA d).toNat % 32 ≠ 0

/-- qn fits the entry word (R310, R408). -/
def qnOk (x : W32) (qn d : Nat) : Bool :=
  let mx := x.toNat / 2 ^ 16 % 256
  let mn := x.toNat / 2 ^ 8 % 256
  if mx = 255 then qn = d else mn ≤ qn && qn ≤ mx

/-- The ranges of DRAM data that a command touches, in the order a, b, c: address, bytes, whether written. -/
def vdRanges (cls : Nat) (d : BitVec 512) : List (W64 × Nat × Bool) :=
  let n := vdCount d
  if n = 0 then []
  else match cls with
    | 0 => [(vdA d, 2048 * ((n + perRow 0 (vdD d) - 1) / perRow 0 (vdD d)), false)]
    | 1 => [(vdA d, 2048 * ((n + perRow 1 (vdD d) - 1) / perRow 1 (vdD d)), false)]
    | 2 => [(vdA d, n, false), (vdB d, n, false), (vdC d, n, true)]
    | 3 => [(vdA d, n, false), (vdC d, n, true)]
    | 4 => [(vdA d, n, false)]
    | _ => [(vdA d, n, true)]

/-- The pages of a range, by an address in each. -/
def rangePages (a : W64) (n : Nat) : List W64 :=
  (List.range ((a.toNat + (n - 1)) / 2 ^ 16 - a.toNat / 2 ^ 16 + 1)).map fun i =>
    if i = 0 then a else BitVec.ofNat 64 ((a.toNat / 2 ^ 16 + i) * 2 ^ 16)

/-- What one page of a range is to a command of unit `u`: the code of R314, a malformed entry, a frame, or a wait. -/
inductive VPage where
  | ok (vpage frame : Nat) | err (code : Nat) | mal (b : BadEntry)
  /-- The walk met uncorrectable data at a PA (R417). -/
  | dead (pa : Nat)
  | wait (y : WaitAcc)
  deriving DecidableEq, Repr

def vPage (s : State) (job u : Nat) (vs : List (Nat × Nat)) (write : Bool) (a : W64) : VPage :=
  let acc : AccKind := if write then .write else .read
  match engGlobal s job a acc vs with
  | .pa pa =>
    if paSpace pa = 1 && paUnit pa = u then .ok (va57 a / 2 ^ 16) (pa - va57 a % 2 ^ 16) else .err 0x22
  | .err k => .err k
  | .wait y => .wait (y, acc)
  | .scr _ _ => .err 0x22
  | .mal b => .mal b
  | .dead pa => .dead pa

/-- The first failing code of a range, in the order of R314, or a wait, or its pages. -/
def rangeCheck (s : State) (job u : Nat) (vs : List (Nat × Nat)) (r : W64 × Nat × Bool) : VPage × List (Nat × Nat) :=
  let ps := (rangePages r.1 r.2.1).map (vPage s job u vs r.2.2)
  let frames := ps.filterMap fun p => match p with | .ok v f => some (v, f) | _ => none
  match ps.findSome? fun p => match p with | .wait y => some y | _ => none with
  | some y => (.wait y, [])
  | none =>
    let code (p : VPage) : Nat := match p with
      | .err k => k
      | .mal _ => 0x02
      | .dead _ => 0x08
      | _ => 0
    match [0x05, 0x07, 0x02, 0x03, 0x22, 0x08].findSome? fun k => ps.find? fun p => code p = k with
    | some p => (p, [])
    | none => (.ok 0 0, frames)

/-! Records (R312, R313) -/

def statusWord (code row : Nat) : Nat := row % 2 ^ 20 + 2 ^ 20 * code + 2 ^ 28 * (if code = 0 then 1 else 2)

/-- The PA of a byte of a command's memory by the translations that it holds. -/
def heldPa (c : VatCmd) (a : W64) : Option Nat :=
  match tabFind c.pages (va57 a / 2 ^ 16) with
  | some f => some (f + va57 a % 2 ^ 16)
  | none => none
/-- Write a word of the record through the home L2; a fenced stack takes none (R424). -/
def recWord (s : State) (c : VatCmd) (off : Nat) (v : W32) : State :=
  match heldPa c (c.recAt + BitVec.ofNat 64 off) with
  | some pa => if paFenced s pa then s else l2Store s pa 4 v.toNat
  | none => s

/-- The lines of `n` bytes of a command's memory that the host may cache (R388). -/
def cmdLines (s : State) (c : VatCmd) (a : W64) (n : Nat) : List Nat :=
  if n = 0 || (s.hostLines.isEmpty && s.backInv.isEmpty) then []
  else (List.range ((a.toNat + (n - 1)) / 64 - a.toNat / 64 + 1)).filterMap fun i =>
    match heldPa c (BitVec.ofNat 64 (64 * (a.toNat / 64 + i))) with
    | some pa => if lineHeld s pa then some (cellOf pa / 64) else none
    | none => none
/-- Those of a command's record. -/
def recLines (s : State) (c : VatCmd) (cls : Nat) : List Nat :=
  cmdLines s c c.recAt (if cls ≤ 1 then 16 + 4 * vdD c.desc else 16)
/-- Those of data that a unit writes, with what the write-backs of dirty L1 copies would write (R319). -/
def putLines (s : State) (c : VatCmd) (a : W64) (n : Nat) : List Nat :=
  if n = 0 || (s.hostLines.isEmpty && s.backInv.isEmpty) then []
  else cmdLines s c a n ++ s.l1.flatMap fun e =>
    if (List.range ((a.toNat + (n - 1)) / 128 - a.toNat / 128 + 1)).any fun i =>
        (heldPa c (BitVec.ofNat 64 (128 * (a.toNat / 128 + i)))).map (· / 128) = some (e.1 % 2 ^ 48) then
      dirtyLines s (e.1 / 2 ^ 48) (e.1 % 2 ^ 48)
    else []

/-- Write a whole record: o, m, l, tokens, then the status. -/
def writeRecord (s : State) (c : VatCmd) (m l : W32) (o : List W32) (code row tokens : Nat) : State :=
  let s1 := (List.range o.length).foldl (fun t j => recWord t c (16 + 4 * j) (o.getD j 0)) s
  recWord (recWord (recWord (recWord s1 c 0 m) c 4 l) c 12 (BitVec.ofNat 32 tokens)) c 8
    (BitVec.ofNat 32 (statusWord code row))

/-- One lane of a post has its record; with the last the token is signalled (R308). -/
def postDone (s : State) (p : Nat) : State :=
  match tabFind s.posts p with
  | none => s
  | some x =>
    if x.left ≤ 1 then signal { s with posts := tabErase s.posts p } x.warp x.tok
    else { s with posts := tabPut s.posts p { x with left := x.left - 1 } }

/-- The unit ends its command with a record. -/
def endVat (s : State) (u : Nat) (m l : W32) (o : List W32) (code row tokens : Nat) : State :=
  let x := unitOf s u
  match x.run with
  | none => s
  | some r =>
    let s1 := writeRecord s r.cmd m l o code row tokens
    restChan (postDone (putUnit s1 u { x with run := none }) r.cmd.post) (u / 8)

/-! Reading rows (R321) -/

/-- An uncorrectable error in a unit of a row: the record of the device and the unit's log (R415). -/
def vatError (s : State) (u pa : Nat) (c : VatCmd) : State :=
  let g : Nat := (tabGet 0 s.unitLogs u).toNat
  let ue := min (g / 2 ^ 16 % 2 ^ 16 + 1) (2 ^ 16 - 1)
  let log := g / 2 ^ 59 * 2 ^ 59 + 2 ^ 58 + 2 ^ 56 * paBank pa + 2 ^ 32 * paRow pa + 2 ^ 16 * ue + g % 2 ^ 16
  let s1 := errRecord (rcount s (paStack pa) 1) 1 2 (paStack pa) c.job (pkId (getL s c.launch).packet) (paLoc pa) pa
  { s1 with unitLogs := tabSet 0 s1.unitLogs u (BitVec.ofNat 128 log) }

/-- Correctable errors of `n` units that a unit reads and of the words `ws` of its control store: the counts saturate, and the
last of the words is noted; those of the rows count for the stack too (R321, R410, R415, R419). -/
def logCorrected (s : State) (u n : Nat) (ws : List Nat) : State :=
  if n = 0 && ws.isEmpty then s
  else
    let g : Nat := (tabGet 0 s.unitLogs u).toNat
    let ce := min (g % 2 ^ 16 + n) (2 ^ 16 - 1)
    let csce := min (g / 2 ^ 64 % 2 ^ 16 + ws.length) (2 ^ 16 - 1)
    let word := ws.getLastD (g / 2 ^ 80 % 2 ^ 8)
    let log := g / 2 ^ 88 * 2 ^ 88 + 2 ^ 80 * word + 2 ^ 64 * csce + g / 2 ^ 16 % 2 ^ 48 * 2 ^ 16 + ce
    rcountBy { s with unitLogs := tabSet 0 s.unitLogs u (BitVec.ofNat 128 log) } (u / 2048) 0 n

/-- Read 32 bytes of a row, by virtual address. -/
inductive VRd where
  | ok (v : BitVec 256) | bad (pa : Nat) | out
  deriving DecidableEq, Repr
def vatRead (s : State) (c : VatCmd) (a : W64) : VRd :=
  match heldPa c (a &&& ~~~ 31) with
  | some pa => if dramPoisoned s pa 32 then .bad pa else .ok (BitVec.ofNat 256 (dramRead s pa 32))
  | none => .out
/-- The same of a command that has read the units of `q` before (R147). -/
def vatReadBy (q : Tab Nat) (s : State) (c : VatCmd) (a : W64) : VRd :=
  match (heldPa c (a &&& ~~~ 31)).bind (tabFind q) with
  | some v => .ok (BitVec.ofNat 256 v)
  | none => vatRead s c a
/-- A unit that the command writes is read anew. -/
def dropSeen (q : Tab Nat) (c : VatCmd) (a : W64) : Tab Nat :=
  match heldPa c (a &&& ~~~ 31) with
  | some pa => q.filter fun e => e.1 ≠ pa
  | none => q
/-- Every L1 copy of a sector that is dirty is written back to the home L2. -/
def l1CleanAll (s : State) (k : Nat) : State :=
  (s.l1.filter fun e => e.1 % 2 ^ 48 = k).foldl (fun t e => l1Clean t (e.1 / 2 ^ 48) k) s
/-- Write 32 bytes of DRAM as one unit. Dirty copies of its bytes go to the home L2 first, so that a later write-back of the
unit gives the cached value whole (R319). -/
def vatWrite (s : State) (c : VatCmd) (a : W64) (v : BitVec 256) : State :=
  match heldPa c a with
  | some pa =>
    let s1 := l1CleanAll s (pa / 128)
    snoop { s1 with mem := memWrite s1.mem (cellOf pa) 32 v.toNat } (pa / 128) (byteMask (pa % 128) 32)
  | none => s
/-- The uncorrectable error that a command meets in a unit that it writes, or that the unit is not its own (R321). -/
def vatMeets (s : State) (c : VatCmd) (a : W64) : VRd :=
  match heldPa c a with
  | some pa => if dramPoisoned s pa 32 then .bad pa else .ok 0
  | none => .out

/-! Arithmetic (R310, R311) -/

def negInf : W32 := 0xFF800000
/-- ex2v of R311. -/
def ex2v (x y : W32) : W32 := if x = negInf ∧ y = negInf then 0 else (fEx2 (sub32 x y).1).1

/-- Decode element `i` of bytes: BF16 or E4M3 to FP32. -/
def elemB16 (v i : Nat) : W32 := (round32 .rne (decB16 (BitVec.ofNat 16 (v / 2 ^ (16 * i))))).1
def elemE4 (v i : Nat) : W32 := (round32 .rne (decE4M3 (BitVec.ofNat 8 (v / 2 ^ (8 * i))))).1
def elemOf (cls v i : Nat) : W32 := if cls = 0 then elemB16 v i else elemE4 v i
def elemSize (cls : Nat) : Nat := if cls = 0 then 2 else 1

/-- The running triple of a scan. -/
structure Triple where
  m : W32
  l : W32
  o : List W32
  deriving DecidableEq, Repr

def dotStep (s : Option W32) (q k : W32) : W32 :=
  match s with
  | none => (mul32 q k).1
  | some x => (fma32 q k x).1
/-- s of a token: the products in ascending order, one rounding each. -/
def score (q k : List W32) : W32 := ((q.zip k).foldl (fun s e => some (dotStep s e.1 e.2)) none).getD 0

/-- Fold one token. -/
def foldToken (t : Triple) (sc : W32) (v : List W32) : Triple :=
  let m' := fmax32 t.m sc
  let a := ex2v t.m m'
  let b := ex2v sc m'
  ⟨m', (add32 (mul32 t.l a).1 b).1, (t.o.zip v).map fun e => (add32 (mul32 e.1 a).1 (mul32 b e.2).1).1⟩

/-- `n` bytes of a row from offset `o`, by its units. -/
def rowBytes (q : Tab Nat) (s : State) (c : VatCmd) (row : W64) (o n : Nat) : VRd × Nat :=
  let us := (List.range ((o + n + 31) / 32 - o / 32)).map fun i => vatReadBy q s c (row + BitVec.ofNat 64 (32 * (o / 32 + i)))
  match us.find? fun r => match r with | .ok _ => false | _ => true with
  | some r => (r, 0)
  | none =>
    let v := us.foldr (fun r acc => (match r with | .ok x => x.toNat | _ => 0) + 2 ^ 256 * acc) 0
    (.ok 0, v / 2 ^ (8 * (o % 32)) % 2 ^ (8 * n))

/-- The result of a command: its triple or sum, code, row and tokens, and the address of a failing unit. -/
structure VatEnd where
  t    : Triple
  code : Nat
  row  : Nat
  n    : Nat
  bad  : Option Nat
  deriving DecidableEq, Repr

/-- One row of a pair: the scale and the elements of its `n` tokens. -/
def pairRow (q : Tab Nat) (s : State) (c : VatCmd) (cls d n : Nat) (row : W64) : VRd × W32 × Nat :=
  let sc := if cls = 1 then rowBytes q s c row 0 4 else (.ok 0, 0)
  match sc.1 with
  | .ok _ =>
    let r := rowBytes q s c row (if cls = 1 then 32 else 0) (n * d * elemSize cls)
    (r.1, BitVec.ofNat 32 sc.2, r.2)
  | b => (b, 0, 0)

def tokenElems (cls d u v : Nat) : List W32 := (List.range d).map fun i => elemOf cls v (d * u + i)

/-- The scan of R311, pair by pair. -/
def scanPairs (q : Tab Nat) (s : State) (c : VatCmd) (cls d : Nat) (fuel p left : Nat) (t : Triple) (done : Nat) : VatEnd :=
  match fuel with
  | 0 => ⟨t, 0, 0, done, none⟩
  | f + 1 =>
    if left = 0 then ⟨t, 0, 0, done, none⟩
    else
      let n := min left (perRow cls d)
      let key := pairRow q s c cls d n (vdA c.desc + BitVec.ofNat 64 (2048 * p))
      let val := pairRow q s c cls d n (vdA c.desc + BitVec.ofNat 64 (2048 * p + 1024))
      match key.1, val.1 with
      | .ok _, .ok _ =>
        let t' := (List.range n).foldl (fun t u =>
          let s0 := score c.query (tokenElems cls d u key.2.2)
          let sc := if cls = 1 then (mul32 s0 key.2.1).1 else s0
          let vs := tokenElems cls d u val.2.2
          foldToken t sc (if cls = 1 then vs.map fun x => (mul32 x val.2.1).1 else vs)) t
        scanPairs q s c cls d f (p + 1) (left - n) t' (done + n)
      | .bad pa, _ => ⟨t, 0x08, 2 * p, done, some pa⟩
      | .ok _, .bad pa => ⟨t, 0x08, 2 * p + 1, done, some pa⟩
      | _, _ => ⟨t, 0x22, 0, done, none⟩

def emptyTriple (d : Nat) : Triple := ⟨negInf, 0, List.replicate d 0⟩

/-- BF16 elementwise on 32 bytes. -/
def mapB16 (f : Nat → BitVec 16) : BitVec 256 := BitVec.ofNat 256 ((List.range 16).foldr (fun i a => (f i).toNat * 2 ^ (16 * i) + a) 0)
def b16At (v : BitVec 256) (i : Nat) : BitVec 16 := (v >>> (16 * i)).setWidth 16
def addUnit (a b : BitVec 256) : BitVec 256 :=
  mapB16 fun i => (finB16 (fAdd .rne (decB16 (b16At a i)) (decB16 (b16At b i)))).1
def scaleUnit (a : BitVec 256) (sig : W32) : BitVec 256 := mapB16 fun i => (finB16 (fMul (decB16 (b16At a i)) (dec32 sig))).1
def fillUnit (x : W32) : BitVec 256 := BitVec.ofNat 256 ((List.range 8).foldr (fun i a => x.toNat * 2 ^ (32 * i) + a) 0)

/-- Entries 2, 3 and 5, unit by unit. -/
def unitLoop (q : Tab Nat) (c : VatCmd) (cls fuel i : Nat) (s : State) : State × VatEnd :=
  let fin (code : Nat) (bad : Option Nat) : State × VatEnd := (s, ⟨⟨0, 0, []⟩, code, 0, i, bad⟩)
  match fuel with
  | 0 => fin 0 none
  | f + 1 =>
    let at_ (b : W64) : W64 := b + BitVec.ofNat 64 (32 * i)
    let dst := if cls = 5 then vdA c.desc else vdC c.desc
    let a := if cls = 5 then .ok 0 else vatReadBy q s c (at_ (vdA c.desc))
    let b := if cls = 2 then vatReadBy q s c (at_ (vdB c.desc)) else .ok 0
    match a, b, vatMeets s c (at_ dst) with
    | .ok x, .ok y, .ok _ =>
      let v := match cls with
        | 2 => addUnit x y
        | 3 => scaleUnit x (c.query.headD 0)
        | _ => fillUnit (c.query.headD 0)
      unitLoop (dropSeen q c (at_ dst)) c cls f (i + 1) (vatWrite s c (at_ dst) v)
    | .bad pa, _, _ => fin 0x08 (some pa)
    | .ok _, .bad pa, _ => fin 0x08 (some pa)
    | .ok _, .ok _, .bad pa => fin 0x08 (some pa)
    | _, _, _ => fin 0x22 none

/-- Entry 4: the sum in ascending address order, from the first element. A single element that is a NaN stands as it is (DESIGN
CHOICE, log 58: R310 begins with the element and R91 propagates no payload). -/
def sumLoop (q : Tab Nat) (s : State) (c : VatCmd) (fuel i : Nat) (acc : Option W32) : VatEnd :=
  let fin (code : Nat) (bad : Option Nat) : VatEnd := ⟨⟨acc.getD 0, 0, []⟩, code, 0, i, bad⟩
  match fuel with
  | 0 => fin 0 none
  | f + 1 =>
    let a := vdA c.desc + BitVec.ofNat 64 (4 * i)
    match vatReadBy q s c a with
    | .ok v =>
      let x : W32 := (v >>> (8 * (a.toNat % 32))).setWidth 32
      sumLoop q s c f (i + 1) (some (match acc with | none => x | some y => (add32 y x).1))
    | .bad pa => fin 0x08 (some pa)
    | .out => fin 0x22 none

/-- A whole command of a class, which has read the units of `q` before (R310, R311). -/
def runClass (q : Tab Nat) (s : State) (c : VatCmd) (cls : Nat) : State × VatEnd :=
  let n := vdCount c.desc
  match cls with
  | 0 => (s, scanPairs q s c 0 (vdD c.desc) (n + 1) 0 n (emptyTriple (vdD c.desc)) 0)
  | 1 => (s, scanPairs q s c 1 (vdD c.desc) (n + 1) 0 n (emptyTriple (vdD c.desc)) 0)
  | 4 => (s, sumLoop q s c (n / 4) 0 none)
  | k => unitLoop q c k (n / 32) 0 s

end Sys2Proof.Machine
end

