-- ==== Sys2Proof/Machine/Vat.lean ====
section
/-! DEFINITION. Posting to vat units, merging triples, and the units' own steps (spec/12 R305 to R321, spec/22 R408 to R410). -/

namespace Sys2Proof.Machine

/-! bqpost (R305 to R308) -/

/-- sb is malformed (R305, R306). -/
def sbBad (x : W64) : Bool :=
  x.toNat / 2 ^ 40 ≠ 0 || x.toNat / 2 ^ 22 % 4 ≠ 0 || 128 < x.toNat / 2 ^ 32 % 256 || x.toNat % 16 ≠ 0

/-- The lane operands of a post. -/
structure PostArgs where
  W     : Warp
  j     : Nat
  sa    : W64
  entry : Nat
  query : List W32

def PostArgs.unit (p : PostArgs) (k : Nat) : W32 := vGet p.W (4 * p.j) k
def PostArgs.desc (p : PostArgs) (k : Nat) : W64 := p.sa + (vGet p.W (4 * p.j + 1) k).setWidth 64
def PostArgs.recd (p : PostArgs) (k : Nat) : W64 := p.sa + (vGet p.W (4 * p.j + 2) k).setWidth 64
/-- The stack and unit that a lane names. -/
def PostArgs.uid (p : PostArgs) (k : Nat) : Nat := (p.unit k).toNat % 2 ^ 14

/-- A lane's descriptor as the warp's weak load sees it. -/
def postDesc (s : State) (p : PostArgs) (k : Nat) : Option (Nat × BitVec 512) :=
  match peekPa s (warpJob s p.W) (p.desc k) with
  | some pa => some (pa, BitVec.ofNat 512 (loadAt s (.l1 p.W.core) pa 64).2)
  | none => none

/-- Bytes of a lane's record (R308, R312). -/
def recBytes (s : State) (p : PostArgs) (k : Nat) (d : BitVec 512) : Nat :=
  let e := entryWord s (p.uid k / 2048) p.entry
  if entryValid e && entryClass e ≤ 1 && headDim (vdD d) then 16 + 4 * vdD d else 16

/-- The code of R314 of a lane, without those of the addresses. -/
def postCode (s : State) (p : PostArgs) (k : Nat) (d : BitVec 512) : Nat :=
  let st := p.uid k / 2048
  let e := entryWord s st p.entry
  let m := mouldOf s st
  let cls := entryClass e
  if (p.unit k).toNat / 2 ^ 14 ≠ 0 then 0x20
  else if !entryValid e || 6 ≤ cls || !s.admitted.getLsbD st || m.state = 2 || m.state = 3 ||
      m.badUnits.contains (p.uid k) then 0x23
  else if vdBad cls d then 0x01
  else if !qnOk e p.query.length (vdD d) then 0x21
  else if vdMisaligned cls d then 0x04
  else 0

/-- The code of a lane's data addresses, or a wait, with the kind of the access; and the pages that the command holds. -/
def postPages (s : State) (p : PostArgs) (k : Nat) (d : BitVec 512) : (VPage × AccKind) × List (Nat × Nat) :=
  let cls := entryClass (entryWord s (p.uid k / 2048) p.entry)
  let rs := (vdRanges cls d).map fun e => (rangeCheck s (warpJob s p.W) (p.uid k) p.W.verdicts e, if e.2.2 then AccKind.write else .read)
  match rs.find? fun r => match r.1.1 with | .ok _ _ => false | _ => true with
  | some r => ((r.1.1, r.2), [])
  | none => ((.ok 0 0, .read), rs.flatMap fun r => r.1.2)

/-- The checks of one lane (R308): record, descriptor, the o part, and pages that must be served first; with the kind of the access
that decides, and whether it is one of the unit's, as the data pages are (R379). -/
def postLane (s : State) (p : PostArgs) (k : Nat) : LaneAcc × AccKind × Bool :=
  let r := checkLane s p.W (p.recd k) 16 .write skOther
  let c := checkLane s p.W (p.desc k) 64 .read skOther
  let desc : LaneAcc × AccKind × Bool := (⟨k, p.desc k, c⟩, .read, false)
  match r, c with
  | .ok _, .ok cpa =>
    match postDesc s p k with
    | none => desc
    | some (_, d) =>
      if dataBad s (some p.W.core) cpa 64 then desc
      else
        let os := (rangePages (p.recd k) (recBytes s p k d)).map fun a => LaneAcc.mk k a (checkLane s p.W a 1 .write skOther)
        match os.find? fun a => match a.res with | .ok _ => false | _ => true with
        | some a => (a, .write, false)
        | none =>
          match heldVa s (warpJob s p.W) (p.recd k) (recBytes s p k d) with
          | l :: _ => (⟨k, p.recd k, .wait (.line l)⟩, .write, false)
          | [] => if postCode s p k d ≠ 0 then desc
          else match (postPages s p k d).1.1 with
            | .wait y => (⟨k, p.desc k, .wait y.1⟩, y.2, true)
            | _ => desc
  | .ok _, _ => desc
  | _, _ => (⟨k, p.recd k, r⟩, .write, false)

/-- The command of a lane. -/
def postCmd (s : State) (p : PostArgs) (k post : Nat) (d : BitVec 512) (pages : List (Nat × Nat)) : VatCmd :=
  let rec_ := (rangePages (p.recd k) (recBytes s p k d)).filterMap fun a =>
    (peekPa s (warpJob s p.W) a).map fun pa => (va57 a / 2 ^ 16, pa - va57 a % 2 ^ 16)
  ⟨p.entry, p.query, d, p.recd k, pages ++ rec_, warpJob s p.W, p.W.launch, post⟩

/-- What the checks of a lane that faults in no access have made of it: the item that is handled, from its descriptor as it was loaded
once, and what a data page has given that is to be reported or recorded, with the kind of its access. -/
structure Posted where
  item : PostItem
  page : VPage
  kind : AccKind
def posted (s : State) (p : PostArgs) (post k : Nat) : Option Posted :=
  (postDesc s p k).map fun x =>
    let d := x.2
    let code := postCode s p k d
    let pg := postPages s p k d
    let code' := if code ≠ 0 then code else match pg.1.1 with | .err c => c | .mal _ => 0x02 | .dead _ => 0x08 | _ => 0
    ⟨⟨p.uid k, postCmd s p k post d pg.2, code', (recBytes s p k d - 16) / 4⟩, if code = 0 then pg.1.1 else .ok 0 0, pg.1.2⟩
/-- It asks for a record of a malformed entry (R374). -/
def Posted.reports (x : Posted) : Bool :=
  match x.page with
  | .mal _ => true
  | _ => false
/-- The records that the checks of a lane make: of a malformed entry, or of uncorrectable data on a walk (R374, R417). -/
def postReport (w : Nat) (W : Warp) (s : State) (x : Posted) : State :=
  match x.page with
  | .mal b => reportBad s (warpJob s W) (some b) x.kind (.eng w)
  | .dead pa => consumed s none pa 8 2 (warpJob s W) (pkId (warpPkt s W))
  | _ => s

/-- Handle the lanes of a post in order, after the checks of all: a rejected lane's record is written and another's command is queued,
up to one whose unit's queue is full; that one waits for a slot, and those behind it with it (R62, R308). -/
def postItems (s : State) (xs : List PostItem) : State × List PostItem :=
  match xs with
  | [] => (s, [])
  | x :: r =>
    if x.code ≠ 0 then postItems (writeRecord s x.cmd 0 0 (List.replicate x.words 0) x.code 0 0) r
    else if unitLoad (unitOf s x.unit) < 4 && !s.vatWait.any fun e => e.1 = x.unit then postItems (enqueue s x.unit x.cmd) r
    else ({ s with vatWait := s.vatWait ++ [(x.unit, x.cmd)] }, r)
/-- Keep the lanes that are left. -/
def setTodo (s : State) (post : Nat) (xs : List PostItem) : State :=
  match tabFind s.posts post with
  | none => s
  | some y => { s with posts := tabPut s.posts post { y with todo := xs } }
/-- The lines that the records of rejected lanes would write and that the host may cache (R388). -/
def itemLines (s : State) (xs : List PostItem) : List Nat :=
  xs.flatMap fun x => if x.code ≠ 0 then cmdLines s x.cmd x.cmd.recAt (16 + 4 * x.words) else []

/-- The loads of the descriptors fill the core's L1. -/
def fillDescs (s : State) (p : PostArgs) (ks : List Nat) : State :=
  ks.foldl (fun t k => match peekPa t (warpJob t p.W) (p.desc k) with
    | some pa => (loadAt t (.l1 p.W.core) pa 64).1
    | none => t) s

/-- Post the lanes of a `bqpost` with its query read. The token is armed where a command is queued; with none, every record stands
at once. -/
def postLanes (s : State) (w : Nat) (d : BitVec 6) (r : BitVec 1) (x : EPfx) (p : PostArgs) : Out :=
  let cs := (lanesOf (performing p.W)).map (postLane s p)
  match cs.filterMap fun a => match a.1.res with | .wait y => some (y, a.2) | _ => none with
  | y :: ys => .next ((y :: ys).foldl (fun t e =>
      waitOn t (warpJob t p.W) e.1 e.2.1 (if e.2.2 then .eng w else .warp w)) s)
  | [] =>
  let kind (l : Nat) : AccKind := ((cs.find? fun a => a.1.lane = l).map fun a => a.2.1).getD .read
  onLanes s w kind 0 (cs.map Prod.fst) fun s1 good =>
    let q := killPoisoned s1 w 64 true (fun _ => 0) false good
    let id := q.1.nextPost
    let ps := (q.2.map LaneAcc.lane).filterMap (posted s p id)
    let reps := (ps.filter Posted.reports).length
    -- the records that malformed entries need must be had (R380)
    if 0 < reps && 1024 < q.1.xrecs.length + reps then .next s else
    let s2 := ps.foldl (postReport w p.W) { fillDescs q.1 p (q.2.map LaneAcc.lane) with nextPost := id + 1 }
    let xs := ps.map Posted.item
    let left := (xs.filter fun x => x.code = 0).length
    let s3 := if left = 0 then s2
      else { updW s2 w fun W => arm W x.ev false with posts := tabPut s2.posts id ⟨w, x.ev, left, []⟩ }
    let y := postItems s3 xs
    let s4 := complete (replyOr (setTodo y.1 id y.2) w r d 0 0 0) w (lenE x) p.W.exm
    .next (if s4.vatWait.any fun e => e.2.post = id then updW s4 w fun W => { W with stat := .waitPost } else s4)

/-- The query of a post (R307): its words, or a bound fault. -/
def postQuery (s : State) (W : Warp) (sb : W64) : Option (List W32) :=
  let n := sb.toNat / 2 ^ 32 % 256
  let a := sb.toNat % 2 ^ 22
  if n = 0 then some []
  else
    let ps := (List.range n).map fun i => scrPlace s W (BitVec.ofNat 64 (a + 4 * i))
    if ps.all Option.isSome then
      some (ps.filterMap fun p => p.map fun e => BitVec.ofNat 32 (scrRead s e.1 e.2 4))
    else none

/-- A word of the query returns uncorrectable data, with its place: nothing is posted and lanes die (R307, R438). -/
def queryBad (s : State) (W : Warp) (sb : W64) : Option (Nat × Nat) :=
  (List.range (sb.toNat / 2 ^ 32 % 256)).findSome? fun i =>
    match scrPlace s W (BitVec.ofNat 64 (sb.toNat % 2 ^ 22 + 4 * i)) with
    | some e => if (scrBad s e.1 e.2 4).isSome then some e else none
    | none => none
def queryError (s : State) (w g off len : Nat) (a : W64) : State :=
  let W := getW s w
  let s1 := scrConsumed s g off 4 W.core 1 (warpJob s W) (pkId (warpPkt s W))
  complete (killLanes s1 w (readVictims W) a W.pc W.word) w len (readVictims W)

def execBqpost (j a b d : BitVec 6) (r : BitVec 1) (x : EPfx) (s : State) : Out :=
  let v := 4 * j.toNat
  let regs := [v, v + 1, v + 2]
  issue s (engReason regs [a, b] d r x) regs fun w W =>
    if suppressed W then .next (advance s w (lenE x))
    else if evFull W x.ev || tileBusy W then .next s
    else if sbBad (sGet W b) then .next (advance (replyOr s w r d 1 0x01 (sGet W a)) w (lenE x))
    else match postQuery s W (sGet W b) with
      | none => .next (faultAt s w 0x0A 0 0 5 (nextAddr W))
      | some q => match queryBad s W (sGet W b) with
        | some e => .next (queryError s w e.1 e.2 (lenE x) (BitVec.ofNat 64 ((sGet W b).toNat % 2 ^ 22)))
        | none => postLanes s w d r x ⟨W, j.toNat, sGet W a, (sGet W b).toNat / 2 ^ 24 % 256, q⟩

/-- A freed slot goes to the oldest waiting post for the unit, and the post's lanes behind it go on (R308). -/
def execVatQueueSlotGrant (u : Nat) (s : State) : Out :=
  match s.vatWait.find? fun e => e.1 = u with
  | none => .next s
  | some (_, c) =>
    if unitLoad (unitOf s u) < 4 then
      let s1 := enqueue { s with vatWait := s.vatWait.erase (u, c) } u c
      match tabFind s1.posts c.post with
      | none => .next s1
      | some y =>
        withLines s (itemLines s y.todo) <|
        let z := postItems s1 y.todo
        let s2 := setTodo z.1 c.post z.2
        if (s2.vatWait.any fun e => e.2.post = c.post) || (getW s2 y.warp).stat ≠ .waitPost then .next s2
        else .next (updW s2 y.warp fun W => { W with stat := .running })
    else .next s

/-! The units' steps -/

/-- The micro-state at the start of a command. -/
def startRun (s : State) (u : Nat) (c : VatCmd) : VatRun where
  cmd := c
  upc := (entryWord s (u / 2048) c.entry).toNat % 256
  bufA := 0
  bufB := 0
  bufC := 0
  s := 0
  m := if entryClass (entryWord s (u / 2048) c.entry) ≤ 1 then negInf else 0
  l := 0
  b := 0
  sigK := 0
  sigV := 0
  o := []
  token := 0
  pair := 0
  unit := 0
  row := none
  idle := 0
  folded := 0
  pm := negInf
  pl := 0
  po := []
  pn := 0
  seen := []

def vatClass (s : State) (u : Nat) (r : VatRun) : Nat := entryClass (entryWord s (u / 2048) r.cmd.entry)

/-- The o part of a record for a class. -/
def oPart (cls d : Nat) (o : Tab W32) : List W32 := if cls ≤ 1 then (List.range d).map (tabGet 0 o) else []

/-- A command ends with code 0x23 and nothing else in its record (R410). -/
def endBlank (s : State) (u : Nat) (c : VatCmd) : State :=
  endVat s u 0 0 (oPart (entryClass (entryWord s (u / 2048) c.entry)) (vdD c.desc) []) 0x23 0 0

/-- A unit begins its next command, in compute mode (R318, R414). -/
def execVatCommandStart (u : Nat) (s : State) : Out :=
  let x := unitOf s u
  match x.run, x.queue with
  | none, c :: rest =>
    if (chanOf s (u / 8)).state = .compute then
      let s1 := putUnit s u { x with queue := rest, run := some (startRun s u c) }
      if (mouldOf s (u / 2048)).badUnits.contains u then
        withLines s (recLines s c (entryClass (entryWord s (u / 2048) c.entry))) (.next (endBlank s1 u c))
      else .next s1
    else .next s
  | _, _ => .next s

/-- A command of a loaded image ends with what it has: m and l stand where the class's record has them (R312, R408). -/
def endMicro (s : State) (u : Nat) (r : VatRun) (code : Nat) : State :=
  let cls := vatClass s u r
  endVat s u (if cls ≤ 1 || cls = 4 then r.m else 0) (if cls ≤ 1 then r.l else 0) (oPart cls (vdD r.cmd.desc) r.o) code 0 r.folded

/-- A unit of a loaded image meets an error in a row: the record is over the tokens before the row pair (R321). -/
def microError (s : State) (u pa : Nat) (r : VatRun) : State :=
  let cls := vatClass s u r
  let kind := match r.row with | some (k, _) => k | none => 0
  let s1 := vatError s u pa r.cmd
  if cls ≤ 1 then endVat s1 u r.pm r.pl (oPart cls (vdD r.cmd.desc) r.po) 0x08 (2 * r.pair + (if kind = 2 then 1 else 0)) r.pn
  else endMicro s1 u r 0x08

/-- Fields of a micro-word (R409). -/
def mwField (x : BitVec 128) (lo n : Nat) : Nat := x.toNat / 2 ^ lo % 2 ^ n

/-- Byte offset in the row of the current token's elements. -/
def tokenOff (cls d : Nat) (r : VatRun) : Nat := (if cls = 1 then 32 else 0) + d * elemSize cls * r.token
/-- Units of a token. -/
def tokenUnits (cls d : Nat) : Nat := max 1 (d * elemSize cls / 32)

/-- The address of a column operation, none with no row open. A word that loads a scale reads the row's first unit (log 17). -/
def colAddr (cls mac : Nat) (r : VatRun) : Option W64 :=
  let d := r.cmd.desc
  let off := if mac = 9 then 0 else tokenOff cls (vdD d) r / 32 * 32 + 32 * r.unit
  match r.row with
  | some (1, p) => some (vdA d + BitVec.ofNat 64 (2048 * p + off))
  | some (2, p) => some (vdA d + BitVec.ofNat 64 (2048 * p + 1024 + off))
  | some (3, _) => some ((vdA d &&& ~~~ 31) + BitVec.ofNat 64 (32 * r.unit))
  | some (4, _) => some (vdB d + BitVec.ofNat 64 (32 * r.unit))
  | some (5, _) => some (vdC d + BitVec.ofNat 64 (32 * r.unit))
  | _ => none

/-- Element `i` of buffer A under a word's decode. -/
def decElem (cls dec : Nat) (a : BitVec 256) (i : Nat) : W32 :=
  match dec with
  | 1 => elemB16 a.toNat i
  | 2 => elemE4 a.toNat i
  | 3 => (a >>> (32 * i)).setWidth 32
  | _ => elemOf cls a.toNat i

/-- The dimensions whose elements stand in A, with their positions there. -/
def unitDims (cls d : Nat) (r : VatRun) : List (Nat × Nat) :=
  let per := 32 / elemSize cls
  let first := tokenOff cls d r % 32 / elemSize cls
  (List.range (min d per)).map fun i => (r.unit * per + i, first + i)

/-- The arithmetic operation of a word (R409), with the roundings of R310 and R311. The record's tokens count summed elements
in class 4 alone (R312, R408). No decode stands for the class's own;
where one names another element type than the operation has in R310, its result is free (log 17). -/
def macOp (cls dec mac : Nat) (r : VatRun) : VatRun :=
  let d := vdD r.cmd.desc
  match mac with
  | 1 => { r with s := (unitDims cls d r).foldl (fun acc e =>
      let q := r.cmd.query.getD e.1 0
      let k := decElem cls dec r.bufA e.2
      dotStep (if e.1 = 0 then none else some acc) q k) r.s }
  | 2 => { r with s := (mul32 r.s r.sigK).1 }
  | 3 =>
    let m' := fmax32 r.m r.s
    let a := ex2v r.m m'
    let b := ex2v r.s m'
    { r with m := m', b := b, l := (add32 (mul32 r.l a).1 b).1
             o := (List.range d).foldl (fun t j => tabSet 0 t j (mul32 (tabGet 0 t j) a).1) r.o }
  | 4 => { r with o := (unitDims cls d r).foldl (fun t e =>
      let v := decElem cls dec r.bufA e.2
      let v' := if cls = 1 then (mul32 v r.sigV).1 else v
      tabSet 0 t e.1 (add32 (tabGet 0 t e.1) (mul32 r.b v').1).1) r.o }
  | 5 => { r with bufC := if dec ≤ 1 then addUnit r.bufA r.bufB else Config.mixedDecode 5 dec r.bufA r.bufB }
  | 6 => { r with bufC := if dec ≤ 1 then scaleUnit r.bufA (r.cmd.query.headD 0)
      else Config.mixedDecode 6 dec r.bufA ((r.cmd.query.headD 0).setWidth 256) }
  | 7 =>
    let first := (vdA r.cmd.desc).toNat % 32 / 4
    let more (r : VatRun) (n : Nat) : VatRun := if cls = 4 then { r with folded := r.folded + n } else r
    if dec = 1 || dec = 2 then
      more { r with m := (Config.mixedDecode 7 dec r.bufA (r.m.setWidth 256)).setWidth 32 } 8
    else (List.range 8).foldl (fun r i =>
      let idx := 8 * r.unit + i
      if first ≤ idx && idx - first < vdCount r.cmd.desc / 4 then
        let x := (r.bufA >>> (32 * i)).setWidth 32
        more { r with m := if idx = first then x else (add32 r.m x).1 } 1
      else r) r
  | 8 => { r with bufC := fillUnit (r.cmd.query.headD 0) }
  | 9 =>
    let x := r.bufA.setWidth 32
    match r.row with
    | some (1, _) => { r with sigK := x }
    | _ => { r with sigV := x }
  | _ => r

/-- The counting operation of a word. -/
def cntOp (cls cnt : Nat) (r : VatRun) : VatRun :=
  match cnt with
  | 1 => { r with token := r.token + 1, unit := 0, folded := if cls ≤ 1 then r.folded + 1 else r.folded }
  | 2 => { r with pair := r.pair + 1, token := 0, unit := 0, pm := r.m, pl := r.l, po := r.o, pn := r.folded }
  | 3 => { r with unit := r.unit + 1 }
  | _ => r

/-- The condition of a word, after its counting. -/
def condOp (cls cond : Nat) (r : VatRun) : Bool :=
  let d := r.cmd.desc
  let n := vdCount d
  let t := perRow cls (vdD d)
  match cond with
  | 1 => true
  | 2 => r.unit < tokenUnits cls (vdD d)
  | 3 => r.token < min t (n - r.pair * t)
  | 4 => r.pair * t < n
  | 5 => if cls ≤ 1 then r.pair * t < n else n ≠ 0 && 32 * r.unit < n + (vdA d).toNat % 32
  | _ => false

/-- The row operation of a word. With a row of the pair the units of the token begin anew, for its key and its value stand in
different rows (log 17); the rows of a, b and c share one count of units. -/
def rowOp (k : Nat) (r : VatRun) : VatRun :=
  match k with
  | 0 => r
  | 1 => { r with row := some (1, r.pair), unit := 0 }
  | 2 => { r with row := some (2, r.pair), unit := 0 }
  | 6 => { r with row := none }
  | k => { r with row := some (k, r.pair) }

/-- The rest of a word once its column read is done: arithmetic, column write, counting, and what comes next. -/
def microRest (s : State) (u cls : Nat) (x : BitVec 128) (r : VatRun) : State :=
  let col := mwField x 100 4
  let mac := mwField x 88 8
  let r1 := macOp cls (mwField x 96 4) mac r
  let put := if col = 3 then colAddr cls mac r1 else none
  if col = 3 && (match put with | some a => (heldPa r1.cmd a).isNone | none => true) then
    endMicro s u r1 0x22
  else match put.map (vatMeets s r1.cmd) with
  | some (.bad pa) => microError s u pa r1
  | _ =>
    let s1 := match put with | some a => vatWrite s r1.cmd a r1.bufC | none => s
    -- the record's tokens count written units in classes 2, 3 and 5 alone (R312, R408)
    let r2 := if col = 3 && [2, 3, 5].contains cls then { r1 with folded := r1.folded + 1 } else r1
    let r3 := cntOp cls (mwField x 80 8) r2
    let r4 := { r3 with
      idle := if col = 0 then r3.idle + 1 else 0
      upc := if condOp cls (mwField x 108 4) r3 then mwField x 112 8 else mwField x 120 8 }
    if mwField x 108 4 = 6 then endMicro s1 u r4 0
    else putUnit s1 u { unitOf s1 u with run := some r4 }

/-- One micro-word of a loaded image (R409). -/
def microStep (s : State) (u : Nat) (ws : List (BitVec 128)) (r : VatRun) : State :=
  let x := ws.getD r.upc 0
  let cls := vatClass s u r
  let r1 := rowOp (mwField x 104 4) r
  let col := mwField x 100 4
  if col = 1 || col = 2 then
    match (match colAddr cls (mwField x 88 8) r1 with | some a => vatRead s r1.cmd a | none => .out) with
    | .ok v => microRest s u cls x (if col = 1 then { r1 with bufA := v } else { r1 with bufB := v })
    | .bad pa => microError s u pa r1
    | .out => endMicro s u r1 0x22
  else microRest s u cls x r1

/-- The bank of its channel in which a unit reaches an address. -/
def bankFor (u : Nat) (c : VatCmd) (a : W64) : Option Nat :=
  (heldPa c a).map fun pa => 4 * (u % 8) + paBank pa
/-- The addresses whose rows a unit's next word opens: under the standard image, a byte in each page of the command. -/
def opens (s : State) (u : Nat) (r : VatRun) : List W64 :=
  match (mouldOf s (u / 2048)).image with
  | some i =>
    let x := i.2.getD r.upc 0
    let k := mwField x 104 4
    if k = 0 || k = 6 then [] else (colAddr (vatClass s u r) (mwField x 88 8) (rowOp k r)).toList
  | none => (vdRanges (vatClass s u r) r.cmd.desc).flatMap fun e => rangePages e.1 e.2.1
/-- Lines that a unit's next word, or the end of its command, may write and that the host may cache: their back-invalidates come
first (R388). -/
def vatLines (s : State) (u : Nat) (r : VatRun) : List Nat :=
  let cls := vatClass s u r
  recLines s r.cmd cls ++ match (mouldOf s (u / 2048)).image with
    | none => (vdRanges cls r.cmd.desc).flatMap fun e => if e.2.2 then putLines s r.cmd e.1 e.2.1 else []
    | some i =>
      let x := i.2.getD r.upc 0
      let mac := mwField x 88 8
      if mwField x 100 4 ≠ 3 then []
      else match colAddr cls mac (macOp cls (mwField x 96 4) mac (rowOp (mwField x 104 4) r)) with
        | some a => putLines s r.cmd a 32
        | none => []
/-- A refresh that is due comes first (R413). -/
def opensHeld (s : State) (u : Nat) (r : VatRun) : Bool :=
  (opens s u r).any fun a => match bankFor u r.cmd a with
    | some b => refreshDue s (u / 8) b
    | none => false

/-- The uncorrectable error of its control store that a unit meets as it executes its next micro-word (R410): one in that word,
or in any word under the standard image, whose program runs as one (log 7). -/
def controlBad (s : State) (u : Nat) (r : VatRun) : Option Upset :=
  s.upsets.find? fun e => match e with
    | .control v n => v = u && ((mouldOf s (u / 2048)).image.isNone || n % 256 = r.upc)
    | _ => false
/-- The correctable errors that a unit meets as it executes a micro-word are in its log before the word has any effect, so
before its command's record is written (R410, R416): of the units that it reads, and of control-store words. -/
def metCorrected (s : State) (u : Nat) (r : VatRun) : State :=
  let e := Config.vatCorrected s.ctr u
  match (mouldOf s (u / 2048)).image with
  | none => logCorrected s u e.1 (e.2.map (· % 256))
  | some i =>
    let col := mwField (i.2.getD r.upc 0) 100 4
    logCorrected s u (if col = 1 || col = 2 then min 1 e.1 else 0) (if e.2.isEmpty then [] else [r.upc])
/-- A unit meets it: the log, the record of class 0x05, and the unit refuses every command until its stack's image is loaded
again (R410, R415, R420). -/
def controlError (s : State) (u : Nat) (e : Upset) (c : VatCmd) : State :=
  let word := match e with
    | .control _ n => n % 256
    | _ => 0
  let g : Nat := (tabGet 0 s.unitLogs u).toNat
  let log := BitVec.ofNat 128 (g % 2 ^ 80 + 2 ^ 80 * word + 2 ^ 88)
  let m := mouldOf s (u / 2048)
  let s1 := putMould { dropUpset s e with unitLogs := tabSet 0 s.unitLogs u log } (u / 2048) { m with badUnits := u :: m.badUnits }
  endBlank (errRecord s1 5 2 (u / 2048) c.job (pkId (getL s c.launch).packet) (u % 2 ^ 14) 0) u c

/-- A unit of the command's pages that the standard image reads before the rest of its work (R147, R327; log 7). -/
def earlyRead (s : State) (u : Nat) (r : VatRun) : Option Nat :=
  if r.cmd.pages.isEmpty then none
  else match Config.readsEarly s.ctr u with
  | some pa =>
    if pa % 32 = 0 && (tabFind r.seen pa).isNone && !dramPoisoned s pa 32 &&
        r.cmd.pages.any (fun e => decide (e.2 ≤ pa) && decide (pa < e.2 + 2 ^ 16)) then some pa
    else none
  | none => none

/-- A unit executes a micro-word, unless a refresh comes first or its control store is bad. The standard image's micro-words
are not given, so under it the whole program of the entry runs as one, but for units that it reads before, each by itself (log 7). -/
def execMicroWord (u : Nat) (s : State) : Out :=
  match (unitOf s u).run with
  | none => .next s
  | some r =>
    withLines s (vatLines s u r) <| match controlBad s u r with
    | some e => .next (controlError s u e r.cmd)
    | none =>
      if opensHeld s u r then .next s
      else match (mouldOf s (u / 2048)).image with
        | some i => if 65536 ≤ r.idle then .next s else .next (microStep (metCorrected s u r) u i.2 r)
        | none => match earlyRead s u r with
        | some pa => .next (putUnit { s with ctr := s.ctr + 1 } u { unitOf s u with
            run := some { r with seen := tabPut r.seen pa (dramRead s pa 32) } })
        | none =>
          let x := runClass r.seen (metCorrected s u r) r.cmd (vatClass s u r)
          let s1 := match x.2.bad with
            | some pa => vatError x.1 u pa r.cmd
            | none => x.1
          .next (endVat s1 u x.2.t.m x.2.t.l x.2.t.o x.2.code x.2.row x.2.n)

/-- 65,536 micro-words with no column operation end the command (R410). -/
def execMicrowordWatchdog (u : Nat) (s : State) : Out :=
  match (unitOf s u).run with
  | some r => if 65536 ≤ r.idle then withLines s (vatLines s u r) (.next (endBlank s u r.cmd)) else .next s
  | none => .next s

/-! tmerge (R315 to R317) -/

def execTmerge (a b d : BitVec 6) (r : BitVec 1) (x : EPfx) (s : State) : Out :=
  descOp s a b d r x .tmerge false false fun t _ => t

/-- The fields of a record of `d` elements, from its bytes. -/
def recFields (v d : Nat) : Triple × Nat × Nat :=
  let w (i : Nat) : W32 := BitVec.ofNat 32 (v / 2 ^ (32 * i))
  (⟨w 0, w 1, (List.range d).map fun j => w (4 + j)⟩, (w 2).toNat, (w 3).toNat)

/-- The status of a merge (R317). -/
def mergeStatus (x y : Nat) : Nat :=
  let bad (v : Nat) : Nat := if v / 2 ^ 28 = 2 then 2 ^ 29 + v % 2 ^ 28 else 2 ^ 29 + 2 ^ 20 * 0x24
  if x / 2 ^ 28 ≠ 1 then bad x else if y / 2 ^ 28 ≠ 1 then bad y else 2 ^ 28

/-- The bytes of the merged record (R317). -/
def mergeBytesOf (x y : Triple × Nat × Nat) : List Byte :=
  let m := fmax32 x.1.m y.1.m
  let ax := ex2v x.1.m m
  let ay := ex2v y.1.m m
  let l := (add32 (mul32 x.1.l ax).1 (mul32 y.1.l ay).1).1
  let o := (x.1.o.zip y.1.o).map fun e => (add32 (mul32 e.1 ax).1 (mul32 e.2 ay).1).1
  let toks := min (x.2.2 + y.2.2) (2 ^ 32 - 1)
  ([m.toNat, l.toNat, mergeStatus x.2.1 y.2.1, toks] ++ o.map BitVec.toNat).flatMap (leBytes 4)

/-- One descriptor of `tmerge`: the state with its output written, or what stops it. -/
def tmergeOne (s : State) (c : Cmd) (d : BitVec 512) : State × Option Stop × List Nat :=
  let n := 16 + 4 * fld d 256 8
  if fld d 264 248 ≠ 0 || 128 < fld d 256 8 then (s, some (.err 0x01), [])
  else if fld d 0 64 % 16 ≠ 0 || fld d 64 64 % 16 ≠ 0 || fld d 128 64 % 16 ≠ 0 then (s, some (.err 0x04), [])
  else
    let x := engRead s c false (fldA d 0) n
    let y := engRead s c false (fldA d 64) n
    let o := engRun s c false (fldA d 128) n .write
    match x.2, y.2, o.2 with
    | some e, _, _ => (s, some e, [])
    | none, some e, _ => (s, some e, [])
    | none, none, some e => (s, some e, [])
    | none, none, none =>
      (engWrite s o.1 (mergeBytesOf (recFields x.1 (fld d 256 8)) (recFields y.1 (fld d 256 8))), none, placeSectors o.1)

/-- The descriptors after a failed one are told so; the page of a completion word may have to be served first (R317). -/
def tmergeSkip (s : State) (c : Cmd) (ds : List DescRead) : State × Option WaitAcc :=
  match ds with
  | [] => (s, none)
  | .bad _ :: r => tmergeSkip s c r
  | .ok x :: r => match complAt s c (fldA x 192) with
    | .word pa => tmergeSkip (l2Store s pa 8 (complWord 0x17 0)) c r
    | .dead pa => tmergeSkip (noteStop s c (.bad pa)) c r
    | .unusable bad => tmergeSkip (reportBad s c.job bad .write (.cmd c.id)) c r
    | .wait y => (s, some y)

/-- The next descriptor of a `tmerge` is carried out. -/
def execTmergeDescriptor (k : Nat) (s : State) : Out :=
  match findCmd s k .tmerge with
  | none => .next s
  | some c =>
    let da := c.sa + BitVec.ofNat 64 (64 * c.at_)
    let rest := c.descs.drop (c.at_ + 1)
    let fail (t : State) (compl : W64) (code : Nat) : Out :=
      match endDesc t c da compl code 0 with
      | (_, some y) => .next (cmdWait s c y)
      | (u, none) => match tmergeSkip u c rest with
        | (_, some y) => .next (cmdWait s c y)
        | (v, none) => .next (endCmd v c)
    if cmdHeld s c 6 then .next s
    else match c.descs[c.at_]? with
      | none => .next (endCmd s c)
      | some (.bad code) => fail s 0 code
      | some (.ok d) =>
        match tmergeOne s c d with
        | (_, some (.wait y a), _) => .next (cmdWait s c (y, a))
        | (_, some e, _) => fail (noteStop s c e) (fldA d 192) (stopCode e)
        | (t, none, wr) =>
          let t1 := if c.mem then flushSectors t wr else t
          match endDesc t1 c da (fldA d 192) 0 (16 + 4 * fld d 256 8) with
          | (_, some y) => .next (cmdWait s c y)
          | (u, none) =>
            if rest.isEmpty then .next (endCmd u c)
            else .next (updCmd u c.id fun e => { e with at_ := e.at_ + 1, started := true })

end Sys2Proof.Machine
end

