-- ==== Sys2Proof/Machine/Mould.lean ====
section
/-! DEFINITION. Loading mould images (spec/22 R407 to R412), refresh and its hand-over (R413, R414), and the units' logs (R415). -/

namespace Sys2Proof.Machine

/-! Packages (R407 to R409) -/

/-- `n` bytes of a package at its offset `o`. -/
def pkgRead (s : State) (pa o n : Nat) : Nat := tblRead s (pa + o) n
def pkgBytes (s : State) (pa o n : Nat) : List Byte := leBytes n (pkgRead s pa o n)
/-- A run of device memory in the interleaved space that a package may fill. -/
def pkgPlace (s : State) (pa n : Nat) : Bool :=
  pa % 64 = 0 && paSpace pa = 0 && paExists pa && paExists (pa + (n - 1)) && !paFenced s pa && !paFenced s (pa + (n - 1))

/-- A micro-word with a refused field or a nonzero rsv. -/
def microBad (x : BitVec 128) : Bool :=
  6 < mwField x 108 4 || 6 < mwField x 104 4 || 3 < mwField x 100 4 || 3 < mwField x 96 4 || 9 < mwField x 88 8 ||
  3 < mwField x 80 8 || mwField x 0 80 ≠ 0
/-- An entry word that breaks R408. -/
def entryBad (x : W32) : Bool :=
  let mx := x.toNat / 2 ^ 16 % 256
  let mn := x.toNat / 2 ^ 8 % 256
  x.toNat / 2 ^ 24 % 16 ≠ 0 || 5 < entryClass x || (128 < mx && mx ≠ 255) || 128 < mn || (mx = 255 && mn ≠ 0)

def pkgEntries (s : State) (pa : Nat) : List W32 := (List.range 256).map fun e => BitVec.ofNat 32 (pkgRead s pa (64 + 4 * e) 4)
def pkgWords (s : State) (pa : Nat) : List (BitVec 128) :=
  (List.range 256).map fun w => BitVec.ofNat 128 (pkgRead s pa (1088 + 16 * w) 16)

/-- Both signatures verify under a key pair (spec/24 R432). -/
def bothSigned (kind : Nat) (msg ed ml : List Byte) : Bool := Config.ed25519Ok kind msg ed && Config.mlDsaOk kind msg ml

/-- The reason of the first step of verification that fails, with its index; 0 for none (R412). -/
def mouldCheck (s : State) (st : Nat) : Nat × Nat :=
  let m := mouldOf s st
  let h := pkgRead s m.pa 0 64
  if !pkgPlace s m.pa 8557 then (1, 0)
  else if h % 2 ^ 32 ≠ 0x08404D49 || h / 2 ^ 64 % 2 ^ 32 ≠ 8557 || h / 2 ^ 128 ≠ 0 then (2, 0)
  else match firstBelow 256 fun w => microBad ((pkgWords s m.pa).getD w 0) with
    | some w => (3, w)
    | none =>
      match firstBelow 256 fun e => entryBad ((pkgEntries s m.pa).getD e 0) with
      | some e => (4, e)
      | none =>
        if !bothSigned 1 (pkgBytes s m.pa 0 5184) (pkgBytes s m.pa 5184 64) (pkgBytes s m.pa 5248 3309) then (5, 0)
        else if h / 2 ^ 32 % 2 ^ 32 < m.floor.toNat then (6, 0)
        else if !s.admitted.getLsbD st then (7, 0)
        else (0, 0)

/-- A write to MLOADs starts a load; while one runs it is discarded. -/
def execMouldLoad (st : BitVec 3) (v : W64) (s : State) : Out :=
  let m := mouldOf s st.toNat
  if s.stage ≠ 3 || (1 ≤ m.state && m.state ≤ 3) then .next s
  else holdIn s 0 (.mouldLoad st v) <| .next (putMould s st.toNat { m with state := 1, reason := 0, index := 0, pa := v.toNat })

/-- Verification ends: the load fails, or the stack drains. -/
def execMouldVerifyDone (st : BitVec 3) (s : State) : Out :=
  let m := mouldOf s st.toNat
  -- the package is read at the home L2, after a refresh that comes first (R413)
  if m.state ≠ 1 || runDue s m.pa 8557 then .next s
  else
    let r := mouldCheck s st.toNat
    if r.1 ≠ 0 then .next (putMould s st.toNat { m with state := 5, reason := r.1, index := r.2 })
    else .next (putMould s st.toNat { m with
      state := 2, next := some (pkgEntries s m.pa, pkgWords s m.pa, pkgRead s m.pa 4 4) })

/-- Every queue of a stack is empty. -/
def stackEmpty (s : State) (st : Nat) : Bool :=
  (s.vats.all fun e => e.1 / 2048 ≠ st || unitLoad e.2 = 0) && (s.vatWait.all fun e => e.1 / 2048 ≠ st) &&
  s.posts.all fun e => e.2.todo.all fun x => x.code ≠ 0 || x.unit / 2048 ≠ st

/-- The control stores of a stack are written afresh: no error stands or is pending in them. -/
def freshControl (s : State) (st : Nat) : State :=
  { s with
    unitLogs := (mouldOf s st).badUnits.foldl (fun (t : Tab (BitVec 128)) u =>
      tabSet 0 t u (tabGet 0 t u &&& ~~~ (1#128 <<< 88))) s.unitLogs
    upsets := s.upsets.filter fun e => match e with
      | .control u _ => u / 2048 ≠ st
      | _ => true }

/-- The writing of the image into every unit of the drained stack begins, and at the next such event ends; no control-store
error is pending any more then. -/
def execMouldWrite (st : BitVec 3) (s : State) : Out :=
  let m := mouldOf s st.toNat
  match m.next with
  | some (es, ws, v) =>
    if (m.state ≠ 2 && m.state ≠ 3) || !stackEmpty s st.toNat then .next s
    else if m.state = 2 then .next (putMould s st.toNat { m with state := 3 })
    else
      .next (putMould (freshControl s st.toNat) st.toNat
        { m with image := some (es, ws), version := v, state := 4, badUnits := [], next := none })
  | none => .next s

/-- A write to MFLOORs below its value is discarded. -/
def execMouldFloorWrite (st : BitVec 3) (v : W64) (s : State) : Out :=
  let m := mouldOf s st.toNat
  if s.stage ≠ 3 || v < m.floor then .next s else .next (putMould s st.toNat { m with floor := v })

/-! Refresh (R413, R414) -/

/-- Every 3.90625 us each bank's debt rises by 1; the owner sees to it that none passes 8. -/
def execRefreshInterval (ch : Nat) (s : State) : Out :=
  let x := chanOf s ch
  if 2048 ≤ ch || (List.range 32).any (fun b => 8 ≤ tabGet 0 x.debts b) then .next s
  else .next (putChan s ch { x with debts := (List.range 32).map fun b => (b, tabGet 0 x.debts b + 1) })

/-- The owner issues the refresh of a bank that owes one. -/
def execRefreshIssue (ch : Nat) (bank : BitVec 5) (s : State) : Out :=
  let x := chanOf s ch
  if 2048 ≤ ch || x.inFlight.isSome || tabGet 0 x.debts bank.toNat = 0 ||
      (x.state ≠ .normal && x.state ≠ .compute) || (x.state = .normal && fwHolds s 7) then .next s
  else .next (putChan s ch { x with inFlight := some bank.toNat })

/-- A refresh completes; a hand-over that waited for it sends the records, and commands, arrivals
and held events that it came before go on. -/
def execRefreshComplete (ch : Nat) (s : State) : Out :=
  let x := chanOf s ch
  match x.inFlight with
  | none => .next s
  | some b =>
    .next (retryAll (pumpAll (putChan (takeHeld s) ch { x with
      inFlight := none
      groups := tabSet 0 x.groups b ((tabGet 0 x.groups b + 1) % 8192)
      debts := tabSet 0 x.debts b (tabGet 0 x.debts b - 1)
      sent := x.state = .entering || x.state = .leaving })))

/-- The other owner acknowledges the records. A channel that has emptied, or filled, meanwhile moves on at once. -/
def execHandoverAck (ch : Nat) (s : State) : Out :=
  let x := chanOf s ch
  if !x.sent then .next s
  else match x.state with
    | .entering => .next (restChan (putChan s ch { x with state := .compute, sent := false }) ch)
    | .leaving =>
      let s1 := putChan s ch { x with state := .normal, sent := false }
      .next (if chanEmpty s1 ch then s1 else wakeChan s1 ch)
    | .normal | .compute => .next s

/-! The units' logs (R415) -/

def execUnitLogClear (u : Nat) (s : State) : Out :=
  if s.stage ≠ 3 then .next s else .next { s with unitLogs := tabErase s.unitLogs u }

end Sys2Proof.Machine
end

