-- ==== Sys2Proof/Machine/Reliab.lean ====
section
/-! DEFINITION. Reliability (spec/23 R418 to R426): counters, the scrubber, the die fence and re-admission. -/

namespace Sys2Proof.Machine

/-- A write to a counter clears it. -/
def execCounterClear (d i : BitVec 3) (s : State) : Out :=
  if s.stage ≠ 3 then .next s else .next (barSet s (0x200100 + 0x40 * d.toNat + 8 * i.toNat) 0)

/-! Scrubbing (R421, R422) -/

/-- Rows of a stack. -/
def stackRows : Nat := 8192 * 5760

/-- A row has been read: with the last row of a stack its pass is complete (R419, R421). -/
def rowDone (s : State) (d row : Nat) : State :=
  let rows := row :: tabGet [] s.scrubbed d
  if rows.length = stackRows then { rcount s d 7 with scrubbed := tabSet [] s.scrubbed d [] }
  else { s with scrubbed := tabSet [] s.scrubbed d rows }

/-- The scrubber reads the row at the bank-linear address `pa`, each row once in a pass: `ce` and `ue` name its units with
correctable and with uncorrectable errors; the latter are poisoned. No value changes. A refresh of the bank that takes priority
comes first (R413). -/
def execScrubRow (st : BitVec 3) (pa : Nat) (ce ue : List Nat) (s : State) : Out :=
  let d := st.toNat
  if s.stage ≠ 3 || !s.admitted.getLsbD d || !(barGet s 0x200020).getLsbD 8 || fwHolds s 7 || pa % 1024 ≠ 0 ||
      !paExists pa || paDue s pa || paSpace pa ≠ 1 || paStack pa ≠ d || (tabGet [] s.scrubbed d).contains (pa / 1024) then .next s
  else
    let s1 := ((ce.filter (· < 32)).eraseDups).foldl (fun t _ => rcount t d 0) s
    let s2 := ((ue.filter (· < 32)).eraseDups).foldl (fun t u => poisonNew t (pa / 32 + u) 2 1) s1
    .next (rowDone s2 d (pa / 1024))

/-! The die fence (R424, R425) -/

/-- A launch has a gang on a die, or one that was pre-empted there. -/
def onDie (s : State) (d l : Nat) : Bool :=
  let L := getL s l
  !L.complete && L.gangs.any fun g =>
    decide ((getGang s g).stat ≠ .released) && (getGang s g).groups.any fun h => (getG s h).core / 128 = d

/-- Write a record word unless its memory is fenced. -/
def fencedRecord (s : State) (c : VatCmd) : State :=
  match heldPa c c.recAt with
  | some pa => if paFenced s pa then s else writeRecord s c 0 0 [] 0x23 0 0
  | none => s

/-- The vat commands of a stack that a unit holds, and those that wait for a slot of one. -/
def stackCmds (s : State) (d : Nat) : List VatCmd :=
  ((s.vats.filter fun e => e.1 / 2048 = d).flatMap fun e => (match e.2.run with
    | some r => [r.cmd]
    | none => []) ++ e.2.queue) ++ ((s.vatWait.filter fun e => e.1 / 2048 = d).map Prod.snd)
/-- Lanes of posts that have not had their turn and name units of the stack are rejected with code 0x23 in their turn. -/
def fencePosts (s : State) (d : Nat) : State :=
  let hit (x : PostItem) : Bool := x.code = 0 && x.unit / 2048 = d
  { s with posts := s.posts.map fun e => (e.1, { e.2 with
      left := e.2.left - (e.2.todo.filter hit).length
      todo := e.2.todo.map fun x => if hit x then { x with code := 0x23, words := 0 } else x }) }
/-- The lanes of a post go on where none of it waits for a slot any more. -/
def resumePost (s : State) (post : Nat) : State :=
  match tabFind s.posts post with
  | none => s
  | some y =>
    if s.vatWait.any fun e => e.2.post = post then s
    else let z := postItems s y.todo; setTodo z.1 post z.2
/-- Every vat command of a stack ends with code 0x23, written by the die that issued it. -/
def fenceUnits (s : State) (d : Nat) : State :=
  let mine (e : Nat × VatUnit) : Bool := e.1 / 2048 = d
  let cs := stackCmds s d
  let s1 := fencePosts { s with
    vats := s.vats.filter fun e => !mine e, vatWait := s.vatWait.filter fun e => e.1 / 2048 ≠ d } d
  let s2 := cs.foldl (fun t c => postDone (resumePost (fencedRecord t c) c.post) c.post) s1
  restAll (cs.foldl (fun t c => match tabFind s.posts c.post with
    | some y =>
      if (getW t y.warp).stat = .waitPost && !t.vatWait.any (fun e => e.2.post = c.post) then
        updW t y.warp fun W => { W with stat := .running }
      else t
    | none => t) s2)

/-- Waiting co-resident launches that no longer fit are refused with code 0x03. -/
def refuseUnfit (s : State) : State :=
  (List.range s.launches.length).foldl (fun t l =>
    let L := getL t l
    if pkCores L.packet && L.nextGang = 0 && L.endState = 0 && !L.complete && !fitsModule t L.packet then
      updL t l fun L => { L with endState := 3, endCode := 3 }
    else t) s

/-- A load of an image on the stack fails with reason 7 (spec/22 R412). -/
def fenceMould (s : State) (d : Nat) : State :=
  let m := mouldOf s d
  if 1 ≤ m.state && m.state ≤ 3 then putMould s d { m with state := 5, reason := 7, next := none } else s

/-- Data of a fenced stack that caches of other dies, and writes on their way, still hold is dropped: no access brings it
back. What the die's cores have stored to other stacks was performed before the fence and stands: their dirty sectors stay until
they are written back (R127, R424). -/
def dropStack (s : State) (d : Nat) : State :=
  let mine (k : Nat) : Bool := paSpace (128 * k) < 2 && paStack (128 * k) = d
  l1Prune { s with
    l1 := s.l1.filter fun e => !mine (e.1 % 2 ^ 48) && (e.1 / 2 ^ 48 / 128 ≠ d || l1Dirty e.2)
    cured := s.cured.filter fun e => !mine (e.2 / 4)
    dramq := s.dramq.map fun w => if mine w.sector then { w with bytes := 0 } else w }

/-- The lines that the records of a fence write and that the host may cache: their back-invalidates come first (R388). -/
def fenceLines (s : State) (d : Nat) : List Nat :=
  if s.hostLines.isEmpty && s.backInv.isEmpty then []
  else ((stackCmds s d).flatMap (fun c => cmdLines s c c.recAt 16) ++
    s.posts.flatMap fun e => e.2.todo.flatMap fun x => cmdLines s x.cmd x.cmd.recAt (16 + 4 * x.words)).filter fun l =>
      paStack (64 * l) ≠ d
/-- Fence a die, whole at one instant: the vat commands of its stack have their records before launches are killed, so that a
killed launch's queued commands have theirs too. -/
def fenceDie (s : State) (d : Nat) : State :=
  if !s.admitted.getLsbD d then s
  else
    let ps := (s.ports.map Prod.fst).filter fun p => Config.portDie p % 8 = d
    let s1 := ps.foldl portDown { s with admitted := s.admitted &&& ~~~ (BitVec.ofNat 8 (2 ^ d)) }
    let s2 := fenceUnits s1 d
    let s3 := ((List.range s2.launches.length).filter (onDie s d)).foldl (fun t l => endLaunch t l 4 9) s2
    let s4 := refuseUnfit (dropStack (fenceMould s3 d) d)
    errRecord s4 9 4 d 0 0 0 0

/-- A write to RFENCE: the die in [2:0] and bit 8; any other value is discarded. -/
def execDieFenceCommand (v : W64) (s : State) : Out :=
  if v.toNat / 8 = 32 && s.stage = 3 then
    withHost s (fenceLines s (v.toNat % 8)) (.dieFenceCommand v) (.next (fenceDie s (v.toNat % 8)))
  else .next s

/-- The die detects an error that cannot be pinned, or a die-to-die link fails. -/
def execDieFence (d : BitVec 3) (s : State) : Out :=
  if s.stage = 3 then withHost s (fenceLines s d.toNat) (.dieFence d) (.next (fenceDie s d.toNat)) else .next s

/-! Re-admission (R426) -/

/-- A write to RADMIT. -/
def execReadmission (v : W64) (s : State) : Out :=
  let d := v.toNat % 8
  if s.readmit.isSome || s.stage ≠ 3 then .next s
  else holdIn s 0 (.registerWrite 0x200030 v) <| if s.admitted.getLsbD d then .next { s with readmitDie := d, readmitRes := 2 }
  else .next { s with readmit := some d, readmitDie := d }

/-- Steps 2 and 3: SRAM, registers, L2 and stack are wiped and the standard image is installed. What the die's cores had stored to
other stacks before the fence is written back first (R424). -/
def wipeDie (s0 : State) (d : Nat) : State :=
  let s := (List.range 128).foldl (fun t c => l1WriteBack t (128 * d + c)) s0
  let mine (a : Nat) : Bool := paSpace a < 2 && paStack a = d
  let m := mouldOf s d
  let s1 := freshControl s d
  l1Prune { putMould s1 d { Mould.blank with floor := m.floor } with
    mem := s.mem.filter fun c => !mine c.1
    l1 := s.l1.filter fun e => !mine (128 * (e.1 % 2 ^ 48)) && e.1 / 2 ^ 48 / 128 ≠ d
    l2 := s.l2.filter fun e => !mine (128 * e.1)
    dramq := s.dramq.map fun w => if mine (128 * w.sector) then { w with bytes := 0 } else w
    poison := s.poison.filter fun u => !mine (32 * u)
    cured := s.cured.filter fun e => !mine (32 * e.2)
    upsets := s1.upsets.filter fun u => match u with
      | .reg w _ => (getW s w).core / 128 ≠ d
      | .l1 c _ => c / 128 ≠ d
      | .l2 k => !mine (32 * k)
      | .scr g _ => (getG s g).core / 128 ≠ d
      | .control _ _ => true
    parked := s.parked.filter fun k => k.die ≠ d || k.inOverflow
    channels := s.channels.filter fun e => e.1 / 256 ≠ d
    splits := s.splits.filter fun e => e.1 / 128 ≠ d
    grids := s.grids.filter fun e => e.1 / 512 ≠ d
    bindings := s.bindings.filter fun b => b.home ≠ d
    scrubbed := tabSet [] s.scrubbed d [] }

/-- The die is admitted: its scale-up ports train, its bit is set and its record appended. -/
def admitDie (s : State) (d : Nat) : State :=
  let ps := (List.range 36).filter fun p => Config.portDie p % 8 = d && (portOfNo s p).state = 0
  errRecord (ps.foldl trainPort { s with admitted := s.admitted ||| BitVec.ofNat 8 (2 ^ d) }) 0x0A 0 d 0 0 0 0

/-- The self-test of a die ends: in stage 2 of the start for each die in turn (spec/24 R429), in stage 3 for the die that is
re-admitted. -/
def execDieSelfTestComplete (d : BitVec 3) (ok : Bool) (s : State) : Out :=
  let n := d.toNat
  if s.stage = 2 && s.testDie = n then
    let s1 := { s with testDie := n + 1 }
    .next (if ok then admitDie s1 n else errRecord s1 0x0B 0 n 0 0 0 0)
  else if s.stage = 3 && s.readmit = some n then
    if ok then withHost s ((List.range 128).flatMap fun c => coreLines s (128 * n + c)) (.dieSelfTestComplete d ok) <|
      .next (admitDie (wipeDie { s with readmit := none, readmitRes := 0 } n) n)
    else .next (errRecord { s with readmit := none, readmitRes := 1 } 0x0B 0 n 0 0 0 0)
  else .next s

end Sys2Proof.Machine
end

