-- ==== Sys2Proof/Machine/Life.lean ====
section
/-! DEFINITION. Start, update and end of life (spec/24 R428 to R437): the staged start, firmware, attestation, power. -/

namespace Sys2Proof.Machine

/-! The staged start (R429 to R431) -/

/-- A start begins at stage 0: nothing runs; DRAM, the control registers and the mould images stand until they are wiped, and
what the management controller keeps stays. What the module has sent stays sent. -/
def beginStart (s : State) : State :=
  { State.reset with
    ctr := s.ctr
    turn := s.turn
    agenda := s.agenda
    lastRead := s.lastRead
    bar := s.bar
    mem := s.mem
    poison := s.poison
    unitLogs := s.unitLogs
    moulds := s.moulds
    flits := s.flits
    msix := s.msix
    frames := s.frames
    datagrams := s.datagrams
    hostBad := s.hostBad
    reason := s.reason
    fails := s.fails
    life := s.life
    keysGone := s.keysGone
    fw := s.fw
    fwState := s.fwState
    fwReason := s.fwReason
    fwBlock := s.fwBlock
    fwPa := s.fwPa
    fwNew := s.fwNew
    coreClk := s.coreClk
    power := s.power }

/-- Stage 1: every byte, register and image of the module is wiped, in the caches and on its way to DRAM too; host memory is
not the module's. -/
def wipeAll (s : State) : State :=
  { s with
    bar := barReset
    mem := s.mem.filter fun c => 2 ≤ paSpace c.1
    l1 := []
    l1By := []
    l2 := []
    dramq := []
    poison := []
    cured := []
    upsets := []
    tlb := []
    ports := []
    splits := []
    unitLogs := []
    moulds := [] }

/-- A failed start: the count rises and the start begins again, or at the third failure the module enters ballast mode, in
which no die runs and no port is up. -/
def failStart (s : State) (reason : Nat) : State :=
  let s1 := { s with reason := reason, fails := min 3 (s.fails + 1) }
  if 3 ≤ s1.fails then { s1 with stage := 4, admitted := 0, ports := [], ctlFlits := [] } else beginStart s1

/-! Firmware packages (R432, R433) -/

def Firmware.blank : Firmware := ⟨0, 0, []⟩
def fwOf (s : State) (b : Nat) : Firmware := tabGet Firmware.blank s.fw b
/-- The package that a block's firmware came in. -/
def fwPackage (s : State) (b : Nat) : List Byte :=
  if (fwOf s b).package = [] then Config.factoryFirmware b else (fwOf s b).package
/-- The last 3,373 bytes of a package are its two signatures, over every byte before them. -/
def fwSigned (p : List Byte) : Bool :=
  bothSigned 0 (p.take (p.length - 3373)) ((p.drop (p.length - 3373)).take 64) (p.drop (p.length - 3309))
def fwPayload (p : List Byte) : List Byte := (p.take (p.length - 3373)).drop 64
/-- The digest of a block's firmware (R435). -/
def fwDigest (s : State) (b : Nat) : List Byte := (Config.sha384 (fwPayload (fwPackage s b))).toList

/-- The coolant inlet of the last reading, in degrees. -/
def inletOf (s : State) : Nat := s.power.toNat / 2 ^ 32 % 256
/-- Why stage `n` of a start fails, if it does (R430): in stage 0 a signature or a version of the firmware in force, in stage 1
the wipe, and in every stage supply and coolant. -/
def startFails (s : State) (n : Nat) : Option Nat :=
  let r := Config.startCheck n s.ctr
  if n = 0 && !(List.range 8).all fun b => fwSigned (fwPackage s b) then some 1
  else if n = 0 && (List.range 8).any fun b => (fwOf s b).version < (fwOf s b).floor then some 2
  else if n = 1 && r = 3 then some 3
  else if 40 < inletOf s || r = 6 then some 6
  else none

/-- Power comes on, with DRAM lost. A module whose count stands at 3 stays in ballast mode: no fourth attempt before command 2
(R431). -/
def execPowerOn (s : State) : Out :=
  let s1 := { beginStart s with mem := s.mem.filter fun c => 2 ≤ paSpace c.1, poison := [] }
  .next (if 3 ≤ s.fails then { s1 with stage := 4 } else s1)

/-- A stage finishes its work. -/
def execStartStageComplete (s : State) : Out :=
  match s.stage with
  | 0 =>
    match startFails s 0 with
    | some r => .next (failStart { s with ctr := s.ctr + 1 } r)
    | none =>
      -- a decommissioned module is wiped too and starts no further (R436)
      if s.life = 3 then .next { wipeAll s with ctr := s.ctr + 1 } else .next { s with stage := 1, ctr := s.ctr + 1 }
  | 1 =>
    match startFails s 1 with
    | some r => .next (failStart { s with ctr := s.ctr + 1 } r)
    | none => .next { wipeAll s with stage := 2, testDie := 0, admitted := 0, ctr := s.ctr + 1 }
  | 2 =>
    if s.testDie < 8 then .next s
    else match startFails s 2 with
      | some r => .next (failStart { s with ctr := s.ctr + 1 } r)
      | none =>
        if s.admitted = 0 then .next (failStart s 4)
        else .next { s with stage := 3, fails := 0, ctr := s.ctr + 1 }
  | _ => .next s

/-- A stage breaks its limit. -/
def execStartStageTimeout (s : State) : Out :=
  if s.stage < 3 then .next (failStart s 5) else .next s

/-- LCCMD command 1; a module in ballast mode accepts command 2 only. -/
def execLifecycleReset (s : State) : Out :=
  if s.stage = 4 then .next s else holdIn s 0 (.registerWrite 0x300008 1) (.next (beginStart s))

/-- LCCMD command 2 clears the count, and in ballast mode starts again at stage 0. -/
def execClearFailedStartCount (s : State) : Out :=
  let s1 := { s with fails := 0 }
  holdIn s 0 (.registerWrite 0x300008 2) (if s.stage = 4 then .next (beginStart s1) else .next s1)

def idPart : W64 := 0x000000000DA20840
/-- An authorisation for a target state (R436): this device's number, the state, and both signatures under the identity root
pair (R432). -/
def authorised (a : List Byte) (target : Nat) : Bool :=
  let x := Config.authSigned a
  bothSigned 2 x.1 x.2.1 x.2.2 && Config.authId a = idPart && Config.authTarget a = target

/-- LCCMD command 3: one step forward under an authorisation at a 64-byte aligned PA; then as a reset. -/
def execLifecycleChange (v : W64) (s : State) : Out :=
  let pa := v.toNat / 256
  if s.stage = 4 || 3 ≤ s.life || pa % 64 ≠ 0 || !paExists pa || !paExists (pa + 4095) then .next s
  else holdIn s 0 (.registerWrite 0x300008 v) <| holdDue s (runDue s pa 4096) (.registerWrite 0x300008 v) <| if authorised (leBytes 4096 (tblRead s pa 4096)) (s.life + 1) then
    .next (beginStart { s with life := s.life + 1, keysGone := s.keysGone || s.life + 1 = 3 })
  else .next s

/-! Firmware (R432 to R434) -/

/-- A write to FWLOAD. -/
def execFirmwareLoad (v : W64) (s : State) : Out :=
  if s.fwState = 1 || s.fwState = 2 then .next s
  else .next { s with fwState := 1, fwReason := 0, fwPa := v.toNat }

/-- The reason for which a package is rejected, 0 for none; its block, version and length. -/
def fwCheck (s : State) : Nat × Nat × Nat × Nat :=
  let pa := s.fwPa
  if pa % 64 ≠ 0 || !paExists pa || !paExists (pa + 63) then (7, 0, 0, 0)
  else
    let h := pkgRead s pa 0 64
    let len := h / 2 ^ 64 % 2 ^ 32
    let ver := h / 2 ^ 32 % 2 ^ 32
    let blk := h / 2 ^ 96 % 256
    let out (r : Nat) : Nat × Nat × Nat × Nat := (r, blk, ver, len)
    if h % 2 ^ 32 ≠ 0x08404657 || h / 2 ^ 128 ≠ 0 || len < 3437 || !paExists (pa + (len - 1)) then out 7
    else if 7 < blk then out 8
    else if !fwSigned (pkgBytes s pa 0 len) then out 1
    else if ver < (fwOf s blk).floor then out 2
    else out 0

/-- A refresh comes before a row of the package (R413). -/
def fwDue (s : State) : Bool := runDue s s.fwPa (max 64 (fwCheck s).2.2.2)
/-- Verification ends: the package is rejected, or its block switches. -/
def execFirmwareVerifyDone (s : State) : Out :=
  if s.fwState ≠ 1 || fwDue s then .next s
  else
    let (r, blk, ver, len) := fwCheck s
    if r ≠ 0 then .next { s with fwState := 4, fwReason := r, fwBlock := blk }
    else .next { s with
      fwState := 2, fwBlock := blk, fwNew := (ver, pkgBytes s s.fwPa 0 len) }

/-- Work of a block that has begun and is finished under the old firmware: every launch that was taken, every command that has
started, every packet that has arrived (R434; log 57). -/
def blockBusy (s : State) (b : Nat) : Bool :=
  match b with
  | 0 => s.readmit.isSome || s.moulds.any fun e => 1 ≤ e.2.state && e.2.state ≤ 3
  | 1 => s.cancel.isSome || s.xcmd.isSome || s.recq ≠ [] || s.launches.any (fun L => !L.complete && !L.hold) ||
      s.gangs.any fun g => match g.stat with
        | .stopping _ => true
        | .held | .running | .saved _ | .released => false
  | 2 => s.shoot.isSome && s.xrecs.isEmpty
  | 3 => s.cmds.any (fun c => c.started && (isPacketCmd c.kind || mergeFar s c)) || s.parked ≠ [] || s.relays ≠ [] ||
      s.farReads.any fun r => r.data.isNone && r.code = 0
  | 4 => s.ckSends ≠ []
  | 5 => s.cmds.any fun c => c.started && (c.kind = .skcfg || c.kind = .skfold || c.kind = .skmerge)
  | 6 => s.cmds.any fun c => c.started && (c.kind = .cpy || c.kind = .rsel || c.kind = .tmerge)
  | 7 => s.channels.any fun e => e.2.state ≠ .compute && (e.2.inFlight.isSome || e.2.sent)
  | _ => false
/-- The block, once it has finished what it had begun, resumes under the new firmware; what reached it meanwhile is taken next. -/
def execFirmwareSwitch (s : State) : Out :=
  if s.fwState ≠ 2 || blockBusy s s.fwBlock then .next s
  else
    let f := fwOf s s.fwBlock
    let g : Firmware := ⟨s.fwNew.1, max f.floor s.fwNew.1, s.fwNew.2⟩
    .next (retryAll (pumpAll { s with
      fw := tabPut s.fw s.fwBlock g, fwState := 3, fwNew := (0, []), agenda := s.heldIn ++ s.agenda, heldIn := [] }))

/-! What LCSTATE reads (R428) -/

def lcState (s : State) : W64 :=
  BitVec.ofNat 64 (s.stage + 2 ^ 8 * s.reason + 2 ^ 16 * s.fails + 2 ^ 24 * s.life + 2 ^ 32 * (fwOf s 0).version)
def idStat (s : State) : W64 := s.admitted.setWidth 64

/-! Attestation (R435) -/

/-- The bytes of the image that a stack runs: entry table and control store. -/
def imageBytes (s : State) (st : Nat) : List Byte :=
  match (mouldOf s st).image with
  | some (es, ws) => es.flatMap (fun e => leBytes 4 e.toNat) ++ ws.flatMap fun w => leBytes 16 w.toNat
  | none => Config.stdImage

/-- The certificate of the device's identity keys. -/
def certificate : List Byte := (List.range Config.certificateLen.toNat).map Config.certificateByte

/-- The signed part of a reply, in the order of R435. -/
def attestBody (s : State) (nonce : List Byte) : List Byte :=
  nonce ++ leBytes 8 idPart.toNat ++ leBytes 8 (idStat s).toNat ++ leBytes 8 (lcState s).toNat ++
  ((List.range 8).flatMap fun b => leBytes 4 (fwOf s b).version ++ fwDigest s b) ++
  ((List.range 8).flatMap fun t => leBytes 4 (mouldOf s t).version ++ (Config.sha384 (imageBytes s t)).toList) ++ certificate

/-- A write to ATREQ: the request holds a nonce of 32 bytes and the PA of the reply. -/
def execAttestationRequest (v : W64) (s : State) : Out :=
  let pa := v.toNat
  if s.keysGone || !paExists pa || !paExists (pa + 39) then .next s
  else holdIn s 0 (.registerWrite 0x300020 v) <| holdDue s (runDue s pa 40) (.registerWrite 0x300020 v) <|
    let body := attestBody s (leBytes 32 (tblRead s pa 32))
    let reply := body ++ (Config.attestSign body).toList
    let at_ := tblRead s (pa + 32) 8
    if paExists at_ && paExists (at_ + (reply.length - 1)) then
      (match heldLines s at_ reply.length with
        | [] => .next (tblStore s at_ reply.length (leNat reply))
        | l :: ls => .next { askLines s (l :: ls) with heldIn := s.heldIn ++ [.registerWrite 0x300020 v] })
    else .next s

/-! Power (R437) -/

/-- A launch ends at once with its status record, nothing more of it running. -/
def tripLaunch (s : State) (l : Nat) : State :=
  let s1 := endLaunch s l 4 0x0A
  let L := getL s1 l
  if L.complete then s1
  else
    let pa (a : W64) (k : AccKind) : Option Nat := placeIn (complPa s1 l L.job a k)
    finishLaunch s1 l (pa (pkStatus L.packet) .write) (pa (pkLcount L.packet) .atomic) (pa (pkGcount L.packet) .atomic)
      (pa (jobCount s1 L.job) .atomic)

/-- The hottest die of a reading. -/
def hotOf (power : W64) : Nat := power.toNat / 2 ^ 24 % 256
/-- The lines that the records of a trip, and the write-backs before them, write and that the host may cache: their back-invalidates
come first (R388). -/
def tripLines (s : State) : List Nat :=
  if s.hostLines.isEmpty && s.backInv.isEmpty then []
  else (List.range s.launches.length).flatMap fun l =>
    let L := getL s l
    let line (a : W64) (k : AccKind) : List Nat := match complPa s l L.job a k with
      | .wait (.line n) => [n]
      | _ => []
    if L.complete then []
    else (launchCores s L).flatMap (wroteLines s l) ++ line (pkStatus L.packet) .write ++ line (pkLcount L.packet) .atomic ++
      line (pkGcount L.packet) .atomic ++ line (jobCount s L.job) .atomic
/-- The trip: every launch is killed and the module returns to stage 0. -/
def tripModule (s : State) : State := beginStart ((List.range s.launches.length).foldl tripLaunch s)

/-- One millisecond: the readings, the clock against the cap, which the management controller's firmware sets, and the trip of a die
at 110 degrees. -/
def execThrottleStep (power : BitVec 13) (hot inlet : BitVec 8) (s : State) : Out :=
  let cap := (barGet s 0x300028).toNat
  let p := power.toNat
  let cool := if 100 * p ≤ 95 * cap then s.coolMs + 1 else 0
  let clk := if fwHolds s 0 then s.coreClk
    else if cap < p || 95 < hot.toNat then max 9 (s.coreClk - 1)
    else if 10 ≤ cool then min 18 (s.coreClk + 1) else s.coreClk
  let t := { s with
    coreClk := clk
    coolMs := min 10 cool
    power := BitVec.ofNat 64 (p + 2 ^ 16 * clk + 2 ^ 24 * hot.toNat + 2 ^ 32 * inlet.toNat) }
  if 110 ≤ hot.toNat && s.stage ≠ 4 then withHost s (tripLines s) (.throttleStep power hot inlet) (.next (tripModule t))
  else .next t

/-- A die stands at 110 degrees in the last reading: the module trips. -/
def execThermalTrip (d : BitVec 3) (s : State) : Out :=
  if s.stage = 4 || hotOf s.power < 110 then .next s
  else withHost s (tripLines s) (.thermalTrip d) (.next (tripModule s))

end Sys2Proof.Machine
end

