-- ==== Sys2Proof/Machine/Registers.lean ====
section
/-! DEFINITION. The register window of BAR0 (spec/21 R387 and the blocks that it names): what a write does and what a read
returns. -/

namespace Sys2Proof.Machine

/-- Clear the low `n` bits. -/
def alignTo (v : W64) (n : Nat) : W64 := BitVec.ofNat 64 (v.toNat / 2 ^ n * 2 ^ n)
def store (s : State) (off : Nat) (v : W64) : Out := .next (barSet s off v)
/-- The writable bits of a ring's control register: lgent, enable, and the error bits that a write clears. -/
def ctlBits (v : W64) : W64 := v &&& 0x31F
def indexBits (v : W64) : W64 := v &&& 0xFFFFFFFF

/-- A register of a ring: `dev` says that the device advances the written index, the driver the read one; else the other way
round. The index that the device advances is read-only. -/
def ringWrite (s : State) (o i : Nat) (v : W64) (dev : Bool) : Out :=
  match i with
  | 0 => store s o (alignTo v 12)
  | 8 => store s (o + 8) (ctlBits v)
  | 0x10 => if dev then .next s else store s (o + 0x10) (indexBits v)
  | 0x18 => if dev then store s (o + 0x18) (indexBits v) else .next s
  | _ => .next s

/-- The launch block (R330). -/
def launchWrite (s : State) (o : Nat) (v : W64) : Out :=
  if 0x100 ≤ o && o < 0x300 then execDoorbell (BitVec.ofNat 6 ((o - 0x100) / 8)) v s
  else match o with
    | 0 => store s 0x10000 (alignTo v 12)
    | 8 => store s 0x10008 (alignTo v 13)
    | 0x10 => store s 0x10010 (v &&& 7)
    | 0x18 => execCancel v s
    | _ => .next s

/-- The trap block (R351). -/
def trapWrite (s : State) (o : Nat) (v : W64) : Out :=
  match o with
  | 0 => store s 0x20000 (alignTo v 13)
  | 8 => if v.getLsbD 61 then execXcmdResume v s else execXcmdPreempt v s
  | 0x18 => execSwapStart v s
  | _ => .next s

/-- The translation block (R378). -/
def translWrite (s : State) (o : Nat) (v : W64) : Out :=
  if o < 0x20 then ringWrite s tfq o v true
  else if 0x48 ≤ o && o < 0x68 then ringWrite s tsl (o - 0x48) v true
  else if 0x100 ≤ o && o < 0x200 then ringWrite s (tpool ((o - 0x100) / 32)) ((o - 0x100) % 32) v false
  else if 0x200 ≤ o && o < 0x300 then ringWrite s (tck ((o - 0x200) / 32)) ((o - 0x200) % 32) v false
  else match o with
    | 0x20 =>
      let tag : W32 := v.setWidth 32
      if v.toNat / 2 ^ 34 ≠ 0 then .next s
      else match v.toNat / 2 ^ 32 % 4 with
        | 0 => execResolveWalkAgain tag s
        | 1 => execResolveUnmapped tag s
        | 2 => execResolveProtection tag s
        | _ => .next s
    | 0x28 => store s 0x30028 (alignTo v 16)
    | 0x30 => store s 0x30030 (alignTo v 16)
    | 0x38 => if v.getLsbD 8 then execShootdownSnapshot v s else execShootdown v s
    | _ => .next s

/-- What follows a step that went on. -/
def thenDo (o : Out) (k : State → Out) : Out :=
  match o with
  | .next t => k t
  | .fault f => .fault f
  | .refused r => .refused r

/-- FPCTLp: down, retrain, switch keys (R392). -/
def portCommand (s : State) (p : Nat) (v : W64) : Out :=
  thenDo (if v.getLsbD 0 then execPortDownCommand p s else .next s) fun t =>
    thenDo (if v.getLsbD 1 then execPortRetrain p t else .next t) fun u =>
      if v.getLsbD 2 then execKeySwitchRequest p u else .next u

/-- The fabric block (R392). -/
def fabricWrite (s : State) (o : Nat) (v : W64) : Out :=
  if 0x100 ≤ o && o < 0x100 + 32 * 36 then
    (if (o - 0x100) % 32 = 8 then portCommand s ((o - 0x100) / 32) v else .next s)
  else match o with
    | 0 => execFdevidWrite v s
    | 8 => store s 0x40008 v
    | 0x10 => store s 0x40010 v
    | 0x18 => store s 0x40018 v
    | 0x20 => store s 0x40020 v
    | 0x28 => store s 0x40028 (alignTo v 13)
    | 0x30 => store s 0x40030 (alignTo v 13)
    | 0x38 => store s 0x40038 (alignTo v 16)
    | 0x40 => store s 0x40040 (v &&& 0xFFFF)
    | _ => .next s

/-- The scale-out block (R404): the driver posts frames to send, the device fills frames received (log 26). -/
def scaleoutWrite (s : State) (o : Nat) (v : W64) : Out :=
  if o < 0x200 then
    (if o % 64 < 32 then ringWrite s (sotx (o / 64)) (o % 64) v false else ringWrite s (sorx (o / 64)) (o % 64 - 32) v true)
  else if o < 0x280 && o % 16 = 0 then store s (0x50000 + o) v
  else .next s

/-- The mould block (R411). -/
def mouldRegWrite (s : State) (o : Nat) (v : W64) : Out :=
  let st : BitVec 3 := BitVec.ofNat 3 (o / 64)
  if 0x200 ≤ o then .next s
  else match o % 64 with
    | 0 => execMouldLoad st v s
    | 0x10 => execMouldFloorWrite st v s
    | _ => .next s

/-- The reliability block (R418, R419). -/
def reliabWrite (s : State) (o : Nat) (v : W64) : Out :=
  if 0x100 ≤ o && o < 0x300 then
    execCounterClear (BitVec.ofNat 3 ((o - 0x100) / 64)) (BitVec.ofNat 3 ((o - 0x100) / 8)) s
  else match o with
    | 0 => store s 0x200000 (alignTo v 12)
    | 8 => store s 0x200008 (v &&& 0x1F)
    | 0x18 => store s 0x200018 (indexBits v)
    | 0x20 => store s 0x200020 (v &&& 0x1FF)
    | 0x28 => execDieFenceCommand v s
    | 0x30 => execReadmission v s
    | 0x40 => store s 0x200040 0
    | 0x48 => store s 0x200048 0
    | 0x50 => store s 0x200050 0
    | _ => .next s

/-- The life-cycle block (R428); of the commands, ballast mode accepts only command 2 (R431). -/
def lifeWrite (s : State) (o : Nat) (v : W64) : Out :=
  match o with
  | 8 => match v.toNat % 256 with
    | 1 => execLifecycleReset s
    | 2 => execClearFailedStartCount s
    | 3 => execLifecycleChange v s
    | _ => .next s
  | 0x10 => execFirmwareLoad v s
  | 0x20 => execAttestationRequest v s
  | 0x28 => if 1000 ≤ v.toNat && v.toNat ≤ 4600 then store s 0x300028 v else .next s
  | _ => .next s

/-- An 8-byte host write in the window. Until stage 3 only the life-cycle block takes writes (R429, R431). -/
def execRegisterWrite (off : Nat) (v : W64) (s : State) : Out :=
  if off % 8 ≠ 0 then .next s
  else if 0x300000 ≤ off && off < 0x301000 then lifeWrite s (off - 0x300000) v
  else if s.stage ≠ 3 then .next s
  else if 0x140000 ≤ off && off < 0x180000 then execUnitLogClear ((off - 0x140000) / 16) s
  else match off / 0x10000 with
    | 0x01 => launchWrite s (off % 0x10000) v
    | 0x02 => trapWrite s (off % 0x10000) v
    | 0x03 => translWrite s (off % 0x10000) v
    | 0x04 => fabricWrite s (off % 0x10000) v
    | 0x05 => scaleoutWrite s (off % 0x10000) v
    | 0x10 => mouldRegWrite s (off % 0x10000) v
    | 0x20 => reliabWrite s (off % 0x10000) v
    | _ => .next s

/-! Reads -/

def bit63 (b : Bool) : Nat := if b then 2 ^ 63 else 0
def bit62 (b : Bool) : Nat := if b then 2 ^ 62 else 0
/-- FPSTATp (R392). -/
def portStat (P : Port) : Nat :=
  P.state + 4 * P.slot + 8 * (if P.nextLoaded then 1 else 0) + 2 ^ 8 * (P.count % 2 ^ 40) + 2 ^ 48 * P.retries
/-- TSTAT (R406): holdover is the state of no port locked. -/
def timeStat (v : Servo) : Nat :=
  v.source.toNat + 8 * (if v.locked then 1 else 0) + 16 * (if v.locked then 0 else 1) + 32 * (if v.everLock then 1 else 0)
    + 2 ^ 32 * v.offset.toNat
/-- MSTATs (R411). -/
def mouldStat (m : Mould) : Nat := m.state + 2 ^ 8 * m.reason + 2 ^ 16 * m.index + 2 ^ 32 * m.version

/-- Offsets whose register reads what was written; the others read zero, or the state that they report. -/
def readable (off : Nat) : Bool :=
  [0x10000, 0x10008, 0x10010, 0x20000, 0x30028, 0x30030].contains off || (0x30000 ≤ off && off < 0x30020) ||
  (0x30048 ≤ off && off < 0x30068) || (0x30100 ≤ off && off < 0x30300) || (0x40000 ≤ off && off < 0x40048) ||
  (0x50000 ≤ off && off < 0x50280) || (0x200000 ≤ off && off < 0x200028) || (0x200040 ≤ off && off < 0x200058) ||
  (0x200100 ≤ off && off < 0x200300)

/-- What an 8-byte host read of the window returns. -/
def regRead (s : State) (off : Nat) : W64 :=
  if off = 0 then idPart
  else if off = 8 then idStat s
  else if off = 0x300000 then lcState s
  else if off = 0x300018 then
    BitVec.ofNat 64 (s.fwState + 2 ^ 8 * s.fwReason + 2 ^ 16 * s.fwBlock + 2 ^ 32 * (fwOf s s.fwBlock).version)
  else if off = 0x300028 then barGet s off
  else if off = 0x300030 then
    BitVec.ofNat 64 (s.power.toNat % 2 ^ 16 + 2 ^ 16 * s.coreClk + s.power.toNat / 2 ^ 24 * 2 ^ 24)
  else if s.stage ≠ 3 then 0
  else if off = 0x10020 then BitVec.ofNat 64 (s.canStat + bit63 s.cancel.isSome)
  else if off = 0x20010 then BitVec.ofNat 64 (s.xcmdCount + bit62 s.xcmdNoSlot + bit63 s.xcmd.isSome)
  else if off = 0x20020 then BitVec.ofNat 64 (s.swapCount + bit62 s.swapBad + bit63 s.swap.isSome)
  else if off = 0x30040 then BitVec.ofNat 64 (bit63 s.shoot.isSome)
  else if off = 0x40048 then BitVec.ofNat 64 (overUnits s)
  else if 0x40100 ≤ off && off < 0x40100 + 32 * 36 then
    (if (off - 0x40100) % 32 = 0 then BitVec.ofNat 64 (portStat (portOfNo s ((off - 0x40100) / 32))) else 0)
  else if off = 0x60000 then s.time
  else if off = 0x60008 then BitVec.ofNat 64 (timeStat s.servo)
  else if 0x100000 ≤ off && off < 0x100200 then
    (match off % 64 with
      | 8 => BitVec.ofNat 64 (mouldStat (mouldOf s ((off - 0x100000) / 64)))
      | 0x10 => (mouldOf s ((off - 0x100000) / 64)).floor
      | _ => 0)
  else if 0x140000 ≤ off && off < 0x180000 then
    BitVec.ofNat 64 ((tabGet 0 s.unitLogs ((off - 0x140000) / 16)).toNat / 2 ^ (8 * (off % 16)))
  else if off = 0x200038 then BitVec.ofNat 64 (s.readmitDie + 2 ^ 8 * s.readmitRes + bit63 s.readmit.isSome)
  else if readable off then barGet s off
  else 0

end Sys2Proof.Machine
end

