-- ==== Sys2Proof/Machine/Web.lean ====
section
/-! DEFINITION. The web register instructions (spec/08 R223, R224). -/

namespace Sys2Proof.Machine

/-- Bind a web register to a register with a descriptor that was read. A malformed descriptor is reported before a register
that is bound already, and both only when the read has met no fault (DESIGN CHOICE, log 70: R224 gives no order). -/
def bindWeb (s : State) (w len : Nat) (v : BitVec 8) (i : Nat) (d : BitVec 256) : State :=
  let W := getW s w
  if webMalformed d then webFault s w 3
  else if (List.range 4).any fun j => j ≠ i && (wGet W j).bound && decide ((wGet W j).reg = v) then webFault s w 2
  else advance (updW s w fun W => wSet W i ⟨d, (webStart d).setWidth 64, v, true⟩) w len

def execWbind (v : BitVec 8) (a : BitVec 6) (x_w : BitVec 2) (s : State) : Out :=
  issue s (fun W => regReason W [v.toNat] [a]) [v.toNat] fun w W =>
    let ea := sGet W a
    onWarpAccess s w ea 32 1 .read fun pa =>
      if dataBad s (some W.core) pa 32 then .next (warpReadError s w pa 32 1 ea)
      else let r := loadAt s (.l1 W.core) pa 32; .next (bindWeb r.1 w 1 v x_w.toNat (BitVec.ofNat 256 r.2))

/-- The position, or all ones when unbound. -/
def execWpos (d : BitVec 6) (x_w : BitVec 2) (s : State) : Out :=
  scalarOp s 1 d [] fun W =>
    let x := wGet W x_w.toNat
    if x.bound then x.pos else BitVec.allOnes 64

def execWclr (x_w : BitVec 2) (s : State) : Out :=
  issue s (fun _ => none) [] fun w _ => .next (advance (updW s w fun W => wSet W x_w.toNat WebSlot.blank) w 1)

end Sys2Proof.Machine
end

