-- ==== Sys2Proof/Machine/Agents.lean ====
section
/-! DEFINITION. The steps that the machine may take by itself in a state: the choices among agents. Each step checks by itself
whether it is enabled, so the list may name steps that then do nothing. -/

namespace Sys2Proof.Machine

def idxs {α : Type} (l : List α) : List Nat := List.range l.length

/-- Steps that concern warps: results, blocks of tile operations, configurations. -/
def warpEvents (s : State) : List Instr :=
  ((idxs s.warps).flatMap fun w =>
    let W := getW s w
    (if W.pend.isEmpty then [] else [.loadResultWrite w 0]) ++
    (if tileBusy W then [.mmaBlockApply w, .datapathConfigurationChange (partOf W)] else [])) ++
  (s.grids.map fun e => .datapathConfigurationChange e.1)

/-- Steps of the memory system. -/
def memEvents (s : State) : List Instr :=
  ((idxs s.dramq).map .storePerformed) ++ (s.l1.map fun e => .eviction (some (e.1 / 2 ^ 48)) (e.1 % 2 ^ 48) 0) ++
  (s.l2.map fun e => .eviction none e.1 0) ++ (if s.recq.isEmpty then [] else [.faultRecordAppend])

/-- The step that carries a command on. -/
def cmdEvent (c : Cmd) : List Instr :=
  match c.kind with
  | .cpy => [.copyCommandComplete c.id]
  | .rsel => [.selectCommandComplete c.id]
  | .skcfg => [.skcfgExecute c.id]
  | .skfold => [.skfoldExecute c.id]
  | .skmerge => [.skmergeChunk c.id]
  | .tmerge => [.tmergeDescriptor c.id]
  | .spawn => [.spawnAppend c.id]
  | .clean | .inval => [.cleanInvalComplete c.id]
  | .rput | .rputSig | .rget | .radd | .rsig => []

/-- Steps of the vat units and of their channels. -/
def vatEvents (s : State) : List Instr :=
  (s.vatWait.map fun e => .vatQueueSlotGrant e.1) ++
  (s.vats.flatMap fun e => [.vatCommandStart e.1, .microWord e.1, .microwordWatchdog e.1]) ++
  ((List.range 2048).map .refreshInterval) ++
  (s.channels.flatMap fun e => [.refreshComplete e.1, .handoverAck e.1] ++
    (List.range 32).map fun b => .refreshIssue e.1 (BitVec.ofNat 5 b))

/-- The cores of `n` gangs of a launch, each on the first cluster that holds it. -/
def coresFor (s : State) (l n : Nat) : Option (List Nat) :=
  match n with
  | 0 => some []
  | k + 1 =>
    match fitAny s (getL s l).packet with
    | none => none
    | some cs => (coresFor (placeGang s l cs) l k).map (cs ++ ·)

/-- Where the next gangs of a launch may be placed: on each cluster, or a co-resident launch as a whole. -/
def placements (s : State) (l : Nat) : List Instr :=
  let L := getL s l
  if !wantsPlace s L then []
  else if pkCores L.packet then
    (match coresFor s l (pkGangs L.packet) with
      | some cs => [.gangPlacement l cs]
      | none => [])
  else (List.range 256).filterMap fun c => (fitIn s L.packet c).map fun cs => .gangPlacement l cs

/-- Where a saved gang may be restored; the gangs of a co-resident launch return all together (R339). -/
def restores (s : State) (g : Nat) : List Instr :=
  let l := (getGang s g).launch
  let L := getL s l
  match (getGang s g).stat with
  | .saved _ =>
    if pkCores L.packet then ((coresFor s l (savedGangs s L).length).map fun cs => .gangRestore g cs).toList
    else (List.range 256).filterMap fun c => (fitIn s L.packet c).map fun cs => .gangRestore g cs
  | .held | .running | .stopping _ | .released => []

/-- Steps of the launch engine. -/
def launchEvents (s : State) : List Instr :=
  if s.stage ≠ 3 then []
  else
    [.dispatch, .counterPoll] ++
    ((idxs s.launches).flatMap fun l => placements s l ++ [.placementStarvationTimeout l, .launchComplete l] ++
      (match victimFor s l with
        | some g => [.preemption g]
        | none => [])) ++
    ((idxs s.gangs).flatMap fun g => [.gangRelease g, .preemption g] ++ restores s g) ++
    (((List.range 1024).filter fun c => tabGet 7 s.splits c ≠ (barGet s 0x10010).toNat % 8 && (groupsOn s c).isEmpty).map
      .lsplitApply)

/-- Steps of translation: walks for the code of warps, the fault queue, shootdowns, copies, checkpoints. -/
def translEvents (s : State) : List Instr :=
  (s.warps.map fun W => .translationWalk (BitVec.ofNat 8 (warpJob s W)) W.pc .fetch) ++
  (if s.xrecs.isEmpty then [] else [.faultQueuePost]) ++ (if s.shoot.isSome then [.shootdownComplete] else []) ++
  (s.cows.map fun c => .copyOnWrite c.ident) ++
  (if s.stage ≠ 3 then [] else (List.range 8).flatMap fun d =>
    [.checkpointFrameSend (BitVec.ofNat 3 d), .scaleoutTransmit (BitVec.ofNat 3 d)])

/-- Packets of this device to itself, and the ports' keys. -/
def linkEvents (s : State) : List Instr :=
  ((s.outbox.filter fun e => e.1 = 63).map fun e =>
    let k := e.2
    if k.op = 6 || k.op = 7 then
      .packetAckReceive 63 (if k.mc then k.dst else k.src) k.mc (BitVec.ofNat 32 k.value.toNat) (k.op = 6)
        (BitVec.ofNat 8 (k.value.toNat / 2 ^ 32))
    else .packetArrival 63 k) ++
  (s.ports.flatMap fun e => [.keyAutoSwitch e.1, .keyHardLimit e.1])

/-- Steps of the management controller. -/
def controlEvents (s : State) : List Instr :=
  (s.moulds.flatMap fun e => [.mouldVerifyDone (BitVec.ofNat 3 e.1), .mouldWrite (BitVec.ofNat 3 e.1)]) ++
  (if s.fwState = 1 then [.firmwareVerifyDone] else if s.fwState = 2 then [.firmwareSwitch] else []) ++
  (if s.stage < 3 then [.startStageComplete] else [])

/-- The internal steps. -/
def internalEvents (s : State) : List Instr :=
  warpEvents s ++ memEvents s ++ s.cmds.flatMap cmdEvent ++ vatEvents s ++ launchEvents s ++ translEvents s ++
  linkEvents s ++ controlEvents s

/-- The error that three numbers name, if they name one (R417; log 51). -/
def upsetOf (x : Nat × Nat × Nat) : Option Upset :=
  match x.1 with
  | 0 => some (.reg x.2.1 (BitVec.ofNat 32 x.2.2))
  | 1 => some (.l1 x.2.1 x.2.2)
  | 2 => some (.l2 x.2.1)
  | 3 => some (.scr x.2.1 x.2.2)
  | 4 => some (.control x.2.1 x.2.2)
  | _ => none
/-- Errors that ECC corrects are counted in the dies' counters of corrected errors (R417, R419). -/
def countCorrected (s : State) (n : Nat) : State :=
  ((Config.corrected n).filter fun e => e.2 = 0 || e.2 = 2 || e.2 = 4).foldl (fun t e => rcount t (e.1 % 8) e.2) s
/-- Time passes (R188, R341): the counts are free. Ports send flits, idle ones among them (R394), and errors come to stand in
the stores. -/
def tickClock (s : State) : State :=
  let n := s.ctr
  let s1 := { s with
    ctr := n + 1
    clock := s.clock + BitVec.ofNat 64 (Config.cycles n + 1)
    time := s.time + BitVec.ofNat 64 (Config.nanoseconds n)
    upsets := s.upsets ++ (upsetOf (Config.upset n)).toList }
  s.ports.foldl (fun t e => sendFlits t e.1 (Config.flitsSent n e.1)) (countCorrected s1 n)

/-- The step of the machine when no warp has been chosen: the scheduler of the next partition, or an internal step. -/
def chooseStep (s : State) : Instr :=
  let c := Instr.schedulerCycle s.turn :: internalEvents s
  c.getD (Config.choice s.ctr % c.length) (.schedulerCycle s.turn)

end Sys2Proof.Machine
end

