-- ==== Sys2Proof/Machine/Dispatch.lean ====
section
/-! DEFINITION. The meaning of each instruction, by its constructor. -/

namespace Sys2Proof.Machine

open Sys2Proof

def exec (i : Instr) (s : State) : Host.Outcome State Fault Refusal :=
  match i with
  | .clauseStart n p w y x_s rsv => Sys2Proof.Machine.execClauseStart n p w y x_s rsv s
  | .sadd d a b => Sys2Proof.Machine.execSadd d a b s
  | .ssub d a b => Sys2Proof.Machine.execSsub d a b s
  | .smul d a b => Sys2Proof.Machine.execSmul d a b s
  | .smulhI64 d a b => Sys2Proof.Machine.execSmulhI64 d a b s
  | .smulhUi64 d a b => Sys2Proof.Machine.execSmulhUi64 d a b s
  | .sdivI64 d a b => Sys2Proof.Machine.execSdivI64 d a b s
  | .sdivUi64 d a b => Sys2Proof.Machine.execSdivUi64 d a b s
  | .sremI64 d a b => Sys2Proof.Machine.execSremI64 d a b s
  | .sremUi64 d a b => Sys2Proof.Machine.execSremUi64 d a b s
  | .sand d a b => Sys2Proof.Machine.execSand d a b s
  | .sor d a b => Sys2Proof.Machine.execSor d a b s
  | .sxor d a b => Sys2Proof.Machine.execSxor d a b s
  | .sshl d a b => Sys2Proof.Machine.execSshl d a b s
  | .sshr d a b => Sys2Proof.Machine.execSshr d a b s
  | .ssra d a b => Sys2Proof.Machine.execSsra d a b s
  | .sminI64 d a b => Sys2Proof.Machine.execSminI64 d a b s
  | .sminUi64 d a b => Sys2Proof.Machine.execSminUi64 d a b s
  | .smaxI64 d a b => Sys2Proof.Machine.execSmaxI64 d a b s
  | .smaxUi64 d a b => Sys2Proof.Machine.execSmaxUi64 d a b s
  | .sclz d a => Sys2Proof.Machine.execSclz d a s
  | .spopc d a => Sys2Proof.Machine.execSpopc d a s
  | .sbrev d a => Sys2Proof.Machine.execSbrev d a s
  | .smov d a => Sys2Proof.Machine.execSmov d a s
  | .tick d => Sys2Proof.Machine.execTick d s
  | .ssel d a b => Sys2Proof.Machine.execSsel d a b s
  | .scmp d a b c => Sys2Proof.Machine.execScmp d a b c s
  | .sli d x_i x => Sys2Proof.Machine.execSli d x_i x s
  | .saddImm d a x_i x => Sys2Proof.Machine.execSaddImm d a x_i x s
  | .sandImm d a x_i x => Sys2Proof.Machine.execSandImm d a x_i x s
  | .sshlImm d a n => Sys2Proof.Machine.execSshlImm d a n s
  | .sshrImm d a n => Sys2Proof.Machine.execSshrImm d a n s
  | .ssraImm d a n => Sys2Proof.Machine.execSsraImm d a n s
  | .sld d a x_i x m => Sys2Proof.Machine.execSld d a x_i x m s
  | .sst d a x_i x m => Sys2Proof.Machine.execSst d a x_i x m s
  | .rdsys d n => Sys2Proof.Machine.execRdsys d n s
  | .wrsys a n => Sys2Proof.Machine.execWrsys a n s
  | .br o => Sys2Proof.Machine.execBr o s
  | .bc c p o => Sys2Proof.Machine.execBc c p o s
  | .call o => Sys2Proof.Machine.execCall o s
  | .pif p o => Sys2Proof.Machine.execPif p o s
  | .pifNot p o => Sys2Proof.Machine.execPifNot p o s
  | .pelse o => Sys2Proof.Machine.execPelse o s
  | .loop l k o => Sys2Proof.Machine.execLoop l k o s
  | .nop => Sys2Proof.Machine.execNop s
  | .ret => Sys2Proof.Machine.execRet s
  | .pend => Sys2Proof.Machine.execPend s
  | .lbrk => Sys2Proof.Machine.execLbrk s
  | .bar n => Sys2Proof.Machine.execBar n s
  | .barv n b => Sys2Proof.Machine.execBarv n b s
  | .exit => Sys2Proof.Machine.execExit s
  | .demote => Sys2Proof.Machine.execDemote s
  | .trap n => Sys2Proof.Machine.execTrap n s
  | .rfe => Sys2Proof.Machine.execRfe s
  | .yield => Sys2Proof.Machine.execYield s
  | .wait n => Sys2Proof.Machine.execWait n s
  | .modeVx => Sys2Proof.Machine.execModeVx s
  | .modeMx c => Sys2Proof.Machine.execModeMx c s
  | .deck c => Sys2Proof.Machine.execDeck c s
  | .jxt t n j x_i => Sys2Proof.Machine.execJxt t n j x_i s
  | .vadd d a b t => Sys2Proof.Machine.execVadd d a b t s
  | .vsub d a b t => Sys2Proof.Machine.execVsub d a b t s
  | .vmul d a b t => Sys2Proof.Machine.execVmul d a b t s
  | .vmulh d a b t => Sys2Proof.Machine.execVmulh d a b t s
  | .vmad d a b t => Sys2Proof.Machine.execVmad d a b t s
  | .vand d a b t => Sys2Proof.Machine.execVand d a b t s
  | .vor d a b t => Sys2Proof.Machine.execVor d a b t s
  | .vxor d a b t => Sys2Proof.Machine.execVxor d a b t s
  | .vshl d a b t => Sys2Proof.Machine.execVshl d a b t s
  | .vshr d a b t => Sys2Proof.Machine.execVshr d a b t s
  | .vsra d a b t => Sys2Proof.Machine.execVsra d a b t s
  | .vmin d a b t => Sys2Proof.Machine.execVmin d a b t s
  | .vmax d a b t => Sys2Proof.Machine.execVmax d a b t s
  | .fmin d a b t => Sys2Proof.Machine.execFmin d a b t s
  | .fmax d a b t => Sys2Proof.Machine.execFmax d a b t s
  | .fcpsgn d a b t => Sys2Proof.Machine.execFcpsgn d a b t s
  | .fadd d a b t => Sys2Proof.Machine.execFadd d a b t s
  | .fsub d a b t => Sys2Proof.Machine.execFsub d a b t s
  | .fmul d a b t => Sys2Proof.Machine.execFmul d a b t s
  | .ffma d a b t => Sys2Proof.Machine.execFfma d a b t s
  | .hadd d a b t => Sys2Proof.Machine.execHadd d a b t s
  | .hmul d a b t => Sys2Proof.Machine.execHmul d a b t s
  | .hfma d a b t => Sys2Proof.Machine.execHfma d a b t s
  | .hmin d a b t => Sys2Proof.Machine.execHmin d a b t s
  | .hmax d a b t => Sys2Proof.Machine.execHmax d a b t s
  | .vmov d a t => Sys2Proof.Machine.execVmov d a t s
  | .vnot d a t => Sys2Proof.Machine.execVnot d a t s
  | .vabs d a t => Sys2Proof.Machine.execVabs d a t s
  | .vneg d a t => Sys2Proof.Machine.execVneg d a t s
  | .vclz d a t => Sys2Proof.Machine.execVclz d a t s
  | .vpopc d a t => Sys2Proof.Machine.execVpopc d a t s
  | .vlane d t => Sys2Proof.Machine.execVlane d t s
  | .vbcast d x_s t => Sys2Proof.Machine.execVbcast d x_s t s
  | .fabs d a t => Sys2Proof.Machine.execFabs d a t s
  | .fneg d a t => Sys2Proof.Machine.execFneg d a t s
  | .frnd d a r t => Sys2Proof.Machine.execFrnd d a r t s
  | .fclass d a t => Sys2Proof.Machine.execFclass d a t s
  | .ex2 d a t => Sys2Proof.Machine.execEx2 d a t s
  | .lg2 d a t => Sys2Proof.Machine.execLg2 d a t s
  | .rcp d a t => Sys2Proof.Machine.execRcp d a t s
  | .rsq d a t => Sys2Proof.Machine.execRsq d a t s
  | .sin d a t => Sys2Proof.Machine.execSin d a t s
  | .cos d a t => Sys2Proof.Machine.execCos d a t s
  | .vcmp c p a b t => Sys2Proof.Machine.execVcmp c p a b t s
  | .fcmp c p a b t => Sys2Proof.Machine.execFcmp c p a b t s
  | .vselP0P3 d a b p t => Sys2Proof.Machine.execVselP0P3 d a b p t s
  | .vselP4P7 d a b p t => Sys2Proof.Machine.execVselP4P7 d a b p t s
  | .vaddImm d a x_i x t => Sys2Proof.Machine.execVaddImm d a x_i x t s
  | .vmulImm d a x_i x t => Sys2Proof.Machine.execVmulImm d a x_i x t s
  | .vandImm d a x_i x t => Sys2Proof.Machine.execVandImm d a x_i x t s
  | .vshlImm d a n t => Sys2Proof.Machine.execVshlImm d a n t s
  | .vshrImm d a n t => Sys2Proof.Machine.execVshrImm d a n t s
  | .vsraImm d a n t => Sys2Proof.Machine.execVsraImm d a n t s
  | .vli d x_i x t => Sys2Proof.Machine.execVli d x_i x t s
  | .cvt d a r t => Sys2Proof.Machine.execCvt d a r t s
  | .shfl d a b m t => Sys2Proof.Machine.execShfl d a b m t s
  | .voteAny d c x_s t => Sys2Proof.Machine.execVoteAny d c x_s t s
  | .voteAll d c x_s t => Sys2Proof.Machine.execVoteAll d c x_s t s
  | .voteBallot d c x_s t => Sys2Proof.Machine.execVoteBallot d c x_s t s
  | .vred d a o t => Sys2Proof.Machine.execVred d a o t s
  | .vscan d a o t => Sys2Proof.Machine.execVscan d a o t s
  | .wbind v a w => Sys2Proof.Machine.execWbind v a w s
  | .wpos d w => Sys2Proof.Machine.execWpos d w s
  | .wclr w => Sys2Proof.Machine.execWclr w s
  | .ld t o b l x => Sys2Proof.Machine.execLd t o b l x s
  | .st t o b l x => Sys2Proof.Machine.execSt t o b l x s
  | .lds t o b l x => Sys2Proof.Machine.execLds t o b l x s
  | .sts t o b l x => Sys2Proof.Machine.execSts t o b l x s
  | .ldm t o b l x => Sys2Proof.Machine.execLdm t o b l x s
  | .stm t o b l x => Sys2Proof.Machine.execStm t o b l x s
  | .stmQuantise t b l x => Sys2Proof.Machine.execStmQuantise t b l x s
  | .atom t o b l x => Sys2Proof.Machine.execAtom t o b l x s
  | .red t o b l x => Sys2Proof.Machine.execRed t o b l x s
  | .fence x => Sys2Proof.Machine.execFence x s
  | .clean n b k x => Sys2Proof.Machine.execClean n b k x s
  | .inval n b k x => Sys2Proof.Machine.execInval n b k x s
  | .pref o b l x => Sys2Proof.Machine.execPref o b l x s
  | .cpy a b d r x => Sys2Proof.Machine.execCpy a b d r x s
  | .cpwait n => Sys2Proof.Machine.execCpwait n s
  | .rsel a d r x => Sys2Proof.Machine.execRsel a d r x s
  | .rput a b d r x => Sys2Proof.Machine.execRput a b d r x s
  | .rputSig a b d r x => Sys2Proof.Machine.execRputSig a b d r x s
  | .rget a b d r x => Sys2Proof.Machine.execRget a b d r x s
  | .radd a b d r x => Sys2Proof.Machine.execRadd a b d r x s
  | .rsig a b d r x => Sys2Proof.Machine.execRsig a b d r x s
  | .skcfg a d r x => Sys2Proof.Machine.execSkcfg a d r x s
  | .skfold a b d r x => Sys2Proof.Machine.execSkfold a b d r x s
  | .skmerge a d r x => Sys2Proof.Machine.execSkmerge a d r x s
  | .tmerge a b d r x => Sys2Proof.Machine.execTmerge a b d r x s
  | .bqpost j a b d r x => Sys2Proof.Machine.execBqpost j a b d r x s
  | .spawn a b d r x => Sys2Proof.Machine.execSpawn a b d r x s
  | .mma c m n k f l ev => Sys2Proof.Machine.execMma c m n k f l ev s
  | .omap m a b => Sys2Proof.Machine.execOmap m a b s
  | .omapld m a => Sys2Proof.Machine.execOmapld m a s
  | .mmsk a b => Sys2Proof.Machine.execMmsk a b s
  | .mzero t => Sys2Proof.Machine.execMzero t s
  | .unassignedEncoding r => Sys2Proof.Machine.execUnassignedEncoding r s
  | .loopBackEdge w => Sys2Proof.Machine.execLoopBackEdge w s
  | .waitEnd w => Sys2Proof.Machine.execWaitEnd w s
  | .cpwaitEnd w => Sys2Proof.Machine.execCpwaitEnd w s
  | .fenceComplete w => Sys2Proof.Machine.execFenceComplete w s
  | .loadResultWrite w ue => Sys2Proof.Machine.execLoadResultWrite w ue s
  | .storePerformed k => Sys2Proof.Machine.execStorePerformed k s
  | .eviction core sector ue => Sys2Proof.Machine.execEviction core sector ue s
  | .cleanInvalComplete k => Sys2Proof.Machine.execCleanInvalComplete k s
  | .faultRecordAppend => Sys2Proof.Machine.execFaultRecordAppend s
  | .schedulerCycle part => Sys2Proof.Machine.execSchedulerCycle part s
  | .datapathConfigurationChange part => Sys2Proof.Machine.execDatapathConfigurationChange part s
  | .mmaBlockApply w => Sys2Proof.Machine.execMmaBlockApply w s
  | .copyCommandComplete k => Sys2Proof.Machine.execCopyCommandComplete k s
  | .selectCommandComplete k => Sys2Proof.Machine.execSelectCommandComplete k s
  | .skcfgExecute k => Sys2Proof.Machine.execSkcfgExecute k s
  | .skfoldExecute k => Sys2Proof.Machine.execSkfoldExecute k s
  | .skmergeChunk k => Sys2Proof.Machine.execSkmergeChunk k s
  | .tmergeDescriptor k => Sys2Proof.Machine.execTmergeDescriptor k s
  | .spawnAppend k => Sys2Proof.Machine.execSpawnAppend k s
  | .vatQueueSlotGrant u => Sys2Proof.Machine.execVatQueueSlotGrant u s
  | .vatCommandStart u => Sys2Proof.Machine.execVatCommandStart u s
  | .microWord u => Sys2Proof.Machine.execMicroWord u s
  | .microwordWatchdog u => Sys2Proof.Machine.execMicrowordWatchdog u s
  | .registerWrite off v => Sys2Proof.Machine.execRegisterWrite off v s
  | .doorbell q v => Sys2Proof.Machine.execDoorbell q v s
  | .dispatch => Sys2Proof.Machine.execDispatch s
  | .counterPoll => Sys2Proof.Machine.execCounterPoll s
  | .gangPlacement l cores => Sys2Proof.Machine.execGangPlacement l cores s
  | .placementStarvationTimeout l => Sys2Proof.Machine.execPlacementStarvationTimeout l s
  | .gangRelease g => Sys2Proof.Machine.execGangRelease g s
  | .launchComplete l => Sys2Proof.Machine.execLaunchComplete l s
  | .lsplitApply core => Sys2Proof.Machine.execLsplitApply core s
  | .cancel v => Sys2Proof.Machine.execCancel v s
  | .xcmdPreempt v => Sys2Proof.Machine.execXcmdPreempt v s
  | .xcmdResume v => Sys2Proof.Machine.execXcmdResume v s
  | .preemption g => Sys2Proof.Machine.execPreemption g s
  | .gangRestore g cores => Sys2Proof.Machine.execGangRestore g cores s
  | .swapStart v => Sys2Proof.Machine.execSwapStart v s
  | .translationWalk job va acc => Sys2Proof.Machine.execTranslationWalk job va acc s
  | .faultQueuePost => Sys2Proof.Machine.execFaultQueuePost s
  | .resolveWalkAgain tag => Sys2Proof.Machine.execResolveWalkAgain tag s
  | .resolveUnmapped tag => Sys2Proof.Machine.execResolveUnmapped tag s
  | .resolveProtection tag => Sys2Proof.Machine.execResolveProtection tag s
  | .shootdown v => Sys2Proof.Machine.execShootdown v s
  | .shootdownSnapshot v => Sys2Proof.Machine.execShootdownSnapshot v s
  | .shootdownComplete => Sys2Proof.Machine.execShootdownComplete s
  | .copyOnWrite k => Sys2Proof.Machine.execCopyOnWrite k s
  | .checkpointFrameSend d => Sys2Proof.Machine.execCheckpointFrameSend d s
  | .checkpointAckReceive d tag => Sys2Proof.Machine.execCheckpointAckReceive d tag s
  | .checkpointResendTimeout d => Sys2Proof.Machine.execCheckpointResendTimeout d s
  | .hostBar2Read off n => Sys2Proof.Machine.execHostBar2Read off n s
  | .hostBar2Write off data => Sys2Proof.Machine.execHostBar2Write off data s
  | .cxlMemRead off n => Sys2Proof.Machine.execCxlMemRead off n s
  | .cxlMemWrite off data => Sys2Proof.Machine.execCxlMemWrite off data s
  | .backInvalidateResponse line => Sys2Proof.Machine.execBackInvalidateResponse line s
  | .hostRequestCompletion k ok => Sys2Proof.Machine.execHostRequestCompletion k ok s
  | .fdevidWrite v => Sys2Proof.Machine.execFdevidWrite v s
  | .portDownCommand p => Sys2Proof.Machine.execPortDownCommand p s
  | .portRetrain p => Sys2Proof.Machine.execPortRetrain p s
  | .portTrainingComplete p => Sys2Proof.Machine.execPortTrainingComplete p s
  | .keySwitchRequest p => Sys2Proof.Machine.execKeySwitchRequest p s
  | .lossOfSignal p => Sys2Proof.Machine.execLossOfSignal p s
  | .flitReceive p flit => Sys2Proof.Machine.execFlitReceive p flit s
  | .keyAutoSwitch p => Sys2Proof.Machine.execKeyAutoSwitch p s
  | .keyHardLimit p => Sys2Proof.Machine.execKeyHardLimit p s
  | .keyWaitTimeout p => Sys2Proof.Machine.execKeyWaitTimeout p s
  | .keySlotLoad p tx salt => Sys2Proof.Machine.execKeySlotLoad p tx salt s
  | .packetArrival p pkt => Sys2Proof.Machine.execPacketArrival p pkt s
  | .packetAckReceive p peer mc seq ok code => Sys2Proof.Machine.execPacketAckReceive p peer mc seq ok code s
  | .packetResendTimeout peer mc seq => Sys2Proof.Machine.execPacketResendTimeout peer mc seq s
  | .groupIdleTimeout src job grp => Sys2Proof.Machine.execGroupIdleTimeout src job grp s
  | .scaleoutTransmit d => Sys2Proof.Machine.execScaleoutTransmit d s
  | .scaleoutReceive d frame => Sys2Proof.Machine.execScaleoutReceive d frame s
  | .ptpMessageReceive d m corr => Sys2Proof.Machine.execPtpMessageReceive d m corr s
  | .ptpLockLoss => Sys2Proof.Machine.execPtpLockLoss s
  | .mouldLoad st v => Sys2Proof.Machine.execMouldLoad st v s
  | .mouldVerifyDone st => Sys2Proof.Machine.execMouldVerifyDone st s
  | .mouldWrite st => Sys2Proof.Machine.execMouldWrite st s
  | .mouldFloorWrite st v => Sys2Proof.Machine.execMouldFloorWrite st v s
  | .refreshInterval ch => Sys2Proof.Machine.execRefreshInterval ch s
  | .refreshIssue ch bank => Sys2Proof.Machine.execRefreshIssue ch bank s
  | .refreshComplete ch => Sys2Proof.Machine.execRefreshComplete ch s
  | .handoverAck ch => Sys2Proof.Machine.execHandoverAck ch s
  | .unitLogClear u => Sys2Proof.Machine.execUnitLogClear u s
  | .counterClear d x_i => Sys2Proof.Machine.execCounterClear d x_i s
  | .dieFenceCommand v => Sys2Proof.Machine.execDieFenceCommand v s
  | .dieFence d => Sys2Proof.Machine.execDieFence d s
  | .readmission v => Sys2Proof.Machine.execReadmission v s
  | .dieSelfTestComplete d ok => Sys2Proof.Machine.execDieSelfTestComplete d ok s
  | .scrubRow st pa ce ue => Sys2Proof.Machine.execScrubRow st pa ce ue s
  | .powerOn => Sys2Proof.Machine.execPowerOn s
  | .startStageComplete => Sys2Proof.Machine.execStartStageComplete s
  | .startStageTimeout => Sys2Proof.Machine.execStartStageTimeout s
  | .lifecycleReset => Sys2Proof.Machine.execLifecycleReset s
  | .clearFailedStartCount => Sys2Proof.Machine.execClearFailedStartCount s
  | .lifecycleChange v => Sys2Proof.Machine.execLifecycleChange v s
  | .firmwareLoad v => Sys2Proof.Machine.execFirmwareLoad v s
  | .firmwareVerifyDone => Sys2Proof.Machine.execFirmwareVerifyDone s
  | .firmwareSwitch => Sys2Proof.Machine.execFirmwareSwitch s
  | .attestationRequest v => Sys2Proof.Machine.execAttestationRequest v s
  | .throttleStep power hot inlet => Sys2Proof.Machine.execThrottleStep power hot inlet s
  | .thermalTrip d => Sys2Proof.Machine.execThermalTrip d s

end Sys2Proof.Machine
end

