-- ==== Sys2Proof/Machine/Step.lean ====
section
/-! DEFINITION. One step: an input of the environment if one stands in the agenda, else the word of the warp that the
scheduler chose (if what came between has not stopped it), else the scheduler's or another agent's step. -/

namespace Sys2Proof.Machine

/-- The chosen warp's issue is over. -/
def clearCur (o : Out) : Out :=
  match o with
  | .next t => .next { t with cur := none }
  | .fault f => .fault f
  | .refused r => .refused r

def step (s : State) : Host.Outcome State Fault Refusal :=
  match s.agenda with
  | i :: r => exec i { s with agenda := r }
  | [] =>
    match s.cur with
    | some w =>
      if mayIssue s w (getW s w) then let i := nextOf s w; clearCur (exec i (prepare s w i))
      else .next { s with cur := none }
    | none => exec (chooseStep s) (tickClock s)

/-- The tables that map one code page: job 1's root at PA 0x1_2000, and the page at VA 0x1_0000 on PA 0x2_0000 with every
right (spec/20 R372). -/
def codeTables : List (Nat × Nat) :=
  [(0x10020, 0x12000), (0x10028, 0), (0x10030, 1), (0x10038, 0), (0x12000, 0x14001), (0x14000, 0x15001),
   (0x15000, 0x16001), (0x16000, 0x17001), (0x17008, 0x20039 + 2)]

/-- The words placed: a header of this clause, or the word itself where it is one, then the instruction's words. -/
def placedWords (nbits w : Nat) : List Nat :=
  let v := w % 2 ^ nbits
  let ws := (List.range 15).map fun i => v / 2 ^ (32 * i) % 2 ^ 32
  if v / 2 ^ 26 % 64 = 0x3F then ws else 0xFFFC0000 :: ws

/-- A launch of one warp with every register, for the code page. -/
def fetchPacket : BitVec 1024 :=
  BitVec.ofNat 1024 (0x10000 + 2 ^ 768 + 7 * 2 ^ 875 + 7 * 2 ^ 878)

/-- The state with an instruction placed so that the next step runs it: the module ready with every die admitted, a job's
tables and a code page, and one warp of one launch, chosen to issue, at that instruction. -/
def State.withFetchWord (s : State) (nbits w : Nat) : State :=
  let ws := placedWords nbits w
  let isHdr := w % 2 ^ nbits / 2 ^ 26 % 64 = 0x3F
  let m1 := codeTables.foldl (fun m e => memWrite m e.1 8 e.2) s.mem
  let m2 := (List.range 16).foldl (fun m i => memWrite m (0x20000 + 4 * i) 4 (ws.getD i 0)) m1
  let ks := (codeTables.map fun e => e.1 / 128) ++ [0x20000 / 128]
  let k := s.warps.length
  { s with
    mem := m2
    l2 := s.l2.filter fun e => !ks.contains e.1
    dramq := s.dramq.filter fun e => !ks.contains e.sector
    poison := s.poison.filter fun u => !ks.contains (u / 4)
    cured := s.cured.filter fun e => !ks.contains (e.2 / 4)
    upsets := s.upsets.filter fun e => match e with
      | .l2 u => !ks.contains (u / 4)
      | _ => true
    tlb := s.tlb.filter fun e => e.job ≠ 1
    bar := tabSet 0 s.bar 0x10008 0x10000
    xrecs := s.xrecs.map fun r => { r with waiters := r.waiters.filter fun x => x ≠ .warp k && x ≠ .eng k }
    cmds := s.cmds.filter fun c => c.warp ≠ k
    agenda := []
    cur := some k
    stage := 3
    admitted := 255
    warps := s.warps ++ [{ Warp.blank with
      launch := s.launches.length, gang := s.gangs.length, group := s.groups.length, nv := 256, ns := 64
      pc := 0x10000, entry := 0x10000, started := !isHdr, n := if isHdr then 0 else 15, ports := 15
      code := if isHdr then [] else (ws.drop 1).map (BitVec.ofNat 32), codeAt := 0x10000 }]
    groups := s.groups ++ [⟨s.gangs.length, 0, 0, [k], [], [], false⟩]
    gangs := s.gangs ++ [⟨s.launches.length, 0, [s.groups.length], .running, [], []⟩]
    launches := s.launches ++ [{ Launch.blank with
      packet := fetchPacket, job := 1, nextGang := 1, gangs := [s.gangs.length] }] }

end Sys2Proof.Machine
end

