-- ==== Sys2Proof/Safety.lean ====
section
/-! DEFINITION. What counts as a safe step, in the terms the statements use: when a warp may execute a word, how an
instruction completes, and what a read of memory sees. -/

namespace Sys2Proof.Machine

/-- A step that does not stop. -/
def Runs (s : State) : Prop := ∃ t, step s = .next t

/-! When a warp executes a word -/

/-- Warp `w` exists and was chosen to issue. -/
def Issues (s : State) (w : Nat) : Prop := s.cur = some w ∧ w < s.warps.length

/-- The scalar registers are allocated to the warp (R54). -/
def ScalarsOk (W : Warp) (rs : List (BitVec 6)) : Prop := ∀ r ∈ rs, r.toNat < W.ns

/-- The vector registers are allocated to the warp and none is claimed (R54, R263). -/
def VectorsOk (W : Warp) (rs : List Nat) : Prop := ∀ r ∈ rs, r < W.nv ∧ claimed W r = false

/-- No web register binds one of the registers (R223). -/
def NoStream (W : Warp) (rs : List Nat) : Prop :=
  ∀ i < 4, (wGet W i).bound = true → (wGet W i).reg.toNat ∉ rs

/-- What a vector instruction that names these registers needs in order to run without a stream or a fault. -/
def VectorReady (s : State) (w : Nat) (vs : List Nat) (ss : List (BitVec 6)) : Prop :=
  Issues s w ∧ VectorsOk (getW s w) vs ∧ ScalarsOk (getW s w) ss ∧ NoStream (getW s w) vs

/-- What an access needs of the warp: registers, and a token that is not full (R39, R54). -/
def AccessReady (s : State) (w : Nat) (vs : List Nat) (ss : List (BitVec 6)) (t : Option (BitVec 3)) : Prop :=
  Issues s w ∧ VectorsOk (getW s w) vs ∧ ScalarsOk (getW s w) ss ∧ evFull (getW s w) t = false

/-! How an instruction completes -/

/-- Nothing but warp `w` changes, which becomes `W`, and the warp goes on `len` words further. -/
def GoesOn (s : State) (w : Nat) (i : Instr) (len : Nat) (W : Warp) : Prop :=
  exec i s = .next (advance (setW s w W) w len)

/-- The instruction writes one scalar register, a write of s0 being discarded, and the warp goes on. -/
def WritesScalar (s : State) (w : Nat) (i : Instr) (len : Nat) (d : BitVec 6) (v : W64) : Prop :=
  GoesOn s w i len (sSet (getW s w) d v)

/-- The instruction writes register `d` in the lanes of EXM, lane by lane with its flags, and nothing else; every lane
outside EXM and every other register keeps its value, and a flag is set when it was set or a lane of EXM raised it. -/
def WritesVector (s : State) (w : Nat) (i : Instr) (len d : Nat) (f : Nat → W32 × Flags) : Prop :=
  ∃ U : Warp, GoesOn s w i len U ∧
    U = { getW s w with v := U.v, fpst := U.fpst } ∧
    (∀ r, ∀ l < 32, vGet U r l = if r = d ∧ (getW s w).exm.getLsbD l = true then (f l).1 else vGet (getW s w) r l) ∧
    ∀ b < 6, U.fpst.getLsbD b = ((getW s w).fpst.getLsbD b ||
      (List.range 32).any fun l => (getW s w).exm.getLsbD l && (f l).2.getLsbD b)

/-- The same with no flag. -/
def WritesVectorPlain (s : State) (w : Nat) (i : Instr) (len d : Nat) (f : Nat → W32) : Prop :=
  WritesVector s w i len d fun l => (f l, 0)

/-- The instruction writes a predicate in the lanes of EXM and nothing else. -/
def WritesPredicate (s : State) (w : Nat) (i : Instr) (len p : Nat) (f : Nat → Bool) : Prop :=
  ∃ U : Warp, GoesOn s w i len U ∧ U = { getW s w with p := U.p } ∧
    ∀ q, ∀ l < 32, (pGet U q).getLsbD l =
      if q = p ∧ (getW s w).exm.getLsbD l = true then f l else (pGet (getW s w) q).getLsbD l

/-- The instruction raises the illegal-instruction fault with a reason (R84). -/
def Illegal (s : State) (w : Nat) (i : Instr) (reason : Nat) : Prop := exec i s = .next (illegal s w reason)

/-- The instruction enters the warp's handler with a whole-warp fault of a class and cause (R353). -/
def Faults (s : State) (w : Nat) (i : Instr) (cls cause : Nat) : Prop :=
  exec i s = .next (faultAt s w cls cause 0 0 0)

/-! What a read of memory sees -/

/-- A lane's access of `n` bytes passes its checks and reaches physical address `pa`, which has the alignment of the virtual
one, as it has under every leaf that is not malformed (R242, R374), and no line that the host caches has to be asked for before
the core's L1 can write the sector back (R130, R388). -/
def LaneOk (s : State) (W : Warp) (a : W64) (n : Nat) (acc : AccKind) (pa : Nat) : Prop :=
  canonical a = true ∧ a.toNat % n = 0 ∧ translate s (warpJob s W) a acc W.verdicts = .ok pa ∧ pa % n = 0 ∧
    dirtyLines s W.core (pa / 128) = []

/-- Where an access is a load of policy mem, no refresh of the bank comes before the row that it opens (R127, R413). -/
def RowFree (s : State) (policy : Nat) (pa : Nat) : Prop := policy = 4 → memDue s pa = false

/-- A cached leaf gives an access its place, whatever is written to memory meanwhile (R375, R377). -/
def Cached (s : State) (job : Nat) (a : W64) (acc : AccKind) (vs : List (Nat × Nat)) (pa : Nat) : Prop :=
  verdictFor vs (va57 a) acc = none ∧
    ∃ t, tlbFind s job (va57 a) = some t ∧ useLeaf s t.level t.leaf (va57 a) acc = .ok pa

/-- Byte `a` of a command's memory has the place `p`, in the scratchpad that it names or by a cached leaf. -/
def Steady (s : State) (c : Cmd) (scr : Bool) (a : W64) (acc : AccKind) (p : EngAt) : Prop :=
  if scr then ∃ g o, scrPlace s (getW s c.warp) a = some (g, o) ∧ g < s.groups.length ∧ p = .scr g o
  else canonical a = true ∧ ∃ pa, p = .pa pa ∧ Cached s c.job a acc c.verdicts pa

/-- Byte `o` of a region's body has the place `p o` in DRAM, by cached leaves that let it be written: runs of 16 bytes stay together
and no two bytes share a place (R281, R288, R290). -/
def BodyAt (s : State) (b : Binding) (vs : List (Nat × Nat)) (len : Nat) (p : Nat → Nat) : Prop :=
  (∀ o < len, canonical (b.body + BitVec.ofNat 64 o) = true ∧ Cached s b.job (b.body + BitVec.ofNat 64 o) .write vs (p o) ∧
    paSpace (p o) < 2 ∧ p o % 16 = o % 16 ∧ p (o / 16 * 16) + o % 16 = p o) ∧
  ∀ o < len, ∀ q < len, p o = p q → o = q

/-- Only bytes of memory and of scratchpads, with the caches and writes on their way, and one free value's count have changed. -/
def OnlyBytes (s t : State) : Prop :=
  t = { s with
    ctr := s.ctr + 1, l1 := t.l1, l1By := t.l1By, l2 := t.l2, hostLines := t.hostLines, backInv := t.backInv, dramq := t.dramq
    mem := t.mem, poison := t.poison, cured := t.cured, groups := t.groups }

/-- Byte `a` lies in the `n` bytes at `pa`. -/
def Covers (pa n a : Nat) : Prop := pa ≤ a ∧ a < pa + n

/-- No read of the `n` bytes at `pa` meets an error: none of their units is poisoned, and none stands in error in the home L2 or
in the core's L1 (R417, R422). -/
def NoError (s : State) (core : Option Nat) (pa n : Nat) : Prop :=
  isPoisoned s core pa n = false ∧ ∀ k, pa / 32 ≤ k → k ≤ (pa + (n - 1)) / 32 →
    Upset.l2 k ∉ s.upsets ∧ ∀ c, core = some c → Upset.l1 c k ∉ s.upsets

/-- Only caches, and the lines that the host must give up, have changed. -/
def OnlyCaches (s t : State) : Prop :=
  t = { s with l1 := t.l1, l1By := t.l1By, l2 := t.l2, dramq := t.dramq, cured := t.cured, hostLines := t.hostLines, backInv := t.backInv }

/-- Only what a store may write has changed: caches, writes on their way, host memory, poison, and warp `w`. -/
def OnlyStores (s t : State) (w : Nat) : Prop :=
  t = { s with
    l1 := t.l1, l1By := t.l1By, l2 := t.l2, hostLines := t.hostLines, backInv := t.backInv, dramq := t.dramq, mem := t.mem
    poison := t.poison, cured := t.cured, warps := t.warps } ∧ ∀ v, v ≠ w → getW t v = getW s v

/-- The value of a byte to an access of a place. -/
def byteAt (s : State) (pl : Place) (a : Nat) : Nat := (loadAt s pl a 1).2

/-- What the lanes of a load that began in `s0` read at their addresses, each after the caches may have evicted its sector (R124,
R326): what the reads leave of `s`, and each lane's value, which depends on no other lane (R117). -/
def readsOf (s0 s : State) (core : Nat) (pl : Place) (n : Nat) (as : List (Nat × Nat)) : State × List (Nat × Nat) :=
  as.foldl (fun z a =>
    ((loadAt (lapse s0.ctr z.1 core a.2) pl a.2 n).1,
      z.2 ++ [(a.1, (loadAt (lapse s0.ctr s0 core a.2) pl a.2 n).2)])) (s, [])

/-- What lanes' stores of one instruction leave: each writes its value in turn, and units that they cover whole are rewritten. -/
def writesOf (s : State) (pl : Place) (n w : Nat) (as : List (Nat × Nat)) : State :=
  clearAt (as.foldl (fun z a => storeAt z pl a.1 n a.2 (some w) none) s) (placeCore pl) (as.map fun a => (a.1, n))

/-- Every bit of an `n`-byte value is one that the core's L1, the home L2 or DRAM shows at its place in state `s` (R124, R326: no
rule ties the reads of different lanes, or of different units, to one copy). -/
def OneOfCopies (s : State) (core pa n v : Nat) : Prop :=
  v < 256 ^ n ∧ ∀ i < n, ∀ b < 8, ∃ pl ∈ [Place.l1 core, .l2 none, .mem none],
    (v / 256 ^ i).testBit b = (byteAt s pl (pa + i)).testBit b

end Sys2Proof.Machine
end

