-- ==== Sys2Proof/Certificates/Slice0/Obligations.lean ====
section
/-! DEFINITION. The statements for the provers: what each instruction and event does, what it leaves alone, and the rules of
the whole machine. -/

open Sys2Proof Sys2Proof.Machine

/-- One word of each kind of format, written out bit by bit from the encoding tables, decodes to the instruction that
it stands for: a scalar form, an immediate, a branch, a vector form with three registers, a prefixed reduction, a
load, an engine command, a tile multiply, and a clause header. (R36, R44, R48, R51, R53, R68, R83) -/
def Obligations.DecodesSpecWords : Prop :=
  decodeInClause [0x00304200] = .ok (.sadd 3 1 2, 1) ∧
  decodeInClause [0x08517FFF] = .ok (.saddImm 5 5 0x3FFF none, 1) ∧
  decodeInClause [0x2857FFFD] = .ok (.bc 1 2 0x7FFFD, 1) ∧
  decodeInClause [0x5420242B] = .ok (.ffma 8 9 10 none, 1) ∧
  decodeInClause [0xFA840000, 0x90505400] = .ok (.vred 20 21 0 (some ⟨1, 0⟩), 2) ∧
  decodeInClause [0x98080441] = .ok (.ld 2 1 4 1 ⟨none, none, none⟩, 1) ∧
  decodeInClause [0xCC110015] = .ok (.skmerge 8 10 1 ⟨none, none, none⟩, 1) ∧
  decodeInClause [0xDCA62140] = .ok (.mma 1 2 3 4 5 0 none, 1) ∧
  decodeHeader 0xFC940000 = .clauseStart 2 5 0 0 0 0

/-- Every well-formed instruction that is a word of a clause, with every value of every operand and of every prefix
field, decodes from the words that the encoder writes for it, whatever follows them, and takes exactly those words; a
clause header decodes from its word. (R36, R43, R55, R56, R58, R68, R83) -/
def Obligations.EncodeThenDecode : Prop :=
  (∀ (i : Instr) (rest : List W32), isWord i = true → isHeader (encodeWord i) = false → WellFormed i →
    decodeInClause (encode i ++ rest) = .ok (i, (encode i).length)) ∧
  ∀ n p m y x r, decodeHeader (encodeWord (.clauseStart n p m y x r)) = .clauseStart n p m y x r

/-- No two runs of words decode to the same instruction: if the decoder reads an instruction of n words at the head of
a clause's words, then the encoder writes exactly those n words, the instruction is well formed, and it is a word of
the instruction set. (R55, R56, R58, R68, R83, R85) -/
def Obligations.DecodeThenEncode : Prop :=
  ∀ (ws : List W32) (i : Instr) (n : Nat), decodeInClause ws = .ok (i, n) →
    n ≤ ws.length ∧ encode i = ws.take n ∧ WellFormed i ∧ isWord i = true

/-- A word whose major opcode is 0x39 to 0x3D is refused by the decoder with reason 0x10, whatever its other bits and
whatever prefixes stand before it; where a warp's clause holds such a word, or prefixes and such a word, at the warp's
place, what the warp issues there is the encoding without a meaning of reason 0x10; and when that issues it takes the
fault of class 3 with that cause, whose fault address is that of the first prefix or word. (R69) -/
def Obligations.UnassignedOpcodesTrap : Prop :=
  (∀ (ps : List W32) (x : W32), 0x39 ≤ (bits x 26 6).toNat → (bits x 26 6).toNat ≤ 0x3D →
    decodeWord ps x = .error 0x10 ∧
    ∀ (W : Warp) (rest : List W32), (∀ p ∈ ps, isPrefix p = true) → clauseWords W = ps ++ x :: rest →
      wordAt W = .unassignedEncoding 0x10) ∧
  ∀ (s : State) (w : Nat), Issues s w →
    exec (.unassignedEncoding 0x10) s = .next (faultAt s w 3 0x10 0 0 (nextAddr (getW s w)))

/-- With no input waiting, a step of a machine whose scheduler has chosen a running warp runs the instruction at the
warp's place: inside a started clause what the words up to the clause's end, as they were fetched before its first
word issued, decode to, after the results whose window of lookahead has passed are written; before a clause, and
before a resumed one whose words have not been fetched again, the header that stands there. Around it the step only
ends the warp's turn. (R35, R41, R55, R59, R67, R348) -/
def Obligations.StepRunsDecodedInstruction : Prop :=
  ∀ (s : State) (w : Nat), s.agenda = [] → Issues s w → mayIssue s w (getW s w) = true →
    (getW s w).stat = .running → (getW s w).tile = none → (getW s w).fence = none →
    ((getW s w).flow && atLoopEnd (getW s w)) = false →
    (∀ i n, (getW s w).started = true → decodeInClause (clauseWords (getW s w)) = .ok (i, n) →
      step s = clearCur (exec i (prepare s w i))) ∧
    ((getW s w).started = false ∨ resumes (getW s w) = true →
      step s = clearCur (exec (decodeHeader (fetchWord s (getW s w) (getW s w).pc).2) s))

/-- After reset the module is in stage 0 of its start with no failure counted, no input waits, no warp, launch or
command exists, every cache is empty, every byte of memory reads zero (the model's choice where the spec gives none:
DRAM before the wipe of stage 1, log 1 and log 2, and host memory, log 3), no die is admitted, and the list that holds
memory is in its canonical form (strictly rising addresses, no listed byte that an unlisted address would read as; the
form is the model's own), which every step keeps. (R428, R429) -/
def Obligations.ResetState : Prop :=
  State.reset.stage = 0 ∧ State.reset.fails = 0 ∧ State.reset.agenda = [] ∧ State.reset.cur = none ∧
  State.reset.warps = [] ∧ State.reset.launches = [] ∧ State.reset.cmds = [] ∧ State.reset.l1 = [] ∧
  State.reset.l2 = [] ∧ State.reset.admitted = 0 ∧ Memory.wf State.reset.mem ∧ ∀ a, l2Byte State.reset a = 0

/-- From every state whose memory list has strictly rising addresses and lists no byte that an unlisted address would
read as, any step of the machine, whichever of its instructions and events it runs, gives a state whose memory has
that form again; so equal memories are equal data after any run. (spec/05_memory_model.md R127,
spec/20_translation_and_snapshots.md R371) -/
def Obligations.EveryStepKeepsMemoryCanonical : Prop :=
  ∀ s t : State, Memory.wf s.mem → step s = .next t → Memory.wf t.mem

/-- After an instruction of len words in a started clause, a warp whose next word lies inside the clause stands at
that word; one that has completed the clause stands before the header that follows the clause's n words, unless the
top of its reel is a divergent jump's entry that joins there and no loop ends there. Nothing else changes. (R35, R65,
R196, R170) -/
def Obligations.SequentialFlow : Prop :=
  ∀ (s : State) (w len : Nat), w < s.warps.length → (getW s w).started = true →
    ((getW s w).word + len < (getW s w).n →
      advance s w len = setW s w { getW s w with
        word := (getW s w).word + len, flow := true, ridx := 0, verdicts := [] }) ∧
    ∀ U : Warp, U = { getW s w with
        pc := (getW s w).pc + BitVec.ofNat 64 (4 + 4 * (getW s w).n), started := false, word := 0, n := 0, flow := true,
        ridx := 0, verdicts := [] } →
      (getW s w).n ≤ (getW s w).word + len → (atJoin U = false ∨ atLoopEnd U = true) → advance s w len = setW s w U

/-- Going on to the next word changes nothing of the machine but warps, groups and gangs, even where a join retires
the warp: every byte of memory and every cache, register of the module and command is as it was, unless the warp was
the last of a gang that was being stopped, whose claimed slot of the save pool is then given back (R361; the model's
reading) and nothing else. No warp's scalar, predicate, operand-map, web or loop registers change, nor its flags and
masks, its handler banks or its saved state; no scratchpad byte changes; and vector registers change only by results
that were on their way to the warp that retires. (R35, R65, R170, R173, R178, R361) -/
def Obligations.SequentialFlowFrame : Prop :=
  ∀ (s : State) (w len : Nat), ∃ t : State,
    (advance s w len = t ∨ ∃ (x : Gang) (slot : Nat), x = getGang s (getG s (getW s w).group).gang ∧ x.stat = .stopping slot ∧
      advance s w len = freeSlot t (getL s x.launch).job slot) ∧
    t = { s with warps := t.warps, groups := t.groups, gangs := t.gangs } ∧
    t.warps.length = s.warps.length ∧
    (∀ g, (getG t g).scratch = (getG s g).scratch) ∧
    ∀ v, (getW t v).s = (getW s v).s ∧ (getW t v).p = (getW s v).p ∧ (getW t v).m = (getW s v).m ∧
      (getW t v).w = (getW s v).w ∧ (getW t v).lc = (getW s v).lc ∧ (getW t v).fpst = (getW s v).fpst ∧
      (getW t v).deck = (getW s v).deck ∧ (getW t v).fltm = (getW s v).fltm ∧ (getW t v).demm = (getW s v).demm ∧
      (getW t v).deadm = (getW s v).deadm ∧ (getW t v).mrowm = (getW s v).mrowm ∧ (getW t v).mcolm = (getW s v).mcolm ∧
      (getW t v).h = (getW s v).h ∧ (getW t v).k = (getW s v).k ∧ (getW t v).kuser = (getW s v).kuser ∧
      (v ≠ w ∨ (getW s w).pend = [] → (getW t v).v = (getW s v).v)

/-- In a warp that issues with its registers allocated, each scalar register form writes its result to the destination
(a write of s0 is discarded), and the warp goes on one word: nothing else of the machine changes. The results are the
64-bit sum, difference, product, high halves of the signed and unsigned products, quotients and remainders with their
zero-divisor values, bitwise functions, shifts by the whole source (64 or more shifts everything out), minima and
maxima, leading zeros, set bits, bit reversal, copy, selection by the old destination, and the comparison of each of
the ten conditions. (R54, R180, R181, R182, R188, R70) -/
def Obligations.ScalarRegisterOperations : Prop :=
  ∀ (s : State) (w : Nat) (d a b : BitVec 6), Issues s w → ScalarsOk (getW s w) [d, a, b] →
    ∀ x y z : W64, x = sGet (getW s w) a → y = sGet (getW s w) b → z = sGet (getW s w) d →
    WritesScalar s w (.sadd d a b) 1 d (x + y) ∧
    WritesScalar s w (.ssub d a b) 1 d (x - y) ∧
    WritesScalar s w (.smul d a b) 1 d (x * y) ∧
    WritesScalar s w (.smulhI64 d a b) 1 d (BitVec.ofInt 64 (x.toInt * y.toInt / 2 ^ 64)) ∧
    WritesScalar s w (.smulhUi64 d a b) 1 d (BitVec.ofNat 64 (x.toNat * y.toNat / 2 ^ 64)) ∧
    WritesScalar s w (.sdivI64 d a b) 1 d (if y = 0 then BitVec.allOnes 64 else x.sdiv y) ∧
    WritesScalar s w (.sdivUi64 d a b) 1 d (if y = 0 then BitVec.allOnes 64 else x.udiv y) ∧
    WritesScalar s w (.sremI64 d a b) 1 d (if y = 0 then x else x.srem y) ∧
    WritesScalar s w (.sremUi64 d a b) 1 d (if y = 0 then x else x.umod y) ∧
    WritesScalar s w (.sand d a b) 1 d (x &&& y) ∧
    WritesScalar s w (.sor d a b) 1 d (x ||| y) ∧
    WritesScalar s w (.sxor d a b) 1 d (x ^^^ y) ∧
    WritesScalar s w (.sshl d a b) 1 d (x <<< y.toNat) ∧
    WritesScalar s w (.sshr d a b) 1 d (x >>> y.toNat) ∧
    WritesScalar s w (.ssra d a b) 1 d (x.sshiftRight y.toNat) ∧
    WritesScalar s w (.sminI64 d a b) 1 d (if y.toInt < x.toInt then y else x) ∧
    WritesScalar s w (.sminUi64 d a b) 1 d (if y.toNat < x.toNat then y else x) ∧
    WritesScalar s w (.smaxI64 d a b) 1 d (if x.toInt < y.toInt then y else x) ∧
    WritesScalar s w (.smaxUi64 d a b) 1 d (if x.toNat < y.toNat then y else x) ∧
    WritesScalar s w (.sclz d a) 1 d (BitVec.ofNat 64 (if x = 0 then 64 else 63 - Nat.log2 x.toNat)) ∧
    WritesScalar s w (.spopc d a) 1 d (BitVec.ofNat 64 ((List.range 64).filter fun i => x.getLsbD i).length) ∧
    WritesScalar s w (.sbrev d a) 1 d x.reverse ∧
    WritesScalar s w (.smov d a) 1 d x ∧
    WritesScalar s w (.tick d) 1 d s.clock ∧
    WritesScalar s w (.ssel d a b) 1 d (if z = 0 then y else x) ∧
    ∀ (c : BitVec 4) (holds : Bool),
      (c, holds) ∈ [(0, decide (x = y)), (1, decide (x ≠ y)), (2, x.slt y), (3, x.sle y), (4, y.slt x), (5, y.sle x),
        (6, x.ult y), (7, x.ule y), (8, y.ult x), (9, y.ule x)] →
      WritesScalar s w (.scmp d a b c) 1 d (if holds then 1 else 0)

/-- In a warp that issues with its registers allocated, the immediate forms write their result to one register and the
warp goes on past the word and its prefix: a loaded or added immediate is sign-extended from its 14 bits, or from the
37 bits that the prefix makes, a bitwise one is zero-extended, and the shifts take their 6-bit count. (R47, R56, R183)
-/
def Obligations.ScalarImmediateOperations : Prop :=
  ∀ (s : State) (w : Nat) (d a n : BitVec 6) (i : BitVec 14) (h : BitVec 23), Issues s w →
    ScalarsOk (getW s w) [d, a] → ∀ x : W64, x = sGet (getW s w) a →
    WritesScalar s w (.sli d i none) 1 d (i.signExtend 64) ∧
    WritesScalar s w (.sli d i (some h)) 2 d ((h ++ i).signExtend 64) ∧
    WritesScalar s w (.saddImm d a i none) 1 d (x + i.signExtend 64) ∧
    WritesScalar s w (.saddImm d a i (some h)) 2 d (x + (h ++ i).signExtend 64) ∧
    WritesScalar s w (.sandImm d a i none) 1 d (x &&& i.setWidth 64) ∧
    WritesScalar s w (.sandImm d a i (some h)) 2 d (x &&& (h ++ i).setWidth 64) ∧
    WritesScalar s w (.sshlImm d a n) 1 d (x <<< n.toNat) ∧
    WritesScalar s w (.sshrImm d a n) 1 d (x >>> n.toNat) ∧
    WritesScalar s w (.ssraImm d a n) 1 d (x.sshiftRight n.toNat)

/-- A scalar register reads what was last written to it and a write leaves every other one alone, but s0 reads zero
and a write of it is discarded. Every scalar form of R180 to R188, the immediate forms, the loads and stores and the
accesses of state numbers among them, that names a register at or above the allocated count raises the illegal-
instruction fault with reason 0x15, and none of its effect happens. (R54, R84, R85) -/
def Obligations.ScalarRegisterFile : Prop :=
  (∀ (W : Warp) (r q : BitVec 6) (v : W64),
    sGet (sSet W r v) q = (if q = 0 then 0 else if q = r then v else sGet W q) ∧ sGet W 0 = 0 ∧ sSet W 0 v = W) ∧
  ∀ (s : State) (w : Nat) (d a b n : BitVec 6) (c : BitVec 4) (i : BitVec 14) (x : ImmPfx) (m : Option MemAttr), Issues s w →
    (¬ ScalarsOk (getW s w) [d, a, b] → ∀ j ∈ [Instr.sadd d a b, .ssub d a b, .smul d a b, .smulhI64 d a b, .smulhUi64 d a b,
        .sdivI64 d a b, .sdivUi64 d a b, .sremI64 d a b, .sremUi64 d a b, .sand d a b, .sor d a b, .sxor d a b, .sshl d a b,
        .sshr d a b, .ssra d a b, .sminI64 d a b, .sminUi64 d a b, .smaxI64 d a b, .smaxUi64 d a b, .ssel d a b, .scmp d a b c],
      Illegal s w j 0x15) ∧
    (¬ ScalarsOk (getW s w) [d, a] → ∀ j ∈ [Instr.sclz d a, .spopc d a, .sbrev d a, .smov d a, .saddImm d a i x,
        .sandImm d a i x, .sshlImm d a n, .sshrImm d a n, .ssraImm d a n, .sld d a i x m, .sst d a i x m],
      Illegal s w j 0x15) ∧
    (¬ ScalarsOk (getW s w) [d] → ∀ j ∈ [Instr.sli d i x, .tick d, .rdsys d i], Illegal s w j 0x15) ∧
    (¬ ScalarsOk (getW s w) [a] → Illegal s w (.wrsys a i) 0x15)

/-- A read of an assigned state number by a warp that may read it writes that state to the destination and the warp
goes on: the masks and depths, the loop counters, the matrix state, the clocks, the warp's place in its group, gang
and launch (of FPST when no load is on its way and no tile operation is pending), and, at the handler levels that may
read them, the two banks and KUSER. A number that is unassigned, or that the warp's level may not read, raises reason
0x1E. (R154, R186, R187, R274, R352, R355) -/
def Obligations.SystemRegisterReads : Prop :=
  ∀ (s : State) (w : Nat) (d : BitVec 6) (n : BitVec 14), Issues s w → ScalarsOk (getW s w) [d] →
    ∀ W : Warp, W = getW s w → (n = 2 → W.tile = none ∧ W.pend = []) →
    (∀ v : W64,
      (n, v) ∈ [(0x000, W.exm.setWidth 64), (0x001, W.deck.setWidth 64), (0x002, W.fpst.setWidth 64),
        (0x003, W.fltm.setWidth 64), (0x004, W.demm.setWidth 64), (0x005, W.deadm.setWidth 64),
        (0x006, BitVec.ofNat 64 W.reel.length), (0x007, BitVec.ofNat 64 W.calls.length),
        (0x008, BitVec.ofNat 64 (loopAct W)), (0x00C, BitVec.ofNat 64 (evcnt W)), (0x014, (mstep W).setWidth 64),
        (0x009, lcGet W 0), (0x00A, lcGet W 1), (0x00B, lcGet W 2),
        (0x010, if W.mode then 1 else 0), (0x011, W.mclaim.setWidth 64), (0x012, W.mrowm.setWidth 64),
        (0x013, W.mcolm.setWidth 64), (0x020, s.clock), (0x021, s.time), (0x030, W.warpId.setWidth 64),
        (0x031, W.groupId.setWidth 64), (0x032, W.gangId.setWidth 64),
        (0x033, BitVec.ofNat 64 (pkId (warpPkt s W))), (0x034, BitVec.ofNat 64 (pkGroup (warpPkt s W))),
        (0x035, BitVec.ofNat 64 (pkGang (warpPkt s W))), (0x036, BitVec.ofNat 64 (pkGangs (warpPkt s W)))] →
      WritesScalar s w (.rdsys d n) 1 d v) ∧
    (∀ v : W64, 1 ≤ W.level →
      (n, v) ∈ [(0x040, W.h.cause), (0x041, W.h.reth), (0x042, W.h.retw), (0x043, W.h.mask), (0x044, W.h.addr),
        (0x045, W.h.exm), (0x046, W.h.reel), (0x047, W.h.scr), (0x048, 0)] →
      WritesScalar s w (.rdsys d n) 1 d v) ∧
    (∀ v : W64, W.level = 2 →
      (n, v) ∈ [(0x050, W.k.cause), (0x051, W.k.reth), (0x052, W.k.retw), (0x053, W.k.mask), (0x054, W.k.addr),
        (0x055, W.k.exm), (0x056, W.k.reel), (0x057, W.k.scr), (0x058, W.kuser)] →
      WritesScalar s w (.rdsys d n) 1 d v) ∧
    ((W.level = 0 ∧ 0x040 ≤ n.toNat ∧ n.toNat ≤ 0x058) ∨ (W.level ≤ 1 ∧ 0x050 ≤ n.toNat ∧ n.toNat ≤ 0x058) ∨
      (0x00D ≤ n.toNat ∧ n.toNat ≤ 0x00F) ∨ (0x015 ≤ n.toNat ∧ n.toNat ≤ 0x01F) ∨
      (0x022 ≤ n.toNat ∧ n.toNat ≤ 0x02F) ∨ (0x037 ≤ n.toNat ∧ n.toNat ≤ 0x03F) ∨ (0x049 ≤ n.toNat ∧ n.toNat ≤ 0x04F) ∨
      0x059 ≤ n.toNat → Illegal s w (.rdsys d n) 0x1E)

/-- A write of a state number that takes one changes that state and nothing else, and the warp goes on: DECK takes the
codes 1 to 5 and discards others, FPST takes its six bits, the loop counters and the matrix masks take the value, the
bank registers and KUSER take it in the levels that may write them (at level 2 a write of the H bank takes the restart
index of a stopped `ldm` or `stm` along when the bank then names its place: the model's reading, log 67), and a write
of a read-only number is discarded. A write of HKILL kills the live lanes of its mask at the bank's restart point, and
the handler goes on where that empties EXM (the model's choice, log 68). A number that the warp may not write raises
reason 0x1E. (R10, R154, R186, R201, R352, R357) -/
def Obligations.SystemRegisterWrites : Prop :=
  ∀ (s : State) (w : Nat) (a : BitVec 6) (n : BitVec 14), Issues s w → ScalarsOk (getW s w) [a] →
    ∀ (W : Warp) (x : W64), W = getW s w → x = sGet W a → (n = 2 → W.tile = none ∧ W.pend = []) →
    (∀ U : Warp,
      (n, U) ∈ [(0x001, if 1 ≤ x.toNat % 8 ∧ x.toNat % 8 ≤ 5 then { W with deck := x.setWidth 3 } else W),
        (0x002, { W with fpst := x.setWidth 6 }), (0x009, lcSet W 0 x), (0x00A, lcSet W 1 x), (0x00B, lcSet W 2 x),
        (0x012, { W with mrowm := x.setWidth 32 }), (0x013, { W with mcolm := x.setWidth 32 }),
        (0x000, W), (0x003, W), (0x004, W), (0x005, W), (0x006, W), (0x007, W), (0x008, W), (0x00C, W), (0x010, W),
        (0x011, W), (0x014, W), (0x020, W), (0x021, W)] →
      GoesOn s w (.wrsys a n) 1 U) ∧
    (∀ U : Warp, 1 ≤ W.level →
      (n, U) ∈ [(0x040, { W with h := { W.h with cause := x &&& 0x7FFFFFFFF } }), (0x041, { W with h := { W.h with reth := x } }),
        (0x042, { W with h := { W.h with retw := x &&& 0x7F } }), (0x043, { W with h := { W.h with mask := x } }),
        (0x044, { W with h := { W.h with addr := x } }), (0x045, { W with h := { W.h with exm := x } }), (0x046, W),
        (0x047, { W with h := { W.h with scr := x } })] →
      GoesOn s w (.wrsys a n) 1 (carryIndex U)) ∧
    (∀ U : Warp, W.level = 2 →
      (n, U) ∈ [(0x050, { W with k := { W.k with cause := x &&& 0x7FFFFFFFF } }), (0x051, { W with k := { W.k with reth := x } }),
        (0x052, { W with k := { W.k with retw := x &&& 0x7F } }), (0x053, { W with k := { W.k with mask := x } }),
        (0x054, { W with k := { W.k with addr := x } }), (0x055, { W with k := { W.k with exm := x } }), (0x056, W),
        (0x057, { W with k := { W.k with scr := x } }), (0x058, { W with kuser := x })] →
      GoesOn s w (.wrsys a n) 1 U) ∧
    (n = 0x048 → 1 ≤ W.level → exec (.wrsys a n) s = .next (advance
      (killLanes s w (x.setWidth 32) 0 (bankOf W W.level).reth ((bankOf W W.level).retw.toNat % 16)) w 1)) ∧
    ((0x030 ≤ n.toNat ∧ n.toNat ≤ 0x036) ∨ (W.level = 0 ∧ 0x040 ≤ n.toNat ∧ n.toNat ≤ 0x048) ∨
      (W.level ≠ 2 ∧ 0x050 ≤ n.toNat ∧ n.toNat ≤ 0x058) ∨ (0x00D ≤ n.toNat ∧ n.toNat ≤ 0x00F) ∨ (0x015 ≤ n.toNat ∧ n.toNat ≤ 0x01F) ∨
      (0x022 ≤ n.toNat ∧ n.toNat ≤ 0x02F) ∨ (0x037 ≤ n.toNat ∧ n.toNat ≤ 0x03F) ∨ (0x049 ≤ n.toNat ∧ n.toNat ≤ 0x04F) ∨
      0x059 ≤ n.toNat → Illegal s w (.wrsys a n) 0x1E)

/-- A warp that issues, with some lane that is active and not demoted or in a handler, and whose address (base plus
sign-extended immediate) is canonical, aligned to the width and translates to a physical address whose sector of the
L1 holds nothing that must wait for the host to give up a line (R388), completes the access there: `sld`, where the
data are correctable and, with policy mem, no refresh comes first (R413), writes the bytes that the place shows, zero-
extended or, for i32, sign-extended; `sst`, with no tile operation in its way, performs the low bytes of its register
at that address and at no other, and the warp goes on past the word and its prefixes. A warp all of whose lanes are
demoted only goes on. (R127, R128, R131, R184, R185, R242, R388, R413, R438) -/
def Obligations.ScalarMemoryAccesses : Prop :=
  ∀ (s : State) (w : Nat) (d a : BitVec 6) (i : BitVec 14) (x : ImmPfx) (m : Option MemAttr), Issues s w →
    ScalarsOk (getW s w) [d, a] → ∀ (W : Warp) (ea : W64) (len : Nat), W = getW s w →
    ea = sGet W a + (match x with | none => i.signExtend 64 | some h => (h ++ i).signExtend 64) →
    len = 1 + (if x.isSome then 1 else 0) + (if m.isSome then 1 else 0) →
    (suppressed W = true →
      exec (.sld d a i x m) s = .next (advance s w len) ∧ exec (.sst d a i x m) s = .next (advance s w len)) ∧
    (suppressed W = false → ∀ (f : BitVec 5) (n : Nat) (signed : Bool) (pa : Nat),
      (f, n, signed) ∈ [((0 : BitVec 5), 8, false), (0x0B, 8, false), (0x08, 1, false), (0x09, 2, false),
        (0x0A, 4, false), (0x12, 4, false), (0x10, 4, true)] →
      (attr m).fmt = f → canonical ea = true → ea.toNat % n = 0 → dirtyLines s W.core (pa / 128) = [] →
      (translate s (warpJob s W) ea .read W.verdicts = .ok pa → ((attr m).policy = 4 → memDue s pa = false) → dataBad s (some W.core) pa n = false →
        ∀ r : State × Nat, r = loadAt s (placeOfAttr W.core (attr m) (isStrong (attr m))) pa n →
        exec (.sld d a i x m) s = .next (advance (updW r.1 w fun V =>
          sSet V d (if signed then (BitVec.ofNat 32 r.2).signExtend 64 else BitVec.ofNat 64 r.2)) w len)) ∧
      (translate s (warpJob s W) ea .write W.verdicts = .ok pa → tileBusy W = false →
        exec (.sst d a i x m) s = .next (advance (storeAt s (placeOfAttr W.core (attr m) (isStrong (attr m))) pa n
          (sGet W d).toNat (some w) none) w len)))

/-- A store of n bytes at a place of the caches (a core's L1, or the home L2) inside one 128-byte sector, or in host
memory, makes each of those bytes read, at that place, as the byte of the value stored, lowest first; and every other
byte of every address reads there as it did before. (R7, R117, R127, R128) -/
def Obligations.StoredBytesReadBack : Prop :=
  ∀ (s : State) (pl : Place) (pa n v b : Nat) (w : Option Nat) (tok : Option (BitVec 3)),
    (∀ c, pl ≠ .mem c) → 0 < n → (pa % 128 + n ≤ 128 ∨ 2 ≤ paSpace pa) → paSpace (pa + (n - 1)) = paSpace pa →
    byteAt (storeAt s pl pa n v w tok) pl b =
      if pa ≤ b ∧ b < pa + n then v / 256 ^ (b - pa) % 256 else byteAt s pl b

/-- Taking an exception first writes the results that were on their way. At level 0 with a user handler, unless the
entry is forced to the privileged one, the warp enters level 1 at KUSER; otherwise, from level 0 or 1, it enters level
2 at the job's privileged handler when the table holds a valid one; at level 2, or with none, its launch ends with
state 4 and code 6. An entry saves in the level's bank the class, cause, extra byte and level, the restart point, the
lane mask, the fault address, EXM and the depths, hides the running loops, stops a pending tile operation (at once, or
at the end of the block in work), keeps every register, and leaves the warp before the handler's clause; SCR keeps its
value. The privileged handler of job j is the first 8 bytes of the 32-byte record j of the table at the trap block's
base, valid when bit 176 of the record is set and the bits above it are zero; a record with uncorrectable data names
no handler, and that it was consumed is recorded (the model's choice, log 77). (R275, R332, R350, R351, R352, R353,
R354, R417, R420) -/
def Obligations.TakingAnException : Prop :=
  ∀ (s : State) (w : Nat) (t : Trap) (forced : Bool), w < s.warps.length →
    ∀ (s1 : State) (W : Warp), s1 = landAll s w → W = getW s1 w →
    ∀ B : W64 → Bank, B = (fun scr => {
        cause := BitVec.ofNat 64 (t.cls + 2 ^ 8 * t.cause + 2 ^ 16 * t.kind + 2 ^ 24 * t.extra + 2 ^ 32 * W.level)
        reth := t.reth
        retw := BitVec.ofNat 64 (t.word + (if t.atWord then 16 else 0) + 32 * W.level)
        mask := t.mask.setWidth 64
        addr := t.addr
        exm := W.exm.setWidth 64
        reel := BitVec.ofNat 64 (W.reel.length + 2 ^ 8 * W.calls.length + 2 ^ 16 * loopAct W)
        scr := scr
        loops := W.loops
        ridx := W.ridx
        ridxAt := t.reth + BitVec.ofNat 64 (4 + 4 * t.word) }) →
    ∀ E : W64 → Warp, E = (fun a => { W with
        loops := [], stat := .running, verdicts := [], pc := a, started := false, word := 0, n := 0, flow := false, ridx := 0,
        tile := W.tile.map fun o => if o.steps = 0 then { o with stopped := true } else { o with halt := true } }) →
    (W.level = 0 → W.kuser ≠ 0 → forced = false →
      takeTrap s w t forced = setW s1 w { E W.kuser with level := 1, h := B W.h.scr }) ∧
    (∀ a, (W.level = 1 ∨ W.level = 0 ∧ (W.kuser = 0 ∨ forced = true)) → privHandler s1 (warpJob s1 W) = some a →
      takeTrap s w t forced = setW s1 w { E a with level := 2, k := B W.k.scr }) ∧
    (2 ≤ W.level → takeTrap s w t forced = endLaunch s1 W.launch 4 6) ∧
    ((W.level = 1 ∨ W.level = 0 ∧ (W.kuser = 0 ∨ forced = true)) → privHandler s1 (warpJob s1 W) = none →
      (xhBad s1 (warpJob s1 W) = none → takeTrap s w t forced = endLaunch s1 W.launch 4 6) ∧
      ∀ pa, xhBad s1 (warpJob s1 W) = some pa → takeTrap s w t forced =
        endLaunch (consumed s1 none pa 32 3 (warpJob s1 W) (pkId (getL s1 W.launch).packet)) W.launch 4 6) ∧
    ∀ job r : Nat, r = tblRead s ((barGet s 0x20000).toNat + 32 * job) 32 →
      privHandler s job = if xhBad s job = none ∧ r / 2 ^ 176 = 1 then some (BitVec.ofNat 64 r) else none

/-- `trap n` takes an exception of class 1 whose extra byte is n, with the lanes of EXM and a restart point after
itself: the next word of the clause, or the header that follows. A word that decodes to nothing, and an instruction
refused at issue, takes one of class 3 whose cause is the reason, with the lanes of EXM, a restart point at itself
and, as the fault address, the address of its first prefix or word. A header word inside a clause is refused with
reason 0x11, and a word of an assigned opcode whose prefixes include one of kind 6 or 7 with 0x18. (R41, R42, R84,
R85, R86, R199, R353) -/
def Obligations.TrapsOfAWord : Prop :=
  (∀ (s : State) (w : Nat) (n : BitVec 6), Issues s w → ∀ W : Warp, W = getW s w →
    exec (.trap n) s = .next (takeTrap s w (if W.word + 1 < W.n then
      ⟨1, 0, n.toNat, 0, W.exm, 0, W.pc, W.word + 1, W.started⟩
      else ⟨1, 0, n.toNat, 0, W.exm, 0, W.pc + BitVec.ofNat 64 (4 + 4 * W.n), 0, false⟩) false)) ∧
  (∀ (s : State) (w : Nat) (r : Reason), Issues s w → exec (.unassignedEncoding r) s = .next (illegal s w r.toNat)) ∧
  (∀ (s : State) (w r : Nat) (W : Warp), W = getW s w → W.started = true → illegal s w r = takeTrap s w
    ⟨3, r, 0, 0, W.exm, W.pc + BitVec.ofNat 64 (4 + 4 * W.word), W.pc, W.word, true⟩ false) ∧
  ∀ (ps : List W32) (x : W32), (isHeader x = true → decodeWord ps x = .error 0x11) ∧
    (¬ (0x39 ≤ (bits x 26 6).toNat ∧ (bits x 26 6).toNat ≤ 0x3D) → isHeader x = false →
      (∃ p ∈ ps, 6 ≤ pfxKind p) → decodeWord ps x = .error 0x18)

/-- At level 0 `rfe` is an illegal instruction of reason 0x12. In a handler whose bank holds the reel's and the call
stack's depths and a well-formed restart point at a legal header, it writes the results that were on their way,
restores from the level's bank the level, EXM without the lanes parked or killed meanwhile, and the loops that the
bank's act field names, and puts the warp at the restart point: before the header, or at the word named of the clause,
which holds no words until they are fetched and checked again. That a loop end at the restart point is still to be
taken (the flow bit, log 66) and that the restart index of a stopped `ldm` or `stm` comes from the bank (log 67) are
the model's choices. A stopped tile operation is accepted again, behind those that the sequencer holds, or ends with
its token signalled when no block of it is left (the order among operations is the model's reading, log 15); with no
lane left the warp unwinds. Depths that differ raise the reel fault of cause 5 and the call stack fault of cause 4,
and a malformed restart point an illegal instruction of reason 0x1E. (R41, R64, R169, R275, R352, R354, R355, R356) -/
def Obligations.ReturnFromException : Prop :=
  ∀ (s : State) (w : Nat), Issues s w → ∀ (W : Warp) (b : Bank) (hdr prev : W32) (j : Nat),
    W = getW s w → b = bankOf W W.level → j = b.retw.toNat % 16 → hdr = (fetchWord s W b.reth).2 →
    prev = (fetchWord s W (b.reth + BitVec.ofNat 64 (4 * j))).2 →
    (W.level = 0 → Illegal s w .rfe 0x12) ∧
    (W.level ≠ 0 → b.reel.toNat % 64 ≠ W.reel.length → Faults s w .rfe 5 5) ∧
    (W.level ≠ 0 → b.reel.toNat % 64 = W.reel.length → b.reel.toNat / 2 ^ 8 % 32 ≠ W.calls.length →
      Faults s w .rfe 6 4) ∧
    (W.level ≠ 0 → b.reel.toNat % 64 = W.reel.length → b.reel.toNat / 2 ^ 8 % 32 = W.calls.length →
      landCheck s W b.reth = .ok → (∀ y, (fetchWord s W (b.reth + BitVec.ofNat 64 (4 * j))).1 ≠ .wait y) →
      (badRestart W b hdr prev = true → exec .rfe s = .next (faultAt s w 3 0x1E 0 0 b.reth)) ∧
      (badRestart W b hdr prev = false → ∀ (s1 : State) (X : Warp), s1 = landAll s w → X = getW s1 w →
        ∀ R : Warp, R = { X with
          exm := b.exm.setWidth 32 &&& ~~~ (X.fltm ||| X.deadm)
          loops := b.loops.filter fun e => b.reel.toNat / 2 ^ 16 / 2 ^ e.1 % 2 = 1
          level := b.retw.toNat / 32 % 4
          pc := b.reth, started := false, word := 0, n := 0, flow := true, ridx := 0 } →
        ∀ V : Warp, V = (if b.retw.toNat / 16 % 2 = 0 then R else { R with
            started := true, word := j, n := hdr.toNat / 2 ^ 22 % 16, ports := BitVec.ofNat 4 (hdr.toNat / 2 ^ 18), code := []
            ridx := if b.ridxAt = b.reth + BitVec.ofNat 64 (4 + 4 * j) then b.ridx else 0 }) →
        ∀ t : State, t = setW s1 w V →
        (X.tile = none → V.exm ≠ 0 → exec .rfe s = .next t) ∧
        (X.tile = none → V.exm = 0 → exec .rfe s = .next (unwind t w)) ∧
        (∀ o, X.tile = some o → V.exm ≠ 0 →
          (o.next < o.k → exec .rfe s = .next { setW t w { V with
              tile := some { o with halt := false, stopped := false, steps := 0, order := t.tileNo, fault := none } } with
            tileNo := t.tileNo + 1 }) ∧
          (o.k ≤ o.next → X.stat = .running →
            exec .rfe s = .next (signal (setW t w { V with tile := none }) w o.tok)))))

/-- A clause header at a legal landing whose words fetch and pass the checks of a clause starts the clause when the
tokens that its wait mask names are joined, the warp stands at no join, and no code swap is to take effect there: with
an empty mask nothing else of the machine changes, and with another the join is performed first, after the host has
given up the lines that the join writes (before that their back-invalidates go and nothing else happens: the model's
reading of R388, log 23); the warp then stands at word 0 of a clause that holds the n words fetched, with the header's
ports. While the join is outstanding nothing changes, and a header at no landing traps with class 8. A clause that the
warp resumes at a word takes its words with no wait mask and goes on at that word, or behind the clause when the word
was its last. (R36, R37, R38, R41, R64, R67, R139, R388) -/
def Obligations.ClauseStart : Prop :=
  ∀ (s : State) (w : Nat) (n p : BitVec 4) (m : BitVec 6) (y x : BitVec 1) (rsv : BitVec 10), Issues s w →
    ∀ W : Warp, W = getW s w → atJoin W = false →
    (landCheck s W W.pc = .landing → exec (.clauseStart n p m y x rsv) s =
      .next (takeTrap s w ⟨8, 0, 0, 0, W.exm, W.pc, W.pc, 0, false⟩ false)) ∧
    ∀ ws : List W32, checkClause s w n.toNat p.toNat (rsv ≠ 0) = .ok ws →
      (resumes W = false → joinReady s w m = false → exec (.clauseStart n p m y x rsv) s = .next s) ∧
      (resumes W = false → joinReady s w m = true → (x = 1 → swapFor s w = none) →
        (∀ l ls, joinLines s w m = l :: ls → exec (.clauseStart n p m y x rsv) s = .next (askLines s (l :: ls))) ∧
        (joinLines s w m = [] → exec (.clauseStart n p m y x rsv) s =
          .next (updW (join s w m) w fun V => { V with
            started := true, word := 0, n := n.toNat, code := ws, codeAt := V.pc, ports := p, flow := true, verdicts := [] }))) ∧
      (resumes W = true → W.word < n.toNat → exec (.clauseStart n p m y x rsv) s =
        .next (setW s w { W with n := n.toNat, code := ws, codeAt := W.pc, ports := p, verdicts := [] })) ∧
      (resumes W = true → n.toNat ≤ W.word → exec (.clauseStart n p m y x rsv) s =
        .next (setW s w { W with
          pc := W.pc + BitVec.ofNat 64 (4 + 4 * n.toNat), started := false, word := 0, n := 0, flow := true, ridx := 0
          verdicts := [] }))

/-- A taken branch goes to its target, the header's address plus four times the offset, when that is a legal landing;
a conditional one is taken when its condition holds over the lanes of EXM (some lane's bit, all, none, or not all),
and otherwise only goes on. A call pushes the address after the clause with the reel's depth, and faults at depth 16;
a return pops the newest entry and goes there, and faults on an empty stack or when the reel's depth differs from the
entry's. The transfer clears the loops that its target leaves, puts the warp before the target's clause and changes
nothing else. (R48, R49, R64, R65, R66, R189, R190, R196) -/
def Obligations.BranchesCallsReturns : Prop :=
  ∀ (s : State) (w : Nat) (o : BitVec 19), Issues s w → ∀ (W : Warp) (a : W64), W = getW s w →
    a = W.pc + (o.signExtend 64 <<< 2) → landCheck s W a = .ok →
    exec (.br o) s = .next (jumpTo s w a) ∧
    (∀ (c : BitVec 4) (p : BitVec 3) (holds : Bool),
      (c, holds) ∈ [((1 : BitVec 4), decide (W.exm &&& pGet W p.toNat ≠ 0)), (2, decide (W.exm &&& ~~~ pGet W p.toNat = 0)),
        (3, decide (W.exm &&& pGet W p.toNat = 0)), (4, decide (W.exm &&& ~~~ pGet W p.toNat ≠ 0))] →
      exec (.bc c p o) s = .next (if holds then jumpTo s w a else advance s w 1)) ∧
    (W.calls.length < 16 → exec (.call o) s = .next (settle (setW s w { W with
      calls := ⟨W.pc + BitVec.ofNat 64 (4 + 4 * W.n), W.reel.length⟩ :: W.calls, pc := a, started := false, word := 0,
      n := 0, flow := false, ridx := 0 }) w)) ∧
    (16 ≤ W.calls.length → Faults s w (.call o) 6 1) ∧
    (W.calls = [] → Faults s w .ret 6 2) ∧
    (∀ c r, W.calls = c :: r → c.reelsp ≠ W.reel.length → Faults s w .ret 6 3) ∧
    (∀ c r, W.calls = c :: r → c.reelsp = W.reel.length → landCheck s W c.ret = .ok →
      exec .ret s = .next (jumpTo (setW s w { W with calls := r }) w c.ret)) ∧
    jumpTo s w a = settle (setW s w { W with
      loops := W.loops.filter fun e => decide (e.2.start ≤ a ∧ a < loopEnd e.2)
      pc := a, started := false, word := 0, n := 0, flow := false, ridx := 0 }) w

/-- With T the lanes of EXM whose predicate bit is set (clear, for the negated form) and F the others: `pif` with a
full reel raises the reel fault of cause 1; where T is empty, or all demoted while F is not, it pushes an ELSE entry
that holds T and branches with F; else it pushes an IF entry that holds F and goes on with T. `pelse` on an IF entry
exchanges the entry's lanes and EXM and resumes the entry's place, or where those lanes are empty or all demoted keeps
EXM and branches. `pend` on an IF or ELSE entry joins its lanes to EXM and pops it. An empty reel and an entry of
another kind raise the causes 2 and 3. (R166, R167, R163, R191, R353) -/
def Obligations.ReelInstructions : Prop :=
  ∀ (s : State) (w : Nat) (o : BitVec 19), Issues s w → ∀ (W : Warp) (l : W64), W = getW s w →
    l = W.pc + (o.signExtend 64 <<< 2) →
    (∀ (p : BitVec 3) (i : Instr) (T F : W32),
      (i = .pif p o ∧ T = W.exm &&& pGet W p.toNat ∧ F = W.exm &&& ~~~ pGet W p.toNat ∨
       i = .pifNot p o ∧ T = W.exm &&& ~~~ pGet W p.toNat ∧ F = W.exm &&& pGet W p.toNat) →
      (32 ≤ W.reel.length → Faults s w i 5 1) ∧
      (W.reel.length < 32 →
        ((T = 0 ∨ T &&& ~~~ W.demm = 0 ∧ F &&& ~~~ W.demm ≠ 0) → landCheck s W l = .ok →
          exec i s = .next (jumpTo (setW s w { W with reel := ⟨.elseK, T, l, []⟩ :: W.reel, exm := F }) w l)) ∧
        (¬ (T = 0 ∨ T &&& ~~~ W.demm = 0 ∧ F &&& ~~~ W.demm ≠ 0) →
          GoesOn s w i 1 { W with reel := ⟨.ifK, F, l, []⟩ :: W.reel, exm := T }))) ∧
    (W.reel = [] → Faults s w (.pelse o) 5 2 ∧ Faults s w .pend 5 2) ∧
    (∀ e r, W.reel = e :: r →
      (e.kind ≠ .ifK → Faults s w (.pelse o) 5 3) ∧
      (e.kind = .ifK →
        ((e.mask = 0 ∨ e.mask &&& ~~~ W.demm = 0 ∧ W.exm &&& ~~~ W.demm ≠ 0) → landCheck s W l = .ok →
          exec (.pelse o) s = .next (jumpTo (setW s w { W with reel := ⟨.elseK, e.mask, l, []⟩ :: r }) w l)) ∧
        (¬ (e.mask = 0 ∨ e.mask &&& ~~~ W.demm = 0 ∧ W.exm &&& ~~~ W.demm ≠ 0) → landCheck s W e.resume = .ok →
          exec (.pelse o) s =
            .next (jumpTo (setW s w { W with reel := ⟨.elseK, W.exm, l, []⟩ :: r, exm := e.mask }) w e.resume))) ∧
      ((e.kind = .ifK ∨ e.kind = .elseK) → GoesOn s w .pend 1 { W with exm := W.exm ||| e.mask, reel := r }) ∧
      ((e.kind = .jxtK ∨ e.kind = .joinK) → Faults s w .pend 5 3))

/-- `loop` with an existing counter, an allocated register and a body of 1 to 256 words starts: its counter takes the
register and the loop becomes the innermost active one; with a count of zero it goes to the loop's end instead.
Starting an active loop and one that ends past an active loop's end raise the loop fault of causes 1 and 2. At the end
of the innermost active body the counter drops by one and, unless it is then zero, the warp goes back to the body's
start (at once to the word, when the clause whose words it holds has the start), else the loop ends. `lbrk` ends the
innermost loop and goes to its end. A reel of another depth than the loop's raises cause 3, and `lbrk` with no loop
cause 4. (R73, R195, R196, R197, R353) -/
def Obligations.CountedLoops : Prop :=
  ∀ (s : State) (w : Nat), w < s.warps.length → ∀ W : Warp, W = getW s w →
    (∀ (l : BitVec 2) (k : BitVec 5) (o : BitVec 19) (body : Int) (stop : W64) (v : W64), Issues s w → l ≠ 3 →
      ScalarsOk W [k.setWidth 6] → body = 4 * o.toInt - (8 + 4 * (W.word : Int)) → 0 < body → body ≤ 1024 →
      stop = W.pc + (o.signExtend 64 <<< 2) → v = sGet W (k.setWidth 6) →
      ((tabFind W.loops l.toNat).isSome = true → Faults s w (.loop l k o) 7 1) ∧
      ((tabFind W.loops l.toNat).isSome = false →
        ((W.loops.any fun e => loopEnd e.2 < stop) = true → Faults s w (.loop l k o) 7 2) ∧
        ((W.loops.any fun e => loopEnd e.2 < stop) = false →
          (v = 0 → landCheck s W stop = .ok → exec (.loop l k o) s = .next (jumpTo s w stop)) ∧
          (v ≠ 0 → GoesOn s w (.loop l k o) 1 { lcSet W l.toNat v with
            loops := tabPut W.loops l.toNat ⟨W.pc + BitVec.ofNat 64 (8 + 4 * W.word), (body / 4).toNat,
              W.reel.length, W.loops.length⟩ })))) ∧
    (Issues s w → W.loops = [] → Faults s w .lbrk 7 4) ∧
    (Issues s w → ∀ n r, innermost W (fun _ => true) = some (n, r) →
      (r.reelsp ≠ W.reel.length → Faults s w .lbrk 7 3) ∧
      (r.reelsp = W.reel.length → landCheck s W (loopEnd r) = .ok →
        exec .lbrk s = .next (jumpTo (setW s w { W with loops := tabErase W.loops n }) w (loopEnd r)))) ∧
    (∀ n r, W.flow = true → innermost W (fun q => loopEnd q = nextAddr W) = some (n, r) →
      (r.reelsp ≠ W.reel.length → exec (.loopBackEdge w) s = .next (faultAt s w 7 3 0 0 (loopEnd r))) ∧
      (r.reelsp = W.reel.length →
      (lcGet W n - 1 ≠ 0 → exec (.loopBackEdge w) s = .next (backTo s w (lcSet W n (lcGet W n - 1)) r.start) ∧
        ∀ i : Nat, r.start = W.codeAt + BitVec.ofNat 64 (4 + 4 * i) → i < W.code.length → i < 15 →
          backTo s w (lcSet W n (lcGet W n - 1)) r.start = setW s w { lcSet W n (lcGet W n - 1) with
            pc := W.codeAt, word := i, n := W.code.length, started := true, flow := false, ridx := 0 }) ∧
      (lcGet W n - 1 = 0 → ∀ U : Warp, U = { lcSet W n 0 with loops := tabErase W.loops n } →
        exec (.loopBackEdge w) s = .next (if atLoopEnd U then setW s w U else settle (setW s w U) w))))

/-- A warp that executes `bar n` or `barv n, sb` with n at most 15 and no tile operation whose fetches it must order
moves past the instruction and arrives in barrier n of its group. The first arrival of a phase fixes how many it
takes: for `bar` the group's warps that have not retired, for `barv` the register's value, or all of them when it is
zero or more than there are. An arrival that does not complete the count leaves the warp waiting, the barrier with one
arrival more, and nothing else changed; the arrival that completes the count closes the phase, and each warp that
waits in it runs on. A tile operation's fetches come first: until then nothing changes. A number above 15 raises
reason 0x1E. (R174, R175, R198, R273, R349, R358) -/
def Obligations.Barriers : Prop :=
  ∀ (s : State) (w : Nat) (n b : BitVec 6), Issues s w → ScalarsOk (getW s w) [b] → ∀ W : Warp, W = getW s w →
    (15 < n.toNat → Illegal s w (.bar n) 0x1E ∧ Illegal s w (.barv n b) 0x1E) ∧
    (n.toNat ≤ 15 → tileBusy W = true → exec (.bar n) s = .next s ∧ exec (.barv n b) s = .next s) ∧
    (n.toNat ≤ 15 → tileBusy W = false → ∀ (U : Warp) (live want : Nat) (i : Instr),
      U = { advanceW W 1 with barH := W.pc, barJ := W.word + 1 } → live = groupLive (setW s w U) W.group →
      (i = .bar n ∧ want = live ∨ i = .barv n b ∧
        want = if sGet W b = 0 ∨ live < (sGet W b).toNat then live else (sGet W b).toNat) →
      ∀ (c d : Bar) (t : State), c = barOf (getG s W.group) n.toNat →
      d = (if c.opn then { c with arrivals := c.arrivals + 1 } else ⟨1, want, decide (i = .bar n), true⟩) →
      t = updG (setW s w { U with stat := .waitBar n.toNat }) W.group (fun G =>
        { G with bars := tabSet Bar.blank G.bars n.toNat d }) →
      (d.arrivals < d.expected → exec i s = .next t) ∧
      (d.expected ≤ d.arrivals → exec i s = .next (completePhase t W.group n.toNat (some w)) ∧
        (W.group < s.groups.length → ∃ t, exec i s = .next t ∧ barOf (getG t W.group) n.toNat = Bar.blank ∧
          ∀ v ∈ (getG s W.group).warps, (v = w ∨ (getW s v).stat = .waitBar n.toNat) → v < s.warps.length →
            w ∈ (getG s W.group).warps → (getW t v).stat = .running)))

/-- In a handler `exit` retires the warp. At level 0 it retires the lanes of EXM, which leave EXM and every entry of
the reel, and the reel unwinds; with a launch that checks exits and a reel that is not empty it raises the reel fault
of cause 4 instead. `demote` adds the lanes of EXM to the demoted ones and changes nothing else; `nop` and `yield`
change nothing, and the warp goes on. (R40, R163, R169, R172, R173, R199, R355, R353) -/
def Obligations.ExitDemoteAndHints : Prop :=
  ∀ (s : State) (w : Nat), Issues s w → ∀ W : Warp, W = getW s w →
    (W.level ≠ 0 → exec .exit s = .next (retireWarp s w)) ∧
    (W.level = 0 → pkCexit (warpPkt s W) = true → W.reel ≠ [] → Faults s w .exit 5 4) ∧
    (W.level = 0 → (pkCexit (warpPkt s W) = false ∨ W.reel = []) → W.pend = [] →
      exec .exit s = .next (unwind (setW s w { W with
        exm := 0, reel := W.reel.map fun e => { e with mask := e.mask &&& ~~~ W.exm } }) w)) ∧
    GoesOn s w .demote 1 { W with demm := W.demm ||| W.exm } ∧ GoesOn s w .nop 1 W ∧ GoesOn s w .yield 1 W

/-- The word 0x3C00_000E with c in its sa field decodes to `deck c`, so 0x3C00_C00E is `deck 3`. With c from 1 to 5 it
sets DECK to c for the whole warp, whatever EXM holds, changes nothing else, and the warp goes on to the next
instruction, which finds that value; `wrsys` of DECK's state number with c in its register does the same. A code of 0
or above 5 raises reason 0x1E and sets nothing. (R201) -/
def Obligations.DeckSetsTheTileWidth : Prop :=
  decodeInClause [0x3C00C00E] = .ok (.deck 3, 1) ∧
  (∀ c : BitVec 6, decodeInClause [0x0F#6 ++ 0#6 ++ c ++ 0#6 ++ 0x0E#8] = .ok (.deck c, 1)) ∧
  ∀ (s : State) (w : Nat) (c : BitVec 6), Issues s w →
    (1 ≤ c.toNat → c.toNat ≤ 5 → GoesOn s w (.deck c) 1 { getW s w with deck := c.setWidth 3 } ∧
      ∀ a : BitVec 6, ScalarsOk (getW s w) [a] → sGet (getW s w) a = c.setWidth 64 →
        GoesOn s w (.wrsys a 0x001) 1 { getW s w with deck := c.setWidth 3 }) ∧
    (c.toNat = 0 ∨ 5 < c.toNat → Illegal s w (.deck c) 0x1E)

/-- `wait` with an empty mask only goes on. With the join of its tokens ready it performs the join and goes on, or
first asks the host for the lines that the join writes and waits; else the warp waits with its mask, and nothing else
changes. The wait ends with that join once it is ready, and not before. A join is ready when every named token is at
zero, the warp's earlier loads have returned, no tile operation's fetches are to come, and, where fabric commands
armed a named token, the warp's fabric commands have completed and the host has answered every back-invalidate; it
writes the core's L1 back and drops it. Both waits for the host are the model's choice (log 23): R139 and R129 speak
of the tokens and the L1, R388 of the lines. (R39, R129, R139, R199, R388) -/
def Obligations.WaitsForTokens : Prop :=
  ∀ (s : State) (w : Nat) (m : BitVec 6), w < s.warps.length →
    ∀ W : Warp, W = getW s w →
    (Issues s w → GoesOn s w (.wait 0) 1 W) ∧
    (Issues s w → m ≠ 0 → joinReady s w m = true →
      (joinLines s w m = [] →
        exec (.wait m) s = .next (advance (join (setW s w { W with stat := .running }) w m) w 1)) ∧
      ∀ l ls, joinLines s w m = l :: ls → exec (.wait m) s = .next (askLines s (l :: ls))) ∧
    (Issues s w → m ≠ 0 → joinReady s w m = false → exec (.wait m) s = .next (setW s w { W with stat := .waitTok m })) ∧
    (W.stat = .waitTok m → joinReady s w m = true →
      (joinLines s w m = [] →
        exec (.waitEnd w) s = .next (advance (join (setW s w { W with stat := .running }) w m) w 1)) ∧
      ∀ l ls, joinLines s w m = l :: ls → exec (.waitEnd w) s = .next (askLines s (l :: ls))) ∧
    (W.stat = .waitTok m → joinReady s w m = false → exec (.waitEnd w) s = .next s) ∧
    (m ≠ 0 → (joinReady s w m = true ↔ tokensReady W m = true ∧ W.pend = [] ∧ tileBusy W = false ∧
      (m &&& W.evSys ≠ 0 → s.backInv = [] ∧ ∀ c ∈ s.cmds, c.warp = w → isFabric c.kind = false))) ∧
    (m ≠ 0 → ∀ t : State, join t w m = updW (l1Fence t (getW t w).core) w fun V => { V with evSys := V.evSys &&& ~~~ m })

/-- `jxt` with room in the reel, a legal join address and, for every lane of EXM, an index below the table's size and
an entry that can be read and that names a legal landing, pushes a JOIN entry that holds EXM and a JXT entry with
every lane's target on top, serves the lane group with the least target among those not all demoted first, and goes to
that group's target, or, when that is the join address itself, takes the group as arrived; nothing is written but the
warp, and caches that the reads filled. With 31 entries or more in the reel it raises the reel fault of cause 1.
(R166, R170, R192, R193, R194) -/
def Obligations.DivergentJump : Prop :=
  ∀ (s : State) (w : Nat) (t n j : BitVec 6) (i : BitVec 8), Issues s w → VectorsOk (getW s w) [i.toNat] →
    ScalarsOk (getW s w) [t, n, j] → ∀ (W : Warp) (J : W64), W = getW s w → J = W.entry + sGet W j →
    (31 ≤ W.reel.length → Faults s w (.jxt t n j i) 5 1) ∧
    (W.reel.length < 31 → landCheck s W J = .ok → W.exm ≠ 0 → (getL s W.launch).parked < 2 ^ 32 → ∀ off : Nat → W32,
      (∀ l ∈ lanesOf W.exm, jxtLane s W (sGet W t) (sGet W n) (vGet W i.toNat l) = .ok (off l)) →
      ∃ u : State, u = { s with l1 := u.l1, l2 := u.l2 } ∧
        exec (.jxt t n j i) s = .next (jxtServe u w J ((lanesOf W.exm).map fun l => (l, off l))) ∧
        ∀ (e : ReelEntry) (g : W32) (a : W64),
          e = ⟨.jxtK, maskOf (lanesOf W.exm), J, (lanesOf W.exm).map fun l => (l, off l)⟩ →
          nextGroup W e = some (g, a) → ∀ t : State, t = setW u w { W with
              exm := g, reel := { e with mask := e.mask &&& ~~~ g } :: ⟨.joinK, W.exm, J, []⟩ :: W.reel
              loops := W.loops.filter fun x => decide (x.2.start ≤ a ∧ a < loopEnd x.2)
              pc := a, started := false, word := 0, n := 0, flow := false, ridx := 0 } →
            jxtServe u w J e.targets = settle t w ∧ (a ≠ J → settle t w = t))

/-- Where the registers are allocated, free and no stream's, each integer form with three registers writes its result
in the lanes of EXM of the destination, leaves every other lane and register, every flag and everything else as it
was, and the warp goes on past the word and its type prefix. The results are the 32-bit sum, difference, product, high
half of the product (signed, or unsigned with the type ui32), product added to the old destination, bitwise functions,
shifts by the whole source lane (32 or more shifts everything out), and minimum and maximum by the type. A register
beyond the warp's vector count raises an illegal instruction of reason 0x15, and otherwise a claimed register the
held-register fault, named by the least of them. (R54, R77, R84, R162, R204, R205, R206, R263) -/
def Obligations.VectorIntegerOperations : Prop :=
  ∀ (s : State) (w : Nat) (d a b : BitVec 8) (t : Option TyPfx),
    (VectorReady s w [d.toNat, a.toNat, b.toNat] [] →
      ∀ (x y z : Nat → W32) (u : Bool), x = (fun l => vGet (getW s w) a.toNat l) → y = (fun l => vGet (getW s w) b.toNat l) →
      z = (fun l => vGet (getW s w) d.toNat l) → u = decide (t.map (fun p => p.fa) = some 0x12) →
      ∀ W : Instr → (Nat → W32) → Prop, W = (fun i f => WritesVectorPlain s w i (if t.isSome then 2 else 1) d.toNat f) →
      W (.vadd d a b t) (fun l => x l + y l) ∧
      W (.vsub d a b t) (fun l => x l - y l) ∧
      W (.vmul d a b t) (fun l => x l * y l) ∧
      W (.vmulh d a b t) (fun l => if u then BitVec.ofNat 32 ((x l).toNat * (y l).toNat / 2 ^ 32)
        else BitVec.ofInt 32 ((x l).toInt * (y l).toInt / 2 ^ 32)) ∧
      W (.vmad d a b t) (fun l => x l * y l + z l) ∧
      W (.vand d a b t) (fun l => x l &&& y l) ∧
      W (.vor d a b t) (fun l => x l ||| y l) ∧
      W (.vxor d a b t) (fun l => x l ^^^ y l) ∧
      W (.vshl d a b t) (fun l => x l <<< (y l).toNat) ∧
      W (.vshr d a b t) (fun l => x l >>> (y l).toNat) ∧
      W (.vsra d a b t) (fun l => (x l).sshiftRight (y l).toNat) ∧
      W (.vmin d a b t) (fun l => if (if u then (y l).ult (x l) else (y l).slt (x l)) then y l else x l) ∧
      W (.vmax d a b t) (fun l => if (if u then (x l).ult (y l) else (x l).slt (y l)) then y l else x l)) ∧
    (Issues s w → ∀ i ∈ [Instr.vadd d a b t, .vsub d a b t, .vmul d a b t, .vmulh d a b t, .vmad d a b t, .vand d a b t,
        .vor d a b t, .vxor d a b t, .vshl d a b t, .vshr d a b t, .vsra d a b t, .vmin d a b t, .vmax d a b t],
        ((∃ r ∈ [d.toNat, a.toNat, b.toNat], (getW s w).nv ≤ r) → Illegal s w i 0x15) ∧
        ((∀ r ∈ [d.toNat, a.toNat, b.toNat], r < (getW s w).nv) → ∀ r,
          ([d.toNat, a.toNat, b.toNat].filter fun q => claimed (getW s w) q).min? = some r →
          exec i s = .next (faultAt s w 4 1 r 0 0)))

/-- Where the registers are allocated, free and no stream's, each of these forms writes its result in the lanes of EXM
and changes nothing else: the copy, complement, absolute value and negation (which wrap), leading zeros, set bits, the
lane's number, the low half of a scalar register, the sum, product and bitwise product with an immediate, the
immediate itself, and the shifts by a 5-bit count. An immediate is extended from its 10 bits, sign-extended but for
the bitwise form, or is the 32-bit value that the prefix makes. (R51, R56, R204, R207, R208) -/
def Obligations.VectorMovesAndImmediates : Prop :=
  ∀ (s : State) (w : Nat) (d a : BitVec 8) (i : BitVec 10) (n : BitVec 5) (k : BitVec 6) (h : BitVec 23) (t : Option TyPfx),
    VectorReady s w [d.toNat, a.toNat] [k] →
    ∀ (x : Nat → W32) (len : Nat), x = (fun l => vGet (getW s w) a.toNat l) → len = (if t.isSome then 2 else 1) →
    ∀ W : Instr → (Nat → W32) → Prop, W = (fun i f => WritesVectorPlain s w i len d.toNat f) →
    ∀ V : Instr → (Nat → W32) → Prop, V = (fun i f => WritesVectorPlain s w i (len + 1) d.toNat f) →
    W (.vmov d a t) x ∧
    W (.vnot d a t) (fun l => ~~~ (x l)) ∧
    W (.vabs d a t) (fun l => if (x l).msb then - (x l) else x l) ∧
    W (.vneg d a t) (fun l => - (x l)) ∧
    W (.vclz d a t) (fun l => BitVec.ofNat 32 (if x l = 0 then 32 else 31 - Nat.log2 (x l).toNat)) ∧
    W (.vpopc d a t) (fun l => BitVec.ofNat 32 ((List.range 32).filter fun j => (x l).getLsbD j).length) ∧
    W (.vlane d t) (fun l => BitVec.ofNat 32 l) ∧
    W (.vbcast d k t) (fun _ => (sGet (getW s w) k).setWidth 32) ∧
    W (.vaddImm d a i none t) (fun l => x l + i.signExtend 32) ∧
    V (.vaddImm d a i (some h) t) (fun l => x l + (h ++ i).setWidth 32) ∧
    W (.vmulImm d a i none t) (fun l => x l * i.signExtend 32) ∧
    V (.vmulImm d a i (some h) t) (fun l => x l * (h ++ i).setWidth 32) ∧
    W (.vandImm d a i none t) (fun l => x l &&& i.setWidth 32) ∧
    V (.vandImm d a i (some h) t) (fun l => x l &&& (h ++ i).setWidth 32) ∧
    W (.vli d i none t) (fun _ => i.signExtend 32) ∧
    V (.vli d i (some h) t) (fun _ => (h ++ i).setWidth 32) ∧
    W (.vshlImm d a n t) (fun l => x l <<< n.toNat) ∧
    W (.vshrImm d a n t) (fun l => x l >>> n.toNat) ∧
    W (.vsraImm d a n t) (fun l => (x l).sshiftRight n.toNat)

/-- Where the registers are allocated, free and no stream's, an integer compare writes the predicate's bit in each
lane of EXM by its condition (equal, not equal, less, at most, greater, at least, signed or, with the type ui32,
unsigned), and a float compare by its own (the same, false when a lane is NaN but for not-equal, then ordered and
unordered); lanes outside EXM and the other predicates keep their bits. A selection writes the first source where the
predicate's bit is set and the second elsewhere. (R77, R162, R204, R209, R210) -/
def Obligations.ComparesAndSelections : Prop :=
  ∀ (s : State) (w : Nat) (d a b : BitVec 8) (c : BitVec 4) (p : BitVec 3) (q : BitVec 2) (t : Option TyPfx),
    VectorReady s w [d.toNat, a.toNat, b.toNat] [] →
    ∀ (x y : Nat → W32) (len : Nat), x = (fun l => vGet (getW s w) a.toNat l) → y = (fun l => vGet (getW s w) b.toNat l) →
    len = (if t.isSome then 2 else 1) →
    (∀ f : W32 → W32 → Bool,
      (t.map (fun k => k.fa) = some 0x12 ∧ ((c = 2 ∧ f = fun m n => m.ult n) ∨ (c = 3 ∧ f = fun m n => m.ule n) ∨
        (c = 4 ∧ f = fun m n => n.ult m) ∨ (c = 5 ∧ f = fun m n => n.ule m))) ∨
      (t.map (fun k => k.fa) ≠ some 0x12 ∧ ((c = 2 ∧ f = fun m n => m.slt n) ∨ (c = 3 ∧ f = fun m n => m.sle n) ∨
        (c = 4 ∧ f = fun m n => n.slt m) ∨ (c = 5 ∧ f = fun m n => n.sle m))) ∨
      (c = 0 ∧ f = fun m n => decide (m = n)) ∨ (c = 1 ∧ f = fun m n => decide (m ≠ n)) →
      WritesPredicate s w (.vcmp c p a b t) len p.toNat (fun l => f (x l) (y l))) ∧
    (∀ f : FVal → FVal → Bool,
      (c, f) ∈ [((0 : BitVec 4), fun m n => fEq m n), (1, fun m n => !fEq m n), (2, fun m n => fLt m n),
        (3, fun m n => fLt m n || fEq m n), (4, fun m n => fLt n m), (5, fun m n => fLt n m || fEq m n),
        (6, fun m n => decide (m ≠ .nan ∧ n ≠ .nan)), (7, fun m n => decide (m = .nan ∨ n = .nan))] →
      WritesPredicate s w (.fcmp c p a b t) len p.toNat (fun l => f (dec32 (x l)) (dec32 (y l)))) ∧
    WritesVectorPlain s w (.vselP0P3 d a b q t) len d.toNat (fun l =>
      if (pGet (getW s w) q.toNat).getLsbD l then x l else y l) ∧
    WritesVectorPlain s w (.vselP4P7 d a b q t) len d.toNat (fun l =>
      if (pGet (getW s w) (q.toNat + 4)).getLsbD l then x l else y l)

/-- Where the registers are allocated, free and no stream's, each FP32 form writes its result in the lanes of EXM and
ORs the flags of those lanes into FPST, and changes nothing else: the sum, difference, product and fused product as
one rounding of the exact value with its flags, the minimum and maximum, the sign forms, the rounding to an integer,
the class and the six special functions. The flagless forms leave FPST as it was. (R91, R103, R104, R105, R106, R107,
R211, R212, R213, R214, R215, R217) -/
def Obligations.FloatOperations : Prop :=
  ∀ (s : State) (w : Nat) (d a b : BitVec 8) (r : BitVec 2) (t : Option TyPfx),
    VectorReady s w [d.toNat, a.toNat, b.toNat] [] →
    ∀ (x y z : Nat → W32) (len : Nat), x = (fun l => vGet (getW s w) a.toNat l) →
    y = (fun l => vGet (getW s w) b.toNat l) → z = (fun l => vGet (getW s w) d.toNat l) →
    len = (if t.isSome then 2 else 1) →
    WritesVector s w (.fadd d a b t) len d.toNat (fun l => fin32 (fAdd .rne (dec32 (x l)) (dec32 (y l)))) ∧
    WritesVector s w (.fsub d a b t) len d.toNat (fun l => fin32 (fAdd .rne (dec32 (x l)) (dec32 (y l)).neg)) ∧
    WritesVector s w (.fmul d a b t) len d.toNat (fun l => fin32 (fMul (dec32 (x l)) (dec32 (y l)))) ∧
    WritesVector s w (.ffma d a b t) len d.toNat (fun l => fin32 (fFma .rne (dec32 (x l)) (dec32 (y l)) (dec32 (z l)))) ∧
    WritesVectorPlain s w (.fmin d a b t) len d.toNat (fun l => fmin32 (x l) (y l)) ∧
    WritesVectorPlain s w (.fmax d a b t) len d.toNat (fun l => fmax32 (x l) (y l)) ∧
    WritesVectorPlain s w (.fcpsgn d a b t) len d.toNat (fun l =>
      if isNan32 (x l) then 0x7FC00000 else (y l).extractLsb' 31 1 ++ (x l).extractLsb' 0 31) ∧
    WritesVectorPlain s w (.fabs d a t) len d.toNat (fun l =>
      if isNan32 (x l) then 0x7FC00000 else 0#1 ++ (x l).extractLsb' 0 31) ∧
    WritesVectorPlain s w (.fneg d a t) len d.toNat (fun l =>
      if isNan32 (x l) then 0x7FC00000 else x l ^^^ 0x80000000) ∧
    WritesVectorPlain s w (.frnd d a r t) len d.toNat (fun l => frnd32 (rndOf r) (x l)) ∧
    WritesVectorPlain s w (.fclass d a t) len d.toNat (fun l => fclass32 (x l)) ∧
    WritesVector s w (.ex2 d a t) len d.toNat (fun l => fEx2 (x l)) ∧
    WritesVector s w (.lg2 d a t) len d.toNat (fun l => fLg2 (x l)) ∧
    WritesVector s w (.rcp d a t) len d.toNat (fun l => fRcp (x l)) ∧
    WritesVector s w (.rsq d a t) len d.toNat (fun l => fRsq (x l)) ∧
    WritesVector s w (.sin d a t) len d.toNat (fun l => fSin (x l)) ∧
    WritesVector s w (.cos d a t) len d.toNat (fun l => fCos (x l))

/-- Where the registers are allocated, free and no stream's, a packed form acts on the two BF16 elements of each lane
of EXM separately and ORs the flags of both; a conversion writes each lane's value converted between the formats of
its type prefix with its rounding and ORs the flags. Nothing else changes. A conversion without a type prefix raises
reason 0x1C. (R216, R218, R102, R204, R84) -/
def Obligations.PackedAndConversions : Prop :=
  ∀ (s : State) (w : Nat) (d a b : BitVec 8) (r : BitVec 2) (t : Option TyPfx),
    VectorReady s w [d.toNat, a.toNat, b.toNat] [] →
    ∀ (x y z : Nat → W32) (len : Nat), x = (fun l => vGet (getW s w) a.toNat l) →
    y = (fun l => vGet (getW s w) b.toNat l) → z = (fun l => vGet (getW s w) d.toNat l) →
    len = (if t.isSome then 2 else 1) →
    ∀ P : (Nat → Nat → BitVec 16 × Flags) → Nat → W32 × Flags,
      P = (fun f l => ((f l 16).1 ++ (f l 0).1, (f l 0).2 ||| (f l 16).2)) →
    ∀ e : W32 → Nat → BitVec 16, e = (fun v k => v.extractLsb' k 16) →
    WritesVector s w (.hadd d a b t) len d.toNat
      (P fun l k => finB16 (fAdd .rne (decB16 (e (x l) k)) (decB16 (e (y l) k)))) ∧
    WritesVector s w (.hmul d a b t) len d.toNat
      (P fun l k => finB16 (fMul (decB16 (e (x l) k)) (decB16 (e (y l) k)))) ∧
    WritesVector s w (.hfma d a b t) len d.toNat
      (P fun l k => finB16 (fFma .rne (decB16 (e (x l) k)) (decB16 (e (y l) k)) (decB16 (e (z l) k)))) ∧
    WritesVector s w (.hmin d a b t) len d.toNat
      (P fun l k => (fminmax decB16 0x7FC0 false (e (x l) k) (e (y l) k), 0)) ∧
    WritesVector s w (.hmax d a b t) len d.toNat
      (P fun l k => (fminmax decB16 0x7FC0 true (e (x l) k) (e (y l) k), 0)) ∧
    (∀ (m : Rnd) (f : W32 → W32 × Flags) (p : TyPfx),
      (r, m) ∈ [((0 : BitVec 2), Rnd.rne), (1, .rz), (2, .rd), (3, .ru)] →
      (p = ⟨0x01, 0x10⟩ ∧ f = (fun v => round32 m (ofInt v.toInt)) ∨
       p = ⟨0x01, 0x12⟩ ∧ f = (fun v => round32 m (.fin false v.toNat 0)) ∨
       p = ⟨0x10, 0x01⟩ ∧ f = (fun v => (BitVec.ofInt 32 (toIntSat m (-2 ^ 31) (2 ^ 31 - 1) (dec32 v)).1,
         (toIntSat m (-2 ^ 31) (2 ^ 31 - 1) (dec32 v)).2)) ∨
       p = ⟨0x12, 0x01⟩ ∧ f = (fun v => (BitVec.ofInt 32 (toIntSat m 0 (2 ^ 32 - 1) (dec32 v)).1,
         (toIntSat m 0 (2 ^ 32 - 1) (dec32 v)).2)) ∨
       p = ⟨0x02, 0x01⟩ ∧ f = (fun v => ((roundB16 m (dec32 v)).1.setWidth 32, (roundB16 m (dec32 v)).2))) →
      WritesVector s w (.cvt d a r (some p)) 2 d.toNat (fun l => f (x l))) ∧
    WritesVectorPlain s w (.cvt d a 0 (some ⟨0x01, 0x02⟩)) 2 d.toNat (fun l => (x l).extractLsb' 0 16 ++ 0#16 |>
      fun v => if isNan32 v then 0x7FC00000 else v) ∧
    Illegal s w (.cvt d a r none) 0x1C

/-- Whatever the operands, a sum, difference, product, fused product, minimum, maximum, rounding (in every mode) or
special function (power and logarithm of two, reciprocal, its root, sine, cosine) that is a NaN is the word 0x7FC00000
without payload or sign; and every invalid sum and product is that NaN and sets NV: the sum of two infinities of
different signs in either order, the difference of two of one sign, the product of an infinity and a zero of any signs
in either order, in a fused product whatever its addend, and the fused product of an infinity and a number other than
zero, in either order, plus the infinity of the other sign. (R91, R103, R104, R105, R211, R212) -/
def Obligations.NanResultsAreCanonical : Prop :=
  (∀ (x y z r : W32) (m : Rnd), r ∈ [(add32 x y).1, (sub32 x y).1, (mul32 x y).1, (fma32 x y z).1, fmin32 x y, fmax32 x y,
    frnd32 m x, (fEx2 x).1, (fLg2 x).1, (fRcp x).1, (fRsq x).1, (fSin x).1, (fCos x).1] → isNan32 r = true → r = 0x7FC00000) ∧
  ∀ (inf zero : Bool → W32) (bad : W32 × Flags), inf = (fun s => if s then 0xFF800000 else 0x7F800000) →
    zero = (fun s => if s then 0x80000000 else 0) → bad = (0x7FC00000, fNV) →
    (∀ s t : Bool, (s ≠ t → add32 (inf s) (inf t) = bad) ∧ (s = t → sub32 (inf s) (inf t) = bad) ∧
      mul32 (inf s) (zero t) = bad ∧ mul32 (zero s) (inf t) = bad ∧
      ∀ z, fma32 (inf s) (zero t) z = bad ∧ fma32 (zero s) (inf t) z = bad) ∧
    ∀ (s t : Bool) (y : W32), (y = inf t ∨ ∃ m e, m ≠ 0 ∧ dec32 y = .fin t m e) →
      fma32 (inf s) y (inf (s == t)) = bad ∧ fma32 y (inf s) (inf (s == t)) = bad

/-- Where the registers are allocated, free and no stream's, and DECK holds one of its codes: a shuffle gives each
lane of EXM the value of its source lane, which lies in its own tile of 2^DECK lanes (its own value where the source
falls outside, zero where that lane is not in EXM); votes give each lane's tile whether some, or every, contributing
lane has the bit, and a ballot the bits themselves; a reduction gives every lane of EXM its tile's result and a scan
the tile's running result at the lane, and em is set when some tile has no contributing lane. No other register
changes. (R109, R110, R162, R165, R219, R220, R221, R222) -/
def Obligations.CrossLaneOperations : Prop :=
  ∀ (s : State) (w : Nat) (d a b : BitVec 8) (m : BitVec 2) (c : BitVec 1) (p q : BitVec 3) (o : BitVec 8) (t : Option TyPfx),
    VectorReady s w [d.toNat, a.toNat, b.toNat] [] →
    ∀ (W : Warp) (len T : Nat) (base : Nat → Nat), W = getW s w → len = (if t.isSome then 2 else 1) →
    1 ≤ W.deck.toNat → W.deck.toNat ≤ 5 → T = 2 ^ W.deck.toNat → base = (fun l => l / T * T) →
    ∀ src : Nat → Option Nat, (src = fun l =>
        let v := (vGet W b.toNat l).toNat
        if m = 0 then some (base l + v % T)
        else if m = 1 then (if l % T < v then none else some (l - v))
        else if m = 2 then (if T ≤ l % T + v then none else some (l + v))
        else some (base l + (l % T ^^^ v % T))) →
    WritesVectorPlain s w (.shfl d a b m t) len d.toNat (fun l => match src l with
      | none => vGet W a.toNat l
      | some k => if W.exm.getLsbD k then vGet W a.toNat k else 0) ∧
    (∀ bit : Nat → Bool, (bit = fun k => (pGet W q.toNat).getLsbD k != decide (c = 1)) →
      WritesPredicate s w (.voteAny p c q t) len p.toNat (fun l =>
        (List.range T).any fun k => W.exm.getLsbD (base l + k) && bit (base l + k)) ∧
      WritesPredicate s w (.voteAll p c q t) len p.toNat (fun l =>
        (List.range T).all fun k => !W.exm.getLsbD (base l + k) || bit (base l + k)) ∧
      ∃ v : Nat → W32, (∀ l < 32, ∀ k < 32, (v l).getLsbD k = (decide (base k = base l) && W.exm.getLsbD k && bit k)) ∧
        WritesVectorPlain s w (.voteBallot d c q t) len d.toNat v) ∧
    (∃ U V : Warp,
      GoesOn s w (.vred d a o t) len U ∧ U = { W with v := U.v, fpst := U.fpst } ∧
      GoesOn s w (.vscan d a o t) len V ∧ V = { W with v := V.v, fpst := V.fpst } ∧
      (∀ r, ∀ l < 32, vGet U r l = if r = d.toNat ∧ W.exm.getLsbD l = true
        then (redTile W (vGet W) a.toNat o.toNat (redTy t) (base l)).1 else vGet W r l) ∧
      (∀ r, ∀ l < 32, vGet V r l = if r = d.toNat ∧ W.exm.getLsbD l = true
        then ((scanTile W (vGet W) a.toNat o.toNat (redTy t) (base l)).getD (l % T) (0, 0)).1 else vGet W r l) ∧
      U.fpst.getLsbD 5 = (W.fpst.getLsbD 5 || (List.range 32).any fun l =>
        (List.range T).all fun k => !W.exm.getLsbD (base l + k)) ∧
      V.fpst.getLsbD 5 = U.fpst.getLsbD 5)

/-- `wbind` whose register is allocated and free, and whose descriptor's address is canonical, aligned to 32 bytes,
readable and free of errors, binds the web register to the vector register with the descriptor read and its start as
the position; a malformed descriptor raises the web fault of cause 3, and a register that another web register binds
that of cause 2 (3 before 2 is the model's choice, log 70). `wpos` reads the position, all ones when unbound, and
`wclr` unbinds. Nothing else changes but the caches that the read filled. A copy whose source, or whose destination, a
web register binds (and no other binds either register) consumes its stream: at the end of the stream it raises the
web fault of cause 1, and of cause 4 when it would write a ds8 stream (1 before 4 is the model's choice, log 71);
otherwise, where the elements pass their checks and meet no error and, with policy mem, no refresh comes first (R413),
the source reads in each performing lane the element at base + position * vstride + lane * estride, each as the caches
hold it, some of them evicted before, and in every bit as the core's L1, the home L2 or DRAM showed it before,
widened, and in every other lane of EXM the register, while a destination stores the narrowed results of the
performing lanes and the register keeps its value (stated for every policy but mem); the position goes on by one.
(R124, R185, R204, R223, R224, R225, R226, R326, R388, R413) -/
def Obligations.WebRegisters : Prop :=
  ∀ (s : State) (w : Nat) (v : BitVec 8) (a d : BitVec 6) (i : BitVec 2), Issues s w → VectorsOk (getW s w) [v.toNat] →
    ScalarsOk (getW s w) [a, d] → ∀ W : Warp, W = getW s w →
    (∀ pa, canonical (sGet W a) = true → (sGet W a).toNat % 32 = 0 →
      translate s (warpJob s W) (sGet W a) .read W.verdicts = .ok pa → dirtyLines s W.core (pa / 128) = [] →
      NoError s (some W.core) pa 32 → ∀ (u : State) (D : BitVec 256), u = (loadAt s (.l1 W.core) pa 32).1 →
        D = BitVec.ofNat 256 (loadAt s (.l1 W.core) pa 32).2 →
      (webMalformed D = true → exec (.wbind v a i) s = .next (faultAt u w 0x0B 3 0 0 0)) ∧
      (webMalformed D = false → (∃ j < 4, j ≠ i.toNat ∧ (wGet W j).bound = true ∧ (wGet W j).reg = v) →
        exec (.wbind v a i) s = .next (faultAt u w 0x0B 2 0 0 0)) ∧
      (webMalformed D = false → (∀ j < 4, j ≠ i.toNat → (wGet W j).bound = true → (wGet W j).reg ≠ v) →
        exec (.wbind v a i) s = .next (advance (setW u w
          (wSet W i.toNat ⟨D, (webStart D).setWidth 64, v, true⟩)) w 1))) ∧
    WritesScalar s w (.wpos d i) 1 d
      (if (wGet W i.toNat).bound then (wGet W i.toNat).pos else BitVec.allOnes 64) ∧
    GoesOn s w (.wclr i) 1 (wSet W i.toNat WebSlot.blank) ∧
    (∀ (e : BitVec 8) (x : WebSlot) (f : BitVec 5) (n : Nat) (addr : Nat → W64) (pl : Place) (L : List Nat) (X : Warp),
      VectorsOk W [e.toNat] → x = wGet W i.toNat → x.bound = true → x.reg = v → e ≠ v →
      (∀ j < 4, j ≠ i.toNat → (wGet W j).bound = true → (wGet W j).reg ≠ v ∧ (wGet W j).reg ≠ e) →
      f = webFmt x.desc → n = fmtBytes f → L = lanesOf (performing W) →
      addr = (fun k => webBase x.desc + x.pos * webVstride x.desc + BitVec.ofNat 64 k * (webEstride x.desc).signExtend 64) →
      pl = placeOfAttr W.core ⟨0, 0, webPolicy x.desc, 0, 0⟩ false → X = wSet W i.toNat { x with pos := x.pos + 1 } →
      ((webCount x.desc).toNat ≤ x.pos.toNat → Faults s w (.vmov e v none) 0x0B 1 ∧ Faults s w (.vmov v e none) 0x0B 1) ∧
      (x.pos.toNat < (webCount x.desc).toNat →
        (f = 0x07 → Faults s w (.vmov v e none) 0x0B 4) ∧
        (∀ pa : Nat → Nat, (∀ k ∈ L, LaneOk s W (addr k) n .read (pa k) ∧ NoError s (some W.core) (pa k) n) →
          (∀ k ∈ L, RowFree s (webPolicy x.desc).toNat (pa k)) →
          ∀ q, q = readsOf s s W.core pl n (L.map fun k => (k, pa k)) → OnlyCaches s q.1 ∧ q.2.map Prod.fst = L ∧
            (∀ y ∈ q.2, OneOfCopies s W.core (pa y.1) n y.2) ∧
            ∃ U : Warp, exec (.vmov e v none) s = .next (advance (setW q.1 w U) w 1) ∧
              U = { X with v := U.v } ∧ ∀ r, ∀ k < 32, vGet U r k =
                if r = e.toNat ∧ W.exm.getLsbD k = true then
                  (match q.2.find? fun y => decide (y.1 = k) with
                    | some y => (widen f y.2).headD 0
                    | none => vGet W v.toNat k)
                else vGet W r k) ∧
        (f ≠ 0x07 → tileBusy W = false → (∀ c, pl ≠ .mem c) → ∀ pa : Nat → Nat, (∀ k ∈ L, LaneOk s W (addr k) n .write (pa k)) →
          ∃ u : State, exec (.vmov v e none) s = .next (advance u w 1) ∧ OnlyStores s u w ∧
            getW u w = { X with fpst := W.fpst ||| L.foldl (fun g k => g ||| (narrow f [vGet W e.toNat k]).2) 0 } ∧
            (∀ a, (∀ k ∈ L, ¬ Covers (pa k) n a) → byteAt u pl a = byteAt s pl a) ∧
            ∀ a, ∀ k ∈ L, Covers (pa k) n a → (∀ j ∈ L, k < j → ¬ Covers (pa j) n a) →
              byteAt u pl a = (narrow f [vGet W e.toNat k]).1 / 256 ^ (a - pa k) % 256)))

/-- A load whose registers are allocated and free, whose token is not full, and whose performing lanes (active and not
demoted) all pass their checks and meet no error, sends on its way, for each of those lanes and no other, the words of
its run: the little-endian bytes at the lane's address, widened by the format, the nibble that the lane names for a
nibble format. Each lane reads as the access's place shows its bytes before the instruction, or after a cache has
evicted their sector, so that its value depends on no other lane, and every bit is one that the core's L1, the home L2
or DRAM showed before the instruction. (A load of policy mem whose bank owes an urgent refresh waits for it.) Memory
is unchanged: only caches are filled, and a scratchpad load changes nothing. The results carry the token and the
window of the look field, and the warp goes on. (R39, R50, R59, R124, R127, R128, R159, R228, R229, R230, R242, R326)
-/
def Obligations.LoadsDeliver : Prop :=
  ∀ (s : State) (w : Nat) (t o : BitVec 8) (b : BitVec 6) (l : BitVec 4) (x : MPfx),
    ∀ (W : Warp) (f : BitVec 5) (n : Nat) (addr : Nat → W64) (L : List Nat), W = getW s w → f = (attr x.mem).fmt →
    n = fmtBytes f → addr = (fun k => laneAddr W b o (offM x) (nibbleShift f) k) → L = lanesOf (performing W) →
    AccessReady s w (run t.toNat (fmtRegs f) ++ voReg o) [b] x.ev →
    (∀ pa : Nat → Nat, (∀ k ∈ L, LaneOk s W (addr k) n .read (pa k) ∧ NoError s (some W.core) (pa k) n ∧
        RowFree s (attr x.mem).policy.toNat (pa k)) →
      ∀ r, r = readsOf s s W.core (placeOfAttr W.core (attr x.mem) (isStrong (attr x.mem))) n (L.map fun k => (k, pa k)) →
        OnlyCaches s r.1 ∧ r.2.map Prod.fst = L ∧ (∀ y ∈ r.2, OneOfCopies s W.core (pa y.1) n y.2) ∧
        exec (.ld t o b l x) s = .next (advance (pendCells r.1 w (r.2.flatMap fun y =>
          runCells t.toNat y.1 (widen f (laneValue W f o y.1 y.2))) l.toNat x.ev) w (lenM x))) ∧
    (∀ g q : Nat → Nat, (∀ k ∈ L, (addr k).toNat % n = 0 ∧ scrPlace s W (addr k) = some (g k, q k) ∧ scrBad s (g k) (q k) n = none) →
      exec (.lds t o b l x) s = .next (advance (pendCells s w (L.flatMap fun k =>
        runCells t.toNat k (widen f (laneValue W f o k (scrRead s (g k) (q k) n)))) l.toNat x.ev) w (lenM x)))

/-- A load, or a store with no tile operation in its way, with a performing lane that fails its checks, and none that
waits, performs nothing in trap mode: the warp enters its handler with class 0x0A, the kind, cause and address of the
lowest faulting lane, the mask of all faulting lanes, and the instruction itself as restart point. In record mode each
faulting lane sends a record with its kind and address, in the order of lanes, and is parked; where every performing
lane faults nothing else happens, and where the other lanes of a load meet no error they complete it as if alone; the
warp goes on, or unwinds when EXM has become empty. A load or store of an 8-byte format whose performing lanes all
pass the checks of their sketch windows, and read nothing in error, completes: each lane in ascending order makes one
access of its region at the home L2, a load sends the two words of each answer on its way, and no flag of FPST
changes. An insert or a delete of a region changes the cells that the key's hash or bucket names, each once, as its
type says, saturating; it moves n, keeps pop in step, sets its flags, and changes no other byte. A weight of 0 changes
nothing, and a NaN in a quantile summary sets the nan flag alone. A point query answers whether all the key's cells
are nonzero, the least of them, their lower median, the estimate with the number of zero registers, or the count of
the bucket; a rank query the representative of the first bucket, in ascending order of value, at which the running sum
reaches its rank; a status load the flags, the fill and n. A query changes no byte. (R242, R243, R244, R345, R353,
R278, R279, R280, R282, R283, R284, R285) -/
def Obligations.LaneFaults : Prop :=
  (∀ (s : State) (w : Nat) (t o : BitVec 8) (b : BitVec 6) (l : BitVec 4) (x : MPfx) (i : Instr),
     ∀ (W : Warp) (f : BitVec 5) (n : Nat) (addr : Nat → W64) (L B : List Nat) (res : Nat → LaneRes), W = getW s w →
     f = (attr x.mem).fmt → n = fmtBytes f → addr = (fun k => laneAddr W b o (offM x) (nibbleShift f) k) →
     L = lanesOf (performing W) → AccessReady s w (run t.toNat (fmtRegs f) ++ voReg o) [b] x.ev →
     (i = .ld t o b l x ∧ res = (fun k => memHold s ((attr x.mem).policy = 4)
         (checkLane s W (addr k) n .read fun e => skLdSt s W (addr k) false f 0 e)) ∨
      i = .st t o b l x ∧ tileBusy W = false ∧
        res = (fun k => checkLane s W (addr k) n .write fun e => skLdSt s W (addr k) true f (vGet W t.toNat k) e)) →
     (∀ k ∈ L, ∀ y, res k ≠ .wait y) →
     ∀ kind cause : Nat → Nat, (∀ k ∈ B, res k = .bad (kind k) (cause k) none) →
     B = L.filter (fun k => match res k with | .bad _ _ _ => true | _ => false) →
     (∀ k0 R, B = k0 :: R → pkRecord (warpPkt s W) = false → exec i s = .next (takeTrap s w
       ⟨0x0A, cause k0, 0, kind k0, maskOf B, addr k0, W.pc, W.word, W.started⟩ false)) ∧
     (B ≠ [] → pkRecord (warpPkt s W) = true → ∀ P : State,
       P = parkLanes (B.foldl (fun u k => sendRecord u W k (kind k) 0 W.word W.pc (addr k)) s) w (maskOf B) →
       (B = L → exec i s = .next (complete P w (lenM x) W.exm)) ∧
       (i = .ld t o b l x → ∀ (pa : Nat → Nat) (G : List Nat), G = L.filter (fun k => !B.contains k) →
         (∀ k ∈ G, LaneOk s W (addr k) n .read (pa k) ∧ NoError s (some W.core) (pa k) n ∧
           RowFree s (attr x.mem).policy.toNat (pa k)) →
         ∀ r, r = readsOf P P W.core (placeOfAttr W.core (attr x.mem) (isStrong (attr x.mem))) n (G.map fun k => (k, pa k)) →
           exec i s = .next (complete (pendCells r.1 w (r.2.flatMap fun y =>
             runCells t.toNat y.1 (widen f (laneValue W f o y.1 y.2))) l.toNat x.ev) w (lenM x) W.exm)))) ∧
  (∀ (s : State) (w : Nat) (t o : BitVec 8) (b : BitVec 6) (l : BitVec 4) (x : MPfx),
    ∀ (W : Warp) (f : BitVec 5) (addr : Nat → W64) (L : List Nat) (c : Nat → Binding) (rg : Nat → Region), W = getW s w →
    f = (attr x.mem).fmt → fmtBytes f = 8 → addr = (fun k => laneAddr W b o (offM x) (nibbleShift f) k) →
    L = lanesOf (performing W) → AccessReady s w (run t.toNat 2 ++ voReg o) [b] x.ev → rg = (fun k => ⟨c k, some W.core⟩) →
    (∀ k ∈ L, findBinding s (warpJob s W) (BitVec.ofNat 64 ((addr k).toNat / 2 ^ 47 * 2 ^ 47)) = some (c k)) →
    ((∀ k ∈ L, checkLane s W (addr k) 8 .read (fun e => skLdSt s W (addr k) false f 0 e) = .skt ∧
        skPoison s (c k) false (addr k) 0 = none) →
      ∀ Z : State × List (Nat × W32), Z = L.foldl (fun z k => ((skLoad z.1 (rg k) (addr k)).1, z.2 ++
        [(vKey t.toNat k, (skLoad z.1 (rg k) (addr k)).2.setWidth 32),
          (vKey (t.toNat + 1) k, (skLoad z.1 (rg k) (addr k)).2.extractLsb' 32 32)])) (s, []) →
      exec (.ld t o b l x) s = .next (advance (pendCells Z.1 w Z.2 l.toNat x.ev) w (lenM x))) ∧
    (tileBusy W = false → (∀ k ∈ L, checkLane s W (addr k) 8 .write
        (fun e => skLdSt s W (addr k) true f (vGet W t.toNat k) e) = .skt ∧
        skPoison s (c k) true (addr k) (vGet W t.toNat k) = none) →
      exec (.st t o b l x) s = .next (advance
        (L.foldl (fun z k => skStore z (rg k) (addr k) (vGet W t.toNat k)) s) w (lenM x)))) ∧
  (∀ (s : State) (b : Binding) (core : Option Nat) (r : Region) (p : Nat → Nat) (a m x : W64) (data : W32), r = ⟨b, core⟩ →
    1 ≤ b.type → b.type ≤ 6 → (lgRange b.type).1 ≤ b.lgsize → b.lgsize ≤ (lgRange b.type).2 →
    BodyAt s b [] (256 + cellBytes b.type b.lgsize b.depth) p →
    m = (BitVec.ofNat 64 (a.toNat / 8 % 2 ^ 41) ^^^ b.seed) * 0x9E3779B97F4A7C15 → x = m ^^^ (m >>> 32) →
    ∀ (fn key lg cnt low : Nat) (at_ : Nat → Nat) (hits : Nat → List Nat) (val : State → Nat → Nat) (H : State → SkHdr)
      (byte : State → Nat → Nat), fn = a.toNat / 2 ^ 44 % 8 → key = a.toNat / 8 % 2 ^ 41 → lg = b.lgsize →
      cnt = cellCount b.type lg b.depth → low = x.toNat % 2 ^ (64 - lg) →
      at_ = (fun i => (x.toNat % 2 ^ 32 + i * ((x.toNat / 2 ^ 32) ||| 1)) % 2 ^ lg) →
      hits = (fun bucket => if b.type ≤ 2 then (List.range b.depth).map at_
        else if b.type ≤ 4 then (List.range b.depth).map fun i => 2 ^ lg * i + at_ i
        else if b.type = 5 then [x.toNat / 2 ^ (64 - lg)] else [bucket]) →
      byte = (fun u o => byteAt u (.l2 core) (p o)) → val = (fun u i => (cellGet u r (cellAt b.type i)).2) →
      H = (fun u => (hdrGet u r).2) →
      (∀ i < cnt, val s i = if b.type = 1 then byte s (256 + i / 8) / 2 ^ (i % 8) % 2
        else if b.type = 2 then byte s (256 + i / 2) / 16 ^ (i % 2) % 16
        else if b.type = 5 then byte s (256 + i) % 64
        else ((List.range 4).map fun j => 256 ^ j * byte s (256 + 4 * i + j)).sum) ∧
      (H s = ⟨((List.range 8).map fun j => 256 ^ j * byte s j).sum, ((List.range 8).map fun j => 256 ^ j * byte s (8 + j)).sum,
        BitVec.ofNat 8 (byte s 16)⟩) ∧
      (∀ (t : State) (del : Bool), t = skStore s r a data → fn = (if del then 3 else 0) → (del = true → b.type = 2 ∨ b.type = 4) →
        ((b.type = 3 ∨ b.type = 4) → data = 0 → t = s) ∧
        (b.type = 6 → isNan32 data = true → H t = { H s with flags := (H s).flags ||| 32 } ∧
          ∀ o < 256 + cellBytes 6 lg b.depth, o ≠ 16 → byte t o = byte s o) ∧
        (¬ ((b.type = 3 ∨ b.type = 4) ∧ data = 0) → ¬ (b.type = 6 ∧ isNan32 data = true) →
          ∀ (w : Nat) (rho : Nat) (sum : Nat → Int) (h : List Nat) (new : Nat → Nat) (clamps : Nat → Bool), w = data.toNat →
            rho = (if low = 0 then 65 - lg else 64 - lg - Nat.log2 low) →
            sum = (fun v => (BitVec.ofNat 32 v).toInt + (if del then -(w : Int) else w)) → h = hits (data.toNat / 2 ^ (23 - lg)) →
            new = (fun v => if b.type = 1 then 1
              else if b.type = 2 then (if del then (if v = 15 then 15 else v - 1) else min 15 (v + 1))
              else if b.type = 3 then min (2 ^ 32 - 1) (v + w)
              else if b.type = 4 then (BitVec.ofInt 32 (max (-2 ^ 31) (min (2 ^ 31 - 1) (sum v)))).toNat
              else if b.type = 5 then max v rho else min (2 ^ 32 - 1) (v + 1)) →
            clamps = (fun v => if b.type = 2 then !del && decide (v = 14) else if b.type = 3 then decide (2 ^ 32 ≤ v + w)
              else if b.type = 4 then decide (2 ^ 31 ≤ sum v ∨ sum v < -2 ^ 31) else decide (b.type = 6 ∧ 2 ^ 32 ≤ v + 1)) →
            (∀ i < cnt, val t i = if i ∈ h then new (val s i) else val s i) ∧
            (H t).n = (if b.type = 2 ∧ del = true then (H s).n - 1
              else min (2 ^ 64 - 1) ((H s).n + if b.type = 3 ∨ b.type = 4 then w else 1)) ∧
            ((H s).pop = ((List.range cnt).filter fun i => decide (val s i ≠ 0)).length →
              (H t).pop = ((List.range cnt).filter fun i => decide (val t i ≠ 0)).length) ∧
            ((H s).pop ≤ cnt → (H t).flags = (H s).flags ||| (if h.any (fun i => clamps (val s i)) then 2 else 0) |||
              (if ¬ (b.type = 2 ∧ del = true) ∧ 2 ^ 39 ≤ (H t).n then 4 else 0) ||| (if del then 8 else 0) |||
              (if b.type = 2 ∧ del = true ∧ ((H s).n = 0 ∨ ∃ i ∈ h, val s i = 0) then 16 else 0) |||
              (if b.type ≤ 2 ∧ b.thr * 2 ^ lg < 256 * (H t).pop then 1 else 0)) ∧
            (∀ o < 256, 17 ≤ o → byte t o = byte s o) ∧
            ∀ q, (∀ o < 256 + cellBytes b.type lg b.depth, p o ≠ q) → byteAt t (.l2 core) q = byteAt s (.l2 core) q)) ∧
      (∀ z : State × W64, z = skLoad s r a → (fn = 0 ∨ fn = 1 ∧ b.type = 6 ∨ fn = 2) →
        OnlyCaches s z.1 ∧ (∀ q, byteAt z.1 (.l2 core) q = byteAt s (.l2 core) q) ∧
        (fn = 0 → ∀ h : List Nat, h = hits key →
          (b.type ≤ 2 → z.2 = if ∀ i ∈ h, val s i ≠ 0 then 1 else 0) ∧
          (b.type = 3 → 0 < b.depth → ∃ i ∈ h, z.2 = BitVec.ofNat 64 (val s i) ∧ ∀ j ∈ h, val s i ≤ val s j) ∧
          (b.type = 4 → 0 < b.depth → ∀ v : Nat → Int, v = (fun i => (BitVec.ofNat 32 (val s i)).toInt) →
            ∃ i ∈ h, z.2 = BitVec.ofInt 64 (v i) ∧ (h.filter fun j => decide (v j < v i)).length < (b.depth + 1) / 2 ∧
              (b.depth + 1) / 2 ≤ (h.filter fun j => decide (v j ≤ v i)).length) ∧
          (b.type = 5 → ∀ ms : List Nat, ms = (List.range cnt).map (val s) →
            z.2 = BitVec.ofNat 64 ((estimate ms).toNat + 2 ^ 32 * (ms.filter fun v => decide (v = 0)).length)) ∧
          (b.type = 6 → key < cnt → z.2 = BitVec.ofNat 64 (val s key))) ∧
        (fn = 1 → key ≤ 65536 → ∀ (total t : Nat) (order : Nat → Nat) (run : Nat → Nat),
          total = ((List.range cnt).map (val s)).sum → t = max 1 ((key * total + 65535) / 65536) →
          order = (fun k => if k < 2 ^ (8 + lg) then 2 ^ (9 + lg) - 1 - k else k - 2 ^ (8 + lg)) →
          run = (fun k => ((List.range k).map fun j => val s (order j)).sum) →
          (total = 0 → z.2 = 0x7FC00000) ∧
          (total ≠ 0 → ∃ k < cnt, run k < t ∧ t ≤ run (k + 1) ∧ ∀ c, c = order k →
            z.2 = if c / 2 ^ lg % 256 = 255 then (if c < 2 ^ (8 + lg) then 0x7F800000 else 0xFF800000)
              else BitVec.ofNat 64 (c * 2 ^ (23 - lg) + 2 ^ (22 - lg)))) ∧
        (fn = 2 → (H s).pop ≤ cnt → z.2 = BitVec.ofNat 64 ((H s).flags.toNat + 2 ^ 8 * ((H s).pop * 65536 / cnt) +
          2 ^ 25 * min (H s).n (2 ^ 39 - 1))))) ∧
  ∀ (ms : List Nat) (p m v : Nat) (alpha e : W32) (Z : Nat → W32), m = ms.length → m = 2 ^ p → 4 ≤ p → p ≤ 16 →
    v = (ms.filter fun k => decide (k = 0)).length →
    alpha = (if p = 4 then 0x3F2C49BA else if p = 5 then 0x3F326E98 else if p = 6 then 0x3F358106
      else divRne 0x3F38A71E (add32 0x3F800000 (divRne 0x3F8A1CAC (round32 .rne (.fin false m 0)).1)).1) →
    Z 0 = 0 → (∀ j, Z (j + 1) = (round32 .rne (fAdd .rne (dec32 (Z j)) (.fin false 1 (-(ms.getD j 0 : Int)))).1).1) →
    e = divRne (round32 .rne (fMul (dec32 alpha) (.fin false (m * m) 0)).1).1 (Z m) →
    estimate ms = if fLt (.fin false (5 * m) (-1)) (dec32 e) = false ∧ 0 < v then
      (mul32 (mul32 (round32 .rne (.fin false m 0)).1
        (fLg2 (divRne (round32 .rne (.fin false m 0)).1 (round32 .rne (.fin false v 0)).1)).1).1 0x3F317218).1 else e

/-- A store whose registers are allocated and free, whose token is not full, with no tile operation in its way, and
whose performing lanes all pass their checks, completes: each byte that lies in no lane's access reads at the access's
place as before, and each other byte reads as the highest lane that covers it narrowed it, lowest byte first (for a
nibble format, that lane's nibble of the byte, the other one as before). With policy mem a byte reads at the home L2,
or in host memory, so; for a nibble, whose byte is read first, the bytes about it may read as DRAM had them; and the
bytes of DRAM are on their way there, in one write for each 32-byte unit (that a store's lanes reach a unit as one
write is the model's choice, log 29). The flags of the narrowing are set, no register is written, and only stores'
state changes. A scratchpad store does the same in the scratchpad of the group that the address names. (R7, R50, R101,
R117, R127, R147, R159, R228, R229, R230, R231) -/
def Obligations.StoresPerform : Prop :=
  ∀ (s : State) (w : Nat) (t o : BitVec 8) (b : BitVec 6) (l : BitVec 4) (x : MPfx),
    ∀ (W : Warp) (f : BitVec 5) (n : Nat) (addr : Nat → W64) (L : List Nat) (pl pv : Place) (val : Nat → Nat), W = getW s w →
    f = (attr x.mem).fmt → n = fmtBytes f → addr = (fun k => laneAddr W b o (offM x) (nibbleShift f) k) →
    L = lanesOf (performing W) → pl = placeOfAttr W.core (attr x.mem) (isStrong (attr x.mem)) →
    pv = (match pl with | .mem c => .l2 c | p => p) →
    val = (fun k => (narrow f (runWords W t.toNat (fmtRegs f) k)).1) →
    AccessReady s w (run t.toNat (fmtRegs f) ++ voReg o) [b] x.ev → tileBusy W = false →
    ∀ flags : Flags, flags = L.foldl (fun a k => a ||| (narrow f (runWords W t.toNat (fmtRegs f) k)).2) 0 →
    (∀ pa : Nat → Nat, (∀ k ∈ L, LaneOk s W (addr k) n .write (pa k)) →
      ∃ u : State, exec (.st t o b l x) s = .next (advance u w (lenM x)) ∧ OnlyStores s u w ∧
        getW u w = { W with fpst := W.fpst ||| flags, ev := (getW u w).ev, evSys := (getW u w).evSys } ∧
        ((∀ c, pl ≠ .mem c) → getW u w = { W with fpst := W.fpst ||| flags }) ∧
        (∀ a, (∀ k ∈ L, ¬ Covers (pa k) n a) →
          byteAt u pv a = byteAt s pv a ∨ (isNibble f = true ∧ byteAt u pv a = byteAt s pl a)) ∧
        (isNibble f = false → ∀ a, ∀ k ∈ L, Covers (pa k) n a → (∀ j ∈ L, k < j → ¬ Covers (pa j) n a) →
          byteAt u pv a = val k / 256 ^ (a - pa k) % 256) ∧
        (isNibble f = true → ∀ k ∈ L, ∀ h : Nat, h = (if highNibble W o k then 1 else 0) →
          ((∀ j ∈ L, k < j → ¬ (pa j = pa k ∧ highNibble W o j = highNibble W o k)) →
            byteAt u pv (pa k) / 16 ^ h % 16 = val k % 16) ∧
          ((∀ j ∈ L, pa j = pa k → highNibble W o j = highNibble W o k) →
            byteAt u pv (pa k) / 16 ^ (1 - h) % 16 = byteAt s pl (pa k) / 16 ^ (1 - h) % 16)) ∧
        ((∃ c, pl = .mem c) →
          ∃ ws : List DramWrite, u.dramq = s.dramq ++ ws ∧ (ws.map fun d => (d.sector, wholeUnits d.bytes)).Nodup ∧
            (∀ d ∈ ws, d.warp = some w ∧ ∃ q < 4, ∀ i < 128, d.bytes.getLsbD i = true ↔
              i / 32 = q ∧ ∃ k ∈ L, paSpace (pa k) < 2 ∧ Covers (pa k) n (128 * d.sector + i)) ∧
            ∀ a, ∀ k ∈ L, paSpace (pa k) < 2 → Covers (pa k) n a → ∃ d ∈ ws, d.sector = a / 128 ∧
              d.bytes.getLsbD (a % 128) = true ∧ (BitVec.extractLsb' (8 * (a % 128)) 8 d.data).toNat = byteAt u pv a)) ∧
    (∀ g q : Nat → Nat, (∀ k ∈ L, (addr k).toNat % n = 0 ∧ scrPlace s W (addr k) = some (g k, q k) ∧
        g k < s.groups.length) →
      ∃ u : State, exec (.sts t o b l x) s = .next (advance u w (lenM x)) ∧
        u = { s with groups := u.groups, warps := u.warps, poison := u.poison } ∧
        (∀ v, v ≠ w → getW u v = getW s v) ∧ getW u w = { W with fpst := W.fpst ||| flags } ∧
        (∀ e a, (∀ k ∈ L, ¬ (g k = e ∧ Covers (q k) n a)) → scrRead u e a 1 = scrRead s e a 1) ∧
        (isNibble f = false → ∀ a, ∀ k ∈ L, Covers (q k) n a → (∀ j ∈ L, k < j → ¬ (g j = g k ∧ Covers (q j) n a)) →
          scrRead u (g k) a 1 = val k / 256 ^ (a - q k) % 256) ∧
        (isNibble f = true → ∀ k ∈ L, ∀ h : Nat, h = (if highNibble W o k then 1 else 0) →
          (∀ j ∈ L, k < j → ¬ (g j = g k ∧ q j = q k ∧ highNibble W o j = highNibble W o k)) →
          scrRead u (g k) (q k) 1 / 16 ^ h % 16 = val k % 16))

/-- `ldm` and `stm` of n registers, whose registers are allocated and free, whose token is not full, and whose lanes'
words from the restart index on all pass their checks and meet no error when their register's turn comes, complete:
the load sends on their way, for each of those registers in order and each performing lane, the word at the lane's
address plus four times the register's index, read in every bit as the core's L1, the home L2 or DRAM showed it before
the instruction; the store, with no tile operation in its way, changes only those words, each of which reads as its
register's lane where no other register or lane writes it; with policy mem the bytes read so at the home L2, and those
of DRAM are on their way there as writes of the warp, one for each 32-byte unit. No other register, flag or memory
changes. (R50, R59, R80, R124, R127, R233, R234, R326) -/
def Obligations.MultiRegisterMoves : Prop :=
  ∀ (s : State) (w : Nat) (t o : BitVec 8) (b : BitVec 6) (l : BitVec 4) (x : MPfx),
    ∀ (W : Warp) (n : Nat) (addr : Nat → Nat → W64) (L J : List Nat) (pl pv : Place) (pa : Nat → Nat → Nat), W = getW s w →
    n = (attr x.mem).op7.toNat + 1 → addr = (fun j k => laneAddr W b o (offM x) 0 k + BitVec.ofNat 64 (4 * j)) →
    L = lanesOf (performing W) → J = (List.range n).drop W.ridx →
    pl = placeOfAttr W.core (attr x.mem) (isStrong (attr x.mem)) → pv = (match pl with | .mem c => .l2 c | p => p) →
    AccessReady s w (run t.toNat n ++ voReg o) [b] x.ev →
    (∀ R : Nat → State × List (Nat × Nat), R 0 = (s, []) →
      (∀ j, R (j + 1) = if j < W.ridx then (s, []) else readsOf s (R j).1 W.core pl 4 (L.map fun k => (k, pa j k))) →
      (∀ j ∈ J, ∀ k ∈ L, LaneOk (R j).1 W (addr j k) 4 .read (pa j k) ∧ NoError (R j).1 (some W.core) (pa j k) 4 ∧
        RowFree (R j).1 (attr x.mem).policy.toNat (pa j k)) →
      OnlyCaches s (R n).1 ∧ (∀ j ∈ J, ∀ y ∈ (R (j + 1)).2, OneOfCopies s W.core (pa j y.1) 4 y.2) ∧
      exec (.ldm t o b l x) s = .next (advance (pendCells (R n).1 w (J.flatMap fun j =>
        (R (j + 1)).2.map fun y => (vKey (t.toNat + j) y.1, BitVec.ofNat 32 y.2)) l.toNat x.ev) w (lenM x))) ∧
    (∀ R : Nat → State, R 0 = s →
      (∀ j, R (j + 1) = if j < W.ridx then s else
        writesOf (R j) pl 4 w (L.map fun k => (pa j k, (vGet W (t.toNat + j) k).toNat))) →
      tileBusy W = false → (∀ j ∈ J, ∀ k ∈ L, LaneOk (R j) W (addr j k) 4 .write (pa j k)) →
      ∃ u, exec (.stm t o b l x) s = .next (advance u w (lenM x)) ∧ OnlyStores s u w ∧
        getW u w = { W with ev := (getW u w).ev, evSys := (getW u w).evSys } ∧
        ((∀ c, pl ≠ .mem c) → u = R n ∧ getW u w = W) ∧
        (∀ a, (∀ j ∈ J, ∀ k ∈ L, ¬ Covers (pa j k) 4 a) → byteAt u pv a = byteAt s pv a) ∧
        (∀ j ∈ J, ∀ k ∈ L, ∀ a, Covers (pa j k) 4 a →
          (∀ i ∈ J, ∀ m ∈ L, (i ≠ j ∨ m ≠ k) → ¬ Covers (pa i m) 4 a) →
          byteAt u pv a = (vGet W (t.toNat + j) k).toNat / 256 ^ (a - pa j k) % 256) ∧
        ((∃ c, pl = .mem c) →
          ∃ ws : List DramWrite, u.dramq = s.dramq ++ ws ∧ (ws.map fun d => (d.sector, wholeUnits d.bytes)).Nodup ∧
            (∀ d ∈ ws, d.warp = some w ∧ ∃ q < 4, ∀ i < 128, d.bytes.getLsbD i = true ↔
              i / 32 = q ∧ ∃ j ∈ J, ∃ k ∈ L, paSpace (pa j k) < 2 ∧ Covers (pa j k) 4 (128 * d.sector + i)) ∧
            ∀ a, ∀ j ∈ J, ∀ k ∈ L, paSpace (pa j k) < 2 → Covers (pa j k) 4 a → ∃ d ∈ ws, d.sector = a / 128 ∧
              d.bytes.getLsbD (a % 128) = true ∧ (BitVec.extractLsb' (8 * (a % 128)) 8 d.data).toNat = byteAt u pv a))

/-- With its registers allocated and free, no tile operation in its way, a canonical and aligned base, some performing
lane, and element and scale addresses whose translations are cached and that pass their checks, a quantising store
completes: each block's performing lanes are written as the elements that the block's scale gives (in a byte each, or
for e2m1 in a nibble each, two lanes to a byte, where the nibble of a lane that performs nothing keeps its value),
that scale is written as an FP32 word, and every byte that is neither an element's nor a scale's reads as before,
where none of those addresses coincide; with policy mem the bytes read so at the home L2 (for nibbles, the bytes about
them may read as DRAM had them), and those of DRAM are on their way there as writes of the warp. A base that is not
canonical or not aligned raises the memory fault of kind 4 or 3. With no performing lane the warp only goes on. (R101,
R112, R229, R235) -/
def Obligations.QuantisingStore : Prop :=
  ∀ (s : State) (w : Nat) (t : BitVec 8) (b : BitVec 6) (l : BitVec 4) (x : MPfx),
    ∀ (W : Warp) (f : BitVec 5) (n : Nat) (base : W64) (L J : List Nat) (pl pv : Place), W = getW s w → f = (attr x.mem).fmt →
    n = (attr x.mem).op7.toNat + 1 → base = sGet W b + offM x → L = lanesOf (performing W) →
    J = (List.range n).drop W.ridx → pl = placeOfAttr W.core (attr x.mem) (isStrong (attr x.mem)) →
    pv = (match pl with | .mem c => .l2 c | p => p) → b ≠ 63 → AccessReady s w (run t.toNat n) [b, b + 1] x.ev → tileBusy W = false →
    (performing W = 0 → exec (.stmQuantise t b l x) s = .next (advance s w (lenM x))) ∧
    (performing W ≠ 0 → canonical base = false →
      exec (.stmQuantise t b l x) s = .next (faultAt s w 0x0A 0 0 4 base)) ∧
    (performing W ≠ 0 → canonical base = true → base.toNat % (if isNibble f then 16 else 32) ≠ 0 →
      exec (.stmQuantise t b l x) s = .next (faultAt s w 0x0A 0 0 3 base)) ∧
    (performing W ≠ 0 → canonical base = true → base.toNat % (if isNibble f then 16 else 32) = 0 →
      ∀ (pe : Nat → Nat → Nat) (ps : Nat → Nat) (off : Nat → Nat → Nat) (hi : Nat → Nat),
      off = (fun j k => if isNibble f then (32 * j + k) / 2 else 32 * j + k) → hi = (fun k => if k % 2 = 1 then 16 else 1) →
      (∀ j ∈ J, Cached s (warpJob s W) (sGet W (b + 1) + BitVec.ofNat 64 (4 * j)) .write W.verdicts (ps j) ∧
        ∀ k ∈ L, Cached s (warpJob s W) (base + BitVec.ofNat 64 (off j k)) .write W.verdicts (pe j k)) →
      (∀ j ∈ J, LaneOk s W (sGet W (b + 1) + BitVec.ofNat 64 (4 * j)) 4 .write (ps j)) →
      (∀ j ∈ J, ∀ k ∈ L, LaneOk s W (base + BitVec.ofNat 64 (off j k)) 1 .write (pe j k)) →
      (∀ j ∈ J, ∀ k ∈ L, ∀ i ∈ J, (∀ m ∈ L, (i ≠ j ∨ off j m ≠ off j k) → pe i m ≠ pe j k) ∧ ¬ Covers (ps i) 4 (pe j k)) →
      (∀ j ∈ J, ∀ i ∈ J, i ≠ j → ps i ≠ ps j) →
      ∃ u : State, exec (.stmQuantise t b l x) s = .next (advance u w (lenM x)) ∧ OnlyStores s u w ∧
        getW u w = { W with fpst := (getW u w).fpst, ev := (getW u w).ev, evSys := (getW u w).evSys } ∧
        ((∀ c, pl ≠ .mem c) → getW u w = { W with fpst := (getW u w).fpst }) ∧
        (∀ a, (∀ j ∈ J, ¬ Covers (ps j) 4 a ∧ ∀ k ∈ L, pe j k ≠ a) →
          byteAt u pv a = byteAt s pv a ∨ (isNibble f = true ∧ byteAt u pv a = byteAt s pl a)) ∧
        ((∃ c, pl = .mem c) → ∃ ws : List DramWrite, u.dramq = s.dramq ++ ws ∧ (∀ d ∈ ws, d.warp = some w) ∧
          ∀ a, (∃ j ∈ J, Covers (ps j) 4 a ∨ ∃ k ∈ L, pe j k = a) → paSpace a < 2 → ∃ d ∈ ws, d.sector = a / 128 ∧
            d.bytes.getLsbD (a % 128) = true ∧ (BitVec.extractLsb' (8 * (a % 128)) 8 d.data).toNat = byteAt u pv a) ∧
        ∀ j ∈ J, ∀ q, q = quantise f (L.map fun k => (k, vGet W (t.toNat + j) k)) →
          (∀ i < 4, byteAt u pv (ps j + i) = q.1.toNat / 256 ^ i % 256) ∧
          (isNibble f = false → ∀ k ∈ L, ∀ y, tabFind q.2.1 k = some y → byteAt u pv (pe j k) = y.1 % 256) ∧
          (isNibble f = true → ∀ k ∈ L, (∀ y, tabFind q.2.1 k = some y → byteAt u pv (pe j k) / hi k % 16 = y.1 % 16) ∧
            ∀ m < 32, m / 2 = k / 2 → m ∉ L → (byteAt u pv (pe j k) / hi m % 16 = byteAt s pl (pe j k) / hi m % 16 ∨
              byteAt u pv (pe j k) / hi m % 16 = byteAt s pv (pe j k) / hi m % 16)))

/-- An atomic whose registers are allocated and free, whose token is not full, with no tile operation in its way, and
whose performing lanes all pass their checks, meet no error and reach no operation that host memory refuses, performs
the lanes' updates in ascending order, each on the state that the one before it left; `atom` sends the old values on
their way and `red` writes no register. One lane's update reads its place, which a cache may have evicted before, and
writes there (what goes on to DRAM, in one write for each 32-byte unit) the new value of the operation in the type's
32 or 64 bits (for a 64-bit type the data are the register pair, low word first, and the swap value the next pair):
sum, minimum, maximum, bitwise function, exchange, the swap value where the old one equals the data, or the FP32 sum
of a 32-bit type. (R39, R117, R236, R237, R238, R239, R389) -/
def Obligations.AtomicUpdates : Prop :=
  ∀ (s : State) (w : Nat) (t o : BitVec 8) (b : BitVec 6) (l : BitVec 4) (x : MPfx),
    ∀ (W : Warp) (a : MemAttr) (n : Nat) (addr : Nat → W64) (L : List Nat) (pa : Nat → Nat), W = getW s w → a = attr x.mem →
    n = (if wide a.fmt then 8 else 4) → addr = (fun k => laneAddr W b o (offM x) 0 k) → L = lanesOf (performing W) →
    AccessReady s w (run t.toNat (n / 4 * (if a.op7 = 8 then 2 else 1)) ++ voReg o) [b] x.ev → tileBusy W = false →
    (∀ k ∈ L, LaneOk s W (addr k) n .atomic (pa k) ∧ NoError s (some W.core) (pa k) n ∧
      (paSpace (pa k) = 2 → a.op7.toNat ≤ 1 ∨ a.op7 = 7 ∨ a.op7 = 8)) →
    ∀ r : State × List (Nat × W32), r = L.foldl (fun z k =>
      ((atomLane z.1 W w a t ⟨k, addr k, .ok (pa k)⟩).1, z.2 ++ runCells t.toNat k (widen (if wide a.fmt then 0x0B else 0x0A)
        (atomLane z.1 W w a t ⟨k, addr k, .ok (pa k)⟩).2))) (s, []) →
    exec (.atom t o b l x) s = .next (advance (pendCells (joinWrites r.1 s.dramq.length) w r.2 l.toNat x.ev) w (lenM x)) ∧
    exec (.red t o b l x) s = .next (advance (storeToken s r.1 w x.ev) w (lenM x)) ∧
    ∀ (z : State) (k : Nat) (pl : Place), pl = (if a.policy = 4 then .mem (some W.core)
        else if scopeOf a ≤ 2 ∧ a.policy.toNat ≤ 1 then .l1 W.core else .l2 (some W.core)) →
      ∀ y : State × Nat, y = loadAt (lapse z.ctr z W.core (pa k)) (if a.policy = 4 then .l2 (some W.core) else pl) (pa k) n →
      ∀ (word : Nat → Nat) (v m : Nat), word = (fun i => (vGet W (t.toNat + i) k).toNat) →
      v = (if wide a.fmt then word 0 + 2 ^ 32 * word 1 else word 0) →
      m = (if wide a.fmt then word 2 + 2 ^ 32 * word 3 else word 1) →
      (atomLane z W w a t ⟨k, addr k, .ok (pa k)⟩).2 = y.2 ∧
      ∀ lt : Nat → Nat → Bool, lt = (fun p q => if a.fmt = 0x12 ∨ a.fmt = 0x13 then decide (p < q)
        else (BitVec.ofNat (8 * n) p).slt (BitVec.ofNat (8 * n) q)) →
      ∀ nv, (a.op7.toNat, nv) ∈ [(0, (y.2 + v) % 2 ^ (8 * n)), (1, (y.2 + v) % 2 ^ (8 * n)),
          (2, if lt v y.2 then v else y.2), (3, if lt y.2 v then v else y.2), (4, y.2 &&& v), (5, y.2 ||| v),
          (6, y.2 ^^^ v), (7, v), (8, if y.2 = v then m else y.2)] ∨
        a.op7 = 9 ∧ wide a.fmt = false ∧ nv = (add32 (BitVec.ofNat 32 y.2) (BitVec.ofNat 32 v)).1.toNat →
        (atomLane z W w a t ⟨k, addr k, .ok (pa k)⟩).1 = storeAt y.1 pl (pa k) n nv (some w) none

/-- `fence` with room in its token and no tile operation in its way acts on the core's L1 for scope gang or wider,
first asking the host for the lines that this writes and waiting for them, arms its token, leaves a fence of its scope
in flight, and the warp goes on. The fence completes, dropping what is then clean in the core's L1 for scope gang or
wider and signalling its token, once the warp's loads have returned, its writes are at DRAM (with policy mem) and, at
system scope, no fabric command of the warp and no back-invalidate is outstanding; until then nothing changes. (That a
fence waits for the host's answers is the model's choice, log 23.) Results on their way are written to the warp's
registers at any time, and their tokens signalled, with nothing else changed; where an error is named, the live lanes
that it names and that have results on their way die, leaving EXM, their cells are not written and all others are, and
the warp unwinds when EXM has become empty. A write on its way to DRAM whose turn it is, to a bank that owes no urgent
refresh and a sector of which the home L2 holds no dirty copy, makes its bytes, and no other byte of memory, those
written, lifts the poison of the units that a full-unit store had rewritten, and signals its token; of a sector that
the home L2 holds dirty, the written units that are dirty there are written from there, and its other dirty units go
on their way, so that a read at the home L2 sees what it saw and no store is lost. One whose turn it is not changes
nothing. (The turns, earlier writes of a unit first and a token's write after its warp's, are the model's choice, log
29.) (R39, R59, R63, R127, R129, R132, R134, R357, R388, R413, R417, R422) -/
def Obligations.FencesAndResults : Prop :=
  ∀ (s : State) (w : Nat), w < s.warps.length → ∀ W : Warp, W = getW s w →
    (∀ (x : MPfx) (g : Nat), g = (if (attr x.mem).scope = 0 then 4 else (attr x.mem).scope.toNat) →
      Issues s w → evFull W x.ev = false → tileBusy W = false →
      (∀ l ls, 3 ≤ g → coreLines s W.core = l :: ls → exec (.fence x) s = .next (askLines s (l :: ls))) ∧
      ((3 ≤ g → coreLines s W.core = []) →
        exec (.fence x) s = .next (advance (updW (if 3 ≤ g then l1Fence s W.core else s) w fun V =>
          { arm V x.ev false with fence := some ⟨g, decide ((attr x.mem).policy = 4), x.ev⟩ }) w (lenM x)))) ∧
    (∀ f, W.fence = some f → W.pend = [] → (f.mem = true → ∀ d ∈ s.dramq, d.warp ≠ some w) →
      (f.scope = 5 → s.backInv = [] ∧ ∀ c ∈ s.cmds, c.warp = w → isFabric c.kind = false) →
      exec (.fenceComplete w) s = .next (signal (updW (if 3 ≤ f.scope then l1DropClean s W.core else s) w fun V =>
        { V with fence := none }) w f.tok)) ∧
    (∀ f, W.fence = some f → (W.pend ≠ [] ∨ (f.mem = true ∧ ∃ d ∈ s.dramq, d.warp = some w) ∨
        (f.scope = 5 ∧ (s.backInv ≠ [] ∨ ∃ c ∈ s.cmds, c.warp = w ∧ isFabric c.kind = true))) →
      exec (.fenceComplete w) s = .next s) ∧
    (W.fence = none → exec (.fenceComplete w) s = .next s) ∧
    (W.pend ≠ [] → exec (.loadResultWrite w 0) s = .next (landAll s w)) ∧
    (∀ ue, W.pend = [] → exec (.loadResultWrite w ue) s = .next s) ∧
    (∀ ue hit : W32, W.pend ≠ [] → (∀ l < 32, hit.getLsbD l = true ↔
        ue.getLsbD l = true ∧ (liveLanes W).getLsbD l = true ∧ ∃ p ∈ W.pend, ∃ c ∈ p.cells, c.1 % 32 = l) →
      ∃ (t : State) (U : Warp), U = getW t w ∧ U.pend = [] ∧ U.deadm = W.deadm ||| hit ∧ U.exm = W.exm &&& ~~~ hit ∧
        (∀ r, ∀ l < 32, vGet U r l = if hit.getLsbD l = true then vGet W r l else vGet (getW (landAll s w) w) r l) ∧
        exec (.loadResultWrite w ue) s = .next (if U.exm = 0 ∧ W.exm ≠ 0 then unwind t w else t)) ∧
    (∀ k d, s.dramq[k]? = some d →
      (∀ e ∈ s.dramq.take k, (e.sector = d.sector → d.bytes ≠ 0 ∧ wholeUnits e.bytes &&& wholeUnits d.bytes = 0) ∧
        (d.tok = none ∨ e.warp ≠ d.warp)) →
      (paDue s (128 * d.sector) = false → (∀ n, Upset.l2 n ∉ s.upsets) → ∀ y, l2Find s d.sector = some y → y.dirty ≠ 0 →
        ∃ u : State, l2View u d.sector = l2View s d.sector ∧
        (∀ a, memGet u.mem a =
          if a / 128 = cellOf (128 * d.sector) / 128 ∧ (wholeUnits y.dirty &&& wholeUnits d.bytes).getLsbD (a % 128) = true
            then BitVec.extractLsb' (8 * (a % 128)) 8 y.data
          else if a / 128 = cellOf (128 * d.sector) / 128 ∧ d.bytes.getLsbD (a % 128) = true
            then BitVec.extractLsb' (8 * (a % 128)) 8 d.data else memGet s.mem a) ∧
        (∀ i < 128, (wholeUnits y.dirty &&& ~~~ wholeUnits d.bytes).getLsbD i = true → ∃ e ∈ u.dramq, e.sector = d.sector ∧
          e.bytes.getLsbD i = true ∧ BitVec.extractLsb' (8 * i) 8 e.data = BitVec.extractLsb' (8 * i) 8 y.data) ∧
        exec (.storePerformed k) s = .next (match d.warp with
          | some v => signal u v d.tok
          | none => u)) ∧
      (paDue s (128 * d.sector) = false → (∀ y, l2Find s d.sector = some y → y.dirty = 0) →
      ∃ u, u = { s with mem := u.mem, poison := u.poison, cured := u.cured, dramq := s.dramq.eraseIdx k } ∧
        (∀ q, q ∈ u.poison ↔ q ∈ s.poison ∧ ¬ (q / 4 = cellOf (128 * d.sector) / 128 ∧
          d.bytes &&& byteMask (32 * (q % 4)) 32 ≠ 0 ∧ (none, q) ∈ s.cured)) ∧
        (∀ a, memGet u.mem a = if a / 128 = cellOf (128 * d.sector) / 128 ∧ d.bytes.getLsbD (a % 128) = true
          then BitVec.extractLsb' (8 * (a % 128)) 8 d.data else memGet s.mem a) ∧
        exec (.storePerformed k) s = .next (match d.warp with
          | some v => signal u v d.tok
          | none => u))) ∧
    (∀ k, dramReady s k = false → exec (.storePerformed k) s = .next s)

/-- The eviction of a sector from a core's L1, none of whose dirty lines the host holds, writes its dirty bytes and
nibbles to the home L2, where a read then sees them beside the bytes that it saw before, drops the copy, and leaves
every other sector of the caches, and all memory, as it was; where the host holds such lines their back-invalidates
are sent first. The eviction of a sector from the home L2 in which no error stands drops it there and sends its dirty
units on to DRAM, each by itself, where a read at the home L2 still sees them; the L1s are unchanged, and so is what a
read at the home L2 sees of every other sector. `clean` and `inval` of a range of the address space leave, of every
sector of the mapped pages of the range that is in DRAM, no dirty copy (for `inval`, no copy) in the core's L1 and the
home L2, and send on to DRAM, as writes of the warp, every byte that was dirty in either, as the eviction of the L1's
copy leaves it at the home L2; of other sectors nothing changes, the token is armed, and the warp goes on. (Where the
host may cache a line that the core's L1 must write back, its back-invalidate goes first: the completion is stated for
ranges with none.) A range that is not canonical raises the memory fault of kind 4, an empty one leaves memory and
caches as they are, and one with a page whose walk waits for a refresh waits. `pref` fills caches without changing
what any read at the home L2 sees, and the warp goes on; where a lane's page or sector waits for a refresh, it waits.
The completion of a clean or inval signals its token. (R127, R129, R130, R135, R136, R185, R240, R241, R319, R388,
R422) -/
def Obligations.CacheMaintenance : Prop :=
  ∀ (s : State),
    (∀ (c k : Nat) (ue : BitVec 4), (dirtyLines s c k = [] → ∃ u, exec (.eviction (some c) k ue) s = .next u ∧
        OnlyCaches s u ∧ u.dramq = s.dramq ∧ l1Find u c k = none ∧ (∀ j, j ≠ k → l2View u j = l2View s j) ∧
        (∀ q, q ≠ l1Key c k → tabFind u.l1 q = tabFind s.l1 q) ∧
        (∀ e, l1Find s c k = some e → (∀ i < 128, BitVec.extractLsb' (8 * i) 8 (l2View u k) =
          if e.dirty.getLsbD i = true then BitVec.extractLsb' (8 * i) 8 e.data
          else (List.range 2).foldl (fun v h => if e.nibs.getLsbD (2 * i + h) = true
            then (v &&& ~~~ (15#8 <<< (4 * h))) ||| (BitVec.extractLsb' (8 * i) 8 e.data &&& (15#8 <<< (4 * h))) else v)
            (BitVec.extractLsb' (8 * i) 8 (l2View s k)))) ∧
        (l1Find s c k = none → l2View u k = l2View s k)) ∧
      (dirtyLines s c k ≠ [] → exec (.eviction (some c) k ue) s = .next ((dirtyLines s c k).foldl askLine s))) ∧
    (∀ k, (∀ n, Upset.l2 n ∈ s.upsets → n / 4 ≠ k) → ∃ u, exec (.eviction none k 0) s = .next u ∧ l2Find u k = none ∧
      (∀ j, j ≠ k → l2View u j = l2View s j) ∧ u.l1 = s.l1 ∧ u.mem = s.mem ∧
      (∃ ws, u.dramq = s.dramq ++ ws ∧ ∀ d ∈ ws, d.sector = k ∧ d.tok = none ∧ ∃ q < 4, d.bytes = byteMask (32 * q) 32) ∧
      ∀ e, l2Find s k = some e → ∀ i < 128, (wholeUnits e.dirty).getLsbD i = true →
        BitVec.extractLsb' (8 * i) 8 (l2View u k) = BitVec.extractLsb' (8 * i) 8 e.data) ∧
    (∀ k c, s.cmds.find? (fun e => decide (e.id = k) && (decide (e.kind = .clean) || decide (e.kind = .inval))) = some c →
      exec (.cleanInvalComplete k) s = .next (signal { s with cmds := s.cmds.filter fun e => e.id ≠ k } c.warp c.tok)) ∧
    ∀ (w : Nat) (n b : BitVec 6) (o : BitVec 8) (y : BitVec 4) (x : MPfx), Issues s w →
      ∀ (W : Warp) (a : W64) (len : Nat), W = getW s w → a = sGet W b + offM x → len = (sGet W n).toNat →
      evFull W x.ev = false →
      (ScalarsOk W [b, n] → ∀ i κ, (i = .clean n b y x ∧ κ = .clean ∨ i = .inval n b y x ∧ κ = .inval) →
        ∀ tok : State → State, tok = (fun z => match x.ev with
          | none => z
          | some _ => { updW z w fun V => arm V x.ev false with
              cmds := z.cmds ++ [maintCmd z (getW z w) w κ x.ev], nextCmd := z.nextCmd + 1 }) →
        (0 < len → (canonical a = false ∨ (a.toNat + (len - 1)) / 2 ^ 56 ≠ a.toNat / 2 ^ 56) →
          exec i s = .next (faultAt s w 0x0A 0 0 4 (nextAddr W))) ∧
        (len = 0 → exec i s = .next (advance (tok s) w (lenM x))) ∧
        (canonical a = true → 0 < len → (a.toNat + (len - 1)) / 2 ^ 56 = a.toNat / 2 ^ 56 →
          pagesHeld s (warpJob s W) a len = true → exec i s = .next s) ∧
        ((∀ n, Upset.l2 n ∉ s.upsets) → pagesHeld s (warpJob s W) a len = false → (∀ r ∈ mappedRuns s (warpJob s W) a len, paSpace r.1 < 2 → ∀ k ∈ runSectors r,
            dirtyLines s W.core k = []) → canonical a = true → 0 < len → (a.toNat + (len - 1)) / 2 ^ 56 = a.toNat / 2 ^ 56 →
          ∃ u ws, exec i s = .next (advance (tok u) w (lenM x)) ∧ OnlyCaches s u ∧ u.dramq = s.dramq ++ ws ∧
          (∀ d ∈ ws, d.warp = some w ∧ d.tok = none) ∧
          (∀ k, (∀ r ∈ mappedRuns s (warpJob s W) a len, paSpace r.1 < 2 → k ∉ runSectors r) → l2View u k = l2View s k ∧
            l2Find u k = l2Find s k ∧ ∀ d ∈ ws, d.sector ≠ k) ∧
          (∀ q, (∀ r ∈ mappedRuns s (warpJob s W) a len, paSpace r.1 < 2 → ∀ k ∈ runSectors r, q ≠ l1Key W.core k) →
            tabFind u.l1 q = tabFind s.l1 q) ∧
          ∀ r ∈ mappedRuns s (warpJob s W) a len, paSpace r.1 < 2 → ∀ k ∈ runSectors r,
            (∀ i < 128, ((∃ e, l1Find s W.core k = some e ∧ (e.dirty.getLsbD i = true ∨ e.nibs.getLsbD (2 * i) = true ∨
                e.nibs.getLsbD (2 * i + 1) = true)) ∨ ∃ e, l2Find s k = some e ∧ e.dirty.getLsbD i = true) →
              ∃ d ∈ ws, d.sector = k ∧ d.bytes.getLsbD i = true ∧
                BitVec.extractLsb' (8 * i) 8 d.data = BitVec.extractLsb' (8 * i) 8 (l2View (l1Evict s W.core k) k)) ∧
            (i = .clean n b y x → l2View u k = l2View (l1Evict s W.core k) k) ∧
            (∀ e, l1Find u W.core k = some e → l1Dirty e = false ∧ i = .clean n b y x) ∧
            ∀ e, l2Find u k = some e → e.dirty = 0 ∧ i = .clean n b y x)) ∧
      (ScalarsOk W [b] → VectorsOk W (voReg o) → ∀ late : Nat → Bool,
        late = (fun l => prefDue s W (attr x.mem).policy.toNat (laneAddr W b o (offM x) 0 l)) →
        ((∃ l ∈ lanesOf W.exm, late l = true) → exec (.pref o b y x) s = .next s) ∧
        ((∀ l ∈ lanesOf W.exm, late l = false) → ∃ u, exec (.pref o b y x) s = .next (advance u w (lenM x)) ∧
        u = { s with l1 := u.l1, l2 := u.l2 } ∧ ∀ k, l2View u k = l2View s k))

/-- `mode.mx` at level 0, outside matrix mode, with claims inside the allocation and no bound register among them,
claims the tiles: their registers' bits become the grid's cells. `mode.vx` with no operation pending writes the cells
back to those registers and leaves matrix mode; outside it only goes on. While a tile is claimed its registers are
held. `omap` writes the low half of an operand map and keeps the high half, `omapld` reads a whole map, `mmsk` sets
both masks, and `mzero` makes every cell of a claimed tile zero and changes no other cell. A tile beyond the allocated
registers raises reason 0x15. Nothing else changes. (R54, R111, R200, R257, R258, R259, R260, R263, R265, R269, R270,
R355) -/
def Obligations.MatrixMode : Prop :=
  ∀ (s : State) (w : Nat), Issues s w → ∀ W : Warp, W = getW s w →
    (∀ c : BitVec 8, W.level = 0 → W.mode = false → c ≠ 0 → (∀ n < 8, c.getLsbD n = true → 32 * n + 32 ≤ W.nv) →
      (∀ e ∈ W.w, e.2.bound = true → c.getLsbD (e.2.reg.toNat / 32) = false) → W.pend = [] →
      GoesOn s w (.modeMx c) 1 { W with mode := true, mclaim := c, cells := W.v.filter fun e => c.getLsbD (e.1 / 1024) }) ∧
    (W.level = 0 → W.mode = false → W.pend = [] → GoesOn s w .modeVx 1 W) ∧
    (W.level = 0 → W.mode = true → W.tile = none → W.pend = [] → ∃ U : Warp, GoesOn s w .modeVx 1 U ∧
      U = { W with v := U.v, mode := false, mclaim := 0, cells := [] } ∧
      (tabWf 0 W.cells = true → (∀ e ∈ W.cells, W.mclaim.getLsbD (e.1 / 1024) = true) → ∀ r l, l < 32 →
        vGet U r l = if W.mclaim.getLsbD (r / 32) then tabGet 0 W.cells (vKey r l) else vGet W r l)) ∧
    (∀ r, claimed W r = (W.mode && W.mclaim.getLsbD (r / 32))) ∧
    (∀ (m : BitVec 3) (a b : BitVec 6), ScalarsOk W [a, b] →
      GoesOn s w (.omap m a b) 1 (mSet W m.toNat ((mGet W m.toNat).extractLsb' 128 128 ++ sGet W b ++ sGet W a)) ∧
      GoesOn s w (.mmsk a b) 1 { W with mrowm := (sGet W a).setWidth 32, mcolm := (sGet W b).setWidth 32 }) ∧
    (∀ (m : BitVec 3) (a : BitVec 6), ScalarsOk W [a] →
      (performing W = 0 → GoesOn s w (.omapld m a) 1 W) ∧
      ∀ pa : Nat, performing W ≠ 0 → canonical (sGet W a) = true →
        (sGet W a).toNat % 32 = 0 → translate s (warpJob s W) (sGet W a) .read W.verdicts = .ok pa →
        dirtyLines s W.core (pa / 128) = [] → NoError s (some W.core) pa 32 → ∀ r, r = loadAt s (.l1 W.core) pa 32 →
        exec (.omapld m a) s = .next (advance (setW r.1 w (mSet W m.toNat (BitVec.ofNat 256 r.2))) w 1)) ∧
    (∀ t : BitVec 3,
      (W.nv < 32 * t.toNat + 32 → Illegal s w (.mzero t) 0x15) ∧
      (32 * t.toNat + 32 ≤ W.nv → W.level = 0 →
      (W.mode = false → Faults s w (.mzero t) 4 2) ∧
      (W.mode = true → W.mclaim.getLsbD t.toNat = false → Faults s w (.mzero t) 4 3) ∧
      (W.mode = true → W.mclaim.getLsbD t.toNat = true → W.tile = none → ∃ U : Warp, GoesOn s w (.mzero t) 1 U ∧
        U = { W with cells := U.cells } ∧
        ∀ k, tabGet 0 U.cells k = if k / 1024 = t.toNat then 0 else tabGet 0 W.cells k)))

/-- `mma` at level 0, in matrix mode, into a claimed tile, with none pending and well-formed maps of the pair's
formats and aligned, and a length of at most 2^20, is accepted: it leaves an operation at block 0 with the maps, masks
and token of that moment, and a length of zero only goes on. A tile beyond the allocated registers raises reason 0x15;
a malformed map, one of another format, one that is misaligned and a length that is too great raise the operand-map
fault of causes 1 to 4. A step that the sequencer and the datapath let run counts one of the block's steps; the last
one, when the operands are fetched without a stop, applies the block to every cell of the tile that neither mask
excludes: its sum over the steps, each the exact sum of the pair's products rounded once, times the product of the two
scales, is added to it, each operation rounded once; and the operation advances by 32, or ends and signals its token;
cells of other tiles, and registers, are unchanged; where a vector instruction is ready and the operation is over or
stopped, the grid then counts as having run its 16 steps. A step that may not run changes nothing. A failed fetch is
taken as a trap of class 0x0D when the warp runs. An operand's lines hold, for every line that its mask does not
exclude, the elements decoded from the bytes at the base plus the strides, zero from K on, and the scale, 1.0 where
there is none: from the scratchpad, or from global memory through the core's L1. (R54, R111, R113, R264, R271, R272,
R273, R274, R275, R276, R359) -/
def Obligations.TileMultiply : Prop :=
  ∀ (s : State) (w : Nat), w < s.warps.length → ∀ W : Warp, W = getW s w →
    (∀ (c m n : BitVec 3) (k : BitVec 6) (f : BitVec 5) (l : BitVec 4) (ev : Option (BitVec 3)), Issues s w →
      (W.nv < 32 * c.toNat + 32 → Illegal s w (.mma c m n k f l ev) 0x15) ∧
      (32 * c.toNat + 32 ≤ W.nv → ScalarsOk W [k] → W.level = 0 → W.mode = true → W.mclaim.getLsbD c.toNat = true →
      W.tile = none → evFull W ev = false →
      (∀ x, mapCause f (mGet W m.toNat) (mGet W n.toNat) (sGet W k) = some x →
        Faults s w (.mma c m n k f l ev) 0x0C x) ∧
      (mapCause f (mGet W m.toNat) (mGet W n.toNat) (sGet W k) = none →
        (sGet W k = 0 → GoesOn s w (.mma c m n k f l ev) (if ev.isSome then 2 else 1) W) ∧
        (sGet W k ≠ 0 → ∀ t : TileOp, t = {
            acc := c, fmt := f, k := (sGet W k).toNat, mapA := mGet W m.toNat, mapB := mGet W n.toNat, rowm := W.mrowm
            colm := W.mcolm, tok := ev, next := 0, steps := 0, order := s.tileNo, halt := false, stopped := false
            fault := none, verdicts := [] } →
          exec (.mma c m n k f l ev) s = .next (advance { setW s w { arm W ev false with tile := some t } with
            tileNo := s.tileNo + 1 } w (if ev.isSome then 2 else 1)))))) ∧
    (∀ t : TileOp, W.tile = some t →
      (∀ code a, t.fault = some (code, a) → W.stat = .running → (getGang s W.gang).stat = .running →
        exec (.mmaBlockApply w) s = .next (takeTrap
          (setW s w { W with tile := some { t with fault := none, verdicts := [] } }) w
          ⟨0x0D, code.toNat, 0, 0, W.exm, a, W.pc, W.word, W.started⟩ false)) ∧
      (t.fault = none → ∀ (p : Nat) (v : Bool), p = partOf W → v = vectorReady s p →
        ((tileRuns s w W t = false ∨ dpLets s p .grid v = false) → exec (.mmaBlockApply w) s = .next s) ∧
        (tileRuns s w W t = true → dpLets s p .grid v = true →
          ∀ g x y, g = dpRan s p .grid v →
          (t.steps + 1 < blockSteps t → exec (.mmaBlockApply w) s =
            .next (updW g w fun V => { V with tile := some { t with steps := t.steps + 1 } })) ∧
          (blockSteps t ≤ t.steps + 1 → x = linesOf g w t t.mapA t.rowm (t.next / 32) → x.stop = none →
            y = linesOf x.s w t t.mapB t.colm (t.next / 32) → y.stop = none →
            ∀ (u : State) (t' : TileOp),
              t' = { t with next := t.next + 32, steps := 0, halt := false, stopped := t.halt, verdicts := [] } →
              u = updW (dropFar y.s (.tile w)) w (fun V => { applyBlock V t x.ls y.ls with tile := some t' }) →
              ∀ r, r = (if t.k ≤ t.next + 32 then endTile u w t' else u) →
              exec (.mmaBlockApply w) s = .next (if v = true ∧ (t.k ≤ t.next + 32 ∨ t.halt = true) then dpEnded r p else r) ∧
              ∀ (V A : Warp) (n P : Nat), A = applyBlock V t x.ls y.ls → n = min 32 (t.k - t.next) →
                P = [1, 2, 2, 2, 2, 4, 4, 2].getD t.fmt.toNat 2 → A = { V with cells := A.cells, fpst := A.fpst } ∧
                x.ls.map Prod.fst = (List.range 32).filter (fun i => !t.rowm.getLsbD i) ∧
                y.ls.map Prod.fst = (List.range 32).filter (fun i => !t.colm.getLsbD i) ∧
                (∀ e ∈ x.ls, ∀ d ∈ y.ls, ∀ (term : Nat → FVal) (sum : Nat → W32) (cell : Nat),
                  (∀ k, term k = (fMul (e.2.1.getD k (.fin false 0 0)) (d.2.1.getD k (.fin false 0 0))).1) → sum 0 = 0 →
                  (∀ q, sum (q + 1) = (round32 .rne (fAdd .rne (dec32 (sum q)) ((List.range (P - 1)).foldl
                    (fun z j => (fAdd .rne z (term (P * q + (j + 1)))).1) (term (P * q)))).1).1) →
                  cell = 1024 * t.acc.toNat + 32 * e.1 + d.1 → tabGet 0 A.cells cell =
                    (add32 (tabGet 0 V.cells cell) (mul32 (sum ((n + P - 1) / P)) (mul32 e.2.2 d.2.2).1).1).1) ∧
                ∀ k, (∀ e ∈ x.ls, ∀ d ∈ y.ls, k ≠ 1024 * t.acc.toNat + 32 * e.1 + d.1) →
                  tabGet 0 A.cells k = tabGet 0 V.cells k)))) ∧
    (∀ (z : State) (t : TileOp) (m : BitVec 256) (mask : W32) (b wd : Nat) (pos : Nat → Nat → W64) (Z : Warp), Z = getW z w →
      wd = (if mapFmt m = 2 then 2 else 1) →
      pos = (fun r k => mapBase m + BitVec.ofNat 64 (if mapOuter m then k else r) * mapOstride m + BitVec.ofNat 64
        (if mapFmt m = 5 then (if mapOuter m then r else k) / 2 else (if mapOuter m then r else k) * wd)) →
      (mapLoc m = 0 → ∀ (g o : Nat → Nat → Nat) (gs os : Nat → Nat),
        (∀ r < 32, mask.getLsbD r = false → (∀ k, 32 * b ≤ k → k < 32 * b + 32 → k < t.k →
            scrPlace z Z (pos r k) = some (g r k, o r k) ∧ scrBad z (g r k) (o r k) wd = none) ∧
          (mapScl m = true → scrPlace z Z (mapSbase m + BitVec.ofNat 64 r * mapSstride m + BitVec.ofNat 64 (4 * b)) =
            some (gs r, os r) ∧ scrBad z (gs r) (os r) 4 = none)) →
        linesOf z w t m mask b = ⟨z, ((List.range 32).filter fun r => !mask.getLsbD r).map fun r =>
          (r, (List.range 32).map (fun i => if t.k ≤ 32 * b + i then .fin false 0 0
            else elemVal (mapFmt m) (scrRead z (g r (32 * b + i)) (o r (32 * b + i)) wd)
              (mapFmt m = 5 && (if mapOuter m then r else 32 * b + i) % 2 = 1)),
          if mapScl m then BitVec.ofNat 32 (scrRead z (gs r) (os r) 4) else 0x3F800000), none⟩) ∧
      (mapLoc m = 1 → ∀ (a : W64) (n pa : Nat), canonical a = true →
        translate z (warpJob z Z) a .read t.verdicts = .ok pa → dataBad z (some Z.core) pa n = false →
        tileFetch z w t m a n = ((loadAt z (.l1 Z.core) pa n).1, (loadAt z (.l1 Z.core) pa n).2, none)))

/-- An engine command of a warp that has a lane that performs, whose registers are allocated, whose token is not full,
with no tile operation in its way and fewer than 8 closed batches: where its acceptance value is not zero nothing
starts, and the value goes to the reply register, or without a reply a record of the refusal is sent (with code 0x09
for a peer outside the domain, the model's choice, log 39). Where it is zero the core's L1 is written back, after the
host has given up the lines that this writes (until then their back-invalidates go and nothing else happens: the
model's reading, log 23), the descriptors are read in that step (the model's choice, log 31), the token is armed, the
command joins the queue with its operands, a copy or a select joins the open batch (and closes it when a descriptor
says so), the reply is 0, and a fabric command is carried on as far as it goes. `skfold` looks at the base of its
window instead, which it turns away with code 0x05 when it is not canonical and with 0x10 when it is no window base,
and `spawn` is handed to the launch engine without an answer yet. When every lane is demoted the warp only goes on.
(R51, R137, R163, R202, R247, R251, R289, R291, R293, R315) -/
def Obligations.EngineCommandIssue : Prop :=
  ∀ (s : State) (w : Nat) (a b d : BitVec 6) (r : BitVec 1) (x : EPfx), Issues s w → ∀ W : Warp, W = getW s w →
    ScalarsOk W (a :: b :: d :: x.peer.toList) → (r = 1 ∨ d = 0) → ∀ (A : W64) (u : State), A = sGet W a →
    u = l1WriteBack s W.core →
    ∀ turned : Nat → Nat → State, turned = (fun v code => if r = 1 then setW s w (sSet W d (BitVec.ofNat 64 v))
      else sendRecord s W 0 0x0A code W.word W.pc A) →
    ∀ queued : Warp → Cmd → State, queued = (fun V c =>
      { setW u w (if r = 1 then sSet V d 0 else V) with cmds := s.cmds ++ [c], nextCmd := s.nextCmd + 1 }) →
    (suppressed W = true → GoesOn s w (.skfold a b d r x) (lenE x) W ∧ GoesOn s w (.spawn a b d r x) (lenE x) W) ∧
    (∀ l ls, suppressed W = false → evFull W x.ev = false → tileBusy W = false → coreLines s W.core = l :: ls →
      exec (.spawn a b d r x) s = .next (askLines s (l :: ls)) ∧
      (canonical A = true → A.toNat % 2 ^ 47 = 0 → exec (.skfold a b d r x) s = .next (askLines s (l :: ls)))) ∧
    (suppressed W = false → evFull W x.ev = false → tileBusy W = false →
      ((canonical A = false ∨ A.toNat % 2 ^ 47 ≠ 0) →
        exec (.skfold a b d r x) s = .next (advance (turned 2 (if canonical A then 0x10 else 0x05)) w (lenE x))) ∧
      (coreLines s W.core = [] → canonical A = true → A.toNat % 2 ^ 47 = 0 → exec (.skfold a b d r x) s = .next (advance
        (queued (arm W x.ev false) { newCmd u w .skfold x A (sGet W b) none with verdicts := [] }) w (lenE x))) ∧
      (coreLines s W.core = [] → exec (.spawn a b d r x) s = .next (advance { setW u w (arm W x.ev false) with
        cmds := s.cmds ++ [{ newCmd u w .spawn x A (sGet W b) none with
          dest := if r = 1 then some d else none, verdicts := [] }]
        nextCmd := s.nextCmd + 1 } w (lenE x)))) ∧
    ∀ (i : Instr) (kind : CmdKind) (batched mc : Bool),
      ((i, kind, batched, mc) ∈ [(Instr.cpy a b d r x, CmdKind.cpy, true, false), (.tmerge a b d r x, .tmerge, false, false),
        (.rput a b d r x, .rput, false, true), (.rputSig a b d r x, .rputSig, false, true),
        (.rget a b d r x, .rget, false, false), (.radd a b d r x, .radd, false, false),
        (.rsig a b d r x, .rsig, false, false)] ∨
       b = 0 ∧ (i, kind, batched, mc) ∈ [(Instr.rsel a d r x, CmdKind.rsel, true, false),
        (.skcfg a d r x, .skcfg, false, false), (.skmerge a d r x, .skmerge, false, false)]) →
      (suppressed W = true → GoesOn s w i (lenE x) W) ∧
      (suppressed W = false → evFull W x.ev = false → tileBusy W = false → (batched = true → W.closed.length < 8) →
        ∀ n v : Nat, n = (if sGet W b = 0 then 1 else (sGet W b).toNat) → v = acceptance s n A (peerVal W x) mc →
        (v ≠ 0 → exec i s = .next (advance (turned v (if v = 3 then 0x09 else 0x01)) w (lenE x))) ∧
        (∀ l ls, v = 0 → coreLines s W.core = l :: ls → exec i s = .next (askLines s (l :: ls))) ∧
        (v = 0 → coreLines s W.core = [] → ∀ (c : Cmd) (D : Nat → BitVec 512), c = newCmd u w kind x A (sGet W b) (peerVal W x) →
          (∀ j < n, engRead u c false (A + BitVec.ofNat 64 (64 * j)) 64 = ((D j).toNat, none)) →
          ∀ (c' : Cmd) (V : Warp) (t : State),
          c' = { c with
            descs := (List.range n).map fun j => .ok (D j), verdicts := []
            batch := if batched then some W.openId else none } →
          V = (if batched = false then arm W x.ev (isFabric kind)
            else if ∃ j < n, (D j).getLsbD 386 = true then closeBatch (joinBatch (arm W x.ev false))
            else joinBatch (arm W x.ev false)) →
          t = queued V c' →
          exec i s = .next (advance (if isPacketCmd kind = true then pumpCmd t c'.id 8192 else t)
            w (lenE x))))

/-- `cpwait n` ends at once, with the joining fence, when at most n batches are outstanding (n = 0 closes the open one
first), the warp's loads have returned and no tile operation is in the way, and else the warp waits until then (where
the joining fence would write lines that the host may cache, their back-invalidates go first: log 23). A copy of rows,
each a source and a destination stride after the one before, whose places are known and whose source and destination
do not overlap completes: each destination byte of each row holds its source byte, every other byte of memory and
scratchpads is as before, with policy mem the sectors written are then written to DRAM, and the command ends. A select
of a well-formed descriptor completes: it writes the indices of the k greatest elements, greatest first and ties in
ascending index, then all ones, 4 bytes each, and nothing else. (R136, R138, R248, R249, R250, R251, R252, R388) -/
def Obligations.CopyAndSelect : Prop :=
  (∀ (s : State) (w : Nat), w < s.warps.length → ∀ W : Warp, W = getW s w →
    (∀ (n : BitVec 6) (B : Warp), Issues s w → B = (if n = 0 then closeBatch W else W) →
      (∀ l ls, outstanding B ≤ n.toNat → W.pend = [] → tileBusy W = false → coreLines s W.core = l :: ls →
        exec (.cpwait n) s = .next (askLines (setW s w B) (l :: ls))) ∧
      (outstanding B ≤ n.toNat → W.pend = [] → tileBusy W = false → coreLines s W.core = [] → exec (.cpwait n) s =
        .next (advance (l1Fence (setW s w { B with stat := .running }) W.core) w 1)) ∧
      (n.toNat < outstanding B ∨ W.pend ≠ [] ∨ tileBusy W = true → exec (.cpwait n) s = .next (setW s w { B with stat := .waitCp n.toNat }))) ∧
    ∀ n : Nat, W.stat = .waitCp n →
      (∀ l ls, outstanding W ≤ n → W.pend = [] → tileBusy W = false → coreLines s W.core = l :: ls →
        exec (.cpwaitEnd w) s = .next (askLines s (l :: ls))) ∧
      (outstanding W ≤ n → W.pend = [] → tileBusy W = false → coreLines s W.core = [] → exec (.cpwaitEnd w) s =
        .next (advance (l1Fence (setW s w { W with stat := .running }) W.core) w 1)) ∧
      (n < outstanding W ∨ W.pend ≠ [] ∨ tileBusy W = true → exec (.cpwaitEnd w) s = .next s)) ∧
  (∀ (s : State) (k : Nat) (c : Cmd) (d : BitVec 512),
    ∀ flushed : State → (Nat → EngAt) → Nat → State → Prop, flushed = (fun u Q n t => ∃ ks,
      t = (if c.mem then flushSectors u ks else u) ∧
      ∀ j, j ∈ ks ↔ ∃ i < n, ∃ a, Q i = .pa a ∧ paSpace a < 2 ∧ j = a / 128) →
    cmdHeld s c 6 = false → c.descs = [.ok d] → fldA d 320 = 0 →
    fld d 387 125 = 0 →
    (∀ (len rows n : Nat) (at_ : Nat → Nat → Nat → W64) (P Q : Nat → EngAt), findCmd s k .cpy = some c → len = fld d 128 32 →
      0 < len → rows = fld d 160 32 → 0 < rows → n = rows * len →
      at_ = (fun base stride i => fldA d base + BitVec.ofNat 64 (i / len) * fldA d stride + BitVec.ofNat 64 (i % len)) →
      (∀ i < n, Steady s c (d.getLsbD 384) (at_ 0 192 i) .read (P i) ∧ engPoison s (P i) = false ∧
          (∀ a, P i = .pa a → NoError s none a 1) ∧
        Steady s c (d.getLsbD 385) (at_ 64 256 i) .write (Q i)) →
      (∀ i < n, ∀ j < n, P i ≠ Q j ∧ (i ≠ j → Q i ≠ Q j)) →
      ∃ u t, exec (.copyCommandComplete k) s = .next (endCmd t c) ∧ flushed u Q n t ∧ OnlyBytes s u ∧
        (∀ i < n, engGet u (Q i) = engGet s (P i)) ∧ ∀ p, (∀ i < n, Q i ≠ p) → engGet u p = engGet s p) ∧
    ∀ (f n top wd v : Nat) (Q : Nat → EngAt) (keys : List Nat), findCmd s k .rsel = some c → f = fld d 192 5 →
      n = fld d 128 32 → top = fld d 160 16 → selBytes f = some wd → fld d 197 123 = 0 → fld d 176 16 = 0 → 0 < top →
      top ≤ 4096 → 0 < n → n ≤ 2 ^ 31 → fld d 0 64 % wd = 0 → fld d 64 64 % 4 = 0 →
      engRead s c (d.getLsbD 384) (fldA d 0) (n * wd) = (v, none) →
      (∀ i < 4 * top, Steady s c (d.getLsbD 385) (fldA d 64 + BitVec.ofNat 64 i) .write (Q i)) →
      (∀ i < 4 * top, ∀ j < 4 * top, i ≠ j → Q i ≠ Q j) →
      keys = ((List.range n).map fun i => selKey f (8 * wd) (v / 2 ^ (8 * wd * i) % 2 ^ (8 * wd))) →
      ∃ u t, exec (.selectCommandComplete k) s = .next (endCmd t c) ∧ flushed u Q (4 * top) t ∧ OnlyBytes s u ∧
        (∀ i < top, ∀ b < 4, engGet u (Q (4 * i + b)) = BitVec.ofNat 8 ((selTop keys top).getD i 0 / 256 ^ b)) ∧
        ∀ p, (∀ i < 4 * top, Q i ≠ p) → engGet u p = engGet s p) ∧
  ∀ (keys T : List Nat) (top m : Nat), T = selTop keys top → m = min top keys.length →
    T.length = top ∧ (∀ j, m ≤ j → j < top → T.getD j 0 = 2 ^ 32 - 1) ∧
    ∀ key : Nat → Nat, key = (fun i => keys.getD i 0) → ∀ j < m, T.getD j 0 < keys.length ∧
      (∀ i < j, key (T.getD j 0) < key (T.getD i 0) ∨ key (T.getD i 0) = key (T.getD j 0) ∧ T.getD i 0 < T.getD j 0) ∧
      ∀ i < keys.length, i ∉ T.take m → key i < key (T.getD j 0) ∨ key i = key (T.getD j 0) ∧ T.getD j 0 < i

/-- In its turn, and not held, a well-formed `skcfg` of type 0 unbinds the window and ends; of another type it binds
the window to the checked body, all of whose frames one die homes and no write of which must wait, with init after
every byte of the body has been zeroed, without it after pop has been counted anew from the cells, everything else of
the body standing as it was. `skfold` on a bound window whose body is checked and good halves the region h times, each
halving written before the next (the model's choice, log 59: R291 speaks of the result), so that the size falls by h;
a Bloom cell becomes the OR of cell c and c + half, a counting cell their sum, stuck at 15, a frequency cell the
saturating sum of its row's two, in its signedness, a distinct register the greater of what the rule makes of two
neighbours, a histogram cell the saturating sum of two neighbours, each clamp setting csat. `skmerge` of a local
region handles one chunk of 4,096 bytes, each cell of it combined with the source's by the type's operator (OR, the
sum stuck at 15, the saturating or clamped sum, the greater) and no other cell changed, and ends with the last; a
merge that breaks a check ends with its code and changes no region. (R287, R290, R291, R292, R293, R294, R298) -/
def Obligations.SketchCommands : Prop :=
  ∀ (s : State) (k : Nat) (c : Cmd), skTurn s c = true → cmdHeld s c 5 = false →
    (∀ d : BitVec 512, findCmd s k .skcfg = some c → c.descs = [.ok d] → skcfgBad d = false → fldA d 192 = 0 →
      canonical (fldA d 0) = true → (fldA d 0).toNat % 2 ^ 47 = 0 → inWindow s c.job (fldA d 0) = true →
      ∀ others : List Binding, others = (s.bindings.filter fun b => !(b.job = c.job && b.window = fldA d 0)) →
      (fld d 256 4 = 0 → exec (.skcfgExecute k) s = .next (endCmd { s with bindings := others } c)) ∧
      ∀ (home len : Nat) (b : Binding), fld d 256 4 ≠ 0 → d.getLsbD 278 = true → home < 8 → b = skcfgBinding d c.job home →
        len = 256 + cellBytes b.type b.lgsize b.depth → b.body.toNat % 512 = 0 →
        bodyCheck s c b.body len .atomic = none → bodyHeld s c b.body len = none → (∀ h ∈ bodyStacks s c.job b.body len, h = home) →
        ∀ t, t = flushBody (zeroBody s ⟨b, none⟩ len) c b →
        exec (.skcfgExecute k) s = .next (endCmd { t with bindings := others ++ [b] } c) ∧
        ∀ p : Nat → Nat, c.mem = false → (∀ o < len, canonical (b.body + BitVec.ofNat 64 o) = true ∧
            Cached s c.job (b.body + BitVec.ofNat 64 o) .write c.verdicts (p o)) → ∀ o < len, l2Byte t (p o) = 0) ∧
    (∀ (d : BitVec 512) (others : List Binding) (home len : Nat) (b : Binding), findCmd s k .skcfg = some c →
      c.descs = [.ok d] → skcfgBad d = false → fldA d 192 = 0 → canonical (fldA d 0) = true → (fldA d 0).toNat % 2 ^ 47 = 0 →
      inWindow s c.job (fldA d 0) = true → others = (s.bindings.filter fun b => !(b.job = c.job && b.window = fldA d 0)) →
      fld d 256 4 ≠ 0 → d.getLsbD 278 = false → home < 8 → b = skcfgBinding d c.job home →
      len = 256 + cellBytes b.type b.lgsize b.depth → b.body.toNat % 512 = 0 →
      bodyCheck s c b.body len .atomic = none → bodyPoison s b 256 (len - 256) = none → bodyHeld s c b.body 256 = none →
      (∀ h ∈ bodyStacks s c.job b.body len, h = home) →
      ∃ t, exec (.skcfgExecute k) s = .next (endCmd { t with bindings := others ++ [b] } c) ∧
        ∀ (p : Nat → Nat) (n : Nat), c.mem = false → BodyAt s b c.verdicts len p →
          n = ((allCells b).filter fun q => decide ((cellGet s ⟨b, none⟩ q).2 ≠ 0)).length →
          (∀ o < 8, l2Byte t (p (8 + o)) = BitVec.ofNat 8 (n / 256 ^ o)) ∧
          ∀ o < len, (o < 8 ∨ 16 ≤ o) → l2Byte t (p o) = l2Byte s (p o)) ∧
    (∀ (b : Binding) (h len : Nat) (y : State × Binding), findCmd s k .skfold = some c →
      h = (if c.sb = 0 then 1 else c.sb.toNat) → canonical c.sa = true → inWindow s c.job c.sa = true →
      findBinding s c.job c.sa = some b → len = 256 + cellBytes b.type b.lgsize b.depth → (lgRange b.type).1 + h ≤ b.lgsize →
      bodyCheck s c b.body len .atomic = none → hdrPoison s b = none → bodyPoison s b 256 (len - 256) = none →
      bodyHeld s c b.body (256 + cellBytes b.type (b.lgsize - 1) b.depth) = none → y = iter foldOnce h (s, b) →
      exec (.skfoldExecute k) s = .next (endCmd (flushBody (putBinding y.1 y.2) c b) c) ∧
      y.2 = { b with lgsize := b.lgsize - h }) ∧
    (∀ (b : Binding) (cs : List Nat) (i x y u v : Nat), i < cs.length / 2 → x = cs.getD i 0 →
      y = cs.getD (i + cs.length / 2) 0 → u = cs.getD (2 * i) 0 → v = cs.getD (2 * i + 1) 0 →
      (b.type = 1 → (foldCells b cs)[i]? = some (x ||| y, 0)) ∧
      (b.type = 2 → (foldCells b cs)[i]? = some (if x = 15 ∨ y = 15 ∨ 15 ≤ x + y then (15, 2) else (x + y, 0))) ∧
      (b.type = 5 → (foldCells b cs)[i]? = some (max (if u = 0 then 0 else u + 1) (if v = 0 then 0 else 1), 0)) ∧
      (b.type = 6 → (foldCells b cs)[i]? = some (if u + v < 2 ^ 32 then (u + v, 0) else (2 ^ 32 - 1, 2)))) ∧
    (∀ (b : Binding) (cs : List Nat) (wd row j x y : Nat) (z : Int), wd = 2 ^ b.lgsize → cs.length = b.depth * wd →
      row < b.depth → j < wd / 2 → x = cs.getD (row * wd + j) 0 → y = cs.getD (row * wd + (j + wd / 2)) 0 →
      z = (BitVec.ofNat 32 x).toInt + (BitVec.ofNat 32 y).toInt →
      (b.type = 3 → (foldCells b cs)[row * (wd / 2) + j]? = some (if x + y < 2 ^ 32 then (x + y, 0) else (2 ^ 32 - 1, 2))) ∧
      (b.type = 4 → (foldCells b cs)[row * (wd / 2) + j]? = some (if z > 2 ^ 31 - 1 then (2 ^ 31 - 1, 2)
        else if z < -2 ^ 31 then (2 ^ 31, 2) else ((BitVec.ofInt 32 z).toNat, 0)))) ∧
    (∀ (b : Binding) (q : Region) (i lo chunks : Nat) (p : Nat → Nat) (t : State), 1 ≤ b.type → b.type ≤ 6 →
      (lgRange b.type).1 ≤ b.lgsize → BodyAt s b [] (256 + cellBytes b.type b.lgsize b.depth) p →
      t = applyChunk s ⟨b, none⟩ (.here q) ⟨lo, [], []⟩ i chunks →
      ∀ e ∈ allCells b, ∀ x y z : Nat, x = (cellGet s ⟨b, none⟩ e).2 → y = (cellGet s q e).2 →
        z = (cellGet t ⟨b, none⟩ e).2 →
        ((e.off - 256) / 4096 ≠ i → z = x) ∧
        ((e.off - 256) / 4096 = i →
          (b.type = 1 → z = x ||| y) ∧ (b.type = 2 → z = if x = 15 ∨ y = 15 ∨ 15 ≤ x + y then 15 else x + y) ∧
          (b.type = 4 → z = (BitVec.ofInt 32 (max (-2 ^ 31) (min (2 ^ 31 - 1)
            ((BitVec.ofNat 32 x).toInt + (BitVec.ofNat 32 y).toInt)))).toNat) ∧
          (b.type = 5 → z = max x y) ∧ (b.type = 3 ∨ b.type = 6 → z = min (2 ^ 32 - 1) (x + y)))) ∧
    ∀ d : BitVec 512, findCmd s k .skmerge = some c → farWaits s (.cmd k) = false → c.descs = [.ok d] → fldA d 128 = 0 →
      (∀ code, c.started = false → mergeBad s c d = some code →
        exec (.skmergeChunk k) s = .next (endCmd (cmdRecord s c code c.sa) c)) ∧
      ∀ (b : Binding) (q : Region) (i n chunks lo : Nat) (t : State) (c' : Cmd), (c.started = true ∨ mergeBad s c d = none) →
        findBinding s c.job (fldA d 0) = some b → mergeSrc s c d = some (.here q) → fld d 224 32 = 0 → i = c.at_ →
        lo = 256 + 4096 * i → n = min 4096 (cellBytes b.type b.lgsize b.depth - 4096 * i) →
        chunks = (cellBytes b.type b.lgsize b.depth + 4095) / 4096 →
        bodyCheck s c b.body 256 .atomic = none → bodyCheck s c (b.body + BitVec.ofNat 64 lo) n .atomic = none →
        bodyCheck s c q.b.body 256 .read = none → bodyCheck s c (q.b.body + BitVec.ofNat 64 lo) n .read = none →
        hdrPoison s b = none → bodyPoison s b lo n = none → (i + 1 = chunks → hdrPoison s q.b = none) →
        bodyPoison s q.b lo n = none → loopOut s c = false → bodyHeld s c b.body 256 = none →
        bodyHeld s c (b.body + BitVec.ofNat 64 lo) n = none → t = dropFar (applyChunk s ⟨b, none⟩ (.here q) ⟨lo, [], []⟩ i chunks) (.cmd c.id) →
        c' = { c with at_ := i + 1, done := c.done + n, started := true } →
        (i + 1 ≠ chunks → exec (.skmergeChunk k) s = .next (updCmd t c.id fun _ => c')) ∧
        (i + 1 = chunks → exec (.skmergeChunk k) s = .next (endCmd (flushBody t c b) c'))

/-- `bqpost` with a malformed sb is turned away with value 1. A post whose lanes all pass their checks handles the
performing lanes in order: it writes the record of a rejected one and hands another's command to its unit, up to the
first whose queue is full, which waits there with the lanes behind it; it arms its token unless every lane was
rejected, replies 0, and the warp goes on, or waits until every lane has a slot; a freed slot goes to the oldest
waiting command of the unit, and the lanes behind it go on. An idle unit in compute mode starts its oldest command,
and ends it with code 0x23 when its control store is bad. A unit whose next row's bank owes an urgent refresh waits,
and one in whose control store an error stands refuses its command; one that may write lines which the host caches
asks for them first. Else under the standard image it may read units of its pages, each by itself, and then runs the
entry's whole program in one step and writes its record (the model's choice, log 7: the standard image's micro-words
are not given); a fill of n units writes the query word to every word of their cells and no other memory. Under a
loaded image it runs one micro-word; after 65,536 without a column operation the command ends with code 0x23. `tmerge`
merges one descriptor's records, and ends with the last. (R305, R307, R308, R310, R313, R315, R316, R317, R318, R388,
R408, R410) -/
def Obligations.VatCommands : Prop :=
  (∀ (s : State) (w : Nat) (j : BitVec 6) (a b d : BitVec 6) (r : BitVec 1) (x : EPfx), Issues s w → ∀ W : Warp, W = getW s w →
    VectorsOk W [4 * j.toNat, 4 * j.toNat + 1, 4 * j.toNat + 2] → ScalarsOk W (a :: b :: d :: x.peer.toList) →
    (r = 1 ∨ d = 0) → suppressed W = false → evFull W x.ev = false → tileBusy W = false →
    (sbBad (sGet W b) = true → exec (.bqpost j a b d r x) s = .next (advance
      (if r = 1 then setW s w (sSet W d 1) else sendRecord s W 0 0x0A 1 W.word W.pc (sGet W a)) w (lenE x))) ∧
    ∀ (q : List W32) (p : PostArgs) (u v z : State), sbBad (sGet W b) = false → postQuery s W (sGet W b) = some q →
      queryBad s W (sGet W b) = none →
      p = ⟨W, j.toNat, sGet W a, (sGet W b).toNat / 2 ^ 24 % 256, q⟩ → ∀ (L : List Nat) (ps : List Posted),
      L = lanesOf (performing W) → ps = L.filterMap (posted s p s.nextPost) →
      (∀ k ∈ L, ∃ pa y, postLane s p k = (⟨k, p.desc k, .ok pa⟩, y) ∧ dataBad s (some W.core) pa 64 = false) →
      ((ps.filter Posted.reports) = [] ∨ s.xrecs.length + (ps.filter Posted.reports).length ≤ 1024) →
      ∀ (good : List PostItem) (y : State × List PostItem), good = (ps.map Posted.item).filter (fun e => e.code = 0) →
      u = ps.foldl (postReport w W) { fillDescs s p L with nextPost := s.nextPost + 1 } →
      y = postItems (if good = [] then u else { updW u w fun V => arm V x.ev false with
        posts := tabPut u.posts s.nextPost ⟨w, x.ev, good.length, []⟩ }) (ps.map Posted.item) →
      v = setTodo y.1 s.nextPost y.2 →
      z = advance (if r = 1 then updW v w fun V => sSet V d 0 else v) w (lenE x) →
      exec (.bqpost j a b d r x) s = .next (if z.vatWait.any fun e => e.2.post = s.nextPost then
        updW z w fun V => { V with stat := .waitPost } else z)) ∧
  (∀ (z : State) (e : PostItem) (es : List PostItem), postItems z [] = (z, []) ∧
    (e.code ≠ 0 → postItems z (e :: es) = postItems (writeRecord z e.cmd 0 0 (List.replicate e.words 0) e.code 0 0) es) ∧
    (e.code = 0 → unitLoad (unitOf z e.unit) < 4 → (∀ q ∈ z.vatWait, q.1 ≠ e.unit) →
      postItems z (e :: es) = postItems (enqueue z e.unit e.cmd) es) ∧
    (e.code = 0 → (4 ≤ unitLoad (unitOf z e.unit) ∨ ∃ q ∈ z.vatWait, q.1 = e.unit) →
      postItems z (e :: es) = ({ z with vatWait := z.vatWait ++ [(e.unit, e.cmd)] }, es))) ∧
  (∀ (s : State) (u : Nat),
    (∀ (c : VatCmd) (t : State), s.vatWait.find? (fun e => e.1 = u) = some (u, c) → unitLoad (unitOf s u) < 4 →
      t = enqueue { s with vatWait := s.vatWait.erase (u, c) } u c →
      (tabFind t.posts c.post = none → exec (.vatQueueSlotGrant u) s = .next t) ∧
      ∀ y, tabFind t.posts c.post = some y →
        (∀ l ls, itemLines s y.todo = l :: ls → exec (.vatQueueSlotGrant u) s = .next (askLines s (l :: ls))) ∧
        (itemLines s y.todo = [] → ∀ (z : State × List PostItem) (v : State), z = postItems t y.todo →
          v = setTodo z.1 c.post z.2 → exec (.vatQueueSlotGrant u) s = .next (
            if (v.vatWait.any fun e => e.2.post = c.post) ∨ (getW v y.warp).stat ≠ .waitPost then v
            else updW v y.warp fun W => { W with stat := .running }))) ∧
    (∀ (c : VatCmd) (rest : List VatCmd), unitOf s u = ⟨c :: rest, none⟩ → (chanOf s (u / 8)).state = .compute →
      ((mouldOf s (u / 2048)).badUnits.contains u = true → recLines s c (entryClass (entryWord s (u / 2048) c.entry)) = []) →
      ∀ t, t = putUnit s u ⟨rest, some (startRun s u c)⟩ → exec (.vatCommandStart u) s =
        .next (if (mouldOf s (u / 2048)).badUnits.contains u then endBlank t u c else t)) ∧
    ∀ r : VatRun, (unitOf s u).run = some r →
      (∀ l ls, vatLines s u r = l :: ls → exec (.microWord u) s = .next (askLines s (l :: ls))) ∧
      (vatLines s u r = [] →
      (65536 ≤ r.idle → exec (.microwordWatchdog u) s = .next (endBlank s u r.cmd)) ∧
      (r.idle < 65536 → exec (.microwordWatchdog u) s = .next s) ∧
      (∀ e, controlBad s u r = some e → exec (.microWord u) s = .next (controlError s u e r.cmd)) ∧
      (controlBad s u r = none → opensHeld s u r = true → exec (.microWord u) s = .next s) ∧
      (controlBad s u r = none → opensHeld s u r = false → (∀ es ws, (mouldOf s (u / 2048)).image = some (es, ws) → r.idle < 65536 →
        exec (.microWord u) s = .next (microStep (metCorrected s u r) u ws r)) ∧
      ((mouldOf s (u / 2048)).image = none → ∀ pa, earlyRead s u r = some pa → exec (.microWord u) s =
        .next (putUnit { s with ctr := s.ctr + 1 } u { unitOf s u with
          run := some { r with seen := tabPut r.seen pa (memRead s.mem (cellOf pa) 32) } })) ∧
      ((mouldOf s (u / 2048)).image = none → earlyRead s u r = none →
        ∀ y, y = runClass r.seen (metCorrected s u r) r.cmd (vatClass s u r) → exec (.microWord u) s = .next (endVat (match y.2.bad with
          | some pa => vatError y.1 u pa r.cmd
          | none => y.1) u y.2.t.m y.2.t.l y.2.t.o y.2.code y.2.row y.2.n))))) ∧
  (∀ (s : State) (c : VatCmd) (n : Nat) (pa : Nat → Nat) (q : W32), vdCount c.desc = 32 * n → c.query = [q] →
    (∀ i < n, heldPa c (vdA c.desc + BitVec.ofNat 64 (32 * i)) = some (pa i) ∧ pa i % 32 = 0 ∧
      dramPoisoned s (pa i) 32 = false) → (∀ i < n, ∀ j < n, i ≠ j → cellOf (pa i) ≠ cellOf (pa j)) → ∀ seen : Tab Nat, ∃ y, y = runClass seen s c 5 ∧ y.2.code = 0 ∧ y.2.bad = none ∧
      (∀ i < n, ∀ b < 32, memGet y.1.mem (cellOf (pa i) + b) = BitVec.ofNat 8 (q.toNat / 256 ^ (b % 4))) ∧
      ∀ m, (∀ i < n, ¬ Covers (cellOf (pa i)) 32 m) → memGet y.1.mem m = memGet s.mem m) ∧
  ∀ (s : State) (k : Nat) (c : Cmd) (d : BitVec 512) (n X Y : Nat) (P : List EngAt) (t u : State),
    findCmd s k .tmerge = some c → cmdHeld s c 6 = false → c.descs[c.at_]? = some (.ok d) → fld d 264 248 = 0 →
    fld d 256 8 ≤ 128 → n = 16 + 4 * fld d 256 8 → fldA d 192 = 0 →
    fld d 0 64 % 16 = 0 → fld d 64 64 % 16 = 0 → fld d 128 64 % 16 = 0 → engRead s c false (fldA d 0) n = (X, none) →
    engRead s c false (fldA d 64) n = (Y, none) → engRun s c false (fldA d 128) n .write = (P, none) →
    t = engWrite s P (mergeBytesOf (recFields X (fld d 256 8)) (recFields Y (fld d 256 8))) →
    u = (if c.mem then flushSectors t (placeSectors P) else t) →
    (c.at_ + 1 = c.descs.length → exec (.tmergeDescriptor k) s = .next (endCmd u c)) ∧
    (c.at_ + 1 < c.descs.length → exec (.tmergeDescriptor k) s =
      .next (updCmd u c.id fun e => { e with at_ := e.at_ + 1, started := true }))

/-- The discarded doorbell of a disabled queue, its low 32 bits and the answer 2 to a broken descriptor are the
model's choices of log 34, and the masks of registers that software writes those of log 48. Where no line is asked
back from the host first (a doorbell whose descriptor the host caches is held until it answers), no bank of a table
owes an urgent refresh and no descriptor is uncorrectable (which is recorded, a spawn then failing with value 3): in
stage 3 a doorbell moves the queue's write index when the queue is enabled, is no spawn queue, and the new index lies
neither behind what it holds nor beyond its length, and is discarded otherwise; a descriptor that breaks its layout is
taken out of service instead. A spawn is turned away with value 2 for no such queue and with value 1 for a full one;
else its packet is written in the next slot, the write index moves, and the value is 0. The engine takes the best
ready head (while its firmware is switched, only what a cancel takes out or a launch in flight has spawned): the read
index counts it and a launch stands for it, refused with the code that its checks give, or with 8 where its packet or
a counter is uncorrectable, or cancelled. A poll asks for the page of a counter that is not resident, and tries the
engine's waiting writes again. A cancel in stage 3 ends the launches that it matches, or waits for a switch of the
engine's firmware to end. A register write reaches its register, aligned or cut as its block says; a misaligned one,
and one before stage 3 outside the life-cycle block, are discarded. (R202, R330, R331, R333, R334, R336, R338, R346,
R347, R351) -/
def Obligations.QueuesAndDispatch : Prop :=
  ∀ s : State,
    (∀ (q : BitVec 6) (v : W64) (d n : Nat), d = qDesc s q.toNat → n = (v.toNat % 2 ^ 32 + 2 ^ 32 - qRead d) % 2 ^ 32 →
      paExists (qAt s q.toNat) = true → paExists (qAt s q.toNat + 63) = true → s.stage = 3 →
      (∀ l ls, heldLines s (qAt s q.toNat) 64 = l :: ls → exec (.doorbell q v) s =
        .next { askLines s (l :: ls) with heldIn := s.heldIn ++ [.doorbell q v] }) ∧
      (heldLines s (qAt s q.toNat) 64 = [] → runDue s (qAt s q.toNat) 64 = false →
      (∀ a, queueBad s q.toNat = some a → exec (.doorbell q v) s = .next (consumed s none a 32 0 0 0)) ∧
      (queueBad s q.toNat = none →
      (qOn d = true → qBad s d = true → exec (.doorbell q v) s = .next (qDisable s q.toNat)) ∧
      (qSpawn d = false → qOn d = true → qBad s d = false → n ≤ qLen d → qHeld d ≤ n →
        exec (.doorbell q v) s = .next (tblStore s (qAt s q.toNat + 8) 4 (v.toNat % 2 ^ 32))) ∧
      (qOn d = false ∨ qBad s d = false ∧ (qSpawn d = true ∨ qLen d < n ∨ n < qHeld d) →
        exec (.doorbell q v) s = .next s)))) ∧
    (∀ (k : Nat) (c : Cmd), findCmd s k .spawn = some c → waitsRecord s (.cmd k) = false →
      (∀ e ∈ s.cmds, e.kind = .spawn → e.sb = c.sb → k ≤ e.id) →
      ∀ answer : State → Nat → State, (∀ t v, answer t v = endCmd (match c.dest with
        | some rd => updW t c.warp fun W => sSet W rd (BitVec.ofNat 64 v)
        | none => if v = 0 then t else cmdRecord t c (if v = 1 then 0x0C else if v = 3 then 0x08 else 0x0D) c.sa) c) →
      (63 < c.sb.toNat → exec (.spawnAppend k) s = .next (answer s 2)) ∧
      ∀ (q d : Nat) (p : BitVec 1024), q = c.sb.toNat → q ≤ 63 → d = qDesc s q → paExists (qAt s q) = true →
        paExists (qAt s q + 63) = true → heldLines s (qAt s q) 64 = [] → runDue s (qAt s q) 64 = false →
        (∀ a, queueBad s q = some a → exec (.spawnAppend k) s = .next (answer (consumed s none a 32 0 0 0) 3)) ∧
        (queueBad s q = none →
        (qOn d = true → qBad s d = true → s.stage = 3 → exec (.spawnAppend k) s = .next (answer (qDisable s q) 2)) ∧
        (qOn d = false ∨ qBad s d = false ∧ (qSpawn d = false ∨ qJob d ≠ c.job) →
          exec (.spawnAppend k) s = .next (answer s 2)) ∧
        (qOn d = true → qSpawn d = true → qJob d = c.job → s.stage = 3 → spawnPacket s c = .ok p → qBad s d = false →
          (qLen d ≤ qHeld d → exec (.spawnAppend k) s = .next (answer s 1)) ∧
          (qHeld d < qLen d → paExists (qSlot d (qWrite d)) = true → paExists (qSlot d (qWrite d) + 127) = true →
            heldLines s (qSlot d (qWrite d)) 128 = [] → runDue s (qSlot d (qWrite d)) 128 = false → ∀ a, a = qSlot d (qWrite d) → exec (.spawnAppend k) s = .next (answer
              (tblStore (tblStore s a 128 p.toNat) (qAt s q + 8) 4 ((qWrite d + 1) % 2 ^ 32)) 0))))) ∧
    (s.stage = 3 → paExists (qAt s 0) = true → paExists (qAt s 0 + 4095) = true →
      heldLines s (qAt s 0) 4096 = [] → runDue s (qAt s 0) 4096 = false → (∀ q < 64, headOf s q ≠ .broken ∧ headOf s q ≠ .dead) →
      ∀ best, best = bestHead s ((readyHeads s).filter fun h => !fwHolds s 1 || h.2.2.2 || qSpawn (qDesc s h.1)) →
      (best = none → exec .dispatch s = .next s) ∧
      ∀ (q prio d : Nat) (p : BitVec 1024) (gone : Bool), best = some (q, prio, p, gone) →
        d = qDesc s q → runDue s (qSlot d (qRead d)) 128 = false → paExists (qSlot d (qRead d)) = true → paExists (qSlot d (qRead d) + 127) = true →
        ∀ (code e : Nat) (t : State), (gone = true ∧ code = 0 ∧ t = s ∨
          (gone = false ∧ ∃ x a n, headOf s q = .spoiled x a n ∧ code = 8 ∧ t = consumed s none a n 2 (qJob d) (pkId p)) ∨
          gone = false ∧ (∀ x a n, headOf s q ≠ .spoiled x a n) ∧ ∃ (bs : List BadEntry) (lost : List Nat),
            refusal s (.queue q) (qJob d) p = .code code bs lost ∧ (bs = [] ∨ s.xrecs.length + bs.length ≤ 1024) ∧
            t = bs.foldl (fun t b => reportBad t (qJob d) (some b) .read (.launcher (.queue q)))
              (lost.foldl (fun t a => consumed t none a 8 2 (qJob d) (pkId p)) s)) →
        e = qDesc t q →
        exec .dispatch s = .next { tblStore t (qAt s q + 12) 4 ((qRead e + 1) % 2 ^ 32) with
          launches := s.launches ++ [{ Launch.blank with
            packet := p, queue := q, job := qJob e, prio := prio, waitFrom := some s.clock
            hold := s.xheld.contains (q, qRead e), endState := if gone then 2 else if code = 0 then 0 else 3
            endCode := code }]
          qpos := tabSet 0 s.qpos prio ((q + 1) % 64), lverdicts := s.lverdicts.filter fun v => v.1 ≠ .queue q
          xheld := s.xheld.filter fun x => x ≠ (q, qRead e)
          canStat := if gone then s.canStat + 1 else s.canStat }) ∧
    (s.stage = 3 →
      ((∀ q < 64, ∀ y, headOf s q ≠ .wait y) → exec .counterPoll s = .next (retryFrees s)) ∧
      ∀ (q : Nat) (y : WaitWhy), q < 64 → headOf s q = .wait y → (∀ r < 64, r ≠ q → ∀ z, headOf s r ≠ .wait z) →
        exec .counterPoll s = .next (waitOn (retryFrees s) (qJob (qDesc s q)) y .read (.launcher (.queue q)))) ∧
    (∀ (v : W64) (kind job : Nat) (ident : W32) (r : Running) (ls : List Nat), kind < 3 → job < 256 →
      v.toNat = ident.toNat + 2 ^ 32 * job + 2 ^ 62 * kind → r = ⟨kind, job, ident, 0, []⟩ → ls = matched s r →
      (s.cancel = none → s.stage = 3 → fwHolds s 1 = false → exec (.cancel v) s = .next (endCancel
        (ls.foldl (fun t l => endLaunch t l 2 0) { s with cancel := some r, canStat := ls.length }))) ∧
      (s.cancel = none → s.stage = 3 → fwHolds s 1 = true →
        exec (.cancel v) s = .next { s with heldIn := s.heldIn ++ [.cancel v] }) ∧
      (s.cancel ≠ none ∨ s.stage ≠ 3 → exec (.cancel v) s = .next s)) ∧
    ∀ (off : Nat) (v : W64),
      (s.stage = 3 → ∀ x, (off, x) ∈ [(0x10000, v.toNat / 2 ^ 12 * 2 ^ 12), (0x10008, v.toNat / 2 ^ 13 * 2 ^ 13),
          (0x10010, v.toNat % 8), (0x20000, v.toNat / 2 ^ 13 * 2 ^ 13), (0x30028, v.toNat / 2 ^ 16 * 2 ^ 16),
          (0x40028, v.toNat / 2 ^ 13 * 2 ^ 13), (0x200008, v.toNat % 2 ^ 5), (0x200020, v.toNat % 2 ^ 9)] →
        exec (.registerWrite off v) s = .next (barSet s off (BitVec.ofNat 64 x))) ∧
      (s.stage = 3 → ∀ q : BitVec 6, off = 0x10100 + 8 * q.toNat →
        exec (.registerWrite off v) s = exec (.doorbell q v) s) ∧
      (off % 8 ≠ 0 → exec (.registerWrite off v) s = .next s) ∧
      (s.stage ≠ 3 → off / 2 ^ 12 ≠ 0x300 → exec (.registerWrite off v) s = .next s)

/-- That an error which comes to stand in a register is met by the next vector word that reads vector registers,
whichever it reads, is the model's choice of log 51, and that counters and the status record are skipped where their
page does not translate that of log 35. Where no line is asked back from the host first: the next gang of a launch
that may be placed goes to cores on which it fits: it runs, or is held until its release; each new warp stands at the
packet's entry with its parameters in s1 and its data in s2. After 64 us of waiting the next gang is marked starved. A
held gang starts when TIME reaches its release. In a cycle of a partition the warp that goes first among those ready
is chosen (192 waits or more before fewer, then the greater weighted wait, then the lower slot), and the other ready
ones wait one cycle more; lanes in whose registers an error stands die before a vector word issues. The datapath
changes, with a bubble of 2 cycles, when work of the other kind is ready, and else stays as it is. A launch with
nothing left completes, after what its warps wrote in the L1s of its cores, and nothing else there, has been written
back; its status record is 1 when it ended clean. A core without a group takes the new split. The launch engine
appends the oldest fault record, or counts it as dropped when the log is full. (R155, R245, R246, R264, R331, R337,
R338, R342, R343, R345, R348) -/
def Obligations.PlacementAndCompletion : Prop :=
  ∀ s : State,
    (∀ (l x : Nat) (L : Launch) (cores : List Nat), L = getL s l → s.stage = 3 → l < s.launches.length →
      wantsPlace s L = true → savedGangs s L = [] → mayPlace s l = true → L.nextGang < pkGangs L.packet →
      pkCores L.packet = false → gangFits s L.packet cores = true → x = s.gangs.length →
      cores.flatMap (coreLines s) = [] → ∃ t, exec (.gangPlacement l cores) s = .next t ∧ (getL t l).nextGang = L.nextGang + 1 ∧
        t.gangs.length = x + 1 ∧ (getGang t x).gid = L.nextGang ∧ (getGang t x).launch = l ∧
        (getGang t x).stat = (if pkRelease L.packet ≤ s.time.toNat then .running else .held) ∧
        t.warps.length = s.warps.length + pkGang L.packet * pkGroup L.packet ∧
        (∀ v < s.warps.length, getW t v = getW s v) ∧
        ∀ v, s.warps.length ≤ v → v < t.warps.length → ∀ V : Warp, V = getW t v → V.launch = l ∧ V.gang = x ∧
          V.pc = pkEntry L.packet ∧ V.core ∈ cores ∧ V.nv = pkVregs L.packet ∧ V.ns = pkSregs L.packet ∧
          sGet V 1 = pkParams L.packet ∧ sGet V 2 = pkData L.packet ∧ V.exm = BitVec.allOnes 32 ∧ V.started = false) ∧
    (∀ (l : Nat) (c : W64), (getL s l).waitFrom = some c → wantsPlace s (getL s l) = true →
      (6400 * s.coreClk ≤ (s.clock - c).toNat → exec (.placementStarvationTimeout l) s =
        .next (updL s l fun L => { L with starved := true })) ∧
      ((s.clock - c).toNat < 6400 * s.coreClk → exec (.placementStarvationTimeout l) s = .next s)) ∧
    (∀ g : Nat, (getGang s g).stat = .held → ∀ rel, rel = pkRelease (getL s (getGang s g).launch).packet →
      (rel ≤ s.time.toNat → exec (.gangRelease g) s = .next (updGang s g fun y => { y with stat := .running })) ∧
      (s.time.toNat < rel → exec (.gangRelease g) s = .next s)) ∧
    (∀ (part : Nat) (ready lets : List Nat), s.swap = none → ready = (readyIn s part).map Prod.fst →
      lets = (((readyIn s part).filter fun r => datapathLets s part r.2).map Prod.fst) →
      ∀ t : State, t = ready.foldl (fun u v => updW u v fun W => { W with waits := W.waits + 1 })
        { s with turn := (part + 1) % 4096 } →
      (lets = [] → exec (.schedulerCycle part) s = .next t) ∧
      (lets ≠ [] → ∃ w ∈ lets, (pkTether (warpPkt s (getW s w)) = false ∨ Config.shadowDiffers s.ctr = false →
          (regBad s w = none ∨ (∀ i, (w, i) ∈ readyIn s part → readsVector i = false) → ∃ u, exec (.schedulerCycle part) s = .next u ∧
            u = { updW t w fun W => { W with waits := 0 } with cur := some w, grids := u.grids }) ∧
          ∀ e, regBad s w = some e → (∃ i, (w, i) ∈ readyIn s part ∧ readsVector i = true ∧ datapathLets s part i = true) →
            exec (.schedulerCycle part) s = .next (loseRegs t w e)) ∧
        ∀ v ∈ lets, ∀ a b : Warp, a = getW s v → b = getW s w →
          (192 ≤ a.waits → 192 ≤ b.waits ∧ (a.waits < b.waits ∨ a.waits = b.waits ∧ b.slot ≤ a.slot)) ∧
          (a.waits < 192 → 192 ≤ b.waits ∨ a.waits + 16 * a.lag < b.waits + 16 * b.lag ∨
            a.waits + 16 * a.lag = b.waits + 16 * b.lag ∧ b.slot ≤ a.slot))) ∧
    (∀ (part : Nat) (d : Datapath), d = dpAt s part →
      ∀ becomes : GridConf → State, becomes = (fun c =>
        { s with grids := tabSet Datapath.blank s.grids part ⟨c, 0, d.last, s.clock + 2⟩ }) →
      (inBubble s d = false → d.conf = .vector → stepReady s part = true →
        exec (.datapathConfigurationChange part) s = .next (becomes .grid)) ∧
      (inBubble s d = false → d.conf = .grid → (∃ r ∈ readyIn s part, isVectorPort r.2 = true) →
        exec (.datapathConfigurationChange part) s = .next (becomes .vector)) ∧
      (inBubble s d = true ∨ d.conf = .idle ∨ d.conf = .vector ∧ stepReady s part = false ∨
          d.conf = .grid ∧ (∀ r ∈ readyIn s part, isVectorPort r.2 = false) →
        exec (.datapathConfigurationChange part) s = .next s)) ∧
    (∀ (l : Nat) (L : Launch) (a b c d : XRes) (ps : List (XRes × AccKind)), L = getL s l → l < s.launches.length →
      launchOver s l = true → a = complPa s l L.job (pkStatus L.packet) .write →
      b = complPa s l L.job (pkLcount L.packet) .atomic → c = complPa s l L.job (pkGcount L.packet) .atomic →
      d = complPa s l L.job (jobCount s L.job) .atomic → (∀ r ∈ [a, b, c, d], ∀ y, r ≠ .wait y) →
      ps = [(a, .write), (b, .atomic), (c, .atomic), (d, .atomic)] →
      (reportCount ps = 0 ∨ s.xrecs.length + reportCount ps ≤ 1024) → (launchCores s L).flatMap (wroteLines s l) = [] →
      ∃ t, exec (.launchComplete l) s = .next t ∧
        t = finishLaunch (reportAll s l L.job (pkId L.packet) ps) l (placeIn a) (placeIn b) (placeIn c) (placeIn d) ∧ (getL t l).complete = true ∧
        (∀ k, (k, l) ∉ s.l1By → tabFind t.l1 k = tabFind s.l1 k) ∧
        (∀ k e, (k, l) ∈ s.l1By → k / 2 ^ 48 ∈ launchCores s L → tabFind t.l1 k = some e → l1Dirty e = false) ∧
        (L.endState = 0 → L.dropped = false → statusRecord L = 1 + 2 ^ 64 * L.parked + 2 ^ 96 * L.dead)) ∧
    (∀ core < 1024, s.stage = 3 → groupsOn s core = [] → exec (.lsplitApply core) s =
      .next { s with splits := tabSet 7 s.splits core ((barGet s 0x10010).toNat % 8) }) ∧
    ∀ (r : RecOut) (rest : List RecOut) (L : Launch) (log : W64) (pa ra n : Nat), s.recq = r :: rest → L = getL s r.launch →
      log = BitVec.ofNat 64 (pkFaultLog L.packet) → log ≠ 0 → logAt s r.launch L.job log = .ok pa → n = l2Read s pa 8 → dataBad s none pa 8 = false →
      (n < pkLogCap L.packet → logAt s r.launch L.job (log + BitVec.ofNat 64 (64 + 32 * n)) = .ok ra → exec .faultRecordAppend s =
        .next (spendVerdicts (l2Store (clearCovered (l2Store { s with recq := rest } ra 32 r.body.toNat) [(ra, 32)]) pa 8 (n + 1))
          (.log r.launch))) ∧
      (pkLogCap L.packet ≤ n →
        exec .faultRecordAppend s = .next (spendVerdicts (dropRecord { s with recq := rest } r.launch L.job log) (.log r.launch)))

/-- That an image which cannot be read ends the launch with code 7, and where the warps of a gang that is being
stopped stand, are the model's choices of log 37, and the shadow's catching up before the save that of log 21. Where
no line is asked back from the host first, no bank of a table owes an urgent refresh and, for a command's arrival, no
switch of the engine's firmware holds it: a pre-empt command holds the launches that it matches, those still in a ring
too, and waits for their placed gangs; a resume lets held launches be placed again and reports how many saved gangs
return; either is discarded while a command runs. A gang that is called for claims a save slot and is being stopped;
once every warp stands where it stops, and no page of its slot waits and no shadow differs, its image stands at the
slot, its pieces over zeros, its cores are free and it is saved, and the command's count rises; with no slot it runs
on. One that is not called for stays as it is, but for what the engine's look at its slot meets. A saved gang that
comes next is restored on cores on which it fits, the gangs of a co-resident launch together, a malformed image ending
the launch with code 7. A swap of a running launch with a well-formed descriptor starts; one that matches no launch,
or whose descriptor is malformed, is marked bad and starts nothing. (R339, R340, R358, R359, R360, R361, R365, R366,
R367) -/
def Obligations.PreemptionAndSwap : Prop :=
  ∀ s : State,
    (∀ (v : W64) (kind job : Nat) (ident : W32) (op : Nat), kind < 3 → job < 256 → op < 2 →
      v.toNat = ident.toNat + 2 ^ 32 * job + 2 ^ 61 * op + 2 ^ 62 * kind → s.stage = 3 → fwHolds s 1 = false →
      ∀ (r : Running) (ls : List Nat), r = ⟨kind, job, ident, op, []⟩ → ls = matched s r →
      (s.xcmd ≠ none → exec (.xcmdPreempt v) s = .next s ∧ exec (.xcmdResume v) s = .next s) ∧
      (s.xcmd = none → op = 0 → ∀ (gs : List Nat) (t : State),
        gs = (ls.flatMap fun l => (getL s l).gangs.filter fun g => match (getGang s g).stat with
          | .running | .held | .stopping _ => true
          | .saved _ | .released => false) →
        t = ls.foldl (fun t l => updL t l fun L => { L with hold := true }) { s with
          xcmdCount := 0, xcmdNoSlot := false, xheld := s.xheld ++ (ringPackets s r).filter fun e => !s.xheld.contains e } →
        (gs = [] → exec (.xcmdPreempt v) s = .next { t with msix := s.msix ++ [5] }) ∧
        (gs ≠ [] → exec (.xcmdPreempt v) s = .next { t with xcmd := some { r with left := gs } })) ∧
      (s.xcmd = none → op = 1 → ∀ hs : List Nat, hs = (ls.filter fun l => (getL s l).hold) →
        exec (.xcmdResume v) s = .next (hs.foldl (fun t l => updL t l fun L => { L with hold := false }) { s with
          xcmdCount := (hs.map fun l => (savedGangs s (getL s l)).length).sum
          xcmdNoSlot := false, msix := s.msix ++ [5], xheld := s.xheld.filter fun e => !(ringPackets s r).contains e }))) ∧
    (∀ g < s.gangs.length,
      (∀ slot, (getGang s g).stat = .stopping slot → gangStopped s g = true →
        ((getGang s g).groups.flatMap fun h => coreLines s (getG s h).core) = [] → ∀ (L : Launch) (r : RunRes),
        L = getL s (getGang s g).launch → r = runState s g L.job (slotBase (xhEntry s L.job) slot) (imageSize L.packet) .write →
        (∀ w, catchUp s g = some w → exec (.preemption g) s = .next (tetherKill s w)) ∧
        (∀ y, catchUp s g = none → r = .wait y → exec (.preemption g) s = .next (waitOn s L.job y .write (.launcher (.gang g)))) ∧
        (catchUp s g = none → r = .ok → ∃ t, t = saveGang s g slot ∧
        (getGang t g).stat = .saved slot ∧ exec (.preemption g) s = .next (xcmdDone t g true) ∧
        ∀ h ∈ (getGang s g).groups, ∀ w ∈ (getG s h).warps, w < s.warps.length → warpGone (getW s w) = false →
          (getW t w).stat = .saved) ∧
        (∀ b, catchUp s g = none → r = .bad b → exec (.preemption g) s =
          .next (xcmdDone (saveGang (reportBad s L.job b .write (.launcher (.gang g))) g slot) g true)) ∧
        (∀ a, catchUp s g = none → r = .dead a → exec (.preemption g) s =
          .next (xcmdDone (saveGang (consumed s none a 8 0 L.job (pkId L.packet)) g slot) g true)) ∧
        ∀ t, t = saveGang s g slot →
          (∀ core, groupsOn t core = (groupsOn s core).filter fun G => decide (G.gang ≠ g)) ∧
          ∀ (q : State) (base : W64) (p : Nat → Nat),
            q = (((getGang s g).groups.flatMap fun h => (getG s h).warps).foldl quietWarp s) →
            base = slotBase (xhEntry q L.job) slot → (∀ o < imageSize L.packet, canonical (base + BitVec.ofNat 64 o) = true ∧
              Cached s L.job (base + BitVec.ofNat 64 o) .write [] (p o) ∧ ∀ j < imageSize L.packet, p o = p j → o = j) →
            ∀ o < imageSize L.packet, l2Byte t (p o) =
              match (gangPieces q g).reverse.find? (fun e => decide (e.1 ≤ o) && decide (o < e.1 + e.2.1)) with
              | some e => BitVec.ofNat 8 (e.2.2 / 256 ^ (o - e.1))
              | none => 0) ∧
      ((∃ slot, (getGang s g).stat = .saved slot) ∨ (getGang s g).stat = .released →
        exec (.preemption g) s = .next (xcmdDone s g true)) ∧
      (∀ slot, (getGang s g).stat = .stopping slot → gangStopped s g = false → exec (.preemption g) s = .next s) ∧
      ((getGang s g).stat = .running ∨ (getGang s g).stat = .held → inXcmd s g = false →
        (∀ l < s.launches.length, victimFor s l ≠ some g) → exec (.preemption g) s = .next (if lookedAt s g then
          (match claimAll s (withPeers s g) with
            | .none j b => reportBad s j (b.map Prod.fst) ((b.map Prod.snd).getD .atomic) (.launcher (.gang g))
            | .dead j pa => consumed s none pa 8 0 j 0
            | .ok _ => s
            | .wait _ _ _ _ => s) else s)) ∧
      ((getGang s g).stat = .running ∨ (getGang s g).stat = .held → inXcmd s g = true →
        ∀ ends : State → State, ends = (fun t => (withPeers s g).foldl (fun u h => spendVerdicts u (.gang h)) t) →
        (∀ t, claimAll s (withPeers s g) = .ok t → exec (.preemption g) s = .next (ends t)) ∧
        (∀ h j y a, claimAll s (withPeers s g) = .wait h j y a →
          exec (.preemption g) s = .next (waitOn s j y a (.launcher (.gang h)))) ∧
        (∀ j b, claimAll s (withPeers s g) = .none j b →
          exec (.preemption g) s = .next (xcmdDone (ends (reportBad s j (b.map Prod.fst) ((b.map Prod.snd).getD .atomic)
            (.launcher (.gang g)))) g false)) ∧
        ∀ j pa, claimAll s (withPeers s g) = .dead j pa →
          exec (.preemption g) s = .next (xcmdDone (ends (consumed s none pa 8 0 j 0)) g false))) ∧
    (∀ (g slot : Nat) (cores : List Nat) (L : Launch), L = getL s (getGang s g).launch → s.stage = 3 → wantsPlace s L = true → (savedGangs s L).head? = some g → mayPlace s (getGang s g).launch = true →
      ∀ kept : State → State, kept = (fun t => (if pkCores L.packet then savedGangs s L else [g]).foldl (fun u h => spendVerdicts u (.gang h)) t) →
      cores.flatMap (coreLines s) = [] → (∀ h slot, (getGang s h).stat = .saved slot → headerBads s h (slotBase (xhEntry s L.job) slot) = []) →
      (∀ t, pkCores L.packet = true → (∀ h ∈ L.gangs, (getGang s h).stat = .released ∨ h ∈ savedGangs s L) →
        imageWait s (savedGangs s L) = none → restoreAll s (savedGangs s L) cores = some t →
        exec (.gangRestore g cores) s = .next (kept t)) ∧
      (pkCores L.packet = false → imageWait s [g] = none → (getGang s g).stat = .saved slot →
      gangFits s L.packet cores = true → ∃ t, exec (.gangRestore g cores) s = .next (kept t) ∧ t = restoreGang s g slot cores ∧
        (gangImageBad s g (slotBase (xhEntry s L.job) slot) = true →
          t = endLaunch (imageReport s g (slotBase (xhEntry s L.job) slot)) (getGang s g).launch 4 7))) ∧
    ∀ (v : W64) (d job : Nat) (obase nbase : W64), s.swap = none → s.stage = 3 → fwHolds s 1 = false → paExists v.toNat = true →
      paExists (v.toNat + 63) = true → runDue s v.toNat 64 = false → d = tblRead s v.toNat 64 → obase = BitVec.ofNat 64 d →
      nbase = BitVec.ofNat 64 (d / 2 ^ 64) → job = d / 2 ^ 224 % 256 →
      ∀ P : Nat → Bool, P = (fun l => !(getL s l).complete && decide ((getL s l).endState = 0) && decide ((getL s l).job = job) &&
        decide (pkId (getL s l).packet = d / 2 ^ 192 % 2 ^ 32)) →
      ((∀ l < s.launches.length, P l = false) → exec (.swapStart v) s = .next { s with swapBad := true }) ∧
      (∀ l, (List.range s.launches.length).find? P = some l → (d / 2 ^ 232 ≠ 0 ∨ obase.toNat % 4 ≠ 0 ∨ nbase.toNat % 4 ≠ 0 ∨
        (pkEntry (getL s l).packet).toNat < obase.toNat) → exec (.swapStart v) s = .next { s with swapBad := true }) ∧
      ∀ l, (List.range s.launches.length).find? P = some l → d / 2 ^ 232 = 0 → obase.toNat % 4 = 0 → nbase.toNat % 4 = 0 →
        obase.toNat ≤ (pkEntry (getL s l).packet).toNat →
        exec (.swapStart v) s = .next (endSwap { s with
          swap := some ⟨l, obase, nbase, BitVec.ofNat 64 (d / 2 ^ 128),
            (List.range s.warps.length).filter fun w => decide ((getW s w).launch = l) && !warpGone (getW s w)⟩
          swapBad := false, swapCount := 0 })

/-- That a walk by itself only fills the cache is the model's choice of log 44, and that a shootdown waits for every
command that had started that of log 47. Where no line is asked back from the host first, and no refresh comes first
to a row that a step opens: a walk that ends at a valid leaf caches it, and no other walk changes anything. The oldest
record not yet posted goes to the fault ring when it has room, with the time at which it is posted. A resolve takes
its record away: walk again lets what waited try again, unmapped and protection give each waiter a fault of kind 1 or
2 for the page; a tag of no record gives no verdict. A shootdown drops exactly the cached translations of the job that
touch its range, and runs until nothing that used them is left; while it runs another is discarded; with snap its end
writes the L1 of the job's cores back. A first write through a cow leaf takes a frame of the pool: afterwards, before
what waited goes on, the new frame reads as the old one did, the entry of the table is a leaf that maps the new frame,
keeps the rights and has cow clear, the cached leaf and the hold are gone, the log's next entry names the page, the
job and the old frame, and no other byte has changed; with no frame a record stands for it. (R372, R377, R378, R379,
R380, R381, R382, R383, R384) -/
def Obligations.TranslationAgents : Prop :=
  (∀ (s : State) (job : BitVec 8) (va : W64) (acc : AccKind), canonical va = true → s.stage = 3 → fwHolds s 2 = false →
    (∀ l e a, walk s job.toNat (va57 va) = .leaf l e a → ∃ t, exec (.translationWalk job va acc) s = .next t ∧
      t = { s with tlb := t.tlb } ∧ tlbFind t job.toNat (va57 va) = some ⟨job.toNat, l, va57 va / levelSize l, e, a⟩) ∧
    ((∀ l e a, walk s job.toNat (va57 va) ≠ .leaf l e a) → exec (.translationWalk job va acc) s = .next s)) ∧
  (∀ (s : State) (r : XRec) (pa : Nat), s.xrecs.find? (fun x => !x.posted) = some r → fwHolds s 2 = false →
    pa = ringBase s tfq + 32 * (ringWr s tfq % ringSize s tfq) →
    (ringRoom s tfq = false → exec .faultQueuePost s = .next s) ∧
    (ringRoom s tfq = true → runDue s pa 32 = false → paExists pa = true → paExists (pa + 31) = true → paFenced s pa = false →
      heldLines s pa 32 = [] → ∃ t, exec .faultQueuePost s = .next t ∧ l2Read t pa 32 = recordBits { r with time := s.clock } % 2 ^ 256 ∧
        ringWr t tfq = (ringWr s tfq + 1) % 2 ^ 32 ∧
        t.xrecs = if r.reason = 3 then s.xrecs.filter fun x => x.tag ≠ r.tag
          else s.xrecs.map fun x => if x.tag = r.tag then { x with posted := true, time := s.clock } else x)) ∧
  (∀ (s : State) (tag : W32),
    (s.stage ≠ 3 → exec (.resolveWalkAgain tag) s = .next s ∧ exec (.resolveUnmapped tag) s = .next s ∧
      exec (.resolveProtection tag) s = .next s) ∧
    (s.stage = 3 → fwHolds s 2 = true → ∀ i ∈ [Instr.resolveWalkAgain tag, .resolveUnmapped tag, .resolveProtection tag],
      exec i s = .next { s with heldIn := s.heldIn ++ [i] }) ∧
    (s.stage = 3 → fwHolds s 2 = false →
      (s.xrecs.find? (fun r => r.tag = tag && r.reason ≠ 3) = none → exec (.resolveWalkAgain tag) s = .next s ∧
        exec (.resolveUnmapped tag) s = .next s ∧ exec (.resolveProtection tag) s = .next s) ∧
      ∀ (r : XRec) (u : State), s.xrecs.find? (fun r => r.tag = tag && r.reason ≠ 3) = some r →
        u = { s with xrecs := s.xrecs.filter fun x => x.tag ≠ tag } →
        exec (.resolveWalkAgain tag) s = .next (retryAll (pumpAll u)) ∧
        ∀ (i : Instr) (kind : Nat), (i = .resolveUnmapped tag ∧ kind = 1 ∨ i = .resolveProtection tag ∧ kind = 2) →
          exec i s = .next (retryAll (pumpAll { r.waiters.foldl (fun t w => verdictTo t
              (verdictKey r.va r.level r.reason) kind w) u with
            cows := if r.reason = 1 then s.cows
              else s.cows.filter fun c => !(c.job = r.job && c.page * 2 ^ 16 = r.va) })))) ∧
  (∀ (s : State) (v : W64) (job : Nat) (i : Instr) (snap : Bool), job < 256 →
    (v.toNat = job ∧ i = .shootdown v ∧ snap = false ∨ v.toNat = 2 ^ 8 + job ∧ i = .shootdownSnapshot v ∧ snap = true) →
    (s.shoot ≠ none ∨ s.stage ≠ 3 → exec i s = .next s) ∧
    (s.shoot = none → s.stage = 3 → fwHolds s 2 = false → ∃ t x, exec i s = .next t ∧ t = { s with tlb := t.tlb, shoot := some x } ∧ x.job = job ∧ x.snap = snap ∧
      ∀ e, e ∈ t.tlb ↔ e ∈ s.tlb ∧
        (e.job = job → inShoot s job (e.base * levelSize e.level) (levelSize e.level) = false)) ∧
    ∀ x, s.shoot = some x →
      (shootWaits s x = true → exec .shootdownComplete s = .next s) ∧
      (shootWaits s x = false → (x.snap = true → (jobCores s x.job).flatMap (coreLines s) = []) → exec .shootdownComplete s = .next
        { if x.snap then (jobCores s x.job).foldl l1WriteBack s else s with shoot := none })) ∧
  (∀ (s : State) (k : Nat) (c : CowHold) (e : W64) (a o : Nat), s.cows.find? (fun c => c.ident = k) = some c →
    (∀ r ∈ s.xrecs, r.job = c.job → r.va = c.page * 2 ^ 16 → r.reason ≠ 2 ∧ r.reason ≠ 4) →
    walk s c.job (c.page * 2 ^ 16) = .leaf 4 e a → eCow e = true → ringRoom s tsl = true → o = tpool (paStack (eAddr e)) →
    runDue s (ringBase s o) (8 * ringSize s o) = false →
    runDue s (ringBase s tsl + 16 * (ringWr s tsl % ringSize s tsl)) 16 = false →
    paExists (ringBase s o) = true → paExists (ringBase s o + 7) = true → paExists (ringBase s tsl) = true →
    paExists (ringBase s tsl + 15) = true →
    (∀ t f, nextFrame s (paStack (eAddr e)) 4097 = (t, some f) → cowDue s (eAddr e) f = false → cowLines s a f = [] →
      exec (.copyOnWrite k) s = .next (finishCow t c e a (eAddr e) f)) ∧
    (∀ t, nextFrame s (paStack (eAddr e)) 4097 = (t, none) → exec (.copyOnWrite k) s = .next (cowRecord t c a 2))) ∧
  (∀ (t : State) (c : CowHold) (e : W64) (a f old lg : Nat), old = eAddr e →
    lg = ringBase t tsl + 16 * (ringWr t tsl % ringSize t tsl) → paSpace old < 2 → paSpace f = 0 → paSpace a < 2 →
    old % 2 ^ 16 = 0 → f % 2 ^ 16 = 0 → (∀ i < 65536, cellOf (old + i) < f ∨ f + 65536 ≤ cellOf (old + i)) →
    (∀ i < 8, ¬ Covers f 65536 (a + i) ∧ ¬ Covers lg 16 (a + i)) → (∀ i < 16, ¬ Covers f 65536 (lg + i)) →
    ∃ u, finishCow t c e a old f = retryAll (pumpAll u) ∧ (∀ i < 65536, l2Byte u (f + i) = l2Byte t (old + i)) ∧
      l2Read u a 8 = (newLeaf e f).toNat ∧ u.cows = t.cows.filter (fun x => x.ident ≠ c.ident) ∧
      u.tlb = t.tlb.filter (fun x => !(x.job = c.job && x.level = 4 && x.base = c.page)) ∧ ringWr u tsl = (ringWr t tsl + 1) % 2 ^ 32 ∧
      (paFenced t lg = false → c.page < 2 ^ 41 → c.job < 256 → l2Read u lg 16 =
        ((BitVec.ofNat 57 (c.page * 2 ^ 16)).signExtend 64).toNat + 2 ^ 8 * c.job + 2 ^ 64 * old) ∧
      ∀ q, paSpace q < 2 → (cellOf q < f ∨ f + 65536 ≤ cellOf q) → ¬ Covers a 8 q → ¬ Covers lg 16 q →
        l2Byte u q = l2Byte t q) ∧
  ∀ (e : W64) (f : Nat), f < 2 ^ 52 → f % 2 ^ 16 = 0 → eAddr (newLeaf e f) = f ∧ eCow (newLeaf e f) = false ∧
    eRead (newLeaf e f) = eRead e ∧ eWrite (newLeaf e f) = eWrite e ∧ eExec (newLeaf e f) = eExec e ∧
    eKind (newLeaf e f) = eKind e

/-- That the host completes requests to a page in one way from an event on is the model's choice of log 20, one frame
outstanding for a ring that of log 46, and what BAR2 and CXL.mem answer before stage 3 that of log 56. An access whose
DRAM rows must wait for a refresh is held as it is. Else a BAR2 read in range of the ready module returns the bytes of
DRAM past the caches, one beyond the range is unsupported and one of a fenced stack is aborted; a BAR2 write of
sectors that the L2 does not hold writes those bytes of DRAM and no other byte of their cells. A CXL.mem read returns
the bytes of the home L2 and waits while a back-invalidate of their lines is outstanding, and a write changes those
bytes and no other. A response takes its line off those awaited, and what waited for it goes on; how host requests to
a page complete is noted. The checkpoint engine sends the next frame of a ring as 16 datagrams, of 4,096 bytes each
behind the header of R405, when none is outstanding; its acknowledgement advances the ring; without one the same 16
datagrams are sent again, up to 16 sends, after which the ring stops. (R385, R386, R388, R389, R405, R424, R429) -/
def Obligations.HostPathsAndCheckpoints : Prop :=
  (∀ (s : State) (off n : Nat), 0 < n →
    (off + n ≤ 8 * stackBytes → s.stage = 3 →
      (hostFenced s off n = false → (spanDue s off n = false → exec (.hostBar2Read off n) s = .next { s with
          lastRead := (leBytes n (memRead s.mem off n), if dramPoisoned s off n then 3 else 0) }) ∧
        (spanDue s off n = true → exec (.hostBar2Read off n) s = .next { s with heldIn := s.heldIn ++ [.hostBar2Read off n] }) ∧
        (lineWaits s off n = false → runDue s off n = true →
          exec (.cxlMemRead off n) s = .next { s with heldIn := s.heldIn ++ [.cxlMemRead off n] }) ∧
        (lineWaits s off n = false → runDue s off n = false → ∃ t, exec (.cxlMemRead off n) s = .next t ∧ t.mem = s.mem ∧
          (∀ k, l2View t k = l2View s k) ∧
          (NoError s none off n → t.lastRead = (leBytes n (l2Read s off n), 0)) ∧
          (isPoisoned s none off n = true → t.lastRead = (leBytes n (l2Read s off n), 3))) ∧
        (lineWaits s off n = true → exec (.cxlMemRead off n) s = .next s)) ∧
      (hostFenced s off n = true → exec (.hostBar2Read off n) s = .next { s with lastRead := ([], 2) } ∧
        exec (.cxlMemRead off n) s = .next { s with lastRead := ([], 3) })) ∧
    (8 * stackBytes < off + n ∨ s.stage ≠ 3 → exec (.hostBar2Read off n) s = .next { s with lastRead := ([], 1) } ∧
      exec (.cxlMemRead off n) s = .next { s with lastRead := ([], 1) })) ∧
  (∀ (s : State) (off n : Nat) (data : List Byte), n = data.length → 0 < n → off + n ≤ 8 * stackBytes → s.stage = 3 →
    (hostFenced s off n = true → exec (.hostBar2Write off data) s = .next s ∧ exec (.cxlMemWrite off data) s = .next s) ∧
    (hostFenced s off n = false → spanDue s off n = true →
      exec (.hostBar2Write off data) s = .next { s with heldIn := s.heldIn ++ [.hostBar2Write off data] }) ∧
    (hostFenced s off n = false → runDue s off n = true →
      exec (.cxlMemWrite off data) s = .next { s with heldIn := s.heldIn ++ [.cxlMemWrite off data] }) ∧
    (hostFenced s off n = false → spanDue s off n = false → (∀ k ∈ sectorsOf off n, l2Find s k = none) →
      ∃ t, exec (.hostBar2Write off data) s = .next t ∧
        t = { s with mem := t.mem, dramq := t.dramq, poison := t.poison, cured := t.cured } ∧
        (∀ i < n, memGet t.mem (off + i) = data.getD i 0) ∧ ∀ a, ¬ Covers off n a →
          (cellOf a = a ∨ cellOf a / 128 ∉ sectorsOf off n) → l2Byte t a = l2Byte s a) ∧
    (hostFenced s off n = false → runDue s off n = false → ∃ t, exec (.cxlMemWrite off data) s = .next t ∧
      (∀ i < n, l2Byte t (off + i) = data.getD i 0) ∧ ∀ a, ¬ Covers off n a → l2Byte t a = l2Byte s a)) ∧
  (∀ (s : State) (k : Nat), exec (.backInvalidateResponse k) s =
      .next (retryAll (pumpAll (errFlush { s with
        backInv := s.backInv.erase k, agenda := s.heldIn ++ s.agenda, heldIn := [] } s.errq.length))) ∧
    exec (.hostRequestCompletion k true) s = .next { s with hostBad := s.hostBad.filter (· ≠ k) } ∧
    exec (.hostRequestCompletion k false) s = .next { s with hostBad := k :: s.hostBad.filter (· ≠ k) }) ∧
  ∀ (s : State) (d : BitVec 3) (o : Nat), o = tck d.toNat →
    ∀ advanced : State → State, advanced = (fun u => { ringPutRd u o (ringRd s o + 1) with
      msix := if (ringWr s o + 2 ^ 32 - (ringRd s o + 1) % 2 ^ 32) % 2 ^ 32 = 0 then s.msix ++ [3] else s.msix }) →
    ∀ (sock : Nat) (sent : Nat → W64 → State → Prop), sock = (barGet s (0x50200 + 16 * d.toNat)).toNat →
      sent = (fun pa tag t => t.datagrams.length = s.datagrams.length + 16 ∧ t.datagrams.take s.datagrams.length = s.datagrams ∧
        ∀ i < 16, ∃ dst, (paFenced s sock = false → dst = leBytes 32 (l2Read s sock 32)) ∧
          t.datagrams[s.datagrams.length + i]? = some (d.toNat, dst, leBytes 8 tag.toNat ++ leBytes 4 i ++ leBytes 4 0 ++
            leBytes 8 (crc64 (leBytes 4096 (l2Read s (pa + 4096 * i) 4096))).toNat ++ leBytes 8 pa ++
            leBytes 4096 (l2Read s (pa + 4096 * i) 4096))) →
    (∀ (at_ pa : Nat) (tag : W64), s.stage = 3 → ringOn s o = true → (barGet s (o + 8)).getLsbD 9 = false →
      ringHeld s o ≠ 0 → fwHolds s 4 = false → (∀ x ∈ s.ckSends, x.die ≠ d.toNat) →
      at_ = ringBase s o + 16 * (ringRd s o % ringSize s o) → paExists at_ = true → paExists (at_ + 15) = true →
      runDue s at_ 16 = false → runDue s pa 65536 = false → runDue s sock 32 = false → paFenced s at_ = false → paFenced s (at_ + 8) = false → pa = l2Read s at_ 8 → tag = BitVec.ofNat 64 (l2Read s (at_ + 8) 8) → ckFrame s pa = true →
      ∃ t, exec (.checkpointFrameSend d) s = .next t ∧
        t = { s with datagrams := t.datagrams, ckSends := s.ckSends ++ [⟨d.toNat, pa, tag, 1⟩] } ∧ sent pa tag t) ∧
    ∀ x : CkSend,
      (∀ tag : W64, s.ckSends.find? (fun x => x.die = d.toNat && x.tag = tag) = some x →
        exec (.checkpointAckReceive d tag) s = .next (advanced { s with ckSends := s.ckSends.erase x })) ∧
      (s.ckSends.find? (fun x => x.die = d.toNat) = some x →
        (x.sends < 16 → (runDue s x.pa 65536 = true ∨ runDue s sock 32 = true) → exec (.checkpointResendTimeout d) s =
          .next { s with heldIn := s.heldIn ++ [.checkpointResendTimeout d] }) ∧
        (x.sends < 16 → runDue s x.pa 65536 = false → runDue s sock 32 = false →
          ∃ t, exec (.checkpointResendTimeout d) s = .next t ∧
          t = { s with datagrams := t.datagrams, ckSends := s.ckSends.erase x ++ [{ x with sends := x.sends + 1 }] } ∧
          sent x.pa x.tag t) ∧
        (16 ≤ x.sends → exec (.checkpointResendTimeout d) s = .next { ringFlag { s with ckSends := s.ckSends.erase x } o 9 with
          msix := s.msix ++ [3] }))

/-- That a switch stays asked for until a next key is loaded, what a key marker carries, and which of the flits that
come while a replay is awaited count as the replay, are the model's choices of log 24, and that the receiver counts
retries and replays that of log 33. The device id is written only while no port is up. A command, a lost signal and 1
ms of key wait take a port down: its state is 0 and its buffers are gone, which with vector 4 is all that happens
where nothing else of the fabric is under way; one that is down stays so. Retraining takes a port of a live die down
and into training, and a trained one comes up, in a start's stage 2 or a ready module, with both key counts and
sequences zero. A key switch sends a marker under the old slot and goes to the other, with its count zero, when a next
key is loaded and the retry buffer has room, and else is noted; at a count of 2^39 it happens by itself, and at 2^40
the port waits for a key. A key goes to the slot that is not in use. A flit whose check or tag fails, or before which
one is missing, is asked for again until the eighth replay has failed, then the port goes down; a flit that has been
received, and the later ones that were under way, are discarded; a good one counts and acknowledges, data are
delivered, the credits that it returns are added, a key marker changes the receive slot, and a retry request has what
is not acknowledged sent again. (R387, R392, R394, R395, R401, R403, R424) -/
def Obligations.PortsAndKeys : Prop :=
  ∀ (s : State) (p : Nat) (P : Port), P = portOfNo s p →
    (∀ v : W64, (s.stage ≠ 3 ∨ (∃ e ∈ s.ports, e.2.state = 2) → exec (.fdevidWrite v) s = .next s) ∧
      (s.stage = 3 → (∀ e ∈ s.ports, e.2.state ≠ 2) → exec (.fdevidWrite v) s = .next (barSet s 0x40000 (v &&& 0x3FF)))) ∧
    (s.stage ≠ 3 → exec (.portDownCommand p) s = .next s ∧ exec (.portRetrain p) s = .next s ∧
      exec (.keySwitchRequest p) s = .next s) ∧
    (∀ i : Instr, (i = .portDownCommand p ∧ s.stage = 3 ∨ i = .lossOfSignal p ∨ i = .keyWaitTimeout p ∧ P.state = 3) →
      (P.state = 0 → exec i s = .next s) ∧
      (P.state ≠ 0 → ∃ t, exec i s = .next t ∧ (portOfNo t p).state = 0 ∧
        (s.openGroups = [] → s.aborts = [] → s.peerTx = [] → s.relays = [] → (∀ c ∈ s.cmds, isPacketCmd c.kind = false) →
          t = { putPort s p { P with
              state := 0, stream := [], replays := 0, switchReq := false, retry := [], txStream := [] } with
            msix := s.msix ++ [4], outbox := s.outbox.filter fun e => e.1 ≠ p
            ctlFlits := s.ctlFlits.filter fun c => c.1 ≠ p }))) ∧
    (P.state ≠ 3 → exec (.keyWaitTimeout p) s = .next s) ∧
    ((36 ≤ p ∨ P.state = 1 ∨ portLives s p = false) → exec (.portRetrain p) s = .next s) ∧
    (s.stage = 3 → p < 36 → P.state ≠ 1 → portLives s p = true → exec (.portRetrain p) s = .next (trainPort (portDown s p) p) ∧
      (P.state = 0 → exec (.portRetrain p) s = .next { putPort s p { P with state := 1 } with msix := s.msix ++ [4] })) ∧
    (P.state ≠ 1 ∨ s.stage ≠ 2 ∧ s.stage ≠ 3 → exec (.portTrainingComplete p) s = .next s) ∧
    (P.state = 1 → s.stage = 2 ∨ s.stage = 3 → exec (.portTrainingComplete p) s = .next { putPort s p { P with
      state := 2, count := 0, rxCount := 0, rxSeq := 0, replays := 0, stream := [], txSeq := 0, retry := []
      txStream := [], credits := Config.initialCredits p } with msix := s.msix ++ [4] }) ∧
    (∀ i : Instr, (i = .keySwitchRequest p ∧ s.stage = 3 ∨ i = .keyAutoSwitch p ∧ 2 ^ 39 ≤ P.count) →
      (P.state = 2 ∨ P.state = 3) → P.nextLoaded = true →
      (2048 ≤ P.retry.length → exec i s = .next (putPort s p { P with switchReq := true })) ∧
      (P.retry.length < 2048 → ∀ f, f = makeFlit s p P 2 P.rxSeq [BitVec.ofNat 8 (1 - P.slot)] →
        ∃ t, exec i s = .next t ∧ t = { s with
            ports := t.ports, flits := s.flits ++ [(p, f)], msix := if P.state = 3 then s.msix ++ [4] else s.msix } ∧
          portOfNo t p = { P with
            slot := 1 - P.slot, count := 0, nextLoaded := false, switchReq := false, state := 2
            txSeq := (P.txSeq + 1) % 2 ^ 12, retry := P.retry ++ [((P.txSeq + 1) % 2 ^ 12, f)] } ∧
          ∀ q, q ≠ p → portOfNo t q = portOfNo s q)) ∧
    ((P.state = 2 ∨ P.state = 3) → P.nextLoaded = false →
      (s.stage = 3 → exec (.keySwitchRequest p) s = .next (putPort s p { P with switchReq := true })) ∧
      exec (.keyAutoSwitch p) s = .next s) ∧
    (P.state = 2 → 2 ^ 40 ≤ P.count → exec (.keyHardLimit p) s = .next { putPort s p { P with state := 3 } with
      msix := s.msix ++ [4] }) ∧
    (P.state = 2 → P.count < 2 ^ 40 → exec (.keyHardLimit p) s = .next s) ∧
    (∀ (salt : W32) (tx : Bool), s.stage < 2 → exec (.keySlotLoad p tx salt) s = .next s) ∧
    (∀ salt : W32, p < 36 → 2 ≤ s.stage → (P.switchReq = false ∨ P.state ≠ 2 ∧ P.state ≠ 3 → exec (.keySlotLoad p true salt) s = .next (putPort s p { P with
        txSalt := tabSet 0 P.txSalt (1 - P.slot) salt, nextLoaded := true })) ∧
      (P.switchReq = true → (P.state = 2 ∨ P.state = 3) → exec (.keySlotLoad p true salt) s = .next (switchKeys (putPort s p { P with
        txSalt := tabSet 0 P.txSalt (1 - P.slot) salt, nextLoaded := true }) p)) ∧
      exec (.keySlotLoad p false salt) s = .next (putPort s p { P with
        rxSalt := tabSet 0 P.rxSalt (1 - P.rxSlot) salt })) ∧
    ∀ (flit : List Byte) (seq ack kind credits want wire : Nat), flit.length = 256 → (P.state = 2 ∨ P.state = 3) →
      want = (P.rxSeq + 1) % 2 ^ 12 → wire = ((if flitChecks flit then seq else want) + 1) % 2 ^ 12 →
      seq = leNat (flit.take 8) % 2 ^ 12 → ack = leNat (flit.take 8) / 2 ^ 12 % 2 ^ 12 →
      kind = leNat (flit.take 8) / 2 ^ 24 % 16 →
      credits = leNat (flit.take 8) / 2 ^ 32 % 2 ^ 16 →
      (s.stage < 2 ∨ s.stage = 4 → exec (.flitReceive p flit) s = .next s) ∧
      (2 ≤ s.stage → s.stage ≠ 4 → flitChecks flit = false ∧ (P.replays = 0 ∨ seq = want) ∨
          flitChecks flit = true ∧ seq = want ∧ openFlit P p flit = none ∨
          flitChecks flit = true ∧ seq ≠ want ∧ 2 ^ 11 ≤ (P.rxSeq + 2 ^ 12 - seq) % 2 ^ 12 ∧ (P.replays = 0 ∨ seq ≠ P.wire) →
        ∃ t, exec (.flitReceive p flit) s = .next t ∧
          (P.replays < 8 → P.retry.length < 2048 → ∀ (R : Port) (f : List Byte), R = { P with
                replays := P.replays + 1, retries := min (P.retries + 1) (2 ^ 16 - 1), wire := wire } →
              f = makeFlit (putPort s p R) p R 3 P.rxSeq [] →
            t = { s with ports := t.ports, flits := s.flits ++ [(p, f)] } ∧
            portOfNo t p = { P with
              replays := P.replays + 1, retries := min (P.retries + 1) (2 ^ 16 - 1), wire := wire, count := P.count + 1
              txSeq := (P.txSeq + 1) % 2 ^ 12, retry := P.retry ++ [((P.txSeq + 1) % 2 ^ 12, f)] } ∧
            ∀ q, q ≠ p → portOfNo t q = portOfNo s q) ∧
          (P.replays < 8 → 2048 ≤ P.retry.length → t = { putPort s p { P with
              replays := P.replays + 1, retries := min (P.retries + 1) (2 ^ 16 - 1), wire := wire } with
            ctlFlits := s.ctlFlits ++ [(p, P.rxSeq)] }) ∧
          (8 ≤ P.replays → (portOfNo t p).state = 0)) ∧
      (flitChecks flit = true → seq ≠ want → (P.rxSeq + 2 ^ 12 - seq) % 2 ^ 12 < 2 ^ 11 →
        exec (.flitReceive p flit) s = .next s) ∧
      (2 ≤ s.stage → s.stage ≠ 4 → P.replays ≠ 0 → flitChecks flit = false ∧ seq ≠ want ∨
          flitChecks flit = true ∧ seq ≠ want ∧ 2 ^ 11 ≤ (P.rxSeq + 2 ^ 12 - seq) % 2 ^ 12 ∧ seq = P.wire →
        exec (.flitReceive p flit) s = .next (putPort s p { P with wire := (P.wire + 1) % 2 ^ 12 })) ∧
      ∀ payload, flitChecks flit = true → openFlit P p flit = some payload → 2 ≤ s.stage → s.stage ≠ 4 →
        (seq = want → ∀ Q : Port, Q = { flitsAcked P ack with
            rxSeq := seq, rxCount := P.rxCount + 1, replays := 0, credits := P.credits + credits } →
          (kind = 0 → exec (.flitReceive p flit) s = .next (deliverStream
            (putPort s p { Q with stream := P.stream ++ payload }) p (P.stream.length + 8))) ∧
          (kind = 1 → exec (.flitReceive p flit) s = .next (putPort s p Q)) ∧
          (kind = 2 → exec (.flitReceive p flit) s = .next (putPort s p { Q with rxCount := 0, rxSlot := 1 - P.rxSlot })) ∧
          (kind = 3 → exec (.flitReceive p flit) s = .next { putPort s p Q with
            flits := s.flits ++ Q.retry.map fun e => (p, e.2) }))

/-- That the first lock only steps forward, and what IEEE 1588 is taken to do, are the model's choices of log 49, a
negative answer of code 0 as a request to send again that of log 41, and the scale-out rings' pointers that of log 26.
Where no line is asked back from the host first, and no refresh comes first to a row: a packet on a port that is up,
with room for it, arrives: one whose CRC fails is asked for again, one already done is acknowledged again, and neither
writes memory. Performing a put writes its bytes, a signal its value or the sum, an add each element's sum; a job not
enabled is refused with code 3. An answer takes its packet off those outstanding and tells the command; 100 us without
one send it again, or after five sends give it up with code 0x0A. A group idle for 1 s is dropped. A scale-out port
sends the frame of its oldest entry and marks it; a received frame fills the next buffer. The best of the clocks
announced at the ports is chosen, a Sync at its port locks the servo and never moves TIME back: the first lock sets it
to the origin plus the correction of the message and the measured delay when later, and afterwards it steps only for
more than 1 ms; answers to delay requests give the delay. (R254, R341, R391, R396, R397, R398, R401, R404, R406) -/
def Obligations.PacketsAndTime : Prop :=
  (∀ (s : State) (p : Nat) (k : Packet), p < 36 → (portOfNo s p).state = 2 → s.stage = 3 →
    (fabricHeld s p k.op = true → exec (.packetArrival p k) s = .next s) ∧
    (fabricHeld s p k.op = false → noRoom s k = false → exec (.packetArrival p k) s = .next (retryAll (arrive s p k))) ∧
    (fabricHeld s p k.op = false → noRoom s k = true → exec (.packetArrival p k) s = .next (askLines s (overLines s k))) ∧
    (k.op.toNat < 6 → k.mc = false → k.dst.toNat = devId s → k.crc ≠ packetCrc k →
      arrive s p k = ackBack (crcFailed s p k) p k false 0) ∧
    (k.op.toNat < 6 → k.mc = false → k.dst.toNat = devId s → k.crc = packetCrc k → relayOf s k = none →
      rxDist s k < 4096 → (rxOf s k).bits.getLsbD (rxDist s k) = true →
      arrive s p k = pumpAll (ackBack s p k true 0)) ∧
    ∀ (peer : BitVec 10) (seq : W32) (code : BitVec 8) (ok : Bool), s.relays = [] →
      (sentFor s peer.toNat p seq = none → exec (.packetAckReceive p peer false seq ok code) s = .next (retryAll s)) ∧
      ∀ x : Sent, sentFor s peer.toNat p seq = some x → ∀ u : State, u = putTx s peer.toNat
          { txOf s peer.toNat with sent := (txOf s peer.toNat).sent.erase x } →
        (ok = true → (∀ e ∈ (txOf u peer.toNat).sent, e.pkt.seq ≠ seq) →
          exec (.packetAckReceive p peer false seq ok code) s =
            .next (retryAll (pumpAll (answered u x.cmd 0 x.pkt.data.length 0)))) ∧
        (ok = false → code ≠ 0 → exec (.packetAckReceive p peer false seq ok code) s = .next
          (retryAll (pumpAll (answered u x.cmd (if x.pkt.op = 1 then 1 else 0) 0 code.toNat)))) ∧
        (ok = false → code = 0 → exec (.packetAckReceive p peer false seq ok code) s = .next
          (retryAll (pumpAll (resend s peer.toNat x))))) ∧
  (∀ (s : State) (k : Packet) (n pa : Nat) (vs : List (Nat × Nat)), n = k.len.toNat →
    (((barGet s (0x40008 + 8 * (k.job.toNat / 64))).getLsbD (k.job.toNat % 64) = false ∨ jobValid s k.job.toNat = false) →
      k.op ∈ [(0 : BitVec 4), 1, 3, 4, 5, 9, 10] → performPacket s k vs = .nack s 3) ∧
    ((barGet s (0x40008 + 8 * (k.job.toNat / 64))).getLsbD (k.job.toNat % 64) = true → jobValid s k.job.toNat = true →
      (k.op = 0 → k.group = 0 → engGlobal s k.job.toNat k.remote .write vs = .pa pa → paExists (pa + (n - 1)) = true →
        heldLines s pa n = [] → runDue s pa n = false →
        performPacket s k vs = .done (memDone (clearCovered (l2Store s pa n (leNat k.data)) [(pa, n)]) (k.value.getLsbD 31) pa n)) ∧
      (k.op = 3 → engGlobal s k.job.toNat k.remote .atomic vs = .pa pa → paExists (pa + (n - 1)) = true → paSpace pa ≠ 2 →
        heldLines s pa n = [] → runDue s pa n = false → NoError s none pa n →
        performPacket s k vs = .done (memDone (addRun s k.afmt.toNat pa n (leNat k.data)) (k.value.getLsbD 31) pa n)) ∧
      (k.op = 4 → k.close = false → engGlobal s k.job.toNat k.remote .write vs = .pa pa → paExists (pa + 7) = true →
        heldLines s pa 8 = [] → runDue s pa 8 = false →
        performPacket s k vs = .done (memDone (l2Store s pa 8 k.value.toNat) (k.afmt.getLsbD 0) pa 8)) ∧
      (k.op = 5 → k.close = false → engGlobal s k.job.toNat k.remote .atomic vs = .pa pa → paExists (pa + 7) = true →
        heldLines s pa 8 = [] → runDue s pa 8 = false → NoError s none pa 8 → performPacket s k vs =
          .done (memDone (l2Store s pa 8 ((l2Read s pa 8 + k.value.toNat) % 2 ^ 64)) (k.afmt.getLsbD 0) pa 8)))) ∧
  (∀ (s : State) (peer : BitVec 10) (mc : Bool) (seq : W32) (key : Nat) (x : Sent),
    key = (if mc then 1024 + peer.toNat else peer.toNat) → (txOf s key).sent.find? (fun x => x.pkt.seq = seq) = some x →
    exec (.packetResendTimeout peer mc seq) s = .next (pumpAll (resend s key x)) ∧
    (5 ≤ x.sends → resend s key x = answered (exhausted (putTx s key { txOf s key with
      sent := (txOf s key).sent.erase x }) x) x.cmd (if x.pkt.op = 1 then 1 else 0) 0 0x0A)) ∧
  (∀ (s : State) (src : BitVec 10) (job : BitVec 8) (grp : BitVec 16), exec (.groupIdleTimeout src job grp) s =
    .next { s with putGroups := s.putGroups.filter fun g => !(g.src = src && g.job = job && g.grp = grp) }) ∧
  (∀ (s : State) (d : BitVec 3), s.stage = 3 → fwHolds s 4 = false →
    (∀ o at_ pa n : Nat, o = sotx d.toNat → ringOn s o = true → ringHeld s o ≠ 0 →
      at_ = ringBase s o + 16 * (ringRd s o % ringSize s o) → paExists at_ = true → paExists (at_ + 15) = true →
      pa = tblRead s at_ 8 → n = tblRead s (at_ + 8) 2 → frameBuf s at_ pa n = true → runDue s at_ 16 = false → runDue s pa n = false →
      heldLines s at_ 16 = [] → exec (.scaleoutTransmit d) s = .next (ringPutRd (tblStore { s with
        frames := s.frames ++ [(d.toNat, leBytes n (l2Read s pa n))] } (at_ + 10) 1 (l2Byte s (at_ + 10) ||| 1).toNat) o
        (ringRd s o + 1))) ∧
    ∀ (o at_ pa n : Nat) (frame : List Byte) (u : State), o = sorx d.toNat → ringRoom s o = true → n = frame.length →
      at_ = ringBase s o + 16 * (ringWr s o % ringSize s o) → paExists at_ = true → paExists (at_ + 15) = true →
      runDue s at_ 16 = false → runDue s pa n = false → pa = tblRead s at_ 8 → frameBuf s at_ pa n = true → heldLines s at_ 16 = [] → heldLines s pa n = [] →
      u = tblStore (tblStore s pa n (leNat frame)) (at_ + 8) 2 n →
      ∃ t, exec (.scaleoutReceive d frame) s = .next t ∧ t = { ringPutWr (tblStore u (at_ + 10) 1
        (l2Byte u (at_ + 10) ||| 1).toNat) o (ringWr s o + 1) with
          msix := if ringHeld s o = 0 then s.msix ++ [6] else s.msix }) ∧
  ∀ (s : State) (d : BitVec 3),
    exec .ptpLockLoss s = .next { s with servo := { s.servo with locked := false }, ptp := [] } ∧
    (bestPort s = some d → ∃ c, (ptpOf s d).clock = some c ∧ ∀ (e : BitVec 3) (c' : PtpClock), (ptpOf s e).clock = some c' →
      clockRank c < clockRank c' ∨ clockRank c = clockRank c' ∧ d ≤ e) ∧
    (∀ (m : PtpMsg) (corr : W64), s.stage = 4 ∨ fwHolds s 4 = true → exec (.ptpMessageReceive d m corr) s = .next s) ∧
    (s.stage ≠ 4 → fwHolds s 4 = false →
      (∀ (m : PtpMsg) (corr : W64) (x : PtpPort), ((∃ c, m = .announce c ∧ x = { ptpOf s d with clock := some c }) ∨
          (∃ received : W64, m = .delayResp received ∧ x = { ptpOf s d with
            delay := BitVec.ofInt 64 (((ptpOf s d).sync + (received - corr - (ptpOf s d).asked)).toInt / 2) }) ∨
          (∃ received sent : W64, m = .peerDelayResp received sent ∧ x = { ptpOf s d with
            delay := BitVec.ofInt 64 ((s.time - (ptpOf s d).asked - (sent - received) - corr).toInt / 2) })) →
        ∃ t, exec (.ptpMessageReceive d m corr) s = .next t ∧ t = { s with ptp := t.ptp } ∧ ptpOf t d = x ∧
          ∀ e, e ≠ d → ptpOf t e = ptpOf s e) ∧
      ∀ origin corr time offset : W64, time = origin + corr + (ptpOf s d).delay → offset = s.time - time →
        ∃ (t : State) (now : W64), exec (.ptpMessageReceive d (.sync origin) corr) s = .next t ∧ t.time = now ∧
          ptpOf t d = { ptpOf s d with sync := now - (origin + corr), asked := now } ∧ (∀ e, e ≠ d → ptpOf t e = ptpOf s e) ∧
          (bestPort s ≠ some d → t = { s with ptp := t.ptp }) ∧
          (bestPort s = some d → t = { s with ptp := t.ptp, time := now, servo := ⟨d, true, true, offsetBits offset⟩ } ∧
            s.time ≤ now ∧ (time ≤ s.time → now = s.time) ∧ (s.servo.everLock = false → s.time < time → now = time) ∧
            (s.servo.everLock = true → s.time < time →
              now = if 1000000 < time.toNat - s.time.toNat then time else s.time)))

/-- That of several reasons for which verification fails the least is given is the model's choice of log 54. A write
to MLOADs starts a load, is discarded while one runs, and is held while the management controller's firmware is
switched. Verification ends, once no refresh comes before a row of the package, with the reason of the first check
that fails, the image in force left as it is, or else the stack drains. Once every queue of the stack is empty the
writing begins, state 3, and at its end the image and its version are in force and no control-store error of the stack
stays pending. The floor never falls. Each interval adds one to every bank's debt, and none passes 8; the owner
refreshes a bank that owes one, which adds one to its group modulo 8,192 and takes one from its debt, and what waited
for it goes on; a hand-over sends the records when no refresh is in flight, and the acknowledgement makes the other
the owner. A write to a unit's log clears that log. (R407, R408, R410, R411, R412, R413, R414, R415) -/
def Obligations.MouldsAndRefresh : Prop :=
  (∀ (s : State) (st : BitVec 3) (v : W64) (m : Mould), m = mouldOf s st.toNat →
    ((s.stage ≠ 3 ∨ 1 ≤ m.state ∧ m.state ≤ 3) → exec (.mouldLoad st v) s = .next s) ∧
    (s.stage = 3 → (m.state = 0 ∨ 3 < m.state) → fwHolds s 0 = true →
      exec (.mouldLoad st v) s = .next { s with heldIn := s.heldIn ++ [.mouldLoad st v] }) ∧
    (s.stage = 3 → (m.state = 0 ∨ 3 < m.state) → fwHolds s 0 = false → exec (.mouldLoad st v) s = .next (putMould s st.toNat { m with
      state := 1, reason := 0, index := 0, pa := v.toNat })) ∧
    (m.state ≠ 1 ∨ runDue s m.pa 8557 = true → exec (.mouldVerifyDone st) s = .next s) ∧
    (m.state = 1 → runDue s m.pa 8557 = false → ∀ h r : Nat, h = pkgRead s m.pa 0 64 →
      r = (if pkgPlace s m.pa 8557 = false then 1
        else if h % 2 ^ 32 ≠ 0x08404D49 ∨ h / 2 ^ 64 % 2 ^ 32 ≠ 8557 ∨ h / 2 ^ 128 ≠ 0 then 2
        else if (pkgWords s m.pa).any microBad = true then 3
        else if (pkgEntries s m.pa).any entryBad = true then 4
        else if bothSigned 1 (pkgBytes s m.pa 0 5184) (pkgBytes s m.pa 5184 64) (pkgBytes s m.pa 5248 3309) = false then 5
        else if h / 2 ^ 32 % 2 ^ 32 < m.floor.toNat then 6
        else if s.admitted.getLsbD st.toNat = false then 7 else 0) →
      (r ≠ 0 → ∃ i, exec (.mouldVerifyDone st) s = .next (putMould s st.toNat { m with state := 5, reason := r, index := i })) ∧
      (r = 0 → exec (.mouldVerifyDone st) s = .next (putMould s st.toNat { m with
        state := 2, next := some (pkgEntries s m.pa, pkgWords s m.pa, h / 2 ^ 32 % 2 ^ 32) }))) ∧
    (∀ es ws n, m.next = some (es, ws, n) → (m.state = 2 ∨ m.state = 3) →
      (stackEmpty s st.toNat = false → exec (.mouldWrite st) s = .next s) ∧
      (stackEmpty s st.toNat = true → m.state = 2 →
        exec (.mouldWrite st) s = .next (putMould s st.toNat { m with state := 3 })) ∧
      (stackEmpty s st.toNat = true → m.state = 3 → ∃ t, exec (.mouldWrite st) s = .next t ∧ t = { s with
          moulds := t.moulds, unitLogs := t.unitLogs, upsets := t.upsets } ∧
        (∀ e, e ∈ t.upsets ↔ e ∈ s.upsets ∧ ∀ u n, e = .control u n → u / 2048 ≠ st.toNat) ∧
        mouldOf t st.toNat = { m with image := some (es, ws), version := n, state := 4, badUnits := [], next := none } ∧
        (∀ k, k ≠ st.toNat → mouldOf t k = mouldOf s k) ∧ ∀ u ∈ m.badUnits, (tabGet 0 t.unitLogs u).getLsbD 88 = false)) ∧
    ((v < m.floor ∨ s.stage ≠ 3) → exec (.mouldFloorWrite st v) s = .next s) ∧
    (m.floor ≤ v → s.stage = 3 → exec (.mouldFloorWrite st v) s = .next (putMould s st.toNat { m with floor := v }))) ∧
  (∀ (s : State) (ch : Nat) (c : Channel), c = chanOf s ch →
    ((2048 ≤ ch ∨ ∃ b < 32, 8 ≤ tabGet 0 c.debts b) → exec (.refreshInterval ch) s = .next s) ∧
    (ch < 2048 → (∀ b < 32, tabGet 0 c.debts b < 8) → ∃ t, exec (.refreshInterval ch) s = .next t ∧
      t = { s with channels := t.channels } ∧ (∀ k, k ≠ ch → chanOf t k = chanOf s k) ∧
      chanOf t ch = { c with debts := (chanOf t ch).debts } ∧
      ∀ b < 32, tabGet 0 (chanOf t ch).debts b = tabGet 0 c.debts b + 1 ∧ tabGet 0 (chanOf t ch).debts b ≤ 8) ∧
    (∀ b : BitVec 5, ch < 2048 → c.inFlight = none → tabGet 0 c.debts b.toNat ≠ 0 →
      (c.state = .normal → fwHolds s 7 = false → exec (.refreshIssue ch b) s = .next (putChan s ch { c with
        inFlight := some b.toNat })) ∧
      (c.state = .compute → exec (.refreshIssue ch b) s = .next (putChan s ch { c with inFlight := some b.toNat })) ∧
      (c.state = .entering ∨ c.state = .leaving → exec (.refreshIssue ch b) s = .next s)) ∧
    (∀ b, c.inFlight = some b → exec (.refreshComplete ch) s = .next (retryAll (pumpAll { putChan s ch { c with
      inFlight := none, groups := tabSet 0 c.groups b ((tabGet 0 c.groups b + 1) % 8192)
      debts := tabSet 0 c.debts b (tabGet 0 c.debts b - 1), sent := c.state = .entering || c.state = .leaving } with
        agenda := s.heldIn ++ s.agenda, heldIn := [] }))) ∧
    (c.inFlight = none → exec (.refreshComplete ch) s = .next s) ∧
    (c.sent = false → exec (.handoverAck ch) s = .next s) ∧
    (c.sent = true → (c.state = .entering → chanEmpty s ch = false → exec (.handoverAck ch) s =
        .next (putChan s ch { c with state := .compute, sent := false })) ∧
      (c.state = .leaving → chanEmpty s ch = true → exec (.handoverAck ch) s =
        .next (putChan s ch { c with state := .normal, sent := false })))) ∧
  ∀ (s : State) (u : Nat), (s.stage ≠ 3 → exec (.unitLogClear u) s = .next s) ∧
    (s.stage = 3 → ∃ t, exec (.unitLogClear u) s = .next t ∧ t = { s with unitLogs := t.unitLogs } ∧
    tabGet 0 t.unitLogs u = 0 ∧ ∀ k, k ≠ u → tabGet 0 t.unitLogs k = tabGet 0 s.unitLogs k)

/-- That the scrubber reads the rows of a pass in any order is the model's choice of log 51, and what a fence does to
what is under way that of log 55. A write to a counter clears it. A scrubbed row leaves every value as it was, adds
its corrected units and those that it newly poisons to the die's counters 0 and 1, poisons the units with
uncorrectable errors and no other, counts as read in this pass, and raises counter 7 with the last row of a stack;
each counter saturates. Where scrubbing is off, a refresh of the bank comes first, the row is not one of an admitted
stack, or it has been read in this pass, nothing happens. Where lines that the host may cache would be written, a
fence and a re-admission ask for them and are held. Else a fence of a die in stage 3, commanded or found necessary,
takes its bit out of those admitted, its ports down, ends its vat commands, and ends every launch that is on it with
state 4 and code 9. Re-admission of a fenced die starts its self-test: passed, the die is admitted with its stack
wiped and its ports in training; failed, it stays fenced with result 1. In stage 2 the dies are tested in turn. (R418,
R419, R421, R422, R424, R425, R426, R429) -/
def Obligations.ReliabilityActions : Prop :=
  (∀ (s : State) (d i : BitVec 3) (k : Nat), k = 0x200100 + 0x40 * d.toNat + 8 * i.toNat →
    (s.stage ≠ 3 → exec (.counterClear d i) s = .next s) ∧
    (s.stage = 3 → ∃ t, exec (.counterClear d i) s = .next t ∧ t = { s with bar := t.bar } ∧ barGet t k = 0 ∧
      ∀ j, j ≠ k → barGet t j = barGet s j)) ∧
  (∀ (s : State) (st : BitVec 3) (pa : Nat) (ce ue rows : List Nat), rows = tabGet [] s.scrubbed st.toNat →
    (s.stage ≠ 3 ∨ s.admitted.getLsbD st.toNat = false ∨ (barGet s 0x200020).getLsbD 8 = false ∨ fwHolds s 7 = true ∨
      pa % 1024 ≠ 0 ∨ paExists pa = false ∨ paDue s pa = true ∨ paSpace pa ≠ 1 ∨ paStack pa ≠ st.toNat ∨ pa / 1024 ∈ rows →
      exec (.scrubRow st pa ce ue) s = .next s) ∧
    (s.stage = 3 → s.admitted.getLsbD st.toNat = true → (barGet s 0x200020).getLsbD 8 = true → fwHolds s 7 = false →
      pa % 1024 = 0 → paExists pa = true → paDue s pa = false → paSpace pa = 1 → paStack pa = st.toNat → pa / 1024 ∉ rows →
      ∃ t, exec (.scrubRow st pa ce ue) s = .next t ∧
        (∀ (off : Nat) (last : Bool) (raised : Nat → Nat → Prop), off = 0x200100 + 0x40 * st.toNat →
          last = decide (rows.length + 1 = stackRows) →
          raised = (fun o n => (barGet t o).toNat = min (2 ^ 64 - 1) ((barGet s o).toNat + n)) →
          raised off ((ce.filter (· < 32)).eraseDups).length ∧ raised (off + 0x38) (if last then 1 else 0) ∧
          tabGet [] t.scrubbed st.toNat = (if last then [] else pa / 1024 :: rows) ∧
          (∀ k, k ≠ st.toNat → tabGet [] t.scrubbed k = tabGet [] s.scrubbed k) ∧
          ((barGet s 0x200008).getLsbD 4 = false → s.errq = [] →
            t = { s with bar := t.bar, scrubbed := t.scrubbed, poison := t.poison, cured := t.cured } ∧
            (∀ u, u ∈ t.poison ↔ u ∈ s.poison ∨ ∃ x ∈ ue, x < 32 ∧ u = unitCell (pa / 32 + x)) ∧
            raised (off + 8) (((ue.filter (· < 32)).eraseDups.filter fun x =>
              !(s.poison.contains (unitCell (pa / 32 + x)) && !isCured s none (unitCell (pa / 32 + x)))).length) ∧
            ∀ o, o ≠ off → o ≠ off + 8 → o ≠ off + 0x38 → o ≠ 0x200040 → barGet t o = barGet s o)) ∧
        (ue = [] → t = { s with bar := t.bar, scrubbed := t.scrubbed }) ∧
        (ue = [] → ce = [] → rows.length + 1 ≠ stackRows → t = { s with
          scrubbed := tabSet [] s.scrubbed st.toNat (pa / 1024 :: rows) }) ∧
        (ue = [] → ce = [] → rows.length + 1 = stackRows → t = { rcount s st.toNat 7 with
          scrubbed := tabSet [] s.scrubbed st.toNat [] }))) ∧
  (∀ (s : State) (d : BitVec 3) (v : W64),
    (v.toNat = 2 ^ 8 + d.toNat → fenceLines s d.toNat = [] → exec (.dieFenceCommand v) s = exec (.dieFence d) s) ∧
    (∀ l ls, s.stage = 3 → fenceLines s d.toNat = l :: ls →
      exec (.dieFence d) s = .next { askLines s (l :: ls) with heldIn := s.heldIn ++ [.dieFence d] } ∧
      (v.toNat = 2 ^ 8 + d.toNat → exec (.dieFenceCommand v) s =
        .next { askLines s (l :: ls) with heldIn := s.heldIn ++ [.dieFenceCommand v] })) ∧
    ((v.toNat < 2 ^ 8 ∨ 2 ^ 8 + 8 ≤ v.toNat ∨ s.stage ≠ 3) → exec (.dieFenceCommand v) s = .next s) ∧
    (s.stage ≠ 3 ∨ s.admitted.getLsbD d.toNat = false ∧ fenceLines s d.toNat = [] → exec (.dieFence d) s = .next s) ∧
    (s.stage = 3 → s.admitted.getLsbD d.toNat = true → fenceLines s d.toNat = [] → ∃ t, exec (.dieFence d) s = .next t ∧
      t.admitted = s.admitted &&& ~~~ (BitVec.ofNat 8 (2 ^ d.toNat)) ∧
      (∀ p, Config.portDie p % 8 = d.toNat → (portOfNo t p).state = 0) ∧
      (∀ e ∈ t.vats, e.1 / 2048 ≠ d.toNat) ∧ (∀ e ∈ t.vatWait, e.1 / 2048 ≠ d.toNat) ∧
      ∀ l < s.launches.length, onDie s d.toNat l = true → (getL s l).endState = 0 →
        (getL t l).endState = 4 ∧ (getL t l).endCode = 9)) ∧
  (∀ (s : State) (v : W64) (d : Nat), d = v.toNat % 8 →
    (s.readmit ≠ none ∨ s.stage ≠ 3 → exec (.readmission v) s = .next s) ∧
    (s.readmit = none → s.stage = 3 → fwHolds s 0 = true →
      exec (.readmission v) s = .next { s with heldIn := s.heldIn ++ [.registerWrite 0x200030 v] }) ∧
    (s.readmit = none → s.stage = 3 → fwHolds s 0 = false → exec (.readmission v) s = .next (if s.admitted.getLsbD d = true
      then { s with readmitDie := d, readmitRes := 2 } else { s with readmit := some d, readmitDie := d }))) ∧
  ∀ (s : State) (d : BitVec 3) (ok : Bool) (lines : List Nat),
    lines = (List.range 128).flatMap (fun c => coreLines s (128 * d.toNat + c)) →
    (s.stage = 3 → s.readmit = some d.toNat → ok = true → ∀ l ls, lines = l :: ls → exec (.dieSelfTestComplete d ok) s =
      .next { askLines s (l :: ls) with heldIn := s.heldIn ++ [.dieSelfTestComplete d ok] }) ∧
    (s.stage = 2 → s.testDie = d.toNat → ∃ t, exec (.dieSelfTestComplete d ok) s = .next t ∧ t.testDie = d.toNat + 1 ∧
      t.stage = 2 ∧ (t.admitted = if ok then s.admitted ||| BitVec.ofNat 8 (2 ^ d.toNat) else s.admitted) ∧
      (ok = true → ∀ p < 36, Config.portDie p % 8 = d.toNat → (portOfNo s p).state = 0 → (portOfNo t p).state = 1)) ∧
    (s.stage = 3 → s.readmit = some d.toNat → (ok = true → lines = []) → ∃ t, exec (.dieSelfTestComplete d ok) s = .next t ∧ t.readmit = none ∧
      (ok = false → t.admitted = s.admitted ∧ t.readmitRes = 1) ∧
      (ok = true → t.admitted = s.admitted ||| BitVec.ofNat 8 (2 ^ d.toNat) ∧ t.readmitRes = 0 ∧
        (mouldOf t d.toNat).image = none ∧
        (∀ p < 36, Config.portDie p % 8 = d.toNat → (portOfNo s p).state = 0 → (portOfNo t p).state = 1) ∧
        ((barGet s 0x200008).getLsbD 4 = false → s.errq = [] → ∀ a, paSpace a < 2 → paStack a = d.toNat → l2Byte t a = 0))) ∧
    ((s.stage = 2 → s.testDie ≠ d.toNat) → (s.stage = 3 → s.readmit ≠ some d.toNat) →
      exec (.dieSelfTestComplete d ok) s = .next s)

/-- Ballast mode at power-on with the count at 3, and which cause of a failed start goes before another, are the
model's choices of log 25, the layouts of packages and authorisations those of logs 11 and 54, and what reaches a
block while its firmware is switched that of log 57. A start begins at stage 0 with nothing running and keeps what the
management controller keeps; power coming on with the count at 3 leaves the module in ballast mode. The stages follow
in order; wiping leaves every byte of DRAM zero in every cache and every control register at its reset value; a
decommissioned module stays at stage 0, wiped; reaching stage 3 with a die admitted clears the count. In stage 0 a
signature or a version below its floor, and in every stage an inlet above 40 degrees, fails the start. A failed start
notes its reason, raises the count and begins again, or at the third enters ballast mode, in which no die is admitted
and no port is in use, and which only command 2 leaves. A change of life-cycle state is one step forward under an
authorisation, and acts as a reset. A firmware package is rejected with its reason, or its block switches, once what
it had begun is finished, and its floor becomes at least the version. An attestation writes its signed reply. Each
millisecond over the cap, or with a die above 95 degrees, lowers the clock by one step to 0.9 GHz at least; 10 ms at 5
percent under it raise it, to 1.8 GHz at most. A reading of 110 degrees is a trip, which returns to stage 0, once the
host has given up the lines that the launches' ends write. (R428, R429, R430, R431, R432, R433, R434, R435, R436,
R437) -/
def Obligations.StartAndLifeCycle : Prop :=
  (∀ s : State, (beginStart s).stage = 0 ∧ (beginStart s).admitted = 0 ∧ (beginStart s).warps = [] ∧
    (beginStart s).launches = [] ∧ (beginStart s).cmds = [] ∧ (beginStart s).l1 = [] ∧ (beginStart s).l2 = [] ∧
    (beginStart s).tlb = [] ∧ (beginStart s).fails = s.fails ∧ (beginStart s).reason = s.reason ∧
    (beginStart s).life = s.life ∧ (beginStart s).fw = s.fw ∧
    (∃ t, exec .powerOn s = .next t ∧
      t = { beginStart s with mem := t.mem, poison := [], stage := if 3 ≤ s.fails then 4 else 0 } ∧
      ∀ a, memGet t.mem a = if paSpace a < 2 then 0 else memGet s.mem a) ∧
    (s.stage = 4 → exec .lifecycleReset s = .next s ∧ (fwHolds s 0 = false →
      exec .clearFailedStartCount s = .next (beginStart { s with fails := 0 }))) ∧
    (fwHolds s 0 = true → (s.stage ≠ 4 → exec .lifecycleReset s = .next { s with heldIn := s.heldIn ++ [.registerWrite 0x300008 1] }) ∧
      exec .clearFailedStartCount s = .next { s with heldIn := s.heldIn ++ [.registerWrite 0x300008 2] }) ∧
    (s.stage ≠ 4 → fwHolds s 0 = false → exec .lifecycleReset s = .next (beginStart s) ∧
      exec .clearFailedStartCount s = .next { s with fails := 0 })) ∧
  (∀ (s u : State) (r : Nat), u = { s with reason := r, fails := min 3 (s.fails + 1) } →
    failStart s r = if 2 ≤ s.fails then { u with stage := 4, admitted := 0, ports := [], ctlFlits := [] } else beginStart u) ∧
  (∀ (s u : State), u = { s with ctr := s.ctr + 1 } →
    ((s.stage = 0 ∨ s.stage = 1 ∨ s.stage = 2 ∧ 8 ≤ s.testDie) → ∀ r, startFails s s.stage = some r →
      exec .startStageComplete s = .next (failStart u r)) ∧
    ((∃ b < 8, fwSigned (fwPackage s b) = false) → startFails s 0 = some 1) ∧
    ((∀ b < 8, fwSigned (fwPackage s b) = true) → (∃ b < 8, (fwOf s b).version < (fwOf s b).floor) → startFails s 0 = some 2) ∧
    ((∀ b < 8, fwSigned (fwPackage s b) = true ∧ (fwOf s b).floor ≤ (fwOf s b).version) → 40 < inletOf s →
      startFails s 0 = some 6) ∧
    (40 < inletOf s → startFails s 2 = some 6 ∧ (startFails s 1 = some 3 ∨ startFails s 1 = some 6)) ∧
    (s.stage = 0 → s.life ≠ 3 → startFails s 0 = none → exec .startStageComplete s = .next { u with stage := 1 }) ∧
    (s.stage = 1 → startFails s 1 = none → ∃ t, exec .startStageComplete s = .next t ∧
      t = { u with
        stage := 2, testDie := 0, admitted := 0, bar := barReset, mem := t.mem, poison := [], upsets := [], unitLogs := []
        moulds := [], l1 := [], l1By := [], l2 := [], dramq := [], cured := [], tlb := [], ports := [], splits := [] } ∧
      (∀ a, memGet t.mem a = if paSpace a < 2 then 0 else memGet s.mem a) ∧ ∀ a, paSpace a < 2 → l2Byte t a = 0) ∧
    (s.stage = 2 → 8 ≤ s.testDie → startFails s 2 = none → exec .startStageComplete s = .next
      (if s.admitted = 0 then failStart s 4 else { u with stage := 3, fails := 0 })) ∧
    (s.stage = 0 → s.life = 3 → startFails s 0 = none → ∃ t, exec .startStageComplete s = .next t ∧ t.stage = 0 ∧ t.bar = barReset ∧
      (∀ a, paSpace a < 2 → l2Byte t a = 0) ∧ t.life = 3 ∧ t.fw = s.fw ∧ t.tlb = [] ∧ t.ports = []) ∧
    (s.stage = 2 ∧ s.testDie < 8 ∨ 2 < s.stage → exec .startStageComplete s = .next s) ∧
    exec .startStageTimeout s = .next (if s.stage < 3 then failStart s 5 else s)) ∧
  (∀ (s : State) (v : W64) (pa : Nat), pa = v.toNat / 256 →
    (s.stage = 4 ∨ 3 ≤ s.life ∨ pa % 64 ≠ 0 ∨ paExists pa = false ∨ paExists (pa + 4095) = false → exec (.lifecycleChange v) s = .next s) ∧
    (s.stage ≠ 4 → s.life < 3 → pa % 64 = 0 → paExists pa = true → paExists (pa + 4095) = true → fwHolds s 0 = false → runDue s pa 4096 = false →
      exec (.lifecycleChange v) s = .next (if authorised (leBytes 4096 (tblRead s pa 4096)) (s.life + 1) = true then
        beginStart { s with life := s.life + 1, keysGone := s.keysGone || s.life + 1 = 3 } else s))) ∧
  (∀ (s : State) (v : W64) (r b ver len : Nat),
    (s.fwState = 1 ∨ s.fwState = 2 → exec (.firmwareLoad v) s = .next s) ∧
    (s.fwState ≠ 1 → s.fwState ≠ 2 → exec (.firmwareLoad v) s = .next { s with
      fwState := 1, fwReason := 0, fwPa := v.toNat }) ∧
    (s.fwState ≠ 1 ∨ runDue s s.fwPa (max 64 len) = true ∧ (fwCheck s).2.2.2 = len → exec .firmwareVerifyDone s = .next s) ∧ (s.fwState ≠ 2 → exec .firmwareSwitch s = .next s) ∧
    (s.fwState = 1 → fwCheck s = (r, b, ver, len) → runDue s s.fwPa (max 64 len) = false →
      (r ≠ 0 → exec .firmwareVerifyDone s = .next { s with fwState := 4, fwReason := r, fwBlock := b }) ∧
      (r = 0 → exec .firmwareVerifyDone s = .next { s with
          fwState := 2, fwBlock := b
          fwNew := (ver, pkgBytes s s.fwPa 0 len) } ∧ b < 8 ∧
        s.fwPa % 64 = 0 ∧ tblRead s s.fwPa 64 % 2 ^ 32 = 0x08404657 ∧ tblRead s s.fwPa 64 / 2 ^ 32 % 2 ^ 32 = ver ∧
        (fwOf s b).floor ≤ ver ∧ fwSigned (pkgBytes s s.fwPa 0 len) = true)) ∧
    (s.fwState = 2 → blockBusy s s.fwBlock = true → exec .firmwareSwitch s = .next s) ∧
    (s.fwState = 2 → blockBusy s s.fwBlock = false → ∃ t, exec .firmwareSwitch s = .next (retryAll (pumpAll t)) ∧ t = { s with
        fw := t.fw, fwState := 3, fwNew := (0, []), agenda := s.heldIn ++ s.agenda, heldIn := [] } ∧
      fwOf t s.fwBlock = ⟨s.fwNew.1, max (fwOf s s.fwBlock).floor s.fwNew.1, s.fwNew.2⟩ ∧
      ∀ k, k ≠ s.fwBlock → fwOf t k = fwOf s k)) ∧
  (∀ (s : State) (v : W64) (at_ : Nat) (body reply : List Byte),
    (s.keysGone = true ∨ paExists v.toNat = false ∨ paExists (v.toNat + 39) = false →
      exec (.attestationRequest v) s = .next s) ∧
    (s.keysGone = false → fwHolds s 0 = false → runDue s v.toNat 40 = false → paExists v.toNat = true → paExists (v.toNat + 39) = true →
      body = attestBody s (leBytes 32 (tblRead s v.toNat 32)) → reply = body ++ (Config.attestSign body).toList →
      at_ = tblRead s (v.toNat + 32) 8 → paExists at_ = true → paExists (at_ + (reply.length - 1)) = true →
      paFenced s at_ = false → heldLines s at_ reply.length = [] →
      ∃ t, exec (.attestationRequest v) s = .next t ∧ (∀ i < reply.length, l2Byte t (at_ + i) = reply.getD i 0) ∧
        ∀ a, ¬ Covers at_ reply.length a → l2Byte t a = l2Byte s a)) ∧
  (∀ (s : State) (p : BitVec 13) (hot inlet : BitVec 8) (cap : Nat), cap = (barGet s 0x300028).toNat →
    ∃ t, t = { s with coreClk := t.coreClk, coolMs := t.coolMs, power := t.power } ∧
      (hot.toNat < 110 ∨ s.stage = 4 → exec (.throttleStep p hot inlet) s = .next t) ∧
      (∀ l ls, 110 ≤ hot.toNat → s.stage ≠ 4 → tripLines s = l :: ls → exec (.throttleStep p hot inlet) s =
        .next { askLines s (l :: ls) with heldIn := s.heldIn ++ [.throttleStep p hot inlet] }) ∧
      (110 ≤ hot.toNat → s.stage ≠ 4 → tripLines s = [] → ∃ u, exec (.throttleStep p hot inlet) s = .next u ∧ u.stage = 0 ∧ u.warps = [] ∧
        u.launches = [] ∧ u.admitted = 0 ∧ u.fails = s.fails ∧ u.coreClk = t.coreClk ∧ u.power = t.power) ∧
      (fwHolds s 0 = true → t.coreClk = s.coreClk) ∧
      (fwHolds s 0 = false → cap < p.toNat ∨ 95 < hot.toNat → t.coreClk = max 9 (s.coreClk - 1)) ∧
      (fwHolds s 0 = false → p.toNat ≤ cap → hot.toNat ≤ 95 → t.coreClk = if 100 * p.toNat ≤ 95 * cap ∧ 9 ≤ s.coolMs then min 18 (s.coreClk + 1)
        else s.coreClk) ∧
      (100 * p.toNat ≤ 95 * cap → t.coolMs = min 10 (s.coolMs + 1)) ∧ (95 * cap < 100 * p.toNat → t.coolMs = 0) ∧
      (t.coreClk < 256 → (t.power.extractLsb' 0 13) = p ∧ (t.power.extractLsb' 16 8).toNat = t.coreClk ∧
        t.power.extractLsb' 24 8 = hot ∧ t.power.extractLsb' 32 8 = inlet)) ∧
  ∀ (s : State) (d : BitVec 3), (s.stage = 4 ∨ (s.power.extractLsb' 24 8).toNat < 110 → exec (.thermalTrip d) s = .next s) ∧
    (∀ l ls, s.stage ≠ 4 → 110 ≤ (s.power.extractLsb' 24 8).toNat → tripLines s = l :: ls → exec (.thermalTrip d) s =
      .next { askLines s (l :: ls) with heldIn := s.heldIn ++ [.thermalTrip d] }) ∧
    (s.stage ≠ 4 → 110 ≤ (s.power.extractLsb' 24 8).toNat → tripLines s = [] → ∃ t, exec (.thermalTrip d) s = .next t ∧ t.stage = 0 ∧ t.warps = [] ∧ t.launches = [] ∧ t.admitted = 0 ∧
      t.fails = s.fails) ∧
    (s.stage ≠ 4 → 110 ≤ (s.power.extractLsb' 24 8).toNat → s.launches = [] → exec (.thermalTrip d) s = .next { beginStart s with msix := s.msix })
end

