-- ==== Sys2Proof/Laws/Exec.lean ====
section
/-! SUPPORT. The meaning that each instruction runs, one equation a constructor, so that a proof unfolds that meaning only. -/

namespace Sys2Proof.Machine

theorem exec_clauseStart (n : BitVec 4) (p : BitVec 4) (w : BitVec 6) (y : BitVec 1) (s : BitVec 1) (rsv : BitVec 10) (σ : State) : exec (.clauseStart n p w y s rsv) σ = execClauseStart n p w y s rsv σ := rfl
theorem exec_sadd (d : BitVec 6) (a : BitVec 6) (b : BitVec 6) (σ : State) : exec (.sadd d a b) σ = execSadd d a b σ := rfl
theorem exec_ssub (d : BitVec 6) (a : BitVec 6) (b : BitVec 6) (σ : State) : exec (.ssub d a b) σ = execSsub d a b σ := rfl
theorem exec_smul (d : BitVec 6) (a : BitVec 6) (b : BitVec 6) (σ : State) : exec (.smul d a b) σ = execSmul d a b σ := rfl
theorem exec_smulhI64 (d : BitVec 6) (a : BitVec 6) (b : BitVec 6) (σ : State) : exec (.smulhI64 d a b) σ = execSmulhI64 d a b σ := rfl
theorem exec_smulhUi64 (d : BitVec 6) (a : BitVec 6) (b : BitVec 6) (σ : State) : exec (.smulhUi64 d a b) σ = execSmulhUi64 d a b σ := rfl
theorem exec_sdivI64 (d : BitVec 6) (a : BitVec 6) (b : BitVec 6) (σ : State) : exec (.sdivI64 d a b) σ = execSdivI64 d a b σ := rfl
theorem exec_sdivUi64 (d : BitVec 6) (a : BitVec 6) (b : BitVec 6) (σ : State) : exec (.sdivUi64 d a b) σ = execSdivUi64 d a b σ := rfl
theorem exec_sremI64 (d : BitVec 6) (a : BitVec 6) (b : BitVec 6) (σ : State) : exec (.sremI64 d a b) σ = execSremI64 d a b σ := rfl
theorem exec_sremUi64 (d : BitVec 6) (a : BitVec 6) (b : BitVec 6) (σ : State) : exec (.sremUi64 d a b) σ = execSremUi64 d a b σ := rfl
theorem exec_sand (d : BitVec 6) (a : BitVec 6) (b : BitVec 6) (σ : State) : exec (.sand d a b) σ = execSand d a b σ := rfl
theorem exec_sor (d : BitVec 6) (a : BitVec 6) (b : BitVec 6) (σ : State) : exec (.sor d a b) σ = execSor d a b σ := rfl
theorem exec_sxor (d : BitVec 6) (a : BitVec 6) (b : BitVec 6) (σ : State) : exec (.sxor d a b) σ = execSxor d a b σ := rfl
theorem exec_sshl (d : BitVec 6) (a : BitVec 6) (b : BitVec 6) (σ : State) : exec (.sshl d a b) σ = execSshl d a b σ := rfl
theorem exec_sshr (d : BitVec 6) (a : BitVec 6) (b : BitVec 6) (σ : State) : exec (.sshr d a b) σ = execSshr d a b σ := rfl
theorem exec_ssra (d : BitVec 6) (a : BitVec 6) (b : BitVec 6) (σ : State) : exec (.ssra d a b) σ = execSsra d a b σ := rfl
theorem exec_sminI64 (d : BitVec 6) (a : BitVec 6) (b : BitVec 6) (σ : State) : exec (.sminI64 d a b) σ = execSminI64 d a b σ := rfl
theorem exec_sminUi64 (d : BitVec 6) (a : BitVec 6) (b : BitVec 6) (σ : State) : exec (.sminUi64 d a b) σ = execSminUi64 d a b σ := rfl
theorem exec_smaxI64 (d : BitVec 6) (a : BitVec 6) (b : BitVec 6) (σ : State) : exec (.smaxI64 d a b) σ = execSmaxI64 d a b σ := rfl
theorem exec_smaxUi64 (d : BitVec 6) (a : BitVec 6) (b : BitVec 6) (σ : State) : exec (.smaxUi64 d a b) σ = execSmaxUi64 d a b σ := rfl
theorem exec_sclz (d : BitVec 6) (a : BitVec 6) (σ : State) : exec (.sclz d a) σ = execSclz d a σ := rfl
theorem exec_spopc (d : BitVec 6) (a : BitVec 6) (σ : State) : exec (.spopc d a) σ = execSpopc d a σ := rfl
theorem exec_sbrev (d : BitVec 6) (a : BitVec 6) (σ : State) : exec (.sbrev d a) σ = execSbrev d a σ := rfl
theorem exec_smov (d : BitVec 6) (a : BitVec 6) (σ : State) : exec (.smov d a) σ = execSmov d a σ := rfl
theorem exec_tick (d : BitVec 6) (σ : State) : exec (.tick d) σ = execTick d σ := rfl
theorem exec_ssel (d : BitVec 6) (a : BitVec 6) (b : BitVec 6) (σ : State) : exec (.ssel d a b) σ = execSsel d a b σ := rfl
theorem exec_scmp (d : BitVec 6) (a : BitVec 6) (b : BitVec 6) (c : BitVec 4) (σ : State) : exec (.scmp d a b c) σ = execScmp d a b c σ := rfl
theorem exec_sli (d : BitVec 6) (i : BitVec 14) (x : ImmPfx) (σ : State) : exec (.sli d i x) σ = execSli d i x σ := rfl
theorem exec_saddImm (d : BitVec 6) (a : BitVec 6) (i : BitVec 14) (x : ImmPfx) (σ : State) : exec (.saddImm d a i x) σ = execSaddImm d a i x σ := rfl
theorem exec_sandImm (d : BitVec 6) (a : BitVec 6) (i : BitVec 14) (x : ImmPfx) (σ : State) : exec (.sandImm d a i x) σ = execSandImm d a i x σ := rfl
theorem exec_sshlImm (d : BitVec 6) (a : BitVec 6) (n : BitVec 6) (σ : State) : exec (.sshlImm d a n) σ = execSshlImm d a n σ := rfl
theorem exec_sshrImm (d : BitVec 6) (a : BitVec 6) (n : BitVec 6) (σ : State) : exec (.sshrImm d a n) σ = execSshrImm d a n σ := rfl
theorem exec_ssraImm (d : BitVec 6) (a : BitVec 6) (n : BitVec 6) (σ : State) : exec (.ssraImm d a n) σ = execSsraImm d a n σ := rfl
theorem exec_sld (d : BitVec 6) (a : BitVec 6) (i : BitVec 14) (x : ImmPfx) (m : Option MemAttr) (σ : State) : exec (.sld d a i x m) σ = execSld d a i x m σ := rfl
theorem exec_sst (d : BitVec 6) (a : BitVec 6) (i : BitVec 14) (x : ImmPfx) (m : Option MemAttr) (σ : State) : exec (.sst d a i x m) σ = execSst d a i x m σ := rfl
theorem exec_rdsys (d : BitVec 6) (n : BitVec 14) (σ : State) : exec (.rdsys d n) σ = execRdsys d n σ := rfl
theorem exec_wrsys (a : BitVec 6) (n : BitVec 14) (σ : State) : exec (.wrsys a n) σ = execWrsys a n σ := rfl
theorem exec_br (o : BitVec 19) (σ : State) : exec (.br o) σ = execBr o σ := rfl
theorem exec_bc (c : BitVec 4) (p : BitVec 3) (o : BitVec 19) (σ : State) : exec (.bc c p o) σ = execBc c p o σ := rfl
theorem exec_call (o : BitVec 19) (σ : State) : exec (.call o) σ = execCall o σ := rfl
theorem exec_pif (p : BitVec 3) (o : BitVec 19) (σ : State) : exec (.pif p o) σ = execPif p o σ := rfl
theorem exec_pifNot (p : BitVec 3) (o : BitVec 19) (σ : State) : exec (.pifNot p o) σ = execPifNot p o σ := rfl
theorem exec_pelse (o : BitVec 19) (σ : State) : exec (.pelse o) σ = execPelse o σ := rfl
theorem exec_loop (l : BitVec 2) (k : BitVec 5) (o : BitVec 19) (σ : State) : exec (.loop l k o) σ = execLoop l k o σ := rfl
theorem exec_nop (σ : State) : exec .nop σ = execNop σ := rfl
theorem exec_ret (σ : State) : exec .ret σ = execRet σ := rfl
theorem exec_pend (σ : State) : exec .pend σ = execPend σ := rfl
theorem exec_lbrk (σ : State) : exec .lbrk σ = execLbrk σ := rfl
theorem exec_bar (n : BitVec 6) (σ : State) : exec (.bar n) σ = execBar n σ := rfl
theorem exec_barv (n : BitVec 6) (b : BitVec 6) (σ : State) : exec (.barv n b) σ = execBarv n b σ := rfl
theorem exec_exit (σ : State) : exec .exit σ = execExit σ := rfl
theorem exec_demote (σ : State) : exec .demote σ = execDemote σ := rfl
theorem exec_trap (n : BitVec 6) (σ : State) : exec (.trap n) σ = execTrap n σ := rfl
theorem exec_rfe (σ : State) : exec .rfe σ = execRfe σ := rfl
theorem exec_yield (σ : State) : exec .yield σ = execYield σ := rfl
theorem exec_wait (n : BitVec 6) (σ : State) : exec (.wait n) σ = execWait n σ := rfl
theorem exec_modeVx (σ : State) : exec .modeVx σ = execModeVx σ := rfl
theorem exec_modeMx (c : BitVec 8) (σ : State) : exec (.modeMx c) σ = execModeMx c σ := rfl
theorem exec_deck (c : BitVec 6) (σ : State) : exec (.deck c) σ = execDeck c σ := rfl
theorem exec_jxt (t : BitVec 6) (n : BitVec 6) (j : BitVec 6) (i : BitVec 8) (σ : State) : exec (.jxt t n j i) σ = execJxt t n j i σ := rfl
theorem exec_vadd (d : BitVec 8) (a : BitVec 8) (b : BitVec 8) (t : Option TyPfx) (σ : State) : exec (.vadd d a b t) σ = execVadd d a b t σ := rfl
theorem exec_vsub (d : BitVec 8) (a : BitVec 8) (b : BitVec 8) (t : Option TyPfx) (σ : State) : exec (.vsub d a b t) σ = execVsub d a b t σ := rfl
theorem exec_vmul (d : BitVec 8) (a : BitVec 8) (b : BitVec 8) (t : Option TyPfx) (σ : State) : exec (.vmul d a b t) σ = execVmul d a b t σ := rfl
theorem exec_vmulh (d : BitVec 8) (a : BitVec 8) (b : BitVec 8) (t : Option TyPfx) (σ : State) : exec (.vmulh d a b t) σ = execVmulh d a b t σ := rfl
theorem exec_vmad (d : BitVec 8) (a : BitVec 8) (b : BitVec 8) (t : Option TyPfx) (σ : State) : exec (.vmad d a b t) σ = execVmad d a b t σ := rfl
theorem exec_vand (d : BitVec 8) (a : BitVec 8) (b : BitVec 8) (t : Option TyPfx) (σ : State) : exec (.vand d a b t) σ = execVand d a b t σ := rfl
theorem exec_vor (d : BitVec 8) (a : BitVec 8) (b : BitVec 8) (t : Option TyPfx) (σ : State) : exec (.vor d a b t) σ = execVor d a b t σ := rfl
theorem exec_vxor (d : BitVec 8) (a : BitVec 8) (b : BitVec 8) (t : Option TyPfx) (σ : State) : exec (.vxor d a b t) σ = execVxor d a b t σ := rfl
theorem exec_vshl (d : BitVec 8) (a : BitVec 8) (b : BitVec 8) (t : Option TyPfx) (σ : State) : exec (.vshl d a b t) σ = execVshl d a b t σ := rfl
theorem exec_vshr (d : BitVec 8) (a : BitVec 8) (b : BitVec 8) (t : Option TyPfx) (σ : State) : exec (.vshr d a b t) σ = execVshr d a b t σ := rfl
theorem exec_vsra (d : BitVec 8) (a : BitVec 8) (b : BitVec 8) (t : Option TyPfx) (σ : State) : exec (.vsra d a b t) σ = execVsra d a b t σ := rfl
theorem exec_vmin (d : BitVec 8) (a : BitVec 8) (b : BitVec 8) (t : Option TyPfx) (σ : State) : exec (.vmin d a b t) σ = execVmin d a b t σ := rfl
theorem exec_vmax (d : BitVec 8) (a : BitVec 8) (b : BitVec 8) (t : Option TyPfx) (σ : State) : exec (.vmax d a b t) σ = execVmax d a b t σ := rfl
theorem exec_fmin (d : BitVec 8) (a : BitVec 8) (b : BitVec 8) (t : Option TyPfx) (σ : State) : exec (.fmin d a b t) σ = execFmin d a b t σ := rfl
theorem exec_fmax (d : BitVec 8) (a : BitVec 8) (b : BitVec 8) (t : Option TyPfx) (σ : State) : exec (.fmax d a b t) σ = execFmax d a b t σ := rfl
theorem exec_fcpsgn (d : BitVec 8) (a : BitVec 8) (b : BitVec 8) (t : Option TyPfx) (σ : State) : exec (.fcpsgn d a b t) σ = execFcpsgn d a b t σ := rfl
theorem exec_fadd (d : BitVec 8) (a : BitVec 8) (b : BitVec 8) (t : Option TyPfx) (σ : State) : exec (.fadd d a b t) σ = execFadd d a b t σ := rfl
theorem exec_fsub (d : BitVec 8) (a : BitVec 8) (b : BitVec 8) (t : Option TyPfx) (σ : State) : exec (.fsub d a b t) σ = execFsub d a b t σ := rfl
theorem exec_fmul (d : BitVec 8) (a : BitVec 8) (b : BitVec 8) (t : Option TyPfx) (σ : State) : exec (.fmul d a b t) σ = execFmul d a b t σ := rfl
theorem exec_ffma (d : BitVec 8) (a : BitVec 8) (b : BitVec 8) (t : Option TyPfx) (σ : State) : exec (.ffma d a b t) σ = execFfma d a b t σ := rfl
theorem exec_hadd (d : BitVec 8) (a : BitVec 8) (b : BitVec 8) (t : Option TyPfx) (σ : State) : exec (.hadd d a b t) σ = execHadd d a b t σ := rfl
theorem exec_hmul (d : BitVec 8) (a : BitVec 8) (b : BitVec 8) (t : Option TyPfx) (σ : State) : exec (.hmul d a b t) σ = execHmul d a b t σ := rfl
theorem exec_hfma (d : BitVec 8) (a : BitVec 8) (b : BitVec 8) (t : Option TyPfx) (σ : State) : exec (.hfma d a b t) σ = execHfma d a b t σ := rfl
theorem exec_hmin (d : BitVec 8) (a : BitVec 8) (b : BitVec 8) (t : Option TyPfx) (σ : State) : exec (.hmin d a b t) σ = execHmin d a b t σ := rfl
theorem exec_hmax (d : BitVec 8) (a : BitVec 8) (b : BitVec 8) (t : Option TyPfx) (σ : State) : exec (.hmax d a b t) σ = execHmax d a b t σ := rfl
theorem exec_vmov (d : BitVec 8) (a : BitVec 8) (t : Option TyPfx) (σ : State) : exec (.vmov d a t) σ = execVmov d a t σ := rfl
theorem exec_vnot (d : BitVec 8) (a : BitVec 8) (t : Option TyPfx) (σ : State) : exec (.vnot d a t) σ = execVnot d a t σ := rfl
theorem exec_vabs (d : BitVec 8) (a : BitVec 8) (t : Option TyPfx) (σ : State) : exec (.vabs d a t) σ = execVabs d a t σ := rfl
theorem exec_vneg (d : BitVec 8) (a : BitVec 8) (t : Option TyPfx) (σ : State) : exec (.vneg d a t) σ = execVneg d a t σ := rfl
theorem exec_vclz (d : BitVec 8) (a : BitVec 8) (t : Option TyPfx) (σ : State) : exec (.vclz d a t) σ = execVclz d a t σ := rfl
theorem exec_vpopc (d : BitVec 8) (a : BitVec 8) (t : Option TyPfx) (σ : State) : exec (.vpopc d a t) σ = execVpopc d a t σ := rfl
theorem exec_vlane (d : BitVec 8) (t : Option TyPfx) (σ : State) : exec (.vlane d t) σ = execVlane d t σ := rfl
theorem exec_vbcast (d : BitVec 8) (s : BitVec 6) (t : Option TyPfx) (σ : State) : exec (.vbcast d s t) σ = execVbcast d s t σ := rfl
theorem exec_fabs (d : BitVec 8) (a : BitVec 8) (t : Option TyPfx) (σ : State) : exec (.fabs d a t) σ = execFabs d a t σ := rfl
theorem exec_fneg (d : BitVec 8) (a : BitVec 8) (t : Option TyPfx) (σ : State) : exec (.fneg d a t) σ = execFneg d a t σ := rfl
theorem exec_frnd (d : BitVec 8) (a : BitVec 8) (r : BitVec 2) (t : Option TyPfx) (σ : State) : exec (.frnd d a r t) σ = execFrnd d a r t σ := rfl
theorem exec_fclass (d : BitVec 8) (a : BitVec 8) (t : Option TyPfx) (σ : State) : exec (.fclass d a t) σ = execFclass d a t σ := rfl
theorem exec_ex2 (d : BitVec 8) (a : BitVec 8) (t : Option TyPfx) (σ : State) : exec (.ex2 d a t) σ = execEx2 d a t σ := rfl
theorem exec_lg2 (d : BitVec 8) (a : BitVec 8) (t : Option TyPfx) (σ : State) : exec (.lg2 d a t) σ = execLg2 d a t σ := rfl
theorem exec_rcp (d : BitVec 8) (a : BitVec 8) (t : Option TyPfx) (σ : State) : exec (.rcp d a t) σ = execRcp d a t σ := rfl
theorem exec_rsq (d : BitVec 8) (a : BitVec 8) (t : Option TyPfx) (σ : State) : exec (.rsq d a t) σ = execRsq d a t σ := rfl
theorem exec_sin (d : BitVec 8) (a : BitVec 8) (t : Option TyPfx) (σ : State) : exec (.sin d a t) σ = execSin d a t σ := rfl
theorem exec_cos (d : BitVec 8) (a : BitVec 8) (t : Option TyPfx) (σ : State) : exec (.cos d a t) σ = execCos d a t σ := rfl
theorem exec_vcmp (c : BitVec 4) (p : BitVec 3) (a : BitVec 8) (b : BitVec 8) (t : Option TyPfx) (σ : State) : exec (.vcmp c p a b t) σ = execVcmp c p a b t σ := rfl
theorem exec_fcmp (c : BitVec 4) (p : BitVec 3) (a : BitVec 8) (b : BitVec 8) (t : Option TyPfx) (σ : State) : exec (.fcmp c p a b t) σ = execFcmp c p a b t σ := rfl
theorem exec_vselP0P3 (d : BitVec 8) (a : BitVec 8) (b : BitVec 8) (p : BitVec 2) (t : Option TyPfx) (σ : State) : exec (.vselP0P3 d a b p t) σ = execVselP0P3 d a b p t σ := rfl
theorem exec_vselP4P7 (d : BitVec 8) (a : BitVec 8) (b : BitVec 8) (p : BitVec 2) (t : Option TyPfx) (σ : State) : exec (.vselP4P7 d a b p t) σ = execVselP4P7 d a b p t σ := rfl
theorem exec_vaddImm (d : BitVec 8) (a : BitVec 8) (i : BitVec 10) (x : ImmPfx) (t : Option TyPfx) (σ : State) : exec (.vaddImm d a i x t) σ = execVaddImm d a i x t σ := rfl
theorem exec_vmulImm (d : BitVec 8) (a : BitVec 8) (i : BitVec 10) (x : ImmPfx) (t : Option TyPfx) (σ : State) : exec (.vmulImm d a i x t) σ = execVmulImm d a i x t σ := rfl
theorem exec_vandImm (d : BitVec 8) (a : BitVec 8) (i : BitVec 10) (x : ImmPfx) (t : Option TyPfx) (σ : State) : exec (.vandImm d a i x t) σ = execVandImm d a i x t σ := rfl
theorem exec_vshlImm (d : BitVec 8) (a : BitVec 8) (n : BitVec 5) (t : Option TyPfx) (σ : State) : exec (.vshlImm d a n t) σ = execVshlImm d a n t σ := rfl
theorem exec_vshrImm (d : BitVec 8) (a : BitVec 8) (n : BitVec 5) (t : Option TyPfx) (σ : State) : exec (.vshrImm d a n t) σ = execVshrImm d a n t σ := rfl
theorem exec_vsraImm (d : BitVec 8) (a : BitVec 8) (n : BitVec 5) (t : Option TyPfx) (σ : State) : exec (.vsraImm d a n t) σ = execVsraImm d a n t σ := rfl
theorem exec_vli (d : BitVec 8) (i : BitVec 10) (x : ImmPfx) (t : Option TyPfx) (σ : State) : exec (.vli d i x t) σ = execVli d i x t σ := rfl
theorem exec_cvt (d : BitVec 8) (a : BitVec 8) (r : BitVec 2) (t : Option TyPfx) (σ : State) : exec (.cvt d a r t) σ = execCvt d a r t σ := rfl
theorem exec_shfl (d : BitVec 8) (a : BitVec 8) (b : BitVec 8) (m : BitVec 2) (t : Option TyPfx) (σ : State) : exec (.shfl d a b m t) σ = execShfl d a b m t σ := rfl
theorem exec_voteAny (d : BitVec 3) (c : BitVec 1) (s : BitVec 3) (t : Option TyPfx) (σ : State) : exec (.voteAny d c s t) σ = execVoteAny d c s t σ := rfl
theorem exec_voteAll (d : BitVec 3) (c : BitVec 1) (s : BitVec 3) (t : Option TyPfx) (σ : State) : exec (.voteAll d c s t) σ = execVoteAll d c s t σ := rfl
theorem exec_voteBallot (d : BitVec 8) (c : BitVec 1) (s : BitVec 3) (t : Option TyPfx) (σ : State) : exec (.voteBallot d c s t) σ = execVoteBallot d c s t σ := rfl
theorem exec_vred (d : BitVec 8) (a : BitVec 8) (o : BitVec 8) (t : Option TyPfx) (σ : State) : exec (.vred d a o t) σ = execVred d a o t σ := rfl
theorem exec_vscan (d : BitVec 8) (a : BitVec 8) (o : BitVec 8) (t : Option TyPfx) (σ : State) : exec (.vscan d a o t) σ = execVscan d a o t σ := rfl
theorem exec_wbind (v : BitVec 8) (a : BitVec 6) (w : BitVec 2) (σ : State) : exec (.wbind v a w) σ = execWbind v a w σ := rfl
theorem exec_wpos (d : BitVec 6) (w : BitVec 2) (σ : State) : exec (.wpos d w) σ = execWpos d w σ := rfl
theorem exec_wclr (w : BitVec 2) (σ : State) : exec (.wclr w) σ = execWclr w σ := rfl
theorem exec_ld (t : BitVec 8) (o : BitVec 8) (b : BitVec 6) (l : BitVec 4) (x : MPfx) (σ : State) : exec (.ld t o b l x) σ = execLd t o b l x σ := rfl
theorem exec_st (t : BitVec 8) (o : BitVec 8) (b : BitVec 6) (l : BitVec 4) (x : MPfx) (σ : State) : exec (.st t o b l x) σ = execSt t o b l x σ := rfl
theorem exec_lds (t : BitVec 8) (o : BitVec 8) (b : BitVec 6) (l : BitVec 4) (x : MPfx) (σ : State) : exec (.lds t o b l x) σ = execLds t o b l x σ := rfl
theorem exec_sts (t : BitVec 8) (o : BitVec 8) (b : BitVec 6) (l : BitVec 4) (x : MPfx) (σ : State) : exec (.sts t o b l x) σ = execSts t o b l x σ := rfl
theorem exec_ldm (t : BitVec 8) (o : BitVec 8) (b : BitVec 6) (l : BitVec 4) (x : MPfx) (σ : State) : exec (.ldm t o b l x) σ = execLdm t o b l x σ := rfl
theorem exec_stm (t : BitVec 8) (o : BitVec 8) (b : BitVec 6) (l : BitVec 4) (x : MPfx) (σ : State) : exec (.stm t o b l x) σ = execStm t o b l x σ := rfl
theorem exec_stmQuantise (t : BitVec 8) (b : BitVec 6) (l : BitVec 4) (x : MPfx) (σ : State) : exec (.stmQuantise t b l x) σ = execStmQuantise t b l x σ := rfl
theorem exec_atom (t : BitVec 8) (o : BitVec 8) (b : BitVec 6) (l : BitVec 4) (x : MPfx) (σ : State) : exec (.atom t o b l x) σ = execAtom t o b l x σ := rfl
theorem exec_red (t : BitVec 8) (o : BitVec 8) (b : BitVec 6) (l : BitVec 4) (x : MPfx) (σ : State) : exec (.red t o b l x) σ = execRed t o b l x σ := rfl
theorem exec_fence (x : MPfx) (σ : State) : exec (.fence x) σ = execFence x σ := rfl
theorem exec_clean (n : BitVec 6) (b : BitVec 6) (k : BitVec 4) (x : MPfx) (σ : State) : exec (.clean n b k x) σ = execClean n b k x σ := rfl
theorem exec_inval (n : BitVec 6) (b : BitVec 6) (k : BitVec 4) (x : MPfx) (σ : State) : exec (.inval n b k x) σ = execInval n b k x σ := rfl
theorem exec_pref (o : BitVec 8) (b : BitVec 6) (l : BitVec 4) (x : MPfx) (σ : State) : exec (.pref o b l x) σ = execPref o b l x σ := rfl
theorem exec_cpy (a : BitVec 6) (b : BitVec 6) (d : BitVec 6) (r : BitVec 1) (x : EPfx) (σ : State) : exec (.cpy a b d r x) σ = execCpy a b d r x σ := rfl
theorem exec_cpwait (n : BitVec 6) (σ : State) : exec (.cpwait n) σ = execCpwait n σ := rfl
theorem exec_rsel (a : BitVec 6) (d : BitVec 6) (r : BitVec 1) (x : EPfx) (σ : State) : exec (.rsel a d r x) σ = execRsel a d r x σ := rfl
theorem exec_rput (a : BitVec 6) (b : BitVec 6) (d : BitVec 6) (r : BitVec 1) (x : EPfx) (σ : State) : exec (.rput a b d r x) σ = execRput a b d r x σ := rfl
theorem exec_rputSig (a : BitVec 6) (b : BitVec 6) (d : BitVec 6) (r : BitVec 1) (x : EPfx) (σ : State) : exec (.rputSig a b d r x) σ = execRputSig a b d r x σ := rfl
theorem exec_rget (a : BitVec 6) (b : BitVec 6) (d : BitVec 6) (r : BitVec 1) (x : EPfx) (σ : State) : exec (.rget a b d r x) σ = execRget a b d r x σ := rfl
theorem exec_radd (a : BitVec 6) (b : BitVec 6) (d : BitVec 6) (r : BitVec 1) (x : EPfx) (σ : State) : exec (.radd a b d r x) σ = execRadd a b d r x σ := rfl
theorem exec_rsig (a : BitVec 6) (b : BitVec 6) (d : BitVec 6) (r : BitVec 1) (x : EPfx) (σ : State) : exec (.rsig a b d r x) σ = execRsig a b d r x σ := rfl
theorem exec_skcfg (a : BitVec 6) (d : BitVec 6) (r : BitVec 1) (x : EPfx) (σ : State) : exec (.skcfg a d r x) σ = execSkcfg a d r x σ := rfl
theorem exec_skfold (a : BitVec 6) (b : BitVec 6) (d : BitVec 6) (r : BitVec 1) (x : EPfx) (σ : State) : exec (.skfold a b d r x) σ = execSkfold a b d r x σ := rfl
theorem exec_skmerge (a : BitVec 6) (d : BitVec 6) (r : BitVec 1) (x : EPfx) (σ : State) : exec (.skmerge a d r x) σ = execSkmerge a d r x σ := rfl
theorem exec_tmerge (a : BitVec 6) (b : BitVec 6) (d : BitVec 6) (r : BitVec 1) (x : EPfx) (σ : State) : exec (.tmerge a b d r x) σ = execTmerge a b d r x σ := rfl
theorem exec_bqpost (j : BitVec 6) (a : BitVec 6) (b : BitVec 6) (d : BitVec 6) (r : BitVec 1) (x : EPfx) (σ : State) : exec (.bqpost j a b d r x) σ = execBqpost j a b d r x σ := rfl
theorem exec_spawn (a : BitVec 6) (b : BitVec 6) (d : BitVec 6) (r : BitVec 1) (x : EPfx) (σ : State) : exec (.spawn a b d r x) σ = execSpawn a b d r x σ := rfl
theorem exec_mma (c : BitVec 3) (m : BitVec 3) (n : BitVec 3) (k : BitVec 6) (f : BitVec 5) (l : BitVec 4) (ev : Option (BitVec 3)) (σ : State) : exec (.mma c m n k f l ev) σ = execMma c m n k f l ev σ := rfl
theorem exec_omap (m : BitVec 3) (a : BitVec 6) (b : BitVec 6) (σ : State) : exec (.omap m a b) σ = execOmap m a b σ := rfl
theorem exec_omapld (m : BitVec 3) (a : BitVec 6) (σ : State) : exec (.omapld m a) σ = execOmapld m a σ := rfl
theorem exec_mmsk (a : BitVec 6) (b : BitVec 6) (σ : State) : exec (.mmsk a b) σ = execMmsk a b σ := rfl
theorem exec_mzero (t : BitVec 3) (σ : State) : exec (.mzero t) σ = execMzero t σ := rfl
theorem exec_unassignedEncoding (r : Reason) (σ : State) : exec (.unassignedEncoding r) σ = execUnassignedEncoding r σ := rfl
theorem exec_loopBackEdge (w : Nat) (σ : State) : exec (.loopBackEdge w) σ = execLoopBackEdge w σ := rfl
theorem exec_waitEnd (w : Nat) (σ : State) : exec (.waitEnd w) σ = execWaitEnd w σ := rfl
theorem exec_cpwaitEnd (w : Nat) (σ : State) : exec (.cpwaitEnd w) σ = execCpwaitEnd w σ := rfl
theorem exec_fenceComplete (w : Nat) (σ : State) : exec (.fenceComplete w) σ = execFenceComplete w σ := rfl
theorem exec_loadResultWrite (w : Nat) (ue : W32) (σ : State) : exec (.loadResultWrite w ue) σ = execLoadResultWrite w ue σ := rfl
theorem exec_storePerformed (k : Nat) (σ : State) : exec (.storePerformed k) σ = execStorePerformed k σ := rfl
theorem exec_eviction (core : Option Nat) (sector : Nat) (ue : BitVec 4) (σ : State) : exec (.eviction core sector ue) σ = execEviction core sector ue σ := rfl
theorem exec_cleanInvalComplete (k : Nat) (σ : State) : exec (.cleanInvalComplete k) σ = execCleanInvalComplete k σ := rfl
theorem exec_faultRecordAppend (σ : State) : exec .faultRecordAppend σ = execFaultRecordAppend σ := rfl
theorem exec_schedulerCycle (part : Nat) (σ : State) : exec (.schedulerCycle part) σ = execSchedulerCycle part σ := rfl
theorem exec_datapathConfigurationChange (part : Nat) (σ : State) : exec (.datapathConfigurationChange part) σ = execDatapathConfigurationChange part σ := rfl
theorem exec_mmaBlockApply (w : Nat) (σ : State) : exec (.mmaBlockApply w) σ = execMmaBlockApply w σ := rfl
theorem exec_copyCommandComplete (k : Nat) (σ : State) : exec (.copyCommandComplete k) σ = execCopyCommandComplete k σ := rfl
theorem exec_selectCommandComplete (k : Nat) (σ : State) : exec (.selectCommandComplete k) σ = execSelectCommandComplete k σ := rfl
theorem exec_skcfgExecute (k : Nat) (σ : State) : exec (.skcfgExecute k) σ = execSkcfgExecute k σ := rfl
theorem exec_skfoldExecute (k : Nat) (σ : State) : exec (.skfoldExecute k) σ = execSkfoldExecute k σ := rfl
theorem exec_skmergeChunk (k : Nat) (σ : State) : exec (.skmergeChunk k) σ = execSkmergeChunk k σ := rfl
theorem exec_tmergeDescriptor (k : Nat) (σ : State) : exec (.tmergeDescriptor k) σ = execTmergeDescriptor k σ := rfl
theorem exec_spawnAppend (k : Nat) (σ : State) : exec (.spawnAppend k) σ = execSpawnAppend k σ := rfl
theorem exec_vatQueueSlotGrant (u : Nat) (σ : State) : exec (.vatQueueSlotGrant u) σ = execVatQueueSlotGrant u σ := rfl
theorem exec_vatCommandStart (u : Nat) (σ : State) : exec (.vatCommandStart u) σ = execVatCommandStart u σ := rfl
theorem exec_microWord (u : Nat) (σ : State) : exec (.microWord u) σ = execMicroWord u σ := rfl
theorem exec_microwordWatchdog (u : Nat) (σ : State) : exec (.microwordWatchdog u) σ = execMicrowordWatchdog u σ := rfl
theorem exec_registerWrite (off : Nat) (v : W64) (σ : State) : exec (.registerWrite off v) σ = execRegisterWrite off v σ := rfl
theorem exec_doorbell (q : BitVec 6) (v : W64) (σ : State) : exec (.doorbell q v) σ = execDoorbell q v σ := rfl
theorem exec_dispatch (σ : State) : exec .dispatch σ = execDispatch σ := rfl
theorem exec_counterPoll (σ : State) : exec .counterPoll σ = execCounterPoll σ := rfl
theorem exec_gangPlacement (l : Nat) (cores : List Nat) (σ : State) : exec (.gangPlacement l cores) σ = execGangPlacement l cores σ := rfl
theorem exec_placementStarvationTimeout (l : Nat) (σ : State) : exec (.placementStarvationTimeout l) σ = execPlacementStarvationTimeout l σ := rfl
theorem exec_gangRelease (g : Nat) (σ : State) : exec (.gangRelease g) σ = execGangRelease g σ := rfl
theorem exec_launchComplete (l : Nat) (σ : State) : exec (.launchComplete l) σ = execLaunchComplete l σ := rfl
theorem exec_lsplitApply (core : Nat) (σ : State) : exec (.lsplitApply core) σ = execLsplitApply core σ := rfl
theorem exec_cancel (v : W64) (σ : State) : exec (.cancel v) σ = execCancel v σ := rfl
theorem exec_xcmdPreempt (v : W64) (σ : State) : exec (.xcmdPreempt v) σ = execXcmdPreempt v σ := rfl
theorem exec_xcmdResume (v : W64) (σ : State) : exec (.xcmdResume v) σ = execXcmdResume v σ := rfl
theorem exec_preemption (g : Nat) (σ : State) : exec (.preemption g) σ = execPreemption g σ := rfl
theorem exec_gangRestore (g : Nat) (cores : List Nat) (σ : State) : exec (.gangRestore g cores) σ = execGangRestore g cores σ := rfl
theorem exec_swapStart (v : W64) (σ : State) : exec (.swapStart v) σ = execSwapStart v σ := rfl
theorem exec_translationWalk (job : BitVec 8) (va : W64) (acc : AccKind) (σ : State) : exec (.translationWalk job va acc) σ = execTranslationWalk job va acc σ := rfl
theorem exec_faultQueuePost (σ : State) : exec .faultQueuePost σ = execFaultQueuePost σ := rfl
theorem exec_resolveWalkAgain (tag : W32) (σ : State) : exec (.resolveWalkAgain tag) σ = execResolveWalkAgain tag σ := rfl
theorem exec_resolveUnmapped (tag : W32) (σ : State) : exec (.resolveUnmapped tag) σ = execResolveUnmapped tag σ := rfl
theorem exec_resolveProtection (tag : W32) (σ : State) : exec (.resolveProtection tag) σ = execResolveProtection tag σ := rfl
theorem exec_shootdown (v : W64) (σ : State) : exec (.shootdown v) σ = execShootdown v σ := rfl
theorem exec_shootdownSnapshot (v : W64) (σ : State) : exec (.shootdownSnapshot v) σ = execShootdownSnapshot v σ := rfl
theorem exec_shootdownComplete (σ : State) : exec .shootdownComplete σ = execShootdownComplete σ := rfl
theorem exec_copyOnWrite (k : Nat) (σ : State) : exec (.copyOnWrite k) σ = execCopyOnWrite k σ := rfl
theorem exec_checkpointFrameSend (d : BitVec 3) (σ : State) : exec (.checkpointFrameSend d) σ = execCheckpointFrameSend d σ := rfl
theorem exec_checkpointAckReceive (d : BitVec 3) (tag : W64) (σ : State) : exec (.checkpointAckReceive d tag) σ = execCheckpointAckReceive d tag σ := rfl
theorem exec_checkpointResendTimeout (d : BitVec 3) (σ : State) : exec (.checkpointResendTimeout d) σ = execCheckpointResendTimeout d σ := rfl
theorem exec_hostBar2Read (off : Nat) (n : Nat) (σ : State) : exec (.hostBar2Read off n) σ = execHostBar2Read off n σ := rfl
theorem exec_hostBar2Write (off : Nat) (data : List Byte) (σ : State) : exec (.hostBar2Write off data) σ = execHostBar2Write off data σ := rfl
theorem exec_cxlMemRead (off : Nat) (n : Nat) (σ : State) : exec (.cxlMemRead off n) σ = execCxlMemRead off n σ := rfl
theorem exec_cxlMemWrite (off : Nat) (data : List Byte) (σ : State) : exec (.cxlMemWrite off data) σ = execCxlMemWrite off data σ := rfl
theorem exec_backInvalidateResponse (line : Nat) (σ : State) : exec (.backInvalidateResponse line) σ = execBackInvalidateResponse line σ := rfl
theorem exec_hostRequestCompletion (k : Nat) (ok : Bool) (σ : State) : exec (.hostRequestCompletion k ok) σ = execHostRequestCompletion k ok σ := rfl
theorem exec_fdevidWrite (v : W64) (σ : State) : exec (.fdevidWrite v) σ = execFdevidWrite v σ := rfl
theorem exec_portDownCommand (p : Nat) (σ : State) : exec (.portDownCommand p) σ = execPortDownCommand p σ := rfl
theorem exec_portRetrain (p : Nat) (σ : State) : exec (.portRetrain p) σ = execPortRetrain p σ := rfl
theorem exec_portTrainingComplete (p : Nat) (σ : State) : exec (.portTrainingComplete p) σ = execPortTrainingComplete p σ := rfl
theorem exec_keySwitchRequest (p : Nat) (σ : State) : exec (.keySwitchRequest p) σ = execKeySwitchRequest p σ := rfl
theorem exec_lossOfSignal (p : Nat) (σ : State) : exec (.lossOfSignal p) σ = execLossOfSignal p σ := rfl
theorem exec_flitReceive (p : Nat) (flit : List Byte) (σ : State) : exec (.flitReceive p flit) σ = execFlitReceive p flit σ := rfl
theorem exec_keyAutoSwitch (p : Nat) (σ : State) : exec (.keyAutoSwitch p) σ = execKeyAutoSwitch p σ := rfl
theorem exec_keyHardLimit (p : Nat) (σ : State) : exec (.keyHardLimit p) σ = execKeyHardLimit p σ := rfl
theorem exec_keyWaitTimeout (p : Nat) (σ : State) : exec (.keyWaitTimeout p) σ = execKeyWaitTimeout p σ := rfl
theorem exec_keySlotLoad (p : Nat) (tx : Bool) (salt : W32) (σ : State) : exec (.keySlotLoad p tx salt) σ = execKeySlotLoad p tx salt σ := rfl
theorem exec_packetArrival (p : Nat) (pkt : Packet) (σ : State) : exec (.packetArrival p pkt) σ = execPacketArrival p pkt σ := rfl
theorem exec_packetAckReceive (p : Nat) (peer : BitVec 10) (mc : Bool) (seq : W32) (ok : Bool) (code : BitVec 8) (σ : State) : exec (.packetAckReceive p peer mc seq ok code) σ = execPacketAckReceive p peer mc seq ok code σ := rfl
theorem exec_packetResendTimeout (peer : BitVec 10) (mc : Bool) (seq : W32) (σ : State) : exec (.packetResendTimeout peer mc seq) σ = execPacketResendTimeout peer mc seq σ := rfl
theorem exec_groupIdleTimeout (src : BitVec 10) (job : BitVec 8) (grp : BitVec 16) (σ : State) : exec (.groupIdleTimeout src job grp) σ = execGroupIdleTimeout src job grp σ := rfl
theorem exec_scaleoutTransmit (d : BitVec 3) (σ : State) : exec (.scaleoutTransmit d) σ = execScaleoutTransmit d σ := rfl
theorem exec_scaleoutReceive (d : BitVec 3) (frame : List Byte) (σ : State) : exec (.scaleoutReceive d frame) σ = execScaleoutReceive d frame σ := rfl
theorem exec_ptpMessageReceive (d : BitVec 3) (m : PtpMsg) (corr : W64) (σ : State) : exec (.ptpMessageReceive d m corr) σ = execPtpMessageReceive d m corr σ := rfl
theorem exec_ptpLockLoss (σ : State) : exec .ptpLockLoss σ = execPtpLockLoss σ := rfl
theorem exec_mouldLoad (st : BitVec 3) (v : W64) (σ : State) : exec (.mouldLoad st v) σ = execMouldLoad st v σ := rfl
theorem exec_mouldVerifyDone (st : BitVec 3) (σ : State) : exec (.mouldVerifyDone st) σ = execMouldVerifyDone st σ := rfl
theorem exec_mouldWrite (st : BitVec 3) (σ : State) : exec (.mouldWrite st) σ = execMouldWrite st σ := rfl
theorem exec_mouldFloorWrite (st : BitVec 3) (v : W64) (σ : State) : exec (.mouldFloorWrite st v) σ = execMouldFloorWrite st v σ := rfl
theorem exec_refreshInterval (ch : Nat) (σ : State) : exec (.refreshInterval ch) σ = execRefreshInterval ch σ := rfl
theorem exec_refreshIssue (ch : Nat) (bank : BitVec 5) (σ : State) : exec (.refreshIssue ch bank) σ = execRefreshIssue ch bank σ := rfl
theorem exec_refreshComplete (ch : Nat) (σ : State) : exec (.refreshComplete ch) σ = execRefreshComplete ch σ := rfl
theorem exec_handoverAck (ch : Nat) (σ : State) : exec (.handoverAck ch) σ = execHandoverAck ch σ := rfl
theorem exec_unitLogClear (u : Nat) (σ : State) : exec (.unitLogClear u) σ = execUnitLogClear u σ := rfl
theorem exec_counterClear (d : BitVec 3) (i : BitVec 3) (σ : State) : exec (.counterClear d i) σ = execCounterClear d i σ := rfl
theorem exec_dieFenceCommand (v : W64) (σ : State) : exec (.dieFenceCommand v) σ = execDieFenceCommand v σ := rfl
theorem exec_dieFence (d : BitVec 3) (σ : State) : exec (.dieFence d) σ = execDieFence d σ := rfl
theorem exec_readmission (v : W64) (σ : State) : exec (.readmission v) σ = execReadmission v σ := rfl
theorem exec_dieSelfTestComplete (d : BitVec 3) (ok : Bool) (σ : State) : exec (.dieSelfTestComplete d ok) σ = execDieSelfTestComplete d ok σ := rfl
theorem exec_scrubRow (st : BitVec 3) (pa : Nat) (ce : List Nat) (ue : List Nat) (σ : State) : exec (.scrubRow st pa ce ue) σ = execScrubRow st pa ce ue σ := rfl
theorem exec_powerOn (σ : State) : exec .powerOn σ = execPowerOn σ := rfl
theorem exec_startStageComplete (σ : State) : exec .startStageComplete σ = execStartStageComplete σ := rfl
theorem exec_startStageTimeout (σ : State) : exec .startStageTimeout σ = execStartStageTimeout σ := rfl
theorem exec_lifecycleReset (σ : State) : exec .lifecycleReset σ = execLifecycleReset σ := rfl
theorem exec_clearFailedStartCount (σ : State) : exec .clearFailedStartCount σ = execClearFailedStartCount σ := rfl
theorem exec_lifecycleChange (v : W64) (σ : State) : exec (.lifecycleChange v) σ = execLifecycleChange v σ := rfl
theorem exec_firmwareLoad (v : W64) (σ : State) : exec (.firmwareLoad v) σ = execFirmwareLoad v σ := rfl
theorem exec_firmwareVerifyDone (σ : State) : exec .firmwareVerifyDone σ = execFirmwareVerifyDone σ := rfl
theorem exec_firmwareSwitch (σ : State) : exec .firmwareSwitch σ = execFirmwareSwitch σ := rfl
theorem exec_attestationRequest (v : W64) (σ : State) : exec (.attestationRequest v) σ = execAttestationRequest v σ := rfl
theorem exec_throttleStep (power : BitVec 13) (hot : BitVec 8) (inlet : BitVec 8) (σ : State) : exec (.throttleStep power hot inlet) σ = execThrottleStep power hot inlet σ := rfl
theorem exec_thermalTrip (d : BitVec 3) (σ : State) : exec (.thermalTrip d) σ = execThermalTrip d σ := rfl

end Sys2Proof.Machine
end

