-- ==== Sys2Proof/Laws/Tab.lean ====
section
/-! SUPPORT. Sparse tables: reads after writes, and that every operation keeps the canonical form; then the same of memory.
The read laws need no canonical form. -/

namespace Sys2Proof.Machine

variable {α : Type}

theorem tabFind_tabPut_same (t : Tab α) (k : Nat) (v : α) : tabFind (tabPut t k v) k = some v := by
  induction t with
  | nil => simp [tabPut, tabFind]
  | cons e r ih =>
    obtain ⟨j, x⟩ := e
    by_cases h : k < j
    · simp [tabPut, tabFind, h]
    · by_cases h' : k = j
      · simp [tabPut, tabFind, h']
      · have hn : ¬ j = k := fun e => h' e.symm
        simp [tabPut, tabFind, h, h', ih, hn]

theorem tabFind_tabPut_ne (t : Tab α) {k j : Nat} (v : α) (hj : j ≠ k) : tabFind (tabPut t k v) j = tabFind t j := by
  induction t with
  | nil => simp [tabPut, tabFind, hj.symm]
  | cons e r ih =>
    obtain ⟨i, x⟩ := e
    by_cases h : k < i
    · simp [tabPut, tabFind, h, hj.symm]
    · by_cases h' : k = i
      · subst h'; simp [tabPut, tabFind, hj.symm]
      · simp [tabPut, tabFind, h, h', ih]

theorem tabFind_tabErase_same (t : Tab α) (k : Nat) : tabFind (tabErase t k) k = none := by
  induction t with
  | nil => rfl
  | cons e r ih =>
    obtain ⟨j, x⟩ := e
    by_cases h : j = k <;> simp [tabErase, tabFind, h, ih]

theorem tabFind_tabErase_ne (t : Tab α) {k j : Nat} (hj : j ≠ k) : tabFind (tabErase t k) j = tabFind t j := by
  induction t with
  | nil => rfl
  | cons e r ih =>
    obtain ⟨i, x⟩ := e
    by_cases h : i = k
    · subst h; simp [tabErase, tabFind, hj.symm, ih]
    · simp [tabErase, tabFind, h, ih]

/-- A key reads what was last written to it. -/
@[simp] theorem tabGet_tabSet_same [DecidableEq α] (d : α) (t : Tab α) (k : Nat) (v : α) :
    tabGet d (tabSet d t k v) k = v := by
  unfold tabSet
  split
  · next h => simp [tabGet, tabFind_tabErase_same, h]
  · simp [tabGet, tabFind_tabPut_same]

/-- A write leaves every other key alone. -/
theorem tabGet_tabSet_ne [DecidableEq α] (d : α) (t : Tab α) {k j : Nat} (v : α) (h : j ≠ k) :
    tabGet d (tabSet d t k v) j = tabGet d t j := by
  unfold tabSet
  split
  · simp [tabGet, tabFind_tabErase_ne t h]
  · simp [tabGet, tabFind_tabPut_ne t v h]

theorem tabGet_tabSet [DecidableEq α] (d : α) (t : Tab α) (k j : Nat) (v : α) :
    tabGet d (tabSet d t k v) j = if j = k then v else tabGet d t j := by
  split
  · next h => rw [h, tabGet_tabSet_same]
  · next h => exact tabGet_tabSet_ne d t v h

/-! The canonical form -/

theorem tabSorted_cons (k : Nat) (v : α) (r : Tab α) :
    tabSorted ((k, v) :: r) = true ↔ (∀ e ∈ r, k < e.1) ∧ tabSorted r = true := by
  simp [tabSorted]

theorem mem_tabPut {t : Tab α} {k : Nat} {v : α} {e : Nat × α} (h : e ∈ tabPut t k v) : e = (k, v) ∨ e ∈ t := by
  induction t with
  | nil => simpa [tabPut] using h
  | cons x r ih =>
    obtain ⟨j, y⟩ := x
    unfold tabPut at h
    split at h
    · simpa using h
    · split at h
      · rcases List.mem_cons.mp h with h | h
        · exact .inl h
        · exact .inr (List.mem_cons_of_mem _ h)
      · rcases List.mem_cons.mp h with h | h
        · exact .inr (h ▸ List.mem_cons_self)
        · exact (ih h).imp id (List.mem_cons_of_mem _)

theorem mem_tabErase {t : Tab α} {k : Nat} {e : Nat × α} (h : e ∈ tabErase t k) : e ∈ t := by
  induction t with
  | nil => exact h
  | cons x r ih =>
    obtain ⟨j, y⟩ := x
    unfold tabErase at h
    split at h
    · exact List.mem_cons_of_mem _ (ih h)
    · rcases List.mem_cons.mp h with h | h
      · exact h ▸ List.mem_cons_self
      · exact List.mem_cons_of_mem _ (ih h)

theorem tabSorted_tabPut (t : Tab α) (k : Nat) (v : α) (h : tabSorted t = true) : tabSorted (tabPut t k v) = true := by
  induction t with
  | nil => simp [tabPut, tabSorted]
  | cons x r ih =>
    obtain ⟨j, y⟩ := x
    obtain ⟨h1, h2⟩ := (tabSorted_cons j y r).mp h
    unfold tabPut
    split
    · next hk =>
      refine (tabSorted_cons _ _ _).mpr ⟨fun e he => ?_, h⟩
      rcases List.mem_cons.mp he with he | he
      · simpa [he] using hk
      · exact Nat.lt_trans hk (h1 e he)
    · split
      · next hk => subst hk; exact (tabSorted_cons _ _ _).mpr ⟨h1, h2⟩
      · refine (tabSorted_cons _ _ _).mpr ⟨fun e he => ?_, ih h2⟩
        rcases mem_tabPut he with he | he
        · subst he; show j < k; omega
        · exact h1 e he

theorem tabSorted_tabErase (t : Tab α) (k : Nat) (h : tabSorted t = true) : tabSorted (tabErase t k) = true := by
  induction t with
  | nil => rfl
  | cons x r ih =>
    obtain ⟨j, y⟩ := x
    obtain ⟨h1, h2⟩ := (tabSorted_cons j y r).mp h
    unfold tabErase
    split
    · exact ih h2
    · exact (tabSorted_cons _ _ _).mpr ⟨fun e he => h1 e (mem_tabErase he), ih h2⟩

theorem tabWf_iff [DecidableEq α] (d : α) (t : Tab α) :
    tabWf d t = true ↔ tabSorted t = true ∧ ∀ e ∈ t, e.2 ≠ d := by
  simp [tabWf]

/-- A write keeps the canonical form. -/
theorem tabWf_tabSet [DecidableEq α] (d : α) (t : Tab α) (k : Nat) (v : α) (h : tabWf d t = true) :
    tabWf d (tabSet d t k v) = true := by
  rw [tabWf_iff] at h ⊢
  unfold tabSet
  split
  · exact ⟨tabSorted_tabErase t k h.1, fun e he => h.2 e (mem_tabErase he)⟩
  · next hv =>
    refine ⟨tabSorted_tabPut t k v h.1, fun e he => ?_⟩
    rcases mem_tabPut he with he | he
    · subst he; exact hv
    · exact h.2 e he

/-- A fold of steps that keep a property keeps it. -/
theorem foldl_keeps {β γ : Type} (P : β → Prop) (f : β → γ → β) (hf : ∀ b c, P b → P (f b c)) (l : List γ) (b : β)
    (hb : P b) : P (l.foldl f b) := by
  induction l generalizing b with
  | nil => exact hb
  | cons c r ih => exact ih (f b c) (hf b c hb)

/-! Memory -/

theorem memGet_memSet (m : List Host.Cell) (a b : Nat) (v : Byte) :
    memGet (memSet m a v) b = if b = a then v else memGet m b :=
  tabGet_tabSet memDefault m a b v

theorem memSet_wf {m : List Host.Cell} (a : Nat) (v : Byte) (h : Memory.wf m) : Memory.wf (memSet m a v) :=
  tabWf_tabSet memDefault m a v h

theorem memWrite_wf {m : List Host.Cell} (a n v : Nat) (h : Memory.wf m) : Memory.wf (memWrite m a n v) := by
  induction n generalizing m a v with
  | zero => exact h
  | succ k ih => exact ih (a + 1) (v / 256) (memSet_wf a _ h)

theorem memSector_wf {m : List Host.Cell} (k : Nat) (b : BitVec 128) (d : BitVec 1024) (h : Memory.wf m) :
    Memory.wf (memSector m k b d) := by
  unfold memSector
  refine foldl_keeps Memory.wf _ (fun t i ht => ?_) _ m h
  split
  · exact memSet_wf _ _ ht
  · exact ht

theorem dramPut_mem (s : State) (k : Nat) (m : BitVec 128) (d : BitVec 1024) :
    (dramPut s k m d).mem = memSector s.mem (cellOf (128 * k) / 128) m d := by
  unfold dramPut
  with_reducible rfl

theorem dramPut_wf {s : State} (k : Nat) (m : BitVec 128) (d : BitVec 1024) (h : Memory.wf s.mem) :
    Memory.wf (dramPut s k m d).mem := by
  rw [dramPut_mem]
  exact memSector_wf _ m d h

theorem drainSector_wf {s : State} (k : Nat) (m : BitVec 128) (h : Memory.wf s.mem) :
    Memory.wf (drainSector s k m).mem := by
  unfold drainSector
  refine foldl_keeps (fun t : State => Memory.wf t.mem) _ (fun t w ht => ?_) _ _ h
  split
  · exact dramPut_wf _ _ _ ht
  · exact ht

/-- Memory at reset has the canonical form. -/
theorem reset_mem_wf : Memory.wf State.reset.mem := by
  unfold State.reset
  decide +kernel

end Sys2Proof.Machine
end

