-- ==== Sys2Proof/Laws/State.lean ====
section
/-! SUPPORT. State and its updates: which field an update writes, one lemma a field, and reads after writes of warps,
registers and the numbered registers of BAR0. -/

namespace Sys2Proof.Machine

/-! Lists -/

theorem length_updAt {α : Type} (l : List α) (i : Nat) (f : α → α) : (updAt l i f).length = l.length := by
  induction l generalizing i with
  | nil => rfl
  | cons a r ih => cases i with
    | zero => rfl
    | succ i => simp [updAt, ih]

theorem getD_updAt {α : Type} (l : List α) (i j : Nat) (f : α → α) (d : α) :
    (updAt l i f).getD j d = if j = i ∧ i < l.length then f (l.getD i d) else l.getD j d := by
  induction l generalizing i j with
  | nil => simp [updAt]
  | cons a r ih =>
    cases i with
    | zero => cases j <;> simp [updAt]
    | succ i =>
      cases j with
      | zero => simp [updAt]
      | succ j => simpa [updAt] using ih i j

theorem updAt_updAt {α : Type} (l : List α) (i : Nat) (f g : α → α) :
    updAt (updAt l i f) i g = updAt l i fun x => g (f x) := by
  induction l generalizing i with
  | nil => rfl
  | cons a r ih => cases i with
    | zero => rfl
    | succ i => simp [updAt, ih]

theorem updAt_self {α : Type} (l : List α) (i : Nat) (d : α) : updAt l i (fun _ => l.getD i d) = l := by
  induction l generalizing i with
  | nil => rfl
  | cons a r ih => cases i with
    | zero => rfl
    | succ i => simpa [updAt] using ih i

theorem updAt_congr {α : Type} (l : List α) (i : Nat) (f : α → α) (d : α) :
    updAt l i f = updAt l i fun _ => f (l.getD i d) := by
  induction l generalizing i with
  | nil => rfl
  | cons a r ih => cases i with
    | zero => rfl
    | succ i => simpa [updAt] using ih i

/-! Updates of one element of the machine, field by field -/

@[simp] theorem updW_ctr (s : State) (w : Nat) (f : Warp → Warp) : (updW s w f).ctr = s.ctr := rfl
@[simp] theorem updW_turn (s : State) (w : Nat) (f : Warp → Warp) : (updW s w f).turn = s.turn := rfl
@[simp] theorem updW_cur (s : State) (w : Nat) (f : Warp → Warp) : (updW s w f).cur = s.cur := rfl
@[simp] theorem updW_agenda (s : State) (w : Nat) (f : Warp → Warp) : (updW s w f).agenda = s.agenda := rfl
@[simp] theorem updW_lastRead (s : State) (w : Nat) (f : Warp → Warp) : (updW s w f).lastRead = s.lastRead := rfl
@[simp] theorem updW_clock (s : State) (w : Nat) (f : Warp → Warp) : (updW s w f).clock = s.clock := rfl
@[simp] theorem updW_time (s : State) (w : Nat) (f : Warp → Warp) : (updW s w f).time = s.time := rfl
@[simp] theorem updW_servo (s : State) (w : Nat) (f : Warp → Warp) : (updW s w f).servo = s.servo := rfl
@[simp] theorem updW_ptp (s : State) (w : Nat) (f : Warp → Warp) : (updW s w f).ptp = s.ptp := rfl
@[simp] theorem updW_bar (s : State) (w : Nat) (f : Warp → Warp) : (updW s w f).bar = s.bar := rfl
@[simp] theorem updW_groups (s : State) (w : Nat) (f : Warp → Warp) : (updW s w f).groups = s.groups := rfl
@[simp] theorem updW_gangs (s : State) (w : Nat) (f : Warp → Warp) : (updW s w f).gangs = s.gangs := rfl
@[simp] theorem updW_launches (s : State) (w : Nat) (f : Warp → Warp) : (updW s w f).launches = s.launches := rfl
@[simp] theorem updW_qpos (s : State) (w : Nat) (f : Warp → Warp) : (updW s w f).qpos = s.qpos := rfl
@[simp] theorem updW_cancel (s : State) (w : Nat) (f : Warp → Warp) : (updW s w f).cancel = s.cancel := rfl
@[simp] theorem updW_canStat (s : State) (w : Nat) (f : Warp → Warp) : (updW s w f).canStat = s.canStat := rfl
@[simp] theorem updW_xcmd (s : State) (w : Nat) (f : Warp → Warp) : (updW s w f).xcmd = s.xcmd := rfl
@[simp] theorem updW_xcmdNoSlot (s : State) (w : Nat) (f : Warp → Warp) : (updW s w f).xcmdNoSlot = s.xcmdNoSlot := rfl
@[simp] theorem updW_xcmdCount (s : State) (w : Nat) (f : Warp → Warp) : (updW s w f).xcmdCount = s.xcmdCount := rfl
@[simp] theorem updW_xheld (s : State) (w : Nat) (f : Warp → Warp) : (updW s w f).xheld = s.xheld := rfl
@[simp] theorem updW_frees (s : State) (w : Nat) (f : Warp → Warp) : (updW s w f).frees = s.frees := rfl
@[simp] theorem updW_swap (s : State) (w : Nat) (f : Warp → Warp) : (updW s w f).swap = s.swap := rfl
@[simp] theorem updW_swapBad (s : State) (w : Nat) (f : Warp → Warp) : (updW s w f).swapBad = s.swapBad := rfl
@[simp] theorem updW_swapCount (s : State) (w : Nat) (f : Warp → Warp) : (updW s w f).swapCount = s.swapCount := rfl
@[simp] theorem updW_splits (s : State) (w : Nat) (f : Warp → Warp) : (updW s w f).splits = s.splits := rfl
@[simp] theorem updW_recq (s : State) (w : Nat) (f : Warp → Warp) : (updW s w f).recq = s.recq := rfl
@[simp] theorem updW_mem (s : State) (w : Nat) (f : Warp → Warp) : (updW s w f).mem = s.mem := rfl
@[simp] theorem updW_l1 (s : State) (w : Nat) (f : Warp → Warp) : (updW s w f).l1 = s.l1 := rfl
@[simp] theorem updW_l2 (s : State) (w : Nat) (f : Warp → Warp) : (updW s w f).l2 = s.l2 := rfl
@[simp] theorem updW_l1By (s : State) (w : Nat) (f : Warp → Warp) : (updW s w f).l1By = s.l1By := rfl
@[simp] theorem updW_poison (s : State) (w : Nat) (f : Warp → Warp) : (updW s w f).poison = s.poison := rfl
@[simp] theorem updW_cured (s : State) (w : Nat) (f : Warp → Warp) : (updW s w f).cured = s.cured := rfl
@[simp] theorem updW_upsets (s : State) (w : Nat) (f : Warp → Warp) : (updW s w f).upsets = s.upsets := rfl
@[simp] theorem updW_dramq (s : State) (w : Nat) (f : Warp → Warp) : (updW s w f).dramq = s.dramq := rfl
@[simp] theorem updW_tlb (s : State) (w : Nat) (f : Warp → Warp) : (updW s w f).tlb = s.tlb := rfl
@[simp] theorem updW_xrecs (s : State) (w : Nat) (f : Warp → Warp) : (updW s w f).xrecs = s.xrecs := rfl
@[simp] theorem updW_lverdicts (s : State) (w : Nat) (f : Warp → Warp) : (updW s w f).lverdicts = s.lverdicts := rfl
@[simp] theorem updW_xtag (s : State) (w : Nat) (f : Warp → Warp) : (updW s w f).xtag = s.xtag := rfl
@[simp] theorem updW_cows (s : State) (w : Nat) (f : Warp → Warp) : (updW s w f).cows = s.cows := rfl
@[simp] theorem updW_shoot (s : State) (w : Nat) (f : Warp → Warp) : (updW s w f).shoot = s.shoot := rfl
@[simp] theorem updW_cmds (s : State) (w : Nat) (f : Warp → Warp) : (updW s w f).cmds = s.cmds := rfl
@[simp] theorem updW_nextCmd (s : State) (w : Nat) (f : Warp → Warp) : (updW s w f).nextCmd = s.nextCmd := rfl
@[simp] theorem updW_bindings (s : State) (w : Nat) (f : Warp → Warp) : (updW s w f).bindings = s.bindings := rfl
@[simp] theorem updW_vats (s : State) (w : Nat) (f : Warp → Warp) : (updW s w f).vats = s.vats := rfl
@[simp] theorem updW_vatWait (s : State) (w : Nat) (f : Warp → Warp) : (updW s w f).vatWait = s.vatWait := rfl
@[simp] theorem updW_posts (s : State) (w : Nat) (f : Warp → Warp) : (updW s w f).posts = s.posts := rfl
@[simp] theorem updW_nextPost (s : State) (w : Nat) (f : Warp → Warp) : (updW s w f).nextPost = s.nextPost := rfl
@[simp] theorem updW_unitLogs (s : State) (w : Nat) (f : Warp → Warp) : (updW s w f).unitLogs = s.unitLogs := rfl
@[simp] theorem updW_moulds (s : State) (w : Nat) (f : Warp → Warp) : (updW s w f).moulds = s.moulds := rfl
@[simp] theorem updW_channels (s : State) (w : Nat) (f : Warp → Warp) : (updW s w f).channels = s.channels := rfl
@[simp] theorem updW_grids (s : State) (w : Nat) (f : Warp → Warp) : (updW s w f).grids = s.grids := rfl
@[simp] theorem updW_tileNo (s : State) (w : Nat) (f : Warp → Warp) : (updW s w f).tileNo = s.tileNo := rfl
@[simp] theorem updW_ports (s : State) (w : Nat) (f : Warp → Warp) : (updW s w f).ports = s.ports := rfl
@[simp] theorem updW_peerTx (s : State) (w : Nat) (f : Warp → Warp) : (updW s w f).peerTx = s.peerTx := rfl
@[simp] theorem updW_peerRx (s : State) (w : Nat) (f : Warp → Warp) : (updW s w f).peerRx = s.peerRx := rfl
@[simp] theorem updW_putGroups (s : State) (w : Nat) (f : Warp → Warp) : (updW s w f).putGroups = s.putGroups := rfl
@[simp] theorem updW_openGroups (s : State) (w : Nat) (f : Warp → Warp) : (updW s w f).openGroups = s.openGroups := rfl
@[simp] theorem updW_aborts (s : State) (w : Nat) (f : Warp → Warp) : (updW s w f).aborts = s.aborts := rfl
@[simp] theorem updW_farReads (s : State) (w : Nat) (f : Warp → Warp) : (updW s w f).farReads = s.farReads := rfl
@[simp] theorem updW_relays (s : State) (w : Nat) (f : Warp → Warp) : (updW s w f).relays = s.relays := rfl
@[simp] theorem updW_parked (s : State) (w : Nat) (f : Warp → Warp) : (updW s w f).parked = s.parked := rfl
@[simp] theorem updW_nextPark (s : State) (w : Nat) (f : Warp → Warp) : (updW s w f).nextPark = s.nextPark := rfl
@[simp] theorem updW_ovHead (s : State) (w : Nat) (f : Warp → Warp) : (updW s w f).ovHead = s.ovHead := rfl
@[simp] theorem updW_ovTail (s : State) (w : Nat) (f : Warp → Warp) : (updW s w f).ovTail = s.ovTail := rfl
@[simp] theorem updW_outbox (s : State) (w : Nat) (f : Warp → Warp) : (updW s w f).outbox = s.outbox := rfl
@[simp] theorem updW_flits (s : State) (w : Nat) (f : Warp → Warp) : (updW s w f).flits = s.flits := rfl
@[simp] theorem updW_ctlFlits (s : State) (w : Nat) (f : Warp → Warp) : (updW s w f).ctlFlits = s.ctlFlits := rfl
@[simp] theorem updW_ckSends (s : State) (w : Nat) (f : Warp → Warp) : (updW s w f).ckSends = s.ckSends := rfl
@[simp] theorem updW_frames (s : State) (w : Nat) (f : Warp → Warp) : (updW s w f).frames = s.frames := rfl
@[simp] theorem updW_datagrams (s : State) (w : Nat) (f : Warp → Warp) : (updW s w f).datagrams = s.datagrams := rfl
@[simp] theorem updW_msix (s : State) (w : Nat) (f : Warp → Warp) : (updW s w f).msix = s.msix := rfl
@[simp] theorem updW_hostLines (s : State) (w : Nat) (f : Warp → Warp) : (updW s w f).hostLines = s.hostLines := rfl
@[simp] theorem updW_backInv (s : State) (w : Nat) (f : Warp → Warp) : (updW s w f).backInv = s.backInv := rfl
@[simp] theorem updW_errq (s : State) (w : Nat) (f : Warp → Warp) : (updW s w f).errq = s.errq := rfl
@[simp] theorem updW_hostBad (s : State) (w : Nat) (f : Warp → Warp) : (updW s w f).hostBad = s.hostBad := rfl
@[simp] theorem updW_admitted (s : State) (w : Nat) (f : Warp → Warp) : (updW s w f).admitted = s.admitted := rfl
@[simp] theorem updW_readmit (s : State) (w : Nat) (f : Warp → Warp) : (updW s w f).readmit = s.readmit := rfl
@[simp] theorem updW_readmitDie (s : State) (w : Nat) (f : Warp → Warp) : (updW s w f).readmitDie = s.readmitDie := rfl
@[simp] theorem updW_readmitRes (s : State) (w : Nat) (f : Warp → Warp) : (updW s w f).readmitRes = s.readmitRes := rfl
@[simp] theorem updW_scrubbed (s : State) (w : Nat) (f : Warp → Warp) : (updW s w f).scrubbed = s.scrubbed := rfl
@[simp] theorem updW_stage (s : State) (w : Nat) (f : Warp → Warp) : (updW s w f).stage = s.stage := rfl
@[simp] theorem updW_reason (s : State) (w : Nat) (f : Warp → Warp) : (updW s w f).reason = s.reason := rfl
@[simp] theorem updW_fails (s : State) (w : Nat) (f : Warp → Warp) : (updW s w f).fails = s.fails := rfl
@[simp] theorem updW_life (s : State) (w : Nat) (f : Warp → Warp) : (updW s w f).life = s.life := rfl
@[simp] theorem updW_testDie (s : State) (w : Nat) (f : Warp → Warp) : (updW s w f).testDie = s.testDie := rfl
@[simp] theorem updW_keysGone (s : State) (w : Nat) (f : Warp → Warp) : (updW s w f).keysGone = s.keysGone := rfl
@[simp] theorem updW_fw (s : State) (w : Nat) (f : Warp → Warp) : (updW s w f).fw = s.fw := rfl
@[simp] theorem updW_fwState (s : State) (w : Nat) (f : Warp → Warp) : (updW s w f).fwState = s.fwState := rfl
@[simp] theorem updW_fwReason (s : State) (w : Nat) (f : Warp → Warp) : (updW s w f).fwReason = s.fwReason := rfl
@[simp] theorem updW_fwBlock (s : State) (w : Nat) (f : Warp → Warp) : (updW s w f).fwBlock = s.fwBlock := rfl
@[simp] theorem updW_fwPa (s : State) (w : Nat) (f : Warp → Warp) : (updW s w f).fwPa = s.fwPa := rfl
@[simp] theorem updW_fwNew (s : State) (w : Nat) (f : Warp → Warp) : (updW s w f).fwNew = s.fwNew := rfl
@[simp] theorem updW_heldIn (s : State) (w : Nat) (f : Warp → Warp) : (updW s w f).heldIn = s.heldIn := rfl
@[simp] theorem updW_coreClk (s : State) (w : Nat) (f : Warp → Warp) : (updW s w f).coreClk = s.coreClk := rfl
@[simp] theorem updW_power (s : State) (w : Nat) (f : Warp → Warp) : (updW s w f).power = s.power := rfl
@[simp] theorem updW_coolMs (s : State) (w : Nat) (f : Warp → Warp) : (updW s w f).coolMs = s.coolMs := rfl
@[simp] theorem updL_ctr (s : State) (l : Nat) (f : Launch → Launch) : (updL s l f).ctr = s.ctr := rfl
@[simp] theorem updL_turn (s : State) (l : Nat) (f : Launch → Launch) : (updL s l f).turn = s.turn := rfl
@[simp] theorem updL_cur (s : State) (l : Nat) (f : Launch → Launch) : (updL s l f).cur = s.cur := rfl
@[simp] theorem updL_agenda (s : State) (l : Nat) (f : Launch → Launch) : (updL s l f).agenda = s.agenda := rfl
@[simp] theorem updL_lastRead (s : State) (l : Nat) (f : Launch → Launch) : (updL s l f).lastRead = s.lastRead := rfl
@[simp] theorem updL_clock (s : State) (l : Nat) (f : Launch → Launch) : (updL s l f).clock = s.clock := rfl
@[simp] theorem updL_time (s : State) (l : Nat) (f : Launch → Launch) : (updL s l f).time = s.time := rfl
@[simp] theorem updL_servo (s : State) (l : Nat) (f : Launch → Launch) : (updL s l f).servo = s.servo := rfl
@[simp] theorem updL_ptp (s : State) (l : Nat) (f : Launch → Launch) : (updL s l f).ptp = s.ptp := rfl
@[simp] theorem updL_bar (s : State) (l : Nat) (f : Launch → Launch) : (updL s l f).bar = s.bar := rfl
@[simp] theorem updL_warps (s : State) (l : Nat) (f : Launch → Launch) : (updL s l f).warps = s.warps := rfl
@[simp] theorem updL_groups (s : State) (l : Nat) (f : Launch → Launch) : (updL s l f).groups = s.groups := rfl
@[simp] theorem updL_gangs (s : State) (l : Nat) (f : Launch → Launch) : (updL s l f).gangs = s.gangs := rfl
@[simp] theorem updL_qpos (s : State) (l : Nat) (f : Launch → Launch) : (updL s l f).qpos = s.qpos := rfl
@[simp] theorem updL_cancel (s : State) (l : Nat) (f : Launch → Launch) : (updL s l f).cancel = s.cancel := rfl
@[simp] theorem updL_canStat (s : State) (l : Nat) (f : Launch → Launch) : (updL s l f).canStat = s.canStat := rfl
@[simp] theorem updL_xcmd (s : State) (l : Nat) (f : Launch → Launch) : (updL s l f).xcmd = s.xcmd := rfl
@[simp] theorem updL_xcmdNoSlot (s : State) (l : Nat) (f : Launch → Launch) : (updL s l f).xcmdNoSlot = s.xcmdNoSlot := rfl
@[simp] theorem updL_xcmdCount (s : State) (l : Nat) (f : Launch → Launch) : (updL s l f).xcmdCount = s.xcmdCount := rfl
@[simp] theorem updL_xheld (s : State) (l : Nat) (f : Launch → Launch) : (updL s l f).xheld = s.xheld := rfl
@[simp] theorem updL_frees (s : State) (l : Nat) (f : Launch → Launch) : (updL s l f).frees = s.frees := rfl
@[simp] theorem updL_swap (s : State) (l : Nat) (f : Launch → Launch) : (updL s l f).swap = s.swap := rfl
@[simp] theorem updL_swapBad (s : State) (l : Nat) (f : Launch → Launch) : (updL s l f).swapBad = s.swapBad := rfl
@[simp] theorem updL_swapCount (s : State) (l : Nat) (f : Launch → Launch) : (updL s l f).swapCount = s.swapCount := rfl
@[simp] theorem updL_splits (s : State) (l : Nat) (f : Launch → Launch) : (updL s l f).splits = s.splits := rfl
@[simp] theorem updL_recq (s : State) (l : Nat) (f : Launch → Launch) : (updL s l f).recq = s.recq := rfl
@[simp] theorem updL_mem (s : State) (l : Nat) (f : Launch → Launch) : (updL s l f).mem = s.mem := rfl
@[simp] theorem updL_l1 (s : State) (l : Nat) (f : Launch → Launch) : (updL s l f).l1 = s.l1 := rfl
@[simp] theorem updL_l2 (s : State) (l : Nat) (f : Launch → Launch) : (updL s l f).l2 = s.l2 := rfl
@[simp] theorem updL_l1By (s : State) (l : Nat) (f : Launch → Launch) : (updL s l f).l1By = s.l1By := rfl
@[simp] theorem updL_poison (s : State) (l : Nat) (f : Launch → Launch) : (updL s l f).poison = s.poison := rfl
@[simp] theorem updL_cured (s : State) (l : Nat) (f : Launch → Launch) : (updL s l f).cured = s.cured := rfl
@[simp] theorem updL_upsets (s : State) (l : Nat) (f : Launch → Launch) : (updL s l f).upsets = s.upsets := rfl
@[simp] theorem updL_dramq (s : State) (l : Nat) (f : Launch → Launch) : (updL s l f).dramq = s.dramq := rfl
@[simp] theorem updL_tlb (s : State) (l : Nat) (f : Launch → Launch) : (updL s l f).tlb = s.tlb := rfl
@[simp] theorem updL_xrecs (s : State) (l : Nat) (f : Launch → Launch) : (updL s l f).xrecs = s.xrecs := rfl
@[simp] theorem updL_lverdicts (s : State) (l : Nat) (f : Launch → Launch) : (updL s l f).lverdicts = s.lverdicts := rfl
@[simp] theorem updL_xtag (s : State) (l : Nat) (f : Launch → Launch) : (updL s l f).xtag = s.xtag := rfl
@[simp] theorem updL_cows (s : State) (l : Nat) (f : Launch → Launch) : (updL s l f).cows = s.cows := rfl
@[simp] theorem updL_shoot (s : State) (l : Nat) (f : Launch → Launch) : (updL s l f).shoot = s.shoot := rfl
@[simp] theorem updL_cmds (s : State) (l : Nat) (f : Launch → Launch) : (updL s l f).cmds = s.cmds := rfl
@[simp] theorem updL_nextCmd (s : State) (l : Nat) (f : Launch → Launch) : (updL s l f).nextCmd = s.nextCmd := rfl
@[simp] theorem updL_bindings (s : State) (l : Nat) (f : Launch → Launch) : (updL s l f).bindings = s.bindings := rfl
@[simp] theorem updL_vats (s : State) (l : Nat) (f : Launch → Launch) : (updL s l f).vats = s.vats := rfl
@[simp] theorem updL_vatWait (s : State) (l : Nat) (f : Launch → Launch) : (updL s l f).vatWait = s.vatWait := rfl
@[simp] theorem updL_posts (s : State) (l : Nat) (f : Launch → Launch) : (updL s l f).posts = s.posts := rfl
@[simp] theorem updL_nextPost (s : State) (l : Nat) (f : Launch → Launch) : (updL s l f).nextPost = s.nextPost := rfl
@[simp] theorem updL_unitLogs (s : State) (l : Nat) (f : Launch → Launch) : (updL s l f).unitLogs = s.unitLogs := rfl
@[simp] theorem updL_moulds (s : State) (l : Nat) (f : Launch → Launch) : (updL s l f).moulds = s.moulds := rfl
@[simp] theorem updL_channels (s : State) (l : Nat) (f : Launch → Launch) : (updL s l f).channels = s.channels := rfl
@[simp] theorem updL_grids (s : State) (l : Nat) (f : Launch → Launch) : (updL s l f).grids = s.grids := rfl
@[simp] theorem updL_tileNo (s : State) (l : Nat) (f : Launch → Launch) : (updL s l f).tileNo = s.tileNo := rfl
@[simp] theorem updL_ports (s : State) (l : Nat) (f : Launch → Launch) : (updL s l f).ports = s.ports := rfl
@[simp] theorem updL_peerTx (s : State) (l : Nat) (f : Launch → Launch) : (updL s l f).peerTx = s.peerTx := rfl
@[simp] theorem updL_peerRx (s : State) (l : Nat) (f : Launch → Launch) : (updL s l f).peerRx = s.peerRx := rfl
@[simp] theorem updL_putGroups (s : State) (l : Nat) (f : Launch → Launch) : (updL s l f).putGroups = s.putGroups := rfl
@[simp] theorem updL_openGroups (s : State) (l : Nat) (f : Launch → Launch) : (updL s l f).openGroups = s.openGroups := rfl
@[simp] theorem updL_aborts (s : State) (l : Nat) (f : Launch → Launch) : (updL s l f).aborts = s.aborts := rfl
@[simp] theorem updL_farReads (s : State) (l : Nat) (f : Launch → Launch) : (updL s l f).farReads = s.farReads := rfl
@[simp] theorem updL_relays (s : State) (l : Nat) (f : Launch → Launch) : (updL s l f).relays = s.relays := rfl
@[simp] theorem updL_parked (s : State) (l : Nat) (f : Launch → Launch) : (updL s l f).parked = s.parked := rfl
@[simp] theorem updL_nextPark (s : State) (l : Nat) (f : Launch → Launch) : (updL s l f).nextPark = s.nextPark := rfl
@[simp] theorem updL_ovHead (s : State) (l : Nat) (f : Launch → Launch) : (updL s l f).ovHead = s.ovHead := rfl
@[simp] theorem updL_ovTail (s : State) (l : Nat) (f : Launch → Launch) : (updL s l f).ovTail = s.ovTail := rfl
@[simp] theorem updL_outbox (s : State) (l : Nat) (f : Launch → Launch) : (updL s l f).outbox = s.outbox := rfl
@[simp] theorem updL_flits (s : State) (l : Nat) (f : Launch → Launch) : (updL s l f).flits = s.flits := rfl
@[simp] theorem updL_ctlFlits (s : State) (l : Nat) (f : Launch → Launch) : (updL s l f).ctlFlits = s.ctlFlits := rfl
@[simp] theorem updL_ckSends (s : State) (l : Nat) (f : Launch → Launch) : (updL s l f).ckSends = s.ckSends := rfl
@[simp] theorem updL_frames (s : State) (l : Nat) (f : Launch → Launch) : (updL s l f).frames = s.frames := rfl
@[simp] theorem updL_datagrams (s : State) (l : Nat) (f : Launch → Launch) : (updL s l f).datagrams = s.datagrams := rfl
@[simp] theorem updL_msix (s : State) (l : Nat) (f : Launch → Launch) : (updL s l f).msix = s.msix := rfl
@[simp] theorem updL_hostLines (s : State) (l : Nat) (f : Launch → Launch) : (updL s l f).hostLines = s.hostLines := rfl
@[simp] theorem updL_backInv (s : State) (l : Nat) (f : Launch → Launch) : (updL s l f).backInv = s.backInv := rfl
@[simp] theorem updL_errq (s : State) (l : Nat) (f : Launch → Launch) : (updL s l f).errq = s.errq := rfl
@[simp] theorem updL_hostBad (s : State) (l : Nat) (f : Launch → Launch) : (updL s l f).hostBad = s.hostBad := rfl
@[simp] theorem updL_admitted (s : State) (l : Nat) (f : Launch → Launch) : (updL s l f).admitted = s.admitted := rfl
@[simp] theorem updL_readmit (s : State) (l : Nat) (f : Launch → Launch) : (updL s l f).readmit = s.readmit := rfl
@[simp] theorem updL_readmitDie (s : State) (l : Nat) (f : Launch → Launch) : (updL s l f).readmitDie = s.readmitDie := rfl
@[simp] theorem updL_readmitRes (s : State) (l : Nat) (f : Launch → Launch) : (updL s l f).readmitRes = s.readmitRes := rfl
@[simp] theorem updL_scrubbed (s : State) (l : Nat) (f : Launch → Launch) : (updL s l f).scrubbed = s.scrubbed := rfl
@[simp] theorem updL_stage (s : State) (l : Nat) (f : Launch → Launch) : (updL s l f).stage = s.stage := rfl
@[simp] theorem updL_reason (s : State) (l : Nat) (f : Launch → Launch) : (updL s l f).reason = s.reason := rfl
@[simp] theorem updL_fails (s : State) (l : Nat) (f : Launch → Launch) : (updL s l f).fails = s.fails := rfl
@[simp] theorem updL_life (s : State) (l : Nat) (f : Launch → Launch) : (updL s l f).life = s.life := rfl
@[simp] theorem updL_testDie (s : State) (l : Nat) (f : Launch → Launch) : (updL s l f).testDie = s.testDie := rfl
@[simp] theorem updL_keysGone (s : State) (l : Nat) (f : Launch → Launch) : (updL s l f).keysGone = s.keysGone := rfl
@[simp] theorem updL_fw (s : State) (l : Nat) (f : Launch → Launch) : (updL s l f).fw = s.fw := rfl
@[simp] theorem updL_fwState (s : State) (l : Nat) (f : Launch → Launch) : (updL s l f).fwState = s.fwState := rfl
@[simp] theorem updL_fwReason (s : State) (l : Nat) (f : Launch → Launch) : (updL s l f).fwReason = s.fwReason := rfl
@[simp] theorem updL_fwBlock (s : State) (l : Nat) (f : Launch → Launch) : (updL s l f).fwBlock = s.fwBlock := rfl
@[simp] theorem updL_fwPa (s : State) (l : Nat) (f : Launch → Launch) : (updL s l f).fwPa = s.fwPa := rfl
@[simp] theorem updL_fwNew (s : State) (l : Nat) (f : Launch → Launch) : (updL s l f).fwNew = s.fwNew := rfl
@[simp] theorem updL_heldIn (s : State) (l : Nat) (f : Launch → Launch) : (updL s l f).heldIn = s.heldIn := rfl
@[simp] theorem updL_coreClk (s : State) (l : Nat) (f : Launch → Launch) : (updL s l f).coreClk = s.coreClk := rfl
@[simp] theorem updL_power (s : State) (l : Nat) (f : Launch → Launch) : (updL s l f).power = s.power := rfl
@[simp] theorem updL_coolMs (s : State) (l : Nat) (f : Launch → Launch) : (updL s l f).coolMs = s.coolMs := rfl
@[simp] theorem updG_ctr (s : State) (g : Nat) (f : Group → Group) : (updG s g f).ctr = s.ctr := rfl
@[simp] theorem updG_turn (s : State) (g : Nat) (f : Group → Group) : (updG s g f).turn = s.turn := rfl
@[simp] theorem updG_cur (s : State) (g : Nat) (f : Group → Group) : (updG s g f).cur = s.cur := rfl
@[simp] theorem updG_agenda (s : State) (g : Nat) (f : Group → Group) : (updG s g f).agenda = s.agenda := rfl
@[simp] theorem updG_lastRead (s : State) (g : Nat) (f : Group → Group) : (updG s g f).lastRead = s.lastRead := rfl
@[simp] theorem updG_clock (s : State) (g : Nat) (f : Group → Group) : (updG s g f).clock = s.clock := rfl
@[simp] theorem updG_time (s : State) (g : Nat) (f : Group → Group) : (updG s g f).time = s.time := rfl
@[simp] theorem updG_servo (s : State) (g : Nat) (f : Group → Group) : (updG s g f).servo = s.servo := rfl
@[simp] theorem updG_ptp (s : State) (g : Nat) (f : Group → Group) : (updG s g f).ptp = s.ptp := rfl
@[simp] theorem updG_bar (s : State) (g : Nat) (f : Group → Group) : (updG s g f).bar = s.bar := rfl
@[simp] theorem updG_warps (s : State) (g : Nat) (f : Group → Group) : (updG s g f).warps = s.warps := rfl
@[simp] theorem updG_gangs (s : State) (g : Nat) (f : Group → Group) : (updG s g f).gangs = s.gangs := rfl
@[simp] theorem updG_launches (s : State) (g : Nat) (f : Group → Group) : (updG s g f).launches = s.launches := rfl
@[simp] theorem updG_qpos (s : State) (g : Nat) (f : Group → Group) : (updG s g f).qpos = s.qpos := rfl
@[simp] theorem updG_cancel (s : State) (g : Nat) (f : Group → Group) : (updG s g f).cancel = s.cancel := rfl
@[simp] theorem updG_canStat (s : State) (g : Nat) (f : Group → Group) : (updG s g f).canStat = s.canStat := rfl
@[simp] theorem updG_xcmd (s : State) (g : Nat) (f : Group → Group) : (updG s g f).xcmd = s.xcmd := rfl
@[simp] theorem updG_xcmdNoSlot (s : State) (g : Nat) (f : Group → Group) : (updG s g f).xcmdNoSlot = s.xcmdNoSlot := rfl
@[simp] theorem updG_xcmdCount (s : State) (g : Nat) (f : Group → Group) : (updG s g f).xcmdCount = s.xcmdCount := rfl
@[simp] theorem updG_xheld (s : State) (g : Nat) (f : Group → Group) : (updG s g f).xheld = s.xheld := rfl
@[simp] theorem updG_frees (s : State) (g : Nat) (f : Group → Group) : (updG s g f).frees = s.frees := rfl
@[simp] theorem updG_swap (s : State) (g : Nat) (f : Group → Group) : (updG s g f).swap = s.swap := rfl
@[simp] theorem updG_swapBad (s : State) (g : Nat) (f : Group → Group) : (updG s g f).swapBad = s.swapBad := rfl
@[simp] theorem updG_swapCount (s : State) (g : Nat) (f : Group → Group) : (updG s g f).swapCount = s.swapCount := rfl
@[simp] theorem updG_splits (s : State) (g : Nat) (f : Group → Group) : (updG s g f).splits = s.splits := rfl
@[simp] theorem updG_recq (s : State) (g : Nat) (f : Group → Group) : (updG s g f).recq = s.recq := rfl
@[simp] theorem updG_mem (s : State) (g : Nat) (f : Group → Group) : (updG s g f).mem = s.mem := rfl
@[simp] theorem updG_l1 (s : State) (g : Nat) (f : Group → Group) : (updG s g f).l1 = s.l1 := rfl
@[simp] theorem updG_l2 (s : State) (g : Nat) (f : Group → Group) : (updG s g f).l2 = s.l2 := rfl
@[simp] theorem updG_l1By (s : State) (g : Nat) (f : Group → Group) : (updG s g f).l1By = s.l1By := rfl
@[simp] theorem updG_poison (s : State) (g : Nat) (f : Group → Group) : (updG s g f).poison = s.poison := rfl
@[simp] theorem updG_cured (s : State) (g : Nat) (f : Group → Group) : (updG s g f).cured = s.cured := rfl
@[simp] theorem updG_upsets (s : State) (g : Nat) (f : Group → Group) : (updG s g f).upsets = s.upsets := rfl
@[simp] theorem updG_dramq (s : State) (g : Nat) (f : Group → Group) : (updG s g f).dramq = s.dramq := rfl
@[simp] theorem updG_tlb (s : State) (g : Nat) (f : Group → Group) : (updG s g f).tlb = s.tlb := rfl
@[simp] theorem updG_xrecs (s : State) (g : Nat) (f : Group → Group) : (updG s g f).xrecs = s.xrecs := rfl
@[simp] theorem updG_lverdicts (s : State) (g : Nat) (f : Group → Group) : (updG s g f).lverdicts = s.lverdicts := rfl
@[simp] theorem updG_xtag (s : State) (g : Nat) (f : Group → Group) : (updG s g f).xtag = s.xtag := rfl
@[simp] theorem updG_cows (s : State) (g : Nat) (f : Group → Group) : (updG s g f).cows = s.cows := rfl
@[simp] theorem updG_shoot (s : State) (g : Nat) (f : Group → Group) : (updG s g f).shoot = s.shoot := rfl
@[simp] theorem updG_cmds (s : State) (g : Nat) (f : Group → Group) : (updG s g f).cmds = s.cmds := rfl
@[simp] theorem updG_nextCmd (s : State) (g : Nat) (f : Group → Group) : (updG s g f).nextCmd = s.nextCmd := rfl
@[simp] theorem updG_bindings (s : State) (g : Nat) (f : Group → Group) : (updG s g f).bindings = s.bindings := rfl
@[simp] theorem updG_vats (s : State) (g : Nat) (f : Group → Group) : (updG s g f).vats = s.vats := rfl
@[simp] theorem updG_vatWait (s : State) (g : Nat) (f : Group → Group) : (updG s g f).vatWait = s.vatWait := rfl
@[simp] theorem updG_posts (s : State) (g : Nat) (f : Group → Group) : (updG s g f).posts = s.posts := rfl
@[simp] theorem updG_nextPost (s : State) (g : Nat) (f : Group → Group) : (updG s g f).nextPost = s.nextPost := rfl
@[simp] theorem updG_unitLogs (s : State) (g : Nat) (f : Group → Group) : (updG s g f).unitLogs = s.unitLogs := rfl
@[simp] theorem updG_moulds (s : State) (g : Nat) (f : Group → Group) : (updG s g f).moulds = s.moulds := rfl
@[simp] theorem updG_channels (s : State) (g : Nat) (f : Group → Group) : (updG s g f).channels = s.channels := rfl
@[simp] theorem updG_grids (s : State) (g : Nat) (f : Group → Group) : (updG s g f).grids = s.grids := rfl
@[simp] theorem updG_tileNo (s : State) (g : Nat) (f : Group → Group) : (updG s g f).tileNo = s.tileNo := rfl
@[simp] theorem updG_ports (s : State) (g : Nat) (f : Group → Group) : (updG s g f).ports = s.ports := rfl
@[simp] theorem updG_peerTx (s : State) (g : Nat) (f : Group → Group) : (updG s g f).peerTx = s.peerTx := rfl
@[simp] theorem updG_peerRx (s : State) (g : Nat) (f : Group → Group) : (updG s g f).peerRx = s.peerRx := rfl
@[simp] theorem updG_putGroups (s : State) (g : Nat) (f : Group → Group) : (updG s g f).putGroups = s.putGroups := rfl
@[simp] theorem updG_openGroups (s : State) (g : Nat) (f : Group → Group) : (updG s g f).openGroups = s.openGroups := rfl
@[simp] theorem updG_aborts (s : State) (g : Nat) (f : Group → Group) : (updG s g f).aborts = s.aborts := rfl
@[simp] theorem updG_farReads (s : State) (g : Nat) (f : Group → Group) : (updG s g f).farReads = s.farReads := rfl
@[simp] theorem updG_relays (s : State) (g : Nat) (f : Group → Group) : (updG s g f).relays = s.relays := rfl
@[simp] theorem updG_parked (s : State) (g : Nat) (f : Group → Group) : (updG s g f).parked = s.parked := rfl
@[simp] theorem updG_nextPark (s : State) (g : Nat) (f : Group → Group) : (updG s g f).nextPark = s.nextPark := rfl
@[simp] theorem updG_ovHead (s : State) (g : Nat) (f : Group → Group) : (updG s g f).ovHead = s.ovHead := rfl
@[simp] theorem updG_ovTail (s : State) (g : Nat) (f : Group → Group) : (updG s g f).ovTail = s.ovTail := rfl
@[simp] theorem updG_outbox (s : State) (g : Nat) (f : Group → Group) : (updG s g f).outbox = s.outbox := rfl
@[simp] theorem updG_flits (s : State) (g : Nat) (f : Group → Group) : (updG s g f).flits = s.flits := rfl
@[simp] theorem updG_ctlFlits (s : State) (g : Nat) (f : Group → Group) : (updG s g f).ctlFlits = s.ctlFlits := rfl
@[simp] theorem updG_ckSends (s : State) (g : Nat) (f : Group → Group) : (updG s g f).ckSends = s.ckSends := rfl
@[simp] theorem updG_frames (s : State) (g : Nat) (f : Group → Group) : (updG s g f).frames = s.frames := rfl
@[simp] theorem updG_datagrams (s : State) (g : Nat) (f : Group → Group) : (updG s g f).datagrams = s.datagrams := rfl
@[simp] theorem updG_msix (s : State) (g : Nat) (f : Group → Group) : (updG s g f).msix = s.msix := rfl
@[simp] theorem updG_hostLines (s : State) (g : Nat) (f : Group → Group) : (updG s g f).hostLines = s.hostLines := rfl
@[simp] theorem updG_backInv (s : State) (g : Nat) (f : Group → Group) : (updG s g f).backInv = s.backInv := rfl
@[simp] theorem updG_errq (s : State) (g : Nat) (f : Group → Group) : (updG s g f).errq = s.errq := rfl
@[simp] theorem updG_hostBad (s : State) (g : Nat) (f : Group → Group) : (updG s g f).hostBad = s.hostBad := rfl
@[simp] theorem updG_admitted (s : State) (g : Nat) (f : Group → Group) : (updG s g f).admitted = s.admitted := rfl
@[simp] theorem updG_readmit (s : State) (g : Nat) (f : Group → Group) : (updG s g f).readmit = s.readmit := rfl
@[simp] theorem updG_readmitDie (s : State) (g : Nat) (f : Group → Group) : (updG s g f).readmitDie = s.readmitDie := rfl
@[simp] theorem updG_readmitRes (s : State) (g : Nat) (f : Group → Group) : (updG s g f).readmitRes = s.readmitRes := rfl
@[simp] theorem updG_scrubbed (s : State) (g : Nat) (f : Group → Group) : (updG s g f).scrubbed = s.scrubbed := rfl
@[simp] theorem updG_stage (s : State) (g : Nat) (f : Group → Group) : (updG s g f).stage = s.stage := rfl
@[simp] theorem updG_reason (s : State) (g : Nat) (f : Group → Group) : (updG s g f).reason = s.reason := rfl
@[simp] theorem updG_fails (s : State) (g : Nat) (f : Group → Group) : (updG s g f).fails = s.fails := rfl
@[simp] theorem updG_life (s : State) (g : Nat) (f : Group → Group) : (updG s g f).life = s.life := rfl
@[simp] theorem updG_testDie (s : State) (g : Nat) (f : Group → Group) : (updG s g f).testDie = s.testDie := rfl
@[simp] theorem updG_keysGone (s : State) (g : Nat) (f : Group → Group) : (updG s g f).keysGone = s.keysGone := rfl
@[simp] theorem updG_fw (s : State) (g : Nat) (f : Group → Group) : (updG s g f).fw = s.fw := rfl
@[simp] theorem updG_fwState (s : State) (g : Nat) (f : Group → Group) : (updG s g f).fwState = s.fwState := rfl
@[simp] theorem updG_fwReason (s : State) (g : Nat) (f : Group → Group) : (updG s g f).fwReason = s.fwReason := rfl
@[simp] theorem updG_fwBlock (s : State) (g : Nat) (f : Group → Group) : (updG s g f).fwBlock = s.fwBlock := rfl
@[simp] theorem updG_fwPa (s : State) (g : Nat) (f : Group → Group) : (updG s g f).fwPa = s.fwPa := rfl
@[simp] theorem updG_fwNew (s : State) (g : Nat) (f : Group → Group) : (updG s g f).fwNew = s.fwNew := rfl
@[simp] theorem updG_heldIn (s : State) (g : Nat) (f : Group → Group) : (updG s g f).heldIn = s.heldIn := rfl
@[simp] theorem updG_coreClk (s : State) (g : Nat) (f : Group → Group) : (updG s g f).coreClk = s.coreClk := rfl
@[simp] theorem updG_power (s : State) (g : Nat) (f : Group → Group) : (updG s g f).power = s.power := rfl
@[simp] theorem updG_coolMs (s : State) (g : Nat) (f : Group → Group) : (updG s g f).coolMs = s.coolMs := rfl
@[simp] theorem updGang_ctr (s : State) (g : Nat) (f : Gang → Gang) : (updGang s g f).ctr = s.ctr := rfl
@[simp] theorem updGang_turn (s : State) (g : Nat) (f : Gang → Gang) : (updGang s g f).turn = s.turn := rfl
@[simp] theorem updGang_cur (s : State) (g : Nat) (f : Gang → Gang) : (updGang s g f).cur = s.cur := rfl
@[simp] theorem updGang_agenda (s : State) (g : Nat) (f : Gang → Gang) : (updGang s g f).agenda = s.agenda := rfl
@[simp] theorem updGang_lastRead (s : State) (g : Nat) (f : Gang → Gang) : (updGang s g f).lastRead = s.lastRead := rfl
@[simp] theorem updGang_clock (s : State) (g : Nat) (f : Gang → Gang) : (updGang s g f).clock = s.clock := rfl
@[simp] theorem updGang_time (s : State) (g : Nat) (f : Gang → Gang) : (updGang s g f).time = s.time := rfl
@[simp] theorem updGang_servo (s : State) (g : Nat) (f : Gang → Gang) : (updGang s g f).servo = s.servo := rfl
@[simp] theorem updGang_ptp (s : State) (g : Nat) (f : Gang → Gang) : (updGang s g f).ptp = s.ptp := rfl
@[simp] theorem updGang_bar (s : State) (g : Nat) (f : Gang → Gang) : (updGang s g f).bar = s.bar := rfl
@[simp] theorem updGang_warps (s : State) (g : Nat) (f : Gang → Gang) : (updGang s g f).warps = s.warps := rfl
@[simp] theorem updGang_groups (s : State) (g : Nat) (f : Gang → Gang) : (updGang s g f).groups = s.groups := rfl
@[simp] theorem updGang_launches (s : State) (g : Nat) (f : Gang → Gang) : (updGang s g f).launches = s.launches := rfl
@[simp] theorem updGang_qpos (s : State) (g : Nat) (f : Gang → Gang) : (updGang s g f).qpos = s.qpos := rfl
@[simp] theorem updGang_cancel (s : State) (g : Nat) (f : Gang → Gang) : (updGang s g f).cancel = s.cancel := rfl
@[simp] theorem updGang_canStat (s : State) (g : Nat) (f : Gang → Gang) : (updGang s g f).canStat = s.canStat := rfl
@[simp] theorem updGang_xcmd (s : State) (g : Nat) (f : Gang → Gang) : (updGang s g f).xcmd = s.xcmd := rfl
@[simp] theorem updGang_xcmdNoSlot (s : State) (g : Nat) (f : Gang → Gang) : (updGang s g f).xcmdNoSlot = s.xcmdNoSlot := rfl
@[simp] theorem updGang_xcmdCount (s : State) (g : Nat) (f : Gang → Gang) : (updGang s g f).xcmdCount = s.xcmdCount := rfl
@[simp] theorem updGang_xheld (s : State) (g : Nat) (f : Gang → Gang) : (updGang s g f).xheld = s.xheld := rfl
@[simp] theorem updGang_frees (s : State) (g : Nat) (f : Gang → Gang) : (updGang s g f).frees = s.frees := rfl
@[simp] theorem updGang_swap (s : State) (g : Nat) (f : Gang → Gang) : (updGang s g f).swap = s.swap := rfl
@[simp] theorem updGang_swapBad (s : State) (g : Nat) (f : Gang → Gang) : (updGang s g f).swapBad = s.swapBad := rfl
@[simp] theorem updGang_swapCount (s : State) (g : Nat) (f : Gang → Gang) : (updGang s g f).swapCount = s.swapCount := rfl
@[simp] theorem updGang_splits (s : State) (g : Nat) (f : Gang → Gang) : (updGang s g f).splits = s.splits := rfl
@[simp] theorem updGang_recq (s : State) (g : Nat) (f : Gang → Gang) : (updGang s g f).recq = s.recq := rfl
@[simp] theorem updGang_mem (s : State) (g : Nat) (f : Gang → Gang) : (updGang s g f).mem = s.mem := rfl
@[simp] theorem updGang_l1 (s : State) (g : Nat) (f : Gang → Gang) : (updGang s g f).l1 = s.l1 := rfl
@[simp] theorem updGang_l2 (s : State) (g : Nat) (f : Gang → Gang) : (updGang s g f).l2 = s.l2 := rfl
@[simp] theorem updGang_l1By (s : State) (g : Nat) (f : Gang → Gang) : (updGang s g f).l1By = s.l1By := rfl
@[simp] theorem updGang_poison (s : State) (g : Nat) (f : Gang → Gang) : (updGang s g f).poison = s.poison := rfl
@[simp] theorem updGang_cured (s : State) (g : Nat) (f : Gang → Gang) : (updGang s g f).cured = s.cured := rfl
@[simp] theorem updGang_upsets (s : State) (g : Nat) (f : Gang → Gang) : (updGang s g f).upsets = s.upsets := rfl
@[simp] theorem updGang_dramq (s : State) (g : Nat) (f : Gang → Gang) : (updGang s g f).dramq = s.dramq := rfl
@[simp] theorem updGang_tlb (s : State) (g : Nat) (f : Gang → Gang) : (updGang s g f).tlb = s.tlb := rfl
@[simp] theorem updGang_xrecs (s : State) (g : Nat) (f : Gang → Gang) : (updGang s g f).xrecs = s.xrecs := rfl
@[simp] theorem updGang_lverdicts (s : State) (g : Nat) (f : Gang → Gang) : (updGang s g f).lverdicts = s.lverdicts := rfl
@[simp] theorem updGang_xtag (s : State) (g : Nat) (f : Gang → Gang) : (updGang s g f).xtag = s.xtag := rfl
@[simp] theorem updGang_cows (s : State) (g : Nat) (f : Gang → Gang) : (updGang s g f).cows = s.cows := rfl
@[simp] theorem updGang_shoot (s : State) (g : Nat) (f : Gang → Gang) : (updGang s g f).shoot = s.shoot := rfl
@[simp] theorem updGang_cmds (s : State) (g : Nat) (f : Gang → Gang) : (updGang s g f).cmds = s.cmds := rfl
@[simp] theorem updGang_nextCmd (s : State) (g : Nat) (f : Gang → Gang) : (updGang s g f).nextCmd = s.nextCmd := rfl
@[simp] theorem updGang_bindings (s : State) (g : Nat) (f : Gang → Gang) : (updGang s g f).bindings = s.bindings := rfl
@[simp] theorem updGang_vats (s : State) (g : Nat) (f : Gang → Gang) : (updGang s g f).vats = s.vats := rfl
@[simp] theorem updGang_vatWait (s : State) (g : Nat) (f : Gang → Gang) : (updGang s g f).vatWait = s.vatWait := rfl
@[simp] theorem updGang_posts (s : State) (g : Nat) (f : Gang → Gang) : (updGang s g f).posts = s.posts := rfl
@[simp] theorem updGang_nextPost (s : State) (g : Nat) (f : Gang → Gang) : (updGang s g f).nextPost = s.nextPost := rfl
@[simp] theorem updGang_unitLogs (s : State) (g : Nat) (f : Gang → Gang) : (updGang s g f).unitLogs = s.unitLogs := rfl
@[simp] theorem updGang_moulds (s : State) (g : Nat) (f : Gang → Gang) : (updGang s g f).moulds = s.moulds := rfl
@[simp] theorem updGang_channels (s : State) (g : Nat) (f : Gang → Gang) : (updGang s g f).channels = s.channels := rfl
@[simp] theorem updGang_grids (s : State) (g : Nat) (f : Gang → Gang) : (updGang s g f).grids = s.grids := rfl
@[simp] theorem updGang_tileNo (s : State) (g : Nat) (f : Gang → Gang) : (updGang s g f).tileNo = s.tileNo := rfl
@[simp] theorem updGang_ports (s : State) (g : Nat) (f : Gang → Gang) : (updGang s g f).ports = s.ports := rfl
@[simp] theorem updGang_peerTx (s : State) (g : Nat) (f : Gang → Gang) : (updGang s g f).peerTx = s.peerTx := rfl
@[simp] theorem updGang_peerRx (s : State) (g : Nat) (f : Gang → Gang) : (updGang s g f).peerRx = s.peerRx := rfl
@[simp] theorem updGang_putGroups (s : State) (g : Nat) (f : Gang → Gang) : (updGang s g f).putGroups = s.putGroups := rfl
@[simp] theorem updGang_openGroups (s : State) (g : Nat) (f : Gang → Gang) : (updGang s g f).openGroups = s.openGroups := rfl
@[simp] theorem updGang_aborts (s : State) (g : Nat) (f : Gang → Gang) : (updGang s g f).aborts = s.aborts := rfl
@[simp] theorem updGang_farReads (s : State) (g : Nat) (f : Gang → Gang) : (updGang s g f).farReads = s.farReads := rfl
@[simp] theorem updGang_relays (s : State) (g : Nat) (f : Gang → Gang) : (updGang s g f).relays = s.relays := rfl
@[simp] theorem updGang_parked (s : State) (g : Nat) (f : Gang → Gang) : (updGang s g f).parked = s.parked := rfl
@[simp] theorem updGang_nextPark (s : State) (g : Nat) (f : Gang → Gang) : (updGang s g f).nextPark = s.nextPark := rfl
@[simp] theorem updGang_ovHead (s : State) (g : Nat) (f : Gang → Gang) : (updGang s g f).ovHead = s.ovHead := rfl
@[simp] theorem updGang_ovTail (s : State) (g : Nat) (f : Gang → Gang) : (updGang s g f).ovTail = s.ovTail := rfl
@[simp] theorem updGang_outbox (s : State) (g : Nat) (f : Gang → Gang) : (updGang s g f).outbox = s.outbox := rfl
@[simp] theorem updGang_flits (s : State) (g : Nat) (f : Gang → Gang) : (updGang s g f).flits = s.flits := rfl
@[simp] theorem updGang_ctlFlits (s : State) (g : Nat) (f : Gang → Gang) : (updGang s g f).ctlFlits = s.ctlFlits := rfl
@[simp] theorem updGang_ckSends (s : State) (g : Nat) (f : Gang → Gang) : (updGang s g f).ckSends = s.ckSends := rfl
@[simp] theorem updGang_frames (s : State) (g : Nat) (f : Gang → Gang) : (updGang s g f).frames = s.frames := rfl
@[simp] theorem updGang_datagrams (s : State) (g : Nat) (f : Gang → Gang) : (updGang s g f).datagrams = s.datagrams := rfl
@[simp] theorem updGang_msix (s : State) (g : Nat) (f : Gang → Gang) : (updGang s g f).msix = s.msix := rfl
@[simp] theorem updGang_hostLines (s : State) (g : Nat) (f : Gang → Gang) : (updGang s g f).hostLines = s.hostLines := rfl
@[simp] theorem updGang_backInv (s : State) (g : Nat) (f : Gang → Gang) : (updGang s g f).backInv = s.backInv := rfl
@[simp] theorem updGang_errq (s : State) (g : Nat) (f : Gang → Gang) : (updGang s g f).errq = s.errq := rfl
@[simp] theorem updGang_hostBad (s : State) (g : Nat) (f : Gang → Gang) : (updGang s g f).hostBad = s.hostBad := rfl
@[simp] theorem updGang_admitted (s : State) (g : Nat) (f : Gang → Gang) : (updGang s g f).admitted = s.admitted := rfl
@[simp] theorem updGang_readmit (s : State) (g : Nat) (f : Gang → Gang) : (updGang s g f).readmit = s.readmit := rfl
@[simp] theorem updGang_readmitDie (s : State) (g : Nat) (f : Gang → Gang) : (updGang s g f).readmitDie = s.readmitDie := rfl
@[simp] theorem updGang_readmitRes (s : State) (g : Nat) (f : Gang → Gang) : (updGang s g f).readmitRes = s.readmitRes := rfl
@[simp] theorem updGang_scrubbed (s : State) (g : Nat) (f : Gang → Gang) : (updGang s g f).scrubbed = s.scrubbed := rfl
@[simp] theorem updGang_stage (s : State) (g : Nat) (f : Gang → Gang) : (updGang s g f).stage = s.stage := rfl
@[simp] theorem updGang_reason (s : State) (g : Nat) (f : Gang → Gang) : (updGang s g f).reason = s.reason := rfl
@[simp] theorem updGang_fails (s : State) (g : Nat) (f : Gang → Gang) : (updGang s g f).fails = s.fails := rfl
@[simp] theorem updGang_life (s : State) (g : Nat) (f : Gang → Gang) : (updGang s g f).life = s.life := rfl
@[simp] theorem updGang_testDie (s : State) (g : Nat) (f : Gang → Gang) : (updGang s g f).testDie = s.testDie := rfl
@[simp] theorem updGang_keysGone (s : State) (g : Nat) (f : Gang → Gang) : (updGang s g f).keysGone = s.keysGone := rfl
@[simp] theorem updGang_fw (s : State) (g : Nat) (f : Gang → Gang) : (updGang s g f).fw = s.fw := rfl
@[simp] theorem updGang_fwState (s : State) (g : Nat) (f : Gang → Gang) : (updGang s g f).fwState = s.fwState := rfl
@[simp] theorem updGang_fwReason (s : State) (g : Nat) (f : Gang → Gang) : (updGang s g f).fwReason = s.fwReason := rfl
@[simp] theorem updGang_fwBlock (s : State) (g : Nat) (f : Gang → Gang) : (updGang s g f).fwBlock = s.fwBlock := rfl
@[simp] theorem updGang_fwPa (s : State) (g : Nat) (f : Gang → Gang) : (updGang s g f).fwPa = s.fwPa := rfl
@[simp] theorem updGang_fwNew (s : State) (g : Nat) (f : Gang → Gang) : (updGang s g f).fwNew = s.fwNew := rfl
@[simp] theorem updGang_heldIn (s : State) (g : Nat) (f : Gang → Gang) : (updGang s g f).heldIn = s.heldIn := rfl
@[simp] theorem updGang_coreClk (s : State) (g : Nat) (f : Gang → Gang) : (updGang s g f).coreClk = s.coreClk := rfl
@[simp] theorem updGang_power (s : State) (g : Nat) (f : Gang → Gang) : (updGang s g f).power = s.power := rfl
@[simp] theorem updGang_coolMs (s : State) (g : Nat) (f : Gang → Gang) : (updGang s g f).coolMs = s.coolMs := rfl
@[simp] theorem barSet_ctr (s : State) (o : Nat) (v : W64) : (barSet s o v).ctr = s.ctr := rfl
@[simp] theorem barSet_turn (s : State) (o : Nat) (v : W64) : (barSet s o v).turn = s.turn := rfl
@[simp] theorem barSet_cur (s : State) (o : Nat) (v : W64) : (barSet s o v).cur = s.cur := rfl
@[simp] theorem barSet_agenda (s : State) (o : Nat) (v : W64) : (barSet s o v).agenda = s.agenda := rfl
@[simp] theorem barSet_lastRead (s : State) (o : Nat) (v : W64) : (barSet s o v).lastRead = s.lastRead := rfl
@[simp] theorem barSet_clock (s : State) (o : Nat) (v : W64) : (barSet s o v).clock = s.clock := rfl
@[simp] theorem barSet_time (s : State) (o : Nat) (v : W64) : (barSet s o v).time = s.time := rfl
@[simp] theorem barSet_servo (s : State) (o : Nat) (v : W64) : (barSet s o v).servo = s.servo := rfl
@[simp] theorem barSet_ptp (s : State) (o : Nat) (v : W64) : (barSet s o v).ptp = s.ptp := rfl
@[simp] theorem barSet_warps (s : State) (o : Nat) (v : W64) : (barSet s o v).warps = s.warps := rfl
@[simp] theorem barSet_groups (s : State) (o : Nat) (v : W64) : (barSet s o v).groups = s.groups := rfl
@[simp] theorem barSet_gangs (s : State) (o : Nat) (v : W64) : (barSet s o v).gangs = s.gangs := rfl
@[simp] theorem barSet_launches (s : State) (o : Nat) (v : W64) : (barSet s o v).launches = s.launches := rfl
@[simp] theorem barSet_qpos (s : State) (o : Nat) (v : W64) : (barSet s o v).qpos = s.qpos := rfl
@[simp] theorem barSet_cancel (s : State) (o : Nat) (v : W64) : (barSet s o v).cancel = s.cancel := rfl
@[simp] theorem barSet_canStat (s : State) (o : Nat) (v : W64) : (barSet s o v).canStat = s.canStat := rfl
@[simp] theorem barSet_xcmd (s : State) (o : Nat) (v : W64) : (barSet s o v).xcmd = s.xcmd := rfl
@[simp] theorem barSet_xcmdNoSlot (s : State) (o : Nat) (v : W64) : (barSet s o v).xcmdNoSlot = s.xcmdNoSlot := rfl
@[simp] theorem barSet_xcmdCount (s : State) (o : Nat) (v : W64) : (barSet s o v).xcmdCount = s.xcmdCount := rfl
@[simp] theorem barSet_xheld (s : State) (o : Nat) (v : W64) : (barSet s o v).xheld = s.xheld := rfl
@[simp] theorem barSet_frees (s : State) (o : Nat) (v : W64) : (barSet s o v).frees = s.frees := rfl
@[simp] theorem barSet_swap (s : State) (o : Nat) (v : W64) : (barSet s o v).swap = s.swap := rfl
@[simp] theorem barSet_swapBad (s : State) (o : Nat) (v : W64) : (barSet s o v).swapBad = s.swapBad := rfl
@[simp] theorem barSet_swapCount (s : State) (o : Nat) (v : W64) : (barSet s o v).swapCount = s.swapCount := rfl
@[simp] theorem barSet_splits (s : State) (o : Nat) (v : W64) : (barSet s o v).splits = s.splits := rfl
@[simp] theorem barSet_recq (s : State) (o : Nat) (v : W64) : (barSet s o v).recq = s.recq := rfl
@[simp] theorem barSet_mem (s : State) (o : Nat) (v : W64) : (barSet s o v).mem = s.mem := rfl
@[simp] theorem barSet_l1 (s : State) (o : Nat) (v : W64) : (barSet s o v).l1 = s.l1 := rfl
@[simp] theorem barSet_l2 (s : State) (o : Nat) (v : W64) : (barSet s o v).l2 = s.l2 := rfl
@[simp] theorem barSet_l1By (s : State) (o : Nat) (v : W64) : (barSet s o v).l1By = s.l1By := rfl
@[simp] theorem barSet_poison (s : State) (o : Nat) (v : W64) : (barSet s o v).poison = s.poison := rfl
@[simp] theorem barSet_cured (s : State) (o : Nat) (v : W64) : (barSet s o v).cured = s.cured := rfl
@[simp] theorem barSet_upsets (s : State) (o : Nat) (v : W64) : (barSet s o v).upsets = s.upsets := rfl
@[simp] theorem barSet_dramq (s : State) (o : Nat) (v : W64) : (barSet s o v).dramq = s.dramq := rfl
@[simp] theorem barSet_tlb (s : State) (o : Nat) (v : W64) : (barSet s o v).tlb = s.tlb := rfl
@[simp] theorem barSet_xrecs (s : State) (o : Nat) (v : W64) : (barSet s o v).xrecs = s.xrecs := rfl
@[simp] theorem barSet_lverdicts (s : State) (o : Nat) (v : W64) : (barSet s o v).lverdicts = s.lverdicts := rfl
@[simp] theorem barSet_xtag (s : State) (o : Nat) (v : W64) : (barSet s o v).xtag = s.xtag := rfl
@[simp] theorem barSet_cows (s : State) (o : Nat) (v : W64) : (barSet s o v).cows = s.cows := rfl
@[simp] theorem barSet_shoot (s : State) (o : Nat) (v : W64) : (barSet s o v).shoot = s.shoot := rfl
@[simp] theorem barSet_cmds (s : State) (o : Nat) (v : W64) : (barSet s o v).cmds = s.cmds := rfl
@[simp] theorem barSet_nextCmd (s : State) (o : Nat) (v : W64) : (barSet s o v).nextCmd = s.nextCmd := rfl
@[simp] theorem barSet_bindings (s : State) (o : Nat) (v : W64) : (barSet s o v).bindings = s.bindings := rfl
@[simp] theorem barSet_vats (s : State) (o : Nat) (v : W64) : (barSet s o v).vats = s.vats := rfl
@[simp] theorem barSet_vatWait (s : State) (o : Nat) (v : W64) : (barSet s o v).vatWait = s.vatWait := rfl
@[simp] theorem barSet_posts (s : State) (o : Nat) (v : W64) : (barSet s o v).posts = s.posts := rfl
@[simp] theorem barSet_nextPost (s : State) (o : Nat) (v : W64) : (barSet s o v).nextPost = s.nextPost := rfl
@[simp] theorem barSet_unitLogs (s : State) (o : Nat) (v : W64) : (barSet s o v).unitLogs = s.unitLogs := rfl
@[simp] theorem barSet_moulds (s : State) (o : Nat) (v : W64) : (barSet s o v).moulds = s.moulds := rfl
@[simp] theorem barSet_channels (s : State) (o : Nat) (v : W64) : (barSet s o v).channels = s.channels := rfl
@[simp] theorem barSet_grids (s : State) (o : Nat) (v : W64) : (barSet s o v).grids = s.grids := rfl
@[simp] theorem barSet_tileNo (s : State) (o : Nat) (v : W64) : (barSet s o v).tileNo = s.tileNo := rfl
@[simp] theorem barSet_ports (s : State) (o : Nat) (v : W64) : (barSet s o v).ports = s.ports := rfl
@[simp] theorem barSet_peerTx (s : State) (o : Nat) (v : W64) : (barSet s o v).peerTx = s.peerTx := rfl
@[simp] theorem barSet_peerRx (s : State) (o : Nat) (v : W64) : (barSet s o v).peerRx = s.peerRx := rfl
@[simp] theorem barSet_putGroups (s : State) (o : Nat) (v : W64) : (barSet s o v).putGroups = s.putGroups := rfl
@[simp] theorem barSet_openGroups (s : State) (o : Nat) (v : W64) : (barSet s o v).openGroups = s.openGroups := rfl
@[simp] theorem barSet_aborts (s : State) (o : Nat) (v : W64) : (barSet s o v).aborts = s.aborts := rfl
@[simp] theorem barSet_farReads (s : State) (o : Nat) (v : W64) : (barSet s o v).farReads = s.farReads := rfl
@[simp] theorem barSet_relays (s : State) (o : Nat) (v : W64) : (barSet s o v).relays = s.relays := rfl
@[simp] theorem barSet_parked (s : State) (o : Nat) (v : W64) : (barSet s o v).parked = s.parked := rfl
@[simp] theorem barSet_nextPark (s : State) (o : Nat) (v : W64) : (barSet s o v).nextPark = s.nextPark := rfl
@[simp] theorem barSet_ovHead (s : State) (o : Nat) (v : W64) : (barSet s o v).ovHead = s.ovHead := rfl
@[simp] theorem barSet_ovTail (s : State) (o : Nat) (v : W64) : (barSet s o v).ovTail = s.ovTail := rfl
@[simp] theorem barSet_outbox (s : State) (o : Nat) (v : W64) : (barSet s o v).outbox = s.outbox := rfl
@[simp] theorem barSet_flits (s : State) (o : Nat) (v : W64) : (barSet s o v).flits = s.flits := rfl
@[simp] theorem barSet_ctlFlits (s : State) (o : Nat) (v : W64) : (barSet s o v).ctlFlits = s.ctlFlits := rfl
@[simp] theorem barSet_ckSends (s : State) (o : Nat) (v : W64) : (barSet s o v).ckSends = s.ckSends := rfl
@[simp] theorem barSet_frames (s : State) (o : Nat) (v : W64) : (barSet s o v).frames = s.frames := rfl
@[simp] theorem barSet_datagrams (s : State) (o : Nat) (v : W64) : (barSet s o v).datagrams = s.datagrams := rfl
@[simp] theorem barSet_msix (s : State) (o : Nat) (v : W64) : (barSet s o v).msix = s.msix := rfl
@[simp] theorem barSet_hostLines (s : State) (o : Nat) (v : W64) : (barSet s o v).hostLines = s.hostLines := rfl
@[simp] theorem barSet_backInv (s : State) (o : Nat) (v : W64) : (barSet s o v).backInv = s.backInv := rfl
@[simp] theorem barSet_errq (s : State) (o : Nat) (v : W64) : (barSet s o v).errq = s.errq := rfl
@[simp] theorem barSet_hostBad (s : State) (o : Nat) (v : W64) : (barSet s o v).hostBad = s.hostBad := rfl
@[simp] theorem barSet_admitted (s : State) (o : Nat) (v : W64) : (barSet s o v).admitted = s.admitted := rfl
@[simp] theorem barSet_readmit (s : State) (o : Nat) (v : W64) : (barSet s o v).readmit = s.readmit := rfl
@[simp] theorem barSet_readmitDie (s : State) (o : Nat) (v : W64) : (barSet s o v).readmitDie = s.readmitDie := rfl
@[simp] theorem barSet_readmitRes (s : State) (o : Nat) (v : W64) : (barSet s o v).readmitRes = s.readmitRes := rfl
@[simp] theorem barSet_scrubbed (s : State) (o : Nat) (v : W64) : (barSet s o v).scrubbed = s.scrubbed := rfl
@[simp] theorem barSet_stage (s : State) (o : Nat) (v : W64) : (barSet s o v).stage = s.stage := rfl
@[simp] theorem barSet_reason (s : State) (o : Nat) (v : W64) : (barSet s o v).reason = s.reason := rfl
@[simp] theorem barSet_fails (s : State) (o : Nat) (v : W64) : (barSet s o v).fails = s.fails := rfl
@[simp] theorem barSet_life (s : State) (o : Nat) (v : W64) : (barSet s o v).life = s.life := rfl
@[simp] theorem barSet_testDie (s : State) (o : Nat) (v : W64) : (barSet s o v).testDie = s.testDie := rfl
@[simp] theorem barSet_keysGone (s : State) (o : Nat) (v : W64) : (barSet s o v).keysGone = s.keysGone := rfl
@[simp] theorem barSet_fw (s : State) (o : Nat) (v : W64) : (barSet s o v).fw = s.fw := rfl
@[simp] theorem barSet_fwState (s : State) (o : Nat) (v : W64) : (barSet s o v).fwState = s.fwState := rfl
@[simp] theorem barSet_fwReason (s : State) (o : Nat) (v : W64) : (barSet s o v).fwReason = s.fwReason := rfl
@[simp] theorem barSet_fwBlock (s : State) (o : Nat) (v : W64) : (barSet s o v).fwBlock = s.fwBlock := rfl
@[simp] theorem barSet_fwPa (s : State) (o : Nat) (v : W64) : (barSet s o v).fwPa = s.fwPa := rfl
@[simp] theorem barSet_fwNew (s : State) (o : Nat) (v : W64) : (barSet s o v).fwNew = s.fwNew := rfl
@[simp] theorem barSet_heldIn (s : State) (o : Nat) (v : W64) : (barSet s o v).heldIn = s.heldIn := rfl
@[simp] theorem barSet_coreClk (s : State) (o : Nat) (v : W64) : (barSet s o v).coreClk = s.coreClk := rfl
@[simp] theorem barSet_power (s : State) (o : Nat) (v : W64) : (barSet s o v).power = s.power := rfl
@[simp] theorem barSet_coolMs (s : State) (o : Nat) (v : W64) : (barSet s o v).coolMs = s.coolMs := rfl
@[simp] theorem l2Put_ctr (s : State) (k : Nat) (x : Sector) : (l2Put s k x).ctr = s.ctr := rfl
@[simp] theorem l2Put_turn (s : State) (k : Nat) (x : Sector) : (l2Put s k x).turn = s.turn := rfl
@[simp] theorem l2Put_cur (s : State) (k : Nat) (x : Sector) : (l2Put s k x).cur = s.cur := rfl
@[simp] theorem l2Put_agenda (s : State) (k : Nat) (x : Sector) : (l2Put s k x).agenda = s.agenda := rfl
@[simp] theorem l2Put_lastRead (s : State) (k : Nat) (x : Sector) : (l2Put s k x).lastRead = s.lastRead := rfl
@[simp] theorem l2Put_clock (s : State) (k : Nat) (x : Sector) : (l2Put s k x).clock = s.clock := rfl
@[simp] theorem l2Put_time (s : State) (k : Nat) (x : Sector) : (l2Put s k x).time = s.time := rfl
@[simp] theorem l2Put_servo (s : State) (k : Nat) (x : Sector) : (l2Put s k x).servo = s.servo := rfl
@[simp] theorem l2Put_ptp (s : State) (k : Nat) (x : Sector) : (l2Put s k x).ptp = s.ptp := rfl
@[simp] theorem l2Put_bar (s : State) (k : Nat) (x : Sector) : (l2Put s k x).bar = s.bar := rfl
@[simp] theorem l2Put_warps (s : State) (k : Nat) (x : Sector) : (l2Put s k x).warps = s.warps := rfl
@[simp] theorem l2Put_groups (s : State) (k : Nat) (x : Sector) : (l2Put s k x).groups = s.groups := rfl
@[simp] theorem l2Put_gangs (s : State) (k : Nat) (x : Sector) : (l2Put s k x).gangs = s.gangs := rfl
@[simp] theorem l2Put_launches (s : State) (k : Nat) (x : Sector) : (l2Put s k x).launches = s.launches := rfl
@[simp] theorem l2Put_qpos (s : State) (k : Nat) (x : Sector) : (l2Put s k x).qpos = s.qpos := rfl
@[simp] theorem l2Put_cancel (s : State) (k : Nat) (x : Sector) : (l2Put s k x).cancel = s.cancel := rfl
@[simp] theorem l2Put_canStat (s : State) (k : Nat) (x : Sector) : (l2Put s k x).canStat = s.canStat := rfl
@[simp] theorem l2Put_xcmd (s : State) (k : Nat) (x : Sector) : (l2Put s k x).xcmd = s.xcmd := rfl
@[simp] theorem l2Put_xcmdNoSlot (s : State) (k : Nat) (x : Sector) : (l2Put s k x).xcmdNoSlot = s.xcmdNoSlot := rfl
@[simp] theorem l2Put_xcmdCount (s : State) (k : Nat) (x : Sector) : (l2Put s k x).xcmdCount = s.xcmdCount := rfl
@[simp] theorem l2Put_xheld (s : State) (k : Nat) (x : Sector) : (l2Put s k x).xheld = s.xheld := rfl
@[simp] theorem l2Put_frees (s : State) (k : Nat) (x : Sector) : (l2Put s k x).frees = s.frees := rfl
@[simp] theorem l2Put_swap (s : State) (k : Nat) (x : Sector) : (l2Put s k x).swap = s.swap := rfl
@[simp] theorem l2Put_swapBad (s : State) (k : Nat) (x : Sector) : (l2Put s k x).swapBad = s.swapBad := rfl
@[simp] theorem l2Put_swapCount (s : State) (k : Nat) (x : Sector) : (l2Put s k x).swapCount = s.swapCount := rfl
@[simp] theorem l2Put_splits (s : State) (k : Nat) (x : Sector) : (l2Put s k x).splits = s.splits := rfl
@[simp] theorem l2Put_recq (s : State) (k : Nat) (x : Sector) : (l2Put s k x).recq = s.recq := rfl
@[simp] theorem l2Put_mem (s : State) (k : Nat) (x : Sector) : (l2Put s k x).mem = s.mem := rfl
@[simp] theorem l2Put_l1 (s : State) (k : Nat) (x : Sector) : (l2Put s k x).l1 = s.l1 := rfl
@[simp] theorem l2Put_l1By (s : State) (k : Nat) (x : Sector) : (l2Put s k x).l1By = s.l1By := rfl
@[simp] theorem l2Put_poison (s : State) (k : Nat) (x : Sector) : (l2Put s k x).poison = s.poison := rfl
@[simp] theorem l2Put_cured (s : State) (k : Nat) (x : Sector) : (l2Put s k x).cured = s.cured := rfl
@[simp] theorem l2Put_upsets (s : State) (k : Nat) (x : Sector) : (l2Put s k x).upsets = s.upsets := rfl
@[simp] theorem l2Put_dramq (s : State) (k : Nat) (x : Sector) : (l2Put s k x).dramq = s.dramq := rfl
@[simp] theorem l2Put_tlb (s : State) (k : Nat) (x : Sector) : (l2Put s k x).tlb = s.tlb := rfl
@[simp] theorem l2Put_xrecs (s : State) (k : Nat) (x : Sector) : (l2Put s k x).xrecs = s.xrecs := rfl
@[simp] theorem l2Put_lverdicts (s : State) (k : Nat) (x : Sector) : (l2Put s k x).lverdicts = s.lverdicts := rfl
@[simp] theorem l2Put_xtag (s : State) (k : Nat) (x : Sector) : (l2Put s k x).xtag = s.xtag := rfl
@[simp] theorem l2Put_cows (s : State) (k : Nat) (x : Sector) : (l2Put s k x).cows = s.cows := rfl
@[simp] theorem l2Put_shoot (s : State) (k : Nat) (x : Sector) : (l2Put s k x).shoot = s.shoot := rfl
@[simp] theorem l2Put_cmds (s : State) (k : Nat) (x : Sector) : (l2Put s k x).cmds = s.cmds := rfl
@[simp] theorem l2Put_nextCmd (s : State) (k : Nat) (x : Sector) : (l2Put s k x).nextCmd = s.nextCmd := rfl
@[simp] theorem l2Put_bindings (s : State) (k : Nat) (x : Sector) : (l2Put s k x).bindings = s.bindings := rfl
@[simp] theorem l2Put_vats (s : State) (k : Nat) (x : Sector) : (l2Put s k x).vats = s.vats := rfl
@[simp] theorem l2Put_vatWait (s : State) (k : Nat) (x : Sector) : (l2Put s k x).vatWait = s.vatWait := rfl
@[simp] theorem l2Put_posts (s : State) (k : Nat) (x : Sector) : (l2Put s k x).posts = s.posts := rfl
@[simp] theorem l2Put_nextPost (s : State) (k : Nat) (x : Sector) : (l2Put s k x).nextPost = s.nextPost := rfl
@[simp] theorem l2Put_unitLogs (s : State) (k : Nat) (x : Sector) : (l2Put s k x).unitLogs = s.unitLogs := rfl
@[simp] theorem l2Put_moulds (s : State) (k : Nat) (x : Sector) : (l2Put s k x).moulds = s.moulds := rfl
@[simp] theorem l2Put_channels (s : State) (k : Nat) (x : Sector) : (l2Put s k x).channels = s.channels := rfl
@[simp] theorem l2Put_grids (s : State) (k : Nat) (x : Sector) : (l2Put s k x).grids = s.grids := rfl
@[simp] theorem l2Put_tileNo (s : State) (k : Nat) (x : Sector) : (l2Put s k x).tileNo = s.tileNo := rfl
@[simp] theorem l2Put_ports (s : State) (k : Nat) (x : Sector) : (l2Put s k x).ports = s.ports := rfl
@[simp] theorem l2Put_peerTx (s : State) (k : Nat) (x : Sector) : (l2Put s k x).peerTx = s.peerTx := rfl
@[simp] theorem l2Put_peerRx (s : State) (k : Nat) (x : Sector) : (l2Put s k x).peerRx = s.peerRx := rfl
@[simp] theorem l2Put_putGroups (s : State) (k : Nat) (x : Sector) : (l2Put s k x).putGroups = s.putGroups := rfl
@[simp] theorem l2Put_openGroups (s : State) (k : Nat) (x : Sector) : (l2Put s k x).openGroups = s.openGroups := rfl
@[simp] theorem l2Put_aborts (s : State) (k : Nat) (x : Sector) : (l2Put s k x).aborts = s.aborts := rfl
@[simp] theorem l2Put_farReads (s : State) (k : Nat) (x : Sector) : (l2Put s k x).farReads = s.farReads := rfl
@[simp] theorem l2Put_relays (s : State) (k : Nat) (x : Sector) : (l2Put s k x).relays = s.relays := rfl
@[simp] theorem l2Put_parked (s : State) (k : Nat) (x : Sector) : (l2Put s k x).parked = s.parked := rfl
@[simp] theorem l2Put_nextPark (s : State) (k : Nat) (x : Sector) : (l2Put s k x).nextPark = s.nextPark := rfl
@[simp] theorem l2Put_ovHead (s : State) (k : Nat) (x : Sector) : (l2Put s k x).ovHead = s.ovHead := rfl
@[simp] theorem l2Put_ovTail (s : State) (k : Nat) (x : Sector) : (l2Put s k x).ovTail = s.ovTail := rfl
@[simp] theorem l2Put_outbox (s : State) (k : Nat) (x : Sector) : (l2Put s k x).outbox = s.outbox := rfl
@[simp] theorem l2Put_flits (s : State) (k : Nat) (x : Sector) : (l2Put s k x).flits = s.flits := rfl
@[simp] theorem l2Put_ctlFlits (s : State) (k : Nat) (x : Sector) : (l2Put s k x).ctlFlits = s.ctlFlits := rfl
@[simp] theorem l2Put_ckSends (s : State) (k : Nat) (x : Sector) : (l2Put s k x).ckSends = s.ckSends := rfl
@[simp] theorem l2Put_frames (s : State) (k : Nat) (x : Sector) : (l2Put s k x).frames = s.frames := rfl
@[simp] theorem l2Put_datagrams (s : State) (k : Nat) (x : Sector) : (l2Put s k x).datagrams = s.datagrams := rfl
@[simp] theorem l2Put_msix (s : State) (k : Nat) (x : Sector) : (l2Put s k x).msix = s.msix := rfl
@[simp] theorem l2Put_hostLines (s : State) (k : Nat) (x : Sector) : (l2Put s k x).hostLines = s.hostLines := rfl
@[simp] theorem l2Put_backInv (s : State) (k : Nat) (x : Sector) : (l2Put s k x).backInv = s.backInv := rfl
@[simp] theorem l2Put_errq (s : State) (k : Nat) (x : Sector) : (l2Put s k x).errq = s.errq := rfl
@[simp] theorem l2Put_hostBad (s : State) (k : Nat) (x : Sector) : (l2Put s k x).hostBad = s.hostBad := rfl
@[simp] theorem l2Put_admitted (s : State) (k : Nat) (x : Sector) : (l2Put s k x).admitted = s.admitted := rfl
@[simp] theorem l2Put_readmit (s : State) (k : Nat) (x : Sector) : (l2Put s k x).readmit = s.readmit := rfl
@[simp] theorem l2Put_readmitDie (s : State) (k : Nat) (x : Sector) : (l2Put s k x).readmitDie = s.readmitDie := rfl
@[simp] theorem l2Put_readmitRes (s : State) (k : Nat) (x : Sector) : (l2Put s k x).readmitRes = s.readmitRes := rfl
@[simp] theorem l2Put_scrubbed (s : State) (k : Nat) (x : Sector) : (l2Put s k x).scrubbed = s.scrubbed := rfl
@[simp] theorem l2Put_stage (s : State) (k : Nat) (x : Sector) : (l2Put s k x).stage = s.stage := rfl
@[simp] theorem l2Put_reason (s : State) (k : Nat) (x : Sector) : (l2Put s k x).reason = s.reason := rfl
@[simp] theorem l2Put_fails (s : State) (k : Nat) (x : Sector) : (l2Put s k x).fails = s.fails := rfl
@[simp] theorem l2Put_life (s : State) (k : Nat) (x : Sector) : (l2Put s k x).life = s.life := rfl
@[simp] theorem l2Put_testDie (s : State) (k : Nat) (x : Sector) : (l2Put s k x).testDie = s.testDie := rfl
@[simp] theorem l2Put_keysGone (s : State) (k : Nat) (x : Sector) : (l2Put s k x).keysGone = s.keysGone := rfl
@[simp] theorem l2Put_fw (s : State) (k : Nat) (x : Sector) : (l2Put s k x).fw = s.fw := rfl
@[simp] theorem l2Put_fwState (s : State) (k : Nat) (x : Sector) : (l2Put s k x).fwState = s.fwState := rfl
@[simp] theorem l2Put_fwReason (s : State) (k : Nat) (x : Sector) : (l2Put s k x).fwReason = s.fwReason := rfl
@[simp] theorem l2Put_fwBlock (s : State) (k : Nat) (x : Sector) : (l2Put s k x).fwBlock = s.fwBlock := rfl
@[simp] theorem l2Put_fwPa (s : State) (k : Nat) (x : Sector) : (l2Put s k x).fwPa = s.fwPa := rfl
@[simp] theorem l2Put_fwNew (s : State) (k : Nat) (x : Sector) : (l2Put s k x).fwNew = s.fwNew := rfl
@[simp] theorem l2Put_heldIn (s : State) (k : Nat) (x : Sector) : (l2Put s k x).heldIn = s.heldIn := rfl
@[simp] theorem l2Put_coreClk (s : State) (k : Nat) (x : Sector) : (l2Put s k x).coreClk = s.coreClk := rfl
@[simp] theorem l2Put_power (s : State) (k : Nat) (x : Sector) : (l2Put s k x).power = s.power := rfl
@[simp] theorem l2Put_coolMs (s : State) (k : Nat) (x : Sector) : (l2Put s k x).coolMs = s.coolMs := rfl
@[simp] theorem l2Drop_ctr (s : State) (k : Nat) : (l2Drop s k).ctr = s.ctr := rfl
@[simp] theorem l2Drop_turn (s : State) (k : Nat) : (l2Drop s k).turn = s.turn := rfl
@[simp] theorem l2Drop_cur (s : State) (k : Nat) : (l2Drop s k).cur = s.cur := rfl
@[simp] theorem l2Drop_agenda (s : State) (k : Nat) : (l2Drop s k).agenda = s.agenda := rfl
@[simp] theorem l2Drop_lastRead (s : State) (k : Nat) : (l2Drop s k).lastRead = s.lastRead := rfl
@[simp] theorem l2Drop_clock (s : State) (k : Nat) : (l2Drop s k).clock = s.clock := rfl
@[simp] theorem l2Drop_time (s : State) (k : Nat) : (l2Drop s k).time = s.time := rfl
@[simp] theorem l2Drop_servo (s : State) (k : Nat) : (l2Drop s k).servo = s.servo := rfl
@[simp] theorem l2Drop_ptp (s : State) (k : Nat) : (l2Drop s k).ptp = s.ptp := rfl
@[simp] theorem l2Drop_bar (s : State) (k : Nat) : (l2Drop s k).bar = s.bar := rfl
@[simp] theorem l2Drop_warps (s : State) (k : Nat) : (l2Drop s k).warps = s.warps := rfl
@[simp] theorem l2Drop_groups (s : State) (k : Nat) : (l2Drop s k).groups = s.groups := rfl
@[simp] theorem l2Drop_gangs (s : State) (k : Nat) : (l2Drop s k).gangs = s.gangs := rfl
@[simp] theorem l2Drop_launches (s : State) (k : Nat) : (l2Drop s k).launches = s.launches := rfl
@[simp] theorem l2Drop_qpos (s : State) (k : Nat) : (l2Drop s k).qpos = s.qpos := rfl
@[simp] theorem l2Drop_cancel (s : State) (k : Nat) : (l2Drop s k).cancel = s.cancel := rfl
@[simp] theorem l2Drop_canStat (s : State) (k : Nat) : (l2Drop s k).canStat = s.canStat := rfl
@[simp] theorem l2Drop_xcmd (s : State) (k : Nat) : (l2Drop s k).xcmd = s.xcmd := rfl
@[simp] theorem l2Drop_xcmdNoSlot (s : State) (k : Nat) : (l2Drop s k).xcmdNoSlot = s.xcmdNoSlot := rfl
@[simp] theorem l2Drop_xcmdCount (s : State) (k : Nat) : (l2Drop s k).xcmdCount = s.xcmdCount := rfl
@[simp] theorem l2Drop_xheld (s : State) (k : Nat) : (l2Drop s k).xheld = s.xheld := rfl
@[simp] theorem l2Drop_frees (s : State) (k : Nat) : (l2Drop s k).frees = s.frees := rfl
@[simp] theorem l2Drop_swap (s : State) (k : Nat) : (l2Drop s k).swap = s.swap := rfl
@[simp] theorem l2Drop_swapBad (s : State) (k : Nat) : (l2Drop s k).swapBad = s.swapBad := rfl
@[simp] theorem l2Drop_swapCount (s : State) (k : Nat) : (l2Drop s k).swapCount = s.swapCount := rfl
@[simp] theorem l2Drop_splits (s : State) (k : Nat) : (l2Drop s k).splits = s.splits := rfl
@[simp] theorem l2Drop_recq (s : State) (k : Nat) : (l2Drop s k).recq = s.recq := rfl
@[simp] theorem l2Drop_mem (s : State) (k : Nat) : (l2Drop s k).mem = s.mem := rfl
@[simp] theorem l2Drop_l1 (s : State) (k : Nat) : (l2Drop s k).l1 = s.l1 := rfl
@[simp] theorem l2Drop_l1By (s : State) (k : Nat) : (l2Drop s k).l1By = s.l1By := rfl
@[simp] theorem l2Drop_poison (s : State) (k : Nat) : (l2Drop s k).poison = s.poison := rfl
@[simp] theorem l2Drop_cured (s : State) (k : Nat) : (l2Drop s k).cured = s.cured := rfl
@[simp] theorem l2Drop_upsets (s : State) (k : Nat) : (l2Drop s k).upsets = s.upsets := rfl
@[simp] theorem l2Drop_dramq (s : State) (k : Nat) : (l2Drop s k).dramq = s.dramq := rfl
@[simp] theorem l2Drop_tlb (s : State) (k : Nat) : (l2Drop s k).tlb = s.tlb := rfl
@[simp] theorem l2Drop_xrecs (s : State) (k : Nat) : (l2Drop s k).xrecs = s.xrecs := rfl
@[simp] theorem l2Drop_lverdicts (s : State) (k : Nat) : (l2Drop s k).lverdicts = s.lverdicts := rfl
@[simp] theorem l2Drop_xtag (s : State) (k : Nat) : (l2Drop s k).xtag = s.xtag := rfl
@[simp] theorem l2Drop_cows (s : State) (k : Nat) : (l2Drop s k).cows = s.cows := rfl
@[simp] theorem l2Drop_shoot (s : State) (k : Nat) : (l2Drop s k).shoot = s.shoot := rfl
@[simp] theorem l2Drop_cmds (s : State) (k : Nat) : (l2Drop s k).cmds = s.cmds := rfl
@[simp] theorem l2Drop_nextCmd (s : State) (k : Nat) : (l2Drop s k).nextCmd = s.nextCmd := rfl
@[simp] theorem l2Drop_bindings (s : State) (k : Nat) : (l2Drop s k).bindings = s.bindings := rfl
@[simp] theorem l2Drop_vats (s : State) (k : Nat) : (l2Drop s k).vats = s.vats := rfl
@[simp] theorem l2Drop_vatWait (s : State) (k : Nat) : (l2Drop s k).vatWait = s.vatWait := rfl
@[simp] theorem l2Drop_posts (s : State) (k : Nat) : (l2Drop s k).posts = s.posts := rfl
@[simp] theorem l2Drop_nextPost (s : State) (k : Nat) : (l2Drop s k).nextPost = s.nextPost := rfl
@[simp] theorem l2Drop_unitLogs (s : State) (k : Nat) : (l2Drop s k).unitLogs = s.unitLogs := rfl
@[simp] theorem l2Drop_moulds (s : State) (k : Nat) : (l2Drop s k).moulds = s.moulds := rfl
@[simp] theorem l2Drop_channels (s : State) (k : Nat) : (l2Drop s k).channels = s.channels := rfl
@[simp] theorem l2Drop_grids (s : State) (k : Nat) : (l2Drop s k).grids = s.grids := rfl
@[simp] theorem l2Drop_tileNo (s : State) (k : Nat) : (l2Drop s k).tileNo = s.tileNo := rfl
@[simp] theorem l2Drop_ports (s : State) (k : Nat) : (l2Drop s k).ports = s.ports := rfl
@[simp] theorem l2Drop_peerTx (s : State) (k : Nat) : (l2Drop s k).peerTx = s.peerTx := rfl
@[simp] theorem l2Drop_peerRx (s : State) (k : Nat) : (l2Drop s k).peerRx = s.peerRx := rfl
@[simp] theorem l2Drop_putGroups (s : State) (k : Nat) : (l2Drop s k).putGroups = s.putGroups := rfl
@[simp] theorem l2Drop_openGroups (s : State) (k : Nat) : (l2Drop s k).openGroups = s.openGroups := rfl
@[simp] theorem l2Drop_aborts (s : State) (k : Nat) : (l2Drop s k).aborts = s.aborts := rfl
@[simp] theorem l2Drop_farReads (s : State) (k : Nat) : (l2Drop s k).farReads = s.farReads := rfl
@[simp] theorem l2Drop_relays (s : State) (k : Nat) : (l2Drop s k).relays = s.relays := rfl
@[simp] theorem l2Drop_parked (s : State) (k : Nat) : (l2Drop s k).parked = s.parked := rfl
@[simp] theorem l2Drop_nextPark (s : State) (k : Nat) : (l2Drop s k).nextPark = s.nextPark := rfl
@[simp] theorem l2Drop_ovHead (s : State) (k : Nat) : (l2Drop s k).ovHead = s.ovHead := rfl
@[simp] theorem l2Drop_ovTail (s : State) (k : Nat) : (l2Drop s k).ovTail = s.ovTail := rfl
@[simp] theorem l2Drop_outbox (s : State) (k : Nat) : (l2Drop s k).outbox = s.outbox := rfl
@[simp] theorem l2Drop_flits (s : State) (k : Nat) : (l2Drop s k).flits = s.flits := rfl
@[simp] theorem l2Drop_ctlFlits (s : State) (k : Nat) : (l2Drop s k).ctlFlits = s.ctlFlits := rfl
@[simp] theorem l2Drop_ckSends (s : State) (k : Nat) : (l2Drop s k).ckSends = s.ckSends := rfl
@[simp] theorem l2Drop_frames (s : State) (k : Nat) : (l2Drop s k).frames = s.frames := rfl
@[simp] theorem l2Drop_datagrams (s : State) (k : Nat) : (l2Drop s k).datagrams = s.datagrams := rfl
@[simp] theorem l2Drop_msix (s : State) (k : Nat) : (l2Drop s k).msix = s.msix := rfl
@[simp] theorem l2Drop_hostLines (s : State) (k : Nat) : (l2Drop s k).hostLines = s.hostLines := rfl
@[simp] theorem l2Drop_backInv (s : State) (k : Nat) : (l2Drop s k).backInv = s.backInv := rfl
@[simp] theorem l2Drop_errq (s : State) (k : Nat) : (l2Drop s k).errq = s.errq := rfl
@[simp] theorem l2Drop_hostBad (s : State) (k : Nat) : (l2Drop s k).hostBad = s.hostBad := rfl
@[simp] theorem l2Drop_admitted (s : State) (k : Nat) : (l2Drop s k).admitted = s.admitted := rfl
@[simp] theorem l2Drop_readmit (s : State) (k : Nat) : (l2Drop s k).readmit = s.readmit := rfl
@[simp] theorem l2Drop_readmitDie (s : State) (k : Nat) : (l2Drop s k).readmitDie = s.readmitDie := rfl
@[simp] theorem l2Drop_readmitRes (s : State) (k : Nat) : (l2Drop s k).readmitRes = s.readmitRes := rfl
@[simp] theorem l2Drop_scrubbed (s : State) (k : Nat) : (l2Drop s k).scrubbed = s.scrubbed := rfl
@[simp] theorem l2Drop_stage (s : State) (k : Nat) : (l2Drop s k).stage = s.stage := rfl
@[simp] theorem l2Drop_reason (s : State) (k : Nat) : (l2Drop s k).reason = s.reason := rfl
@[simp] theorem l2Drop_fails (s : State) (k : Nat) : (l2Drop s k).fails = s.fails := rfl
@[simp] theorem l2Drop_life (s : State) (k : Nat) : (l2Drop s k).life = s.life := rfl
@[simp] theorem l2Drop_testDie (s : State) (k : Nat) : (l2Drop s k).testDie = s.testDie := rfl
@[simp] theorem l2Drop_keysGone (s : State) (k : Nat) : (l2Drop s k).keysGone = s.keysGone := rfl
@[simp] theorem l2Drop_fw (s : State) (k : Nat) : (l2Drop s k).fw = s.fw := rfl
@[simp] theorem l2Drop_fwState (s : State) (k : Nat) : (l2Drop s k).fwState = s.fwState := rfl
@[simp] theorem l2Drop_fwReason (s : State) (k : Nat) : (l2Drop s k).fwReason = s.fwReason := rfl
@[simp] theorem l2Drop_fwBlock (s : State) (k : Nat) : (l2Drop s k).fwBlock = s.fwBlock := rfl
@[simp] theorem l2Drop_fwPa (s : State) (k : Nat) : (l2Drop s k).fwPa = s.fwPa := rfl
@[simp] theorem l2Drop_fwNew (s : State) (k : Nat) : (l2Drop s k).fwNew = s.fwNew := rfl
@[simp] theorem l2Drop_heldIn (s : State) (k : Nat) : (l2Drop s k).heldIn = s.heldIn := rfl
@[simp] theorem l2Drop_coreClk (s : State) (k : Nat) : (l2Drop s k).coreClk = s.coreClk := rfl
@[simp] theorem l2Drop_power (s : State) (k : Nat) : (l2Drop s k).power = s.power := rfl
@[simp] theorem l2Drop_coolMs (s : State) (k : Nat) : (l2Drop s k).coolMs = s.coolMs := rfl
@[simp] theorem l1Put_ctr (s : State) (c k : Nat) (x : Sector) : (l1Put s c k x).ctr = s.ctr := rfl
@[simp] theorem l1Put_turn (s : State) (c k : Nat) (x : Sector) : (l1Put s c k x).turn = s.turn := rfl
@[simp] theorem l1Put_cur (s : State) (c k : Nat) (x : Sector) : (l1Put s c k x).cur = s.cur := rfl
@[simp] theorem l1Put_agenda (s : State) (c k : Nat) (x : Sector) : (l1Put s c k x).agenda = s.agenda := rfl
@[simp] theorem l1Put_lastRead (s : State) (c k : Nat) (x : Sector) : (l1Put s c k x).lastRead = s.lastRead := rfl
@[simp] theorem l1Put_clock (s : State) (c k : Nat) (x : Sector) : (l1Put s c k x).clock = s.clock := rfl
@[simp] theorem l1Put_time (s : State) (c k : Nat) (x : Sector) : (l1Put s c k x).time = s.time := rfl
@[simp] theorem l1Put_servo (s : State) (c k : Nat) (x : Sector) : (l1Put s c k x).servo = s.servo := rfl
@[simp] theorem l1Put_ptp (s : State) (c k : Nat) (x : Sector) : (l1Put s c k x).ptp = s.ptp := rfl
@[simp] theorem l1Put_bar (s : State) (c k : Nat) (x : Sector) : (l1Put s c k x).bar = s.bar := rfl
@[simp] theorem l1Put_warps (s : State) (c k : Nat) (x : Sector) : (l1Put s c k x).warps = s.warps := rfl
@[simp] theorem l1Put_groups (s : State) (c k : Nat) (x : Sector) : (l1Put s c k x).groups = s.groups := rfl
@[simp] theorem l1Put_gangs (s : State) (c k : Nat) (x : Sector) : (l1Put s c k x).gangs = s.gangs := rfl
@[simp] theorem l1Put_launches (s : State) (c k : Nat) (x : Sector) : (l1Put s c k x).launches = s.launches := rfl
@[simp] theorem l1Put_qpos (s : State) (c k : Nat) (x : Sector) : (l1Put s c k x).qpos = s.qpos := rfl
@[simp] theorem l1Put_cancel (s : State) (c k : Nat) (x : Sector) : (l1Put s c k x).cancel = s.cancel := rfl
@[simp] theorem l1Put_canStat (s : State) (c k : Nat) (x : Sector) : (l1Put s c k x).canStat = s.canStat := rfl
@[simp] theorem l1Put_xcmd (s : State) (c k : Nat) (x : Sector) : (l1Put s c k x).xcmd = s.xcmd := rfl
@[simp] theorem l1Put_xcmdNoSlot (s : State) (c k : Nat) (x : Sector) : (l1Put s c k x).xcmdNoSlot = s.xcmdNoSlot := rfl
@[simp] theorem l1Put_xcmdCount (s : State) (c k : Nat) (x : Sector) : (l1Put s c k x).xcmdCount = s.xcmdCount := rfl
@[simp] theorem l1Put_xheld (s : State) (c k : Nat) (x : Sector) : (l1Put s c k x).xheld = s.xheld := rfl
@[simp] theorem l1Put_frees (s : State) (c k : Nat) (x : Sector) : (l1Put s c k x).frees = s.frees := rfl
@[simp] theorem l1Put_swap (s : State) (c k : Nat) (x : Sector) : (l1Put s c k x).swap = s.swap := rfl
@[simp] theorem l1Put_swapBad (s : State) (c k : Nat) (x : Sector) : (l1Put s c k x).swapBad = s.swapBad := rfl
@[simp] theorem l1Put_swapCount (s : State) (c k : Nat) (x : Sector) : (l1Put s c k x).swapCount = s.swapCount := rfl
@[simp] theorem l1Put_splits (s : State) (c k : Nat) (x : Sector) : (l1Put s c k x).splits = s.splits := rfl
@[simp] theorem l1Put_recq (s : State) (c k : Nat) (x : Sector) : (l1Put s c k x).recq = s.recq := rfl
@[simp] theorem l1Put_mem (s : State) (c k : Nat) (x : Sector) : (l1Put s c k x).mem = s.mem := rfl
@[simp] theorem l1Put_l2 (s : State) (c k : Nat) (x : Sector) : (l1Put s c k x).l2 = s.l2 := rfl
@[simp] theorem l1Put_l1By (s : State) (c k : Nat) (x : Sector) : (l1Put s c k x).l1By = s.l1By := rfl
@[simp] theorem l1Put_poison (s : State) (c k : Nat) (x : Sector) : (l1Put s c k x).poison = s.poison := rfl
@[simp] theorem l1Put_cured (s : State) (c k : Nat) (x : Sector) : (l1Put s c k x).cured = s.cured := rfl
@[simp] theorem l1Put_upsets (s : State) (c k : Nat) (x : Sector) : (l1Put s c k x).upsets = s.upsets := rfl
@[simp] theorem l1Put_dramq (s : State) (c k : Nat) (x : Sector) : (l1Put s c k x).dramq = s.dramq := rfl
@[simp] theorem l1Put_tlb (s : State) (c k : Nat) (x : Sector) : (l1Put s c k x).tlb = s.tlb := rfl
@[simp] theorem l1Put_xrecs (s : State) (c k : Nat) (x : Sector) : (l1Put s c k x).xrecs = s.xrecs := rfl
@[simp] theorem l1Put_lverdicts (s : State) (c k : Nat) (x : Sector) : (l1Put s c k x).lverdicts = s.lverdicts := rfl
@[simp] theorem l1Put_xtag (s : State) (c k : Nat) (x : Sector) : (l1Put s c k x).xtag = s.xtag := rfl
@[simp] theorem l1Put_cows (s : State) (c k : Nat) (x : Sector) : (l1Put s c k x).cows = s.cows := rfl
@[simp] theorem l1Put_shoot (s : State) (c k : Nat) (x : Sector) : (l1Put s c k x).shoot = s.shoot := rfl
@[simp] theorem l1Put_cmds (s : State) (c k : Nat) (x : Sector) : (l1Put s c k x).cmds = s.cmds := rfl
@[simp] theorem l1Put_nextCmd (s : State) (c k : Nat) (x : Sector) : (l1Put s c k x).nextCmd = s.nextCmd := rfl
@[simp] theorem l1Put_bindings (s : State) (c k : Nat) (x : Sector) : (l1Put s c k x).bindings = s.bindings := rfl
@[simp] theorem l1Put_vats (s : State) (c k : Nat) (x : Sector) : (l1Put s c k x).vats = s.vats := rfl
@[simp] theorem l1Put_vatWait (s : State) (c k : Nat) (x : Sector) : (l1Put s c k x).vatWait = s.vatWait := rfl
@[simp] theorem l1Put_posts (s : State) (c k : Nat) (x : Sector) : (l1Put s c k x).posts = s.posts := rfl
@[simp] theorem l1Put_nextPost (s : State) (c k : Nat) (x : Sector) : (l1Put s c k x).nextPost = s.nextPost := rfl
@[simp] theorem l1Put_unitLogs (s : State) (c k : Nat) (x : Sector) : (l1Put s c k x).unitLogs = s.unitLogs := rfl
@[simp] theorem l1Put_moulds (s : State) (c k : Nat) (x : Sector) : (l1Put s c k x).moulds = s.moulds := rfl
@[simp] theorem l1Put_channels (s : State) (c k : Nat) (x : Sector) : (l1Put s c k x).channels = s.channels := rfl
@[simp] theorem l1Put_grids (s : State) (c k : Nat) (x : Sector) : (l1Put s c k x).grids = s.grids := rfl
@[simp] theorem l1Put_tileNo (s : State) (c k : Nat) (x : Sector) : (l1Put s c k x).tileNo = s.tileNo := rfl
@[simp] theorem l1Put_ports (s : State) (c k : Nat) (x : Sector) : (l1Put s c k x).ports = s.ports := rfl
@[simp] theorem l1Put_peerTx (s : State) (c k : Nat) (x : Sector) : (l1Put s c k x).peerTx = s.peerTx := rfl
@[simp] theorem l1Put_peerRx (s : State) (c k : Nat) (x : Sector) : (l1Put s c k x).peerRx = s.peerRx := rfl
@[simp] theorem l1Put_putGroups (s : State) (c k : Nat) (x : Sector) : (l1Put s c k x).putGroups = s.putGroups := rfl
@[simp] theorem l1Put_openGroups (s : State) (c k : Nat) (x : Sector) : (l1Put s c k x).openGroups = s.openGroups := rfl
@[simp] theorem l1Put_aborts (s : State) (c k : Nat) (x : Sector) : (l1Put s c k x).aborts = s.aborts := rfl
@[simp] theorem l1Put_farReads (s : State) (c k : Nat) (x : Sector) : (l1Put s c k x).farReads = s.farReads := rfl
@[simp] theorem l1Put_relays (s : State) (c k : Nat) (x : Sector) : (l1Put s c k x).relays = s.relays := rfl
@[simp] theorem l1Put_parked (s : State) (c k : Nat) (x : Sector) : (l1Put s c k x).parked = s.parked := rfl
@[simp] theorem l1Put_nextPark (s : State) (c k : Nat) (x : Sector) : (l1Put s c k x).nextPark = s.nextPark := rfl
@[simp] theorem l1Put_ovHead (s : State) (c k : Nat) (x : Sector) : (l1Put s c k x).ovHead = s.ovHead := rfl
@[simp] theorem l1Put_ovTail (s : State) (c k : Nat) (x : Sector) : (l1Put s c k x).ovTail = s.ovTail := rfl
@[simp] theorem l1Put_outbox (s : State) (c k : Nat) (x : Sector) : (l1Put s c k x).outbox = s.outbox := rfl
@[simp] theorem l1Put_flits (s : State) (c k : Nat) (x : Sector) : (l1Put s c k x).flits = s.flits := rfl
@[simp] theorem l1Put_ctlFlits (s : State) (c k : Nat) (x : Sector) : (l1Put s c k x).ctlFlits = s.ctlFlits := rfl
@[simp] theorem l1Put_ckSends (s : State) (c k : Nat) (x : Sector) : (l1Put s c k x).ckSends = s.ckSends := rfl
@[simp] theorem l1Put_frames (s : State) (c k : Nat) (x : Sector) : (l1Put s c k x).frames = s.frames := rfl
@[simp] theorem l1Put_datagrams (s : State) (c k : Nat) (x : Sector) : (l1Put s c k x).datagrams = s.datagrams := rfl
@[simp] theorem l1Put_msix (s : State) (c k : Nat) (x : Sector) : (l1Put s c k x).msix = s.msix := rfl
@[simp] theorem l1Put_hostLines (s : State) (c k : Nat) (x : Sector) : (l1Put s c k x).hostLines = s.hostLines := rfl
@[simp] theorem l1Put_backInv (s : State) (c k : Nat) (x : Sector) : (l1Put s c k x).backInv = s.backInv := rfl
@[simp] theorem l1Put_errq (s : State) (c k : Nat) (x : Sector) : (l1Put s c k x).errq = s.errq := rfl
@[simp] theorem l1Put_hostBad (s : State) (c k : Nat) (x : Sector) : (l1Put s c k x).hostBad = s.hostBad := rfl
@[simp] theorem l1Put_admitted (s : State) (c k : Nat) (x : Sector) : (l1Put s c k x).admitted = s.admitted := rfl
@[simp] theorem l1Put_readmit (s : State) (c k : Nat) (x : Sector) : (l1Put s c k x).readmit = s.readmit := rfl
@[simp] theorem l1Put_readmitDie (s : State) (c k : Nat) (x : Sector) : (l1Put s c k x).readmitDie = s.readmitDie := rfl
@[simp] theorem l1Put_readmitRes (s : State) (c k : Nat) (x : Sector) : (l1Put s c k x).readmitRes = s.readmitRes := rfl
@[simp] theorem l1Put_scrubbed (s : State) (c k : Nat) (x : Sector) : (l1Put s c k x).scrubbed = s.scrubbed := rfl
@[simp] theorem l1Put_stage (s : State) (c k : Nat) (x : Sector) : (l1Put s c k x).stage = s.stage := rfl
@[simp] theorem l1Put_reason (s : State) (c k : Nat) (x : Sector) : (l1Put s c k x).reason = s.reason := rfl
@[simp] theorem l1Put_fails (s : State) (c k : Nat) (x : Sector) : (l1Put s c k x).fails = s.fails := rfl
@[simp] theorem l1Put_life (s : State) (c k : Nat) (x : Sector) : (l1Put s c k x).life = s.life := rfl
@[simp] theorem l1Put_testDie (s : State) (c k : Nat) (x : Sector) : (l1Put s c k x).testDie = s.testDie := rfl
@[simp] theorem l1Put_keysGone (s : State) (c k : Nat) (x : Sector) : (l1Put s c k x).keysGone = s.keysGone := rfl
@[simp] theorem l1Put_fw (s : State) (c k : Nat) (x : Sector) : (l1Put s c k x).fw = s.fw := rfl
@[simp] theorem l1Put_fwState (s : State) (c k : Nat) (x : Sector) : (l1Put s c k x).fwState = s.fwState := rfl
@[simp] theorem l1Put_fwReason (s : State) (c k : Nat) (x : Sector) : (l1Put s c k x).fwReason = s.fwReason := rfl
@[simp] theorem l1Put_fwBlock (s : State) (c k : Nat) (x : Sector) : (l1Put s c k x).fwBlock = s.fwBlock := rfl
@[simp] theorem l1Put_fwPa (s : State) (c k : Nat) (x : Sector) : (l1Put s c k x).fwPa = s.fwPa := rfl
@[simp] theorem l1Put_fwNew (s : State) (c k : Nat) (x : Sector) : (l1Put s c k x).fwNew = s.fwNew := rfl
@[simp] theorem l1Put_heldIn (s : State) (c k : Nat) (x : Sector) : (l1Put s c k x).heldIn = s.heldIn := rfl
@[simp] theorem l1Put_coreClk (s : State) (c k : Nat) (x : Sector) : (l1Put s c k x).coreClk = s.coreClk := rfl
@[simp] theorem l1Put_power (s : State) (c k : Nat) (x : Sector) : (l1Put s c k x).power = s.power := rfl
@[simp] theorem l1Put_coolMs (s : State) (c k : Nat) (x : Sector) : (l1Put s c k x).coolMs = s.coolMs := rfl

/-! Warps -/

/-- Replacing a warp is an update of it. -/
theorem setW_eq (s : State) (w : Nat) (x : Warp) : setW s w x = updW s w fun _ => x := rfl
@[simp] theorem updW_length (s : State) (w : Nat) (f : Warp → Warp) : (updW s w f).warps.length = s.warps.length :=
  length_updAt _ _ _
@[simp] theorem setW_length (s : State) (w : Nat) (x : Warp) : (setW s w x).warps.length = s.warps.length :=
  length_updAt _ _ _
theorem getW_updW (s : State) (w v : Nat) (f : Warp → Warp) :
    getW (updW s w f) v = if v = w ∧ w < s.warps.length then f (getW s w) else getW s v :=
  getD_updAt _ _ _ _ _
theorem getW_updW_same {s : State} {w : Nat} (h : w < s.warps.length) (f : Warp → Warp) :
    getW (updW s w f) w = f (getW s w) := by simp [getW_updW, h]
theorem getW_updW_ne (s : State) {w v : Nat} (h : v ≠ w) (f : Warp → Warp) : getW (updW s w f) v = getW s v := by
  simp [getW_updW, h]
theorem getW_setW_same {s : State} {w : Nat} (h : w < s.warps.length) (x : Warp) : getW (setW s w x) w = x :=
  getW_updW_same h _
theorem getW_setW_ne (s : State) {w v : Nat} (h : v ≠ w) (x : Warp) : getW (setW s w x) v = getW s v :=
  getW_updW_ne s h _
/-- Two updates of a warp are one. -/
theorem updW_updW (s : State) (w : Nat) (f g : Warp → Warp) :
    updW (updW s w f) w g = updW s w fun x => g (f x) := by
  unfold updW; simp [updAt_updAt]
/-- Writing back what a warp holds changes nothing. -/
@[simp] theorem setW_getW (s : State) (w : Nat) : setW s w (getW s w) = s := by
  unfold setW updW getW; rw [updAt_self]
/-- An update is the replacement by its value. -/
theorem updW_eq_setW (s : State) (w : Nat) (f : Warp → Warp) : updW s w f = setW s w (f (getW s w)) := by
  unfold setW updW getW; rw [updAt_congr]
theorem setW_setW (s : State) (w : Nat) (x y : Warp) : setW (setW s w x) w y = setW s w y := updW_updW s w _ _

/-! Updates of a warp, field by field -/

@[simp] theorem vSet_launch (W : Warp) (r l : Nat) (x : W32) : (vSet W r l x).launch = W.launch := rfl
@[simp] theorem vSet_gang (W : Warp) (r l : Nat) (x : W32) : (vSet W r l x).gang = W.gang := rfl
@[simp] theorem vSet_group (W : Warp) (r l : Nat) (x : W32) : (vSet W r l x).group = W.group := rfl
@[simp] theorem vSet_wid (W : Warp) (r l : Nat) (x : W32) : (vSet W r l x).wid = W.wid := rfl
@[simp] theorem vSet_core (W : Warp) (r l : Nat) (x : W32) : (vSet W r l x).core = W.core := rfl
@[simp] theorem vSet_slot (W : Warp) (r l : Nat) (x : W32) : (vSet W r l x).slot = W.slot := rfl
@[simp] theorem vSet_shadowSlot (W : Warp) (r l : Nat) (x : W32) : (vSet W r l x).shadowSlot = W.shadowSlot := rfl
@[simp] theorem vSet_gangId (W : Warp) (r l : Nat) (x : W32) : (vSet W r l x).gangId = W.gangId := rfl
@[simp] theorem vSet_groupId (W : Warp) (r l : Nat) (x : W32) : (vSet W r l x).groupId = W.groupId := rfl
@[simp] theorem vSet_warpId (W : Warp) (r l : Nat) (x : W32) : (vSet W r l x).warpId = W.warpId := rfl
@[simp] theorem vSet_nv (W : Warp) (r l : Nat) (x : W32) : (vSet W r l x).nv = W.nv := rfl
@[simp] theorem vSet_ns (W : Warp) (r l : Nat) (x : W32) : (vSet W r l x).ns = W.ns := rfl
@[simp] theorem vSet_stat (W : Warp) (r l : Nat) (x : W32) : (vSet W r l x).stat = W.stat := rfl
@[simp] theorem vSet_level (W : Warp) (r l : Nat) (x : W32) : (vSet W r l x).level = W.level := rfl
@[simp] theorem vSet_pc (W : Warp) (r l : Nat) (x : W32) : (vSet W r l x).pc = W.pc := rfl
@[simp] theorem vSet_started (W : Warp) (r l : Nat) (x : W32) : (vSet W r l x).started = W.started := rfl
@[simp] theorem vSet_word (W : Warp) (r l : Nat) (x : W32) : (vSet W r l x).word = W.word := rfl
@[simp] theorem vSet_n (W : Warp) (r l : Nat) (x : W32) : (vSet W r l x).n = W.n := rfl
@[simp] theorem vSet_code (W : Warp) (r l : Nat) (x : W32) : (vSet W r l x).code = W.code := rfl
@[simp] theorem vSet_codeAt (W : Warp) (r l : Nat) (x : W32) : (vSet W r l x).codeAt = W.codeAt := rfl
@[simp] theorem vSet_ports (W : Warp) (r l : Nat) (x : W32) : (vSet W r l x).ports = W.ports := rfl
@[simp] theorem vSet_flow (W : Warp) (r l : Nat) (x : W32) : (vSet W r l x).flow = W.flow := rfl
@[simp] theorem vSet_ridx (W : Warp) (r l : Nat) (x : W32) : (vSet W r l x).ridx = W.ridx := rfl
@[simp] theorem vSet_barH (W : Warp) (r l : Nat) (x : W32) : (vSet W r l x).barH = W.barH := rfl
@[simp] theorem vSet_barJ (W : Warp) (r l : Nat) (x : W32) : (vSet W r l x).barJ = W.barJ := rfl
@[simp] theorem vSet_entry (W : Warp) (r l : Nat) (x : W32) : (vSet W r l x).entry = W.entry := rfl
@[simp] theorem vSet_exm (W : Warp) (r l : Nat) (x : W32) : (vSet W r l x).exm = W.exm := rfl
@[simp] theorem vSet_fltm (W : Warp) (r l : Nat) (x : W32) : (vSet W r l x).fltm = W.fltm := rfl
@[simp] theorem vSet_demm (W : Warp) (r l : Nat) (x : W32) : (vSet W r l x).demm = W.demm := rfl
@[simp] theorem vSet_deadm (W : Warp) (r l : Nat) (x : W32) : (vSet W r l x).deadm = W.deadm := rfl
@[simp] theorem vSet_deck (W : Warp) (r l : Nat) (x : W32) : (vSet W r l x).deck = W.deck := rfl
@[simp] theorem vSet_fpst (W : Warp) (r l : Nat) (x : W32) : (vSet W r l x).fpst = W.fpst := rfl
@[simp] theorem vSet_mode (W : Warp) (r l : Nat) (x : W32) : (vSet W r l x).mode = W.mode := rfl
@[simp] theorem vSet_mclaim (W : Warp) (r l : Nat) (x : W32) : (vSet W r l x).mclaim = W.mclaim := rfl
@[simp] theorem vSet_mrowm (W : Warp) (r l : Nat) (x : W32) : (vSet W r l x).mrowm = W.mrowm := rfl
@[simp] theorem vSet_mcolm (W : Warp) (r l : Nat) (x : W32) : (vSet W r l x).mcolm = W.mcolm := rfl
@[simp] theorem vSet_ev (W : Warp) (r l : Nat) (x : W32) : (vSet W r l x).ev = W.ev := rfl
@[simp] theorem vSet_evSys (W : Warp) (r l : Nat) (x : W32) : (vSet W r l x).evSys = W.evSys := rfl
@[simp] theorem vSet_lc (W : Warp) (r l : Nat) (x : W32) : (vSet W r l x).lc = W.lc := rfl
@[simp] theorem vSet_loops (W : Warp) (r l : Nat) (x : W32) : (vSet W r l x).loops = W.loops := rfl
@[simp] theorem vSet_calls (W : Warp) (r l : Nat) (x : W32) : (vSet W r l x).calls = W.calls := rfl
@[simp] theorem vSet_reel (W : Warp) (r l : Nat) (x : W32) : (vSet W r l x).reel = W.reel := rfl
@[simp] theorem vSet_s (W : Warp) (r l : Nat) (x : W32) : (vSet W r l x).s = W.s := rfl
@[simp] theorem vSet_p (W : Warp) (r l : Nat) (x : W32) : (vSet W r l x).p = W.p := rfl
@[simp] theorem vSet_m (W : Warp) (r l : Nat) (x : W32) : (vSet W r l x).m = W.m := rfl
@[simp] theorem vSet_w (W : Warp) (r l : Nat) (x : W32) : (vSet W r l x).w = W.w := rfl
@[simp] theorem vSet_cells (W : Warp) (r l : Nat) (x : W32) : (vSet W r l x).cells = W.cells := rfl
@[simp] theorem vSet_h (W : Warp) (r l : Nat) (x : W32) : (vSet W r l x).h = W.h := rfl
@[simp] theorem vSet_k (W : Warp) (r l : Nat) (x : W32) : (vSet W r l x).k = W.k := rfl
@[simp] theorem vSet_kuser (W : Warp) (r l : Nat) (x : W32) : (vSet W r l x).kuser = W.kuser := rfl
@[simp] theorem vSet_tile (W : Warp) (r l : Nat) (x : W32) : (vSet W r l x).tile = W.tile := rfl
@[simp] theorem vSet_pend (W : Warp) (r l : Nat) (x : W32) : (vSet W r l x).pend = W.pend := rfl
@[simp] theorem vSet_fence (W : Warp) (r l : Nat) (x : W32) : (vSet W r l x).fence = W.fence := rfl
@[simp] theorem vSet_closed (W : Warp) (r l : Nat) (x : W32) : (vSet W r l x).closed = W.closed := rfl
@[simp] theorem vSet_openId (W : Warp) (r l : Nat) (x : W32) : (vSet W r l x).openId = W.openId := rfl
@[simp] theorem vSet_openN (W : Warp) (r l : Nat) (x : W32) : (vSet W r l x).openN = W.openN := rfl
@[simp] theorem vSet_openUsed (W : Warp) (r l : Nat) (x : W32) : (vSet W r l x).openUsed = W.openUsed := rfl
@[simp] theorem vSet_verdicts (W : Warp) (r l : Nat) (x : W32) : (vSet W r l x).verdicts = W.verdicts := rfl
@[simp] theorem vSet_waits (W : Warp) (r l : Nat) (x : W32) : (vSet W r l x).waits = W.waits := rfl
@[simp] theorem vSet_lag (W : Warp) (r l : Nat) (x : W32) : (vSet W r l x).lag = W.lag := rfl
@[simp] theorem pSet_launch (W : Warp) (r : Nat) (x : W32) : (pSet W r x).launch = W.launch := rfl
@[simp] theorem pSet_gang (W : Warp) (r : Nat) (x : W32) : (pSet W r x).gang = W.gang := rfl
@[simp] theorem pSet_group (W : Warp) (r : Nat) (x : W32) : (pSet W r x).group = W.group := rfl
@[simp] theorem pSet_wid (W : Warp) (r : Nat) (x : W32) : (pSet W r x).wid = W.wid := rfl
@[simp] theorem pSet_core (W : Warp) (r : Nat) (x : W32) : (pSet W r x).core = W.core := rfl
@[simp] theorem pSet_slot (W : Warp) (r : Nat) (x : W32) : (pSet W r x).slot = W.slot := rfl
@[simp] theorem pSet_shadowSlot (W : Warp) (r : Nat) (x : W32) : (pSet W r x).shadowSlot = W.shadowSlot := rfl
@[simp] theorem pSet_gangId (W : Warp) (r : Nat) (x : W32) : (pSet W r x).gangId = W.gangId := rfl
@[simp] theorem pSet_groupId (W : Warp) (r : Nat) (x : W32) : (pSet W r x).groupId = W.groupId := rfl
@[simp] theorem pSet_warpId (W : Warp) (r : Nat) (x : W32) : (pSet W r x).warpId = W.warpId := rfl
@[simp] theorem pSet_nv (W : Warp) (r : Nat) (x : W32) : (pSet W r x).nv = W.nv := rfl
@[simp] theorem pSet_ns (W : Warp) (r : Nat) (x : W32) : (pSet W r x).ns = W.ns := rfl
@[simp] theorem pSet_stat (W : Warp) (r : Nat) (x : W32) : (pSet W r x).stat = W.stat := rfl
@[simp] theorem pSet_level (W : Warp) (r : Nat) (x : W32) : (pSet W r x).level = W.level := rfl
@[simp] theorem pSet_pc (W : Warp) (r : Nat) (x : W32) : (pSet W r x).pc = W.pc := rfl
@[simp] theorem pSet_started (W : Warp) (r : Nat) (x : W32) : (pSet W r x).started = W.started := rfl
@[simp] theorem pSet_word (W : Warp) (r : Nat) (x : W32) : (pSet W r x).word = W.word := rfl
@[simp] theorem pSet_n (W : Warp) (r : Nat) (x : W32) : (pSet W r x).n = W.n := rfl
@[simp] theorem pSet_code (W : Warp) (r : Nat) (x : W32) : (pSet W r x).code = W.code := rfl
@[simp] theorem pSet_codeAt (W : Warp) (r : Nat) (x : W32) : (pSet W r x).codeAt = W.codeAt := rfl
@[simp] theorem pSet_ports (W : Warp) (r : Nat) (x : W32) : (pSet W r x).ports = W.ports := rfl
@[simp] theorem pSet_flow (W : Warp) (r : Nat) (x : W32) : (pSet W r x).flow = W.flow := rfl
@[simp] theorem pSet_ridx (W : Warp) (r : Nat) (x : W32) : (pSet W r x).ridx = W.ridx := rfl
@[simp] theorem pSet_barH (W : Warp) (r : Nat) (x : W32) : (pSet W r x).barH = W.barH := rfl
@[simp] theorem pSet_barJ (W : Warp) (r : Nat) (x : W32) : (pSet W r x).barJ = W.barJ := rfl
@[simp] theorem pSet_entry (W : Warp) (r : Nat) (x : W32) : (pSet W r x).entry = W.entry := rfl
@[simp] theorem pSet_exm (W : Warp) (r : Nat) (x : W32) : (pSet W r x).exm = W.exm := rfl
@[simp] theorem pSet_fltm (W : Warp) (r : Nat) (x : W32) : (pSet W r x).fltm = W.fltm := rfl
@[simp] theorem pSet_demm (W : Warp) (r : Nat) (x : W32) : (pSet W r x).demm = W.demm := rfl
@[simp] theorem pSet_deadm (W : Warp) (r : Nat) (x : W32) : (pSet W r x).deadm = W.deadm := rfl
@[simp] theorem pSet_deck (W : Warp) (r : Nat) (x : W32) : (pSet W r x).deck = W.deck := rfl
@[simp] theorem pSet_fpst (W : Warp) (r : Nat) (x : W32) : (pSet W r x).fpst = W.fpst := rfl
@[simp] theorem pSet_mode (W : Warp) (r : Nat) (x : W32) : (pSet W r x).mode = W.mode := rfl
@[simp] theorem pSet_mclaim (W : Warp) (r : Nat) (x : W32) : (pSet W r x).mclaim = W.mclaim := rfl
@[simp] theorem pSet_mrowm (W : Warp) (r : Nat) (x : W32) : (pSet W r x).mrowm = W.mrowm := rfl
@[simp] theorem pSet_mcolm (W : Warp) (r : Nat) (x : W32) : (pSet W r x).mcolm = W.mcolm := rfl
@[simp] theorem pSet_ev (W : Warp) (r : Nat) (x : W32) : (pSet W r x).ev = W.ev := rfl
@[simp] theorem pSet_evSys (W : Warp) (r : Nat) (x : W32) : (pSet W r x).evSys = W.evSys := rfl
@[simp] theorem pSet_lc (W : Warp) (r : Nat) (x : W32) : (pSet W r x).lc = W.lc := rfl
@[simp] theorem pSet_loops (W : Warp) (r : Nat) (x : W32) : (pSet W r x).loops = W.loops := rfl
@[simp] theorem pSet_calls (W : Warp) (r : Nat) (x : W32) : (pSet W r x).calls = W.calls := rfl
@[simp] theorem pSet_reel (W : Warp) (r : Nat) (x : W32) : (pSet W r x).reel = W.reel := rfl
@[simp] theorem pSet_v (W : Warp) (r : Nat) (x : W32) : (pSet W r x).v = W.v := rfl
@[simp] theorem pSet_s (W : Warp) (r : Nat) (x : W32) : (pSet W r x).s = W.s := rfl
@[simp] theorem pSet_m (W : Warp) (r : Nat) (x : W32) : (pSet W r x).m = W.m := rfl
@[simp] theorem pSet_w (W : Warp) (r : Nat) (x : W32) : (pSet W r x).w = W.w := rfl
@[simp] theorem pSet_cells (W : Warp) (r : Nat) (x : W32) : (pSet W r x).cells = W.cells := rfl
@[simp] theorem pSet_h (W : Warp) (r : Nat) (x : W32) : (pSet W r x).h = W.h := rfl
@[simp] theorem pSet_k (W : Warp) (r : Nat) (x : W32) : (pSet W r x).k = W.k := rfl
@[simp] theorem pSet_kuser (W : Warp) (r : Nat) (x : W32) : (pSet W r x).kuser = W.kuser := rfl
@[simp] theorem pSet_tile (W : Warp) (r : Nat) (x : W32) : (pSet W r x).tile = W.tile := rfl
@[simp] theorem pSet_pend (W : Warp) (r : Nat) (x : W32) : (pSet W r x).pend = W.pend := rfl
@[simp] theorem pSet_fence (W : Warp) (r : Nat) (x : W32) : (pSet W r x).fence = W.fence := rfl
@[simp] theorem pSet_closed (W : Warp) (r : Nat) (x : W32) : (pSet W r x).closed = W.closed := rfl
@[simp] theorem pSet_openId (W : Warp) (r : Nat) (x : W32) : (pSet W r x).openId = W.openId := rfl
@[simp] theorem pSet_openN (W : Warp) (r : Nat) (x : W32) : (pSet W r x).openN = W.openN := rfl
@[simp] theorem pSet_openUsed (W : Warp) (r : Nat) (x : W32) : (pSet W r x).openUsed = W.openUsed := rfl
@[simp] theorem pSet_verdicts (W : Warp) (r : Nat) (x : W32) : (pSet W r x).verdicts = W.verdicts := rfl
@[simp] theorem pSet_waits (W : Warp) (r : Nat) (x : W32) : (pSet W r x).waits = W.waits := rfl
@[simp] theorem pSet_lag (W : Warp) (r : Nat) (x : W32) : (pSet W r x).lag = W.lag := rfl
@[simp] theorem mSet_launch (W : Warp) (r : Nat) (x : BitVec 256) : (mSet W r x).launch = W.launch := rfl
@[simp] theorem mSet_gang (W : Warp) (r : Nat) (x : BitVec 256) : (mSet W r x).gang = W.gang := rfl
@[simp] theorem mSet_group (W : Warp) (r : Nat) (x : BitVec 256) : (mSet W r x).group = W.group := rfl
@[simp] theorem mSet_wid (W : Warp) (r : Nat) (x : BitVec 256) : (mSet W r x).wid = W.wid := rfl
@[simp] theorem mSet_core (W : Warp) (r : Nat) (x : BitVec 256) : (mSet W r x).core = W.core := rfl
@[simp] theorem mSet_slot (W : Warp) (r : Nat) (x : BitVec 256) : (mSet W r x).slot = W.slot := rfl
@[simp] theorem mSet_shadowSlot (W : Warp) (r : Nat) (x : BitVec 256) : (mSet W r x).shadowSlot = W.shadowSlot := rfl
@[simp] theorem mSet_gangId (W : Warp) (r : Nat) (x : BitVec 256) : (mSet W r x).gangId = W.gangId := rfl
@[simp] theorem mSet_groupId (W : Warp) (r : Nat) (x : BitVec 256) : (mSet W r x).groupId = W.groupId := rfl
@[simp] theorem mSet_warpId (W : Warp) (r : Nat) (x : BitVec 256) : (mSet W r x).warpId = W.warpId := rfl
@[simp] theorem mSet_nv (W : Warp) (r : Nat) (x : BitVec 256) : (mSet W r x).nv = W.nv := rfl
@[simp] theorem mSet_ns (W : Warp) (r : Nat) (x : BitVec 256) : (mSet W r x).ns = W.ns := rfl
@[simp] theorem mSet_stat (W : Warp) (r : Nat) (x : BitVec 256) : (mSet W r x).stat = W.stat := rfl
@[simp] theorem mSet_level (W : Warp) (r : Nat) (x : BitVec 256) : (mSet W r x).level = W.level := rfl
@[simp] theorem mSet_pc (W : Warp) (r : Nat) (x : BitVec 256) : (mSet W r x).pc = W.pc := rfl
@[simp] theorem mSet_started (W : Warp) (r : Nat) (x : BitVec 256) : (mSet W r x).started = W.started := rfl
@[simp] theorem mSet_word (W : Warp) (r : Nat) (x : BitVec 256) : (mSet W r x).word = W.word := rfl
@[simp] theorem mSet_n (W : Warp) (r : Nat) (x : BitVec 256) : (mSet W r x).n = W.n := rfl
@[simp] theorem mSet_code (W : Warp) (r : Nat) (x : BitVec 256) : (mSet W r x).code = W.code := rfl
@[simp] theorem mSet_codeAt (W : Warp) (r : Nat) (x : BitVec 256) : (mSet W r x).codeAt = W.codeAt := rfl
@[simp] theorem mSet_ports (W : Warp) (r : Nat) (x : BitVec 256) : (mSet W r x).ports = W.ports := rfl
@[simp] theorem mSet_flow (W : Warp) (r : Nat) (x : BitVec 256) : (mSet W r x).flow = W.flow := rfl
@[simp] theorem mSet_ridx (W : Warp) (r : Nat) (x : BitVec 256) : (mSet W r x).ridx = W.ridx := rfl
@[simp] theorem mSet_barH (W : Warp) (r : Nat) (x : BitVec 256) : (mSet W r x).barH = W.barH := rfl
@[simp] theorem mSet_barJ (W : Warp) (r : Nat) (x : BitVec 256) : (mSet W r x).barJ = W.barJ := rfl
@[simp] theorem mSet_entry (W : Warp) (r : Nat) (x : BitVec 256) : (mSet W r x).entry = W.entry := rfl
@[simp] theorem mSet_exm (W : Warp) (r : Nat) (x : BitVec 256) : (mSet W r x).exm = W.exm := rfl
@[simp] theorem mSet_fltm (W : Warp) (r : Nat) (x : BitVec 256) : (mSet W r x).fltm = W.fltm := rfl
@[simp] theorem mSet_demm (W : Warp) (r : Nat) (x : BitVec 256) : (mSet W r x).demm = W.demm := rfl
@[simp] theorem mSet_deadm (W : Warp) (r : Nat) (x : BitVec 256) : (mSet W r x).deadm = W.deadm := rfl
@[simp] theorem mSet_deck (W : Warp) (r : Nat) (x : BitVec 256) : (mSet W r x).deck = W.deck := rfl
@[simp] theorem mSet_fpst (W : Warp) (r : Nat) (x : BitVec 256) : (mSet W r x).fpst = W.fpst := rfl
@[simp] theorem mSet_mode (W : Warp) (r : Nat) (x : BitVec 256) : (mSet W r x).mode = W.mode := rfl
@[simp] theorem mSet_mclaim (W : Warp) (r : Nat) (x : BitVec 256) : (mSet W r x).mclaim = W.mclaim := rfl
@[simp] theorem mSet_mrowm (W : Warp) (r : Nat) (x : BitVec 256) : (mSet W r x).mrowm = W.mrowm := rfl
@[simp] theorem mSet_mcolm (W : Warp) (r : Nat) (x : BitVec 256) : (mSet W r x).mcolm = W.mcolm := rfl
@[simp] theorem mSet_ev (W : Warp) (r : Nat) (x : BitVec 256) : (mSet W r x).ev = W.ev := rfl
@[simp] theorem mSet_evSys (W : Warp) (r : Nat) (x : BitVec 256) : (mSet W r x).evSys = W.evSys := rfl
@[simp] theorem mSet_lc (W : Warp) (r : Nat) (x : BitVec 256) : (mSet W r x).lc = W.lc := rfl
@[simp] theorem mSet_loops (W : Warp) (r : Nat) (x : BitVec 256) : (mSet W r x).loops = W.loops := rfl
@[simp] theorem mSet_calls (W : Warp) (r : Nat) (x : BitVec 256) : (mSet W r x).calls = W.calls := rfl
@[simp] theorem mSet_reel (W : Warp) (r : Nat) (x : BitVec 256) : (mSet W r x).reel = W.reel := rfl
@[simp] theorem mSet_v (W : Warp) (r : Nat) (x : BitVec 256) : (mSet W r x).v = W.v := rfl
@[simp] theorem mSet_s (W : Warp) (r : Nat) (x : BitVec 256) : (mSet W r x).s = W.s := rfl
@[simp] theorem mSet_p (W : Warp) (r : Nat) (x : BitVec 256) : (mSet W r x).p = W.p := rfl
@[simp] theorem mSet_w (W : Warp) (r : Nat) (x : BitVec 256) : (mSet W r x).w = W.w := rfl
@[simp] theorem mSet_cells (W : Warp) (r : Nat) (x : BitVec 256) : (mSet W r x).cells = W.cells := rfl
@[simp] theorem mSet_h (W : Warp) (r : Nat) (x : BitVec 256) : (mSet W r x).h = W.h := rfl
@[simp] theorem mSet_k (W : Warp) (r : Nat) (x : BitVec 256) : (mSet W r x).k = W.k := rfl
@[simp] theorem mSet_kuser (W : Warp) (r : Nat) (x : BitVec 256) : (mSet W r x).kuser = W.kuser := rfl
@[simp] theorem mSet_tile (W : Warp) (r : Nat) (x : BitVec 256) : (mSet W r x).tile = W.tile := rfl
@[simp] theorem mSet_pend (W : Warp) (r : Nat) (x : BitVec 256) : (mSet W r x).pend = W.pend := rfl
@[simp] theorem mSet_fence (W : Warp) (r : Nat) (x : BitVec 256) : (mSet W r x).fence = W.fence := rfl
@[simp] theorem mSet_closed (W : Warp) (r : Nat) (x : BitVec 256) : (mSet W r x).closed = W.closed := rfl
@[simp] theorem mSet_openId (W : Warp) (r : Nat) (x : BitVec 256) : (mSet W r x).openId = W.openId := rfl
@[simp] theorem mSet_openN (W : Warp) (r : Nat) (x : BitVec 256) : (mSet W r x).openN = W.openN := rfl
@[simp] theorem mSet_openUsed (W : Warp) (r : Nat) (x : BitVec 256) : (mSet W r x).openUsed = W.openUsed := rfl
@[simp] theorem mSet_verdicts (W : Warp) (r : Nat) (x : BitVec 256) : (mSet W r x).verdicts = W.verdicts := rfl
@[simp] theorem mSet_waits (W : Warp) (r : Nat) (x : BitVec 256) : (mSet W r x).waits = W.waits := rfl
@[simp] theorem mSet_lag (W : Warp) (r : Nat) (x : BitVec 256) : (mSet W r x).lag = W.lag := rfl
@[simp] theorem wSet_launch (W : Warp) (r : Nat) (x : WebSlot) : (wSet W r x).launch = W.launch := rfl
@[simp] theorem wSet_gang (W : Warp) (r : Nat) (x : WebSlot) : (wSet W r x).gang = W.gang := rfl
@[simp] theorem wSet_group (W : Warp) (r : Nat) (x : WebSlot) : (wSet W r x).group = W.group := rfl
@[simp] theorem wSet_wid (W : Warp) (r : Nat) (x : WebSlot) : (wSet W r x).wid = W.wid := rfl
@[simp] theorem wSet_core (W : Warp) (r : Nat) (x : WebSlot) : (wSet W r x).core = W.core := rfl
@[simp] theorem wSet_slot (W : Warp) (r : Nat) (x : WebSlot) : (wSet W r x).slot = W.slot := rfl
@[simp] theorem wSet_shadowSlot (W : Warp) (r : Nat) (x : WebSlot) : (wSet W r x).shadowSlot = W.shadowSlot := rfl
@[simp] theorem wSet_gangId (W : Warp) (r : Nat) (x : WebSlot) : (wSet W r x).gangId = W.gangId := rfl
@[simp] theorem wSet_groupId (W : Warp) (r : Nat) (x : WebSlot) : (wSet W r x).groupId = W.groupId := rfl
@[simp] theorem wSet_warpId (W : Warp) (r : Nat) (x : WebSlot) : (wSet W r x).warpId = W.warpId := rfl
@[simp] theorem wSet_nv (W : Warp) (r : Nat) (x : WebSlot) : (wSet W r x).nv = W.nv := rfl
@[simp] theorem wSet_ns (W : Warp) (r : Nat) (x : WebSlot) : (wSet W r x).ns = W.ns := rfl
@[simp] theorem wSet_stat (W : Warp) (r : Nat) (x : WebSlot) : (wSet W r x).stat = W.stat := rfl
@[simp] theorem wSet_level (W : Warp) (r : Nat) (x : WebSlot) : (wSet W r x).level = W.level := rfl
@[simp] theorem wSet_pc (W : Warp) (r : Nat) (x : WebSlot) : (wSet W r x).pc = W.pc := rfl
@[simp] theorem wSet_started (W : Warp) (r : Nat) (x : WebSlot) : (wSet W r x).started = W.started := rfl
@[simp] theorem wSet_word (W : Warp) (r : Nat) (x : WebSlot) : (wSet W r x).word = W.word := rfl
@[simp] theorem wSet_n (W : Warp) (r : Nat) (x : WebSlot) : (wSet W r x).n = W.n := rfl
@[simp] theorem wSet_code (W : Warp) (r : Nat) (x : WebSlot) : (wSet W r x).code = W.code := rfl
@[simp] theorem wSet_codeAt (W : Warp) (r : Nat) (x : WebSlot) : (wSet W r x).codeAt = W.codeAt := rfl
@[simp] theorem wSet_ports (W : Warp) (r : Nat) (x : WebSlot) : (wSet W r x).ports = W.ports := rfl
@[simp] theorem wSet_flow (W : Warp) (r : Nat) (x : WebSlot) : (wSet W r x).flow = W.flow := rfl
@[simp] theorem wSet_ridx (W : Warp) (r : Nat) (x : WebSlot) : (wSet W r x).ridx = W.ridx := rfl
@[simp] theorem wSet_barH (W : Warp) (r : Nat) (x : WebSlot) : (wSet W r x).barH = W.barH := rfl
@[simp] theorem wSet_barJ (W : Warp) (r : Nat) (x : WebSlot) : (wSet W r x).barJ = W.barJ := rfl
@[simp] theorem wSet_entry (W : Warp) (r : Nat) (x : WebSlot) : (wSet W r x).entry = W.entry := rfl
@[simp] theorem wSet_exm (W : Warp) (r : Nat) (x : WebSlot) : (wSet W r x).exm = W.exm := rfl
@[simp] theorem wSet_fltm (W : Warp) (r : Nat) (x : WebSlot) : (wSet W r x).fltm = W.fltm := rfl
@[simp] theorem wSet_demm (W : Warp) (r : Nat) (x : WebSlot) : (wSet W r x).demm = W.demm := rfl
@[simp] theorem wSet_deadm (W : Warp) (r : Nat) (x : WebSlot) : (wSet W r x).deadm = W.deadm := rfl
@[simp] theorem wSet_deck (W : Warp) (r : Nat) (x : WebSlot) : (wSet W r x).deck = W.deck := rfl
@[simp] theorem wSet_fpst (W : Warp) (r : Nat) (x : WebSlot) : (wSet W r x).fpst = W.fpst := rfl
@[simp] theorem wSet_mode (W : Warp) (r : Nat) (x : WebSlot) : (wSet W r x).mode = W.mode := rfl
@[simp] theorem wSet_mclaim (W : Warp) (r : Nat) (x : WebSlot) : (wSet W r x).mclaim = W.mclaim := rfl
@[simp] theorem wSet_mrowm (W : Warp) (r : Nat) (x : WebSlot) : (wSet W r x).mrowm = W.mrowm := rfl
@[simp] theorem wSet_mcolm (W : Warp) (r : Nat) (x : WebSlot) : (wSet W r x).mcolm = W.mcolm := rfl
@[simp] theorem wSet_ev (W : Warp) (r : Nat) (x : WebSlot) : (wSet W r x).ev = W.ev := rfl
@[simp] theorem wSet_evSys (W : Warp) (r : Nat) (x : WebSlot) : (wSet W r x).evSys = W.evSys := rfl
@[simp] theorem wSet_lc (W : Warp) (r : Nat) (x : WebSlot) : (wSet W r x).lc = W.lc := rfl
@[simp] theorem wSet_loops (W : Warp) (r : Nat) (x : WebSlot) : (wSet W r x).loops = W.loops := rfl
@[simp] theorem wSet_calls (W : Warp) (r : Nat) (x : WebSlot) : (wSet W r x).calls = W.calls := rfl
@[simp] theorem wSet_reel (W : Warp) (r : Nat) (x : WebSlot) : (wSet W r x).reel = W.reel := rfl
@[simp] theorem wSet_v (W : Warp) (r : Nat) (x : WebSlot) : (wSet W r x).v = W.v := rfl
@[simp] theorem wSet_s (W : Warp) (r : Nat) (x : WebSlot) : (wSet W r x).s = W.s := rfl
@[simp] theorem wSet_p (W : Warp) (r : Nat) (x : WebSlot) : (wSet W r x).p = W.p := rfl
@[simp] theorem wSet_m (W : Warp) (r : Nat) (x : WebSlot) : (wSet W r x).m = W.m := rfl
@[simp] theorem wSet_cells (W : Warp) (r : Nat) (x : WebSlot) : (wSet W r x).cells = W.cells := rfl
@[simp] theorem wSet_h (W : Warp) (r : Nat) (x : WebSlot) : (wSet W r x).h = W.h := rfl
@[simp] theorem wSet_k (W : Warp) (r : Nat) (x : WebSlot) : (wSet W r x).k = W.k := rfl
@[simp] theorem wSet_kuser (W : Warp) (r : Nat) (x : WebSlot) : (wSet W r x).kuser = W.kuser := rfl
@[simp] theorem wSet_tile (W : Warp) (r : Nat) (x : WebSlot) : (wSet W r x).tile = W.tile := rfl
@[simp] theorem wSet_pend (W : Warp) (r : Nat) (x : WebSlot) : (wSet W r x).pend = W.pend := rfl
@[simp] theorem wSet_fence (W : Warp) (r : Nat) (x : WebSlot) : (wSet W r x).fence = W.fence := rfl
@[simp] theorem wSet_closed (W : Warp) (r : Nat) (x : WebSlot) : (wSet W r x).closed = W.closed := rfl
@[simp] theorem wSet_openId (W : Warp) (r : Nat) (x : WebSlot) : (wSet W r x).openId = W.openId := rfl
@[simp] theorem wSet_openN (W : Warp) (r : Nat) (x : WebSlot) : (wSet W r x).openN = W.openN := rfl
@[simp] theorem wSet_openUsed (W : Warp) (r : Nat) (x : WebSlot) : (wSet W r x).openUsed = W.openUsed := rfl
@[simp] theorem wSet_verdicts (W : Warp) (r : Nat) (x : WebSlot) : (wSet W r x).verdicts = W.verdicts := rfl
@[simp] theorem wSet_waits (W : Warp) (r : Nat) (x : WebSlot) : (wSet W r x).waits = W.waits := rfl
@[simp] theorem wSet_lag (W : Warp) (r : Nat) (x : WebSlot) : (wSet W r x).lag = W.lag := rfl
@[simp] theorem lcSet_launch (W : Warp) (r : Nat) (x : W64) : (lcSet W r x).launch = W.launch := rfl
@[simp] theorem lcSet_gang (W : Warp) (r : Nat) (x : W64) : (lcSet W r x).gang = W.gang := rfl
@[simp] theorem lcSet_group (W : Warp) (r : Nat) (x : W64) : (lcSet W r x).group = W.group := rfl
@[simp] theorem lcSet_wid (W : Warp) (r : Nat) (x : W64) : (lcSet W r x).wid = W.wid := rfl
@[simp] theorem lcSet_core (W : Warp) (r : Nat) (x : W64) : (lcSet W r x).core = W.core := rfl
@[simp] theorem lcSet_slot (W : Warp) (r : Nat) (x : W64) : (lcSet W r x).slot = W.slot := rfl
@[simp] theorem lcSet_shadowSlot (W : Warp) (r : Nat) (x : W64) : (lcSet W r x).shadowSlot = W.shadowSlot := rfl
@[simp] theorem lcSet_gangId (W : Warp) (r : Nat) (x : W64) : (lcSet W r x).gangId = W.gangId := rfl
@[simp] theorem lcSet_groupId (W : Warp) (r : Nat) (x : W64) : (lcSet W r x).groupId = W.groupId := rfl
@[simp] theorem lcSet_warpId (W : Warp) (r : Nat) (x : W64) : (lcSet W r x).warpId = W.warpId := rfl
@[simp] theorem lcSet_nv (W : Warp) (r : Nat) (x : W64) : (lcSet W r x).nv = W.nv := rfl
@[simp] theorem lcSet_ns (W : Warp) (r : Nat) (x : W64) : (lcSet W r x).ns = W.ns := rfl
@[simp] theorem lcSet_stat (W : Warp) (r : Nat) (x : W64) : (lcSet W r x).stat = W.stat := rfl
@[simp] theorem lcSet_level (W : Warp) (r : Nat) (x : W64) : (lcSet W r x).level = W.level := rfl
@[simp] theorem lcSet_pc (W : Warp) (r : Nat) (x : W64) : (lcSet W r x).pc = W.pc := rfl
@[simp] theorem lcSet_started (W : Warp) (r : Nat) (x : W64) : (lcSet W r x).started = W.started := rfl
@[simp] theorem lcSet_word (W : Warp) (r : Nat) (x : W64) : (lcSet W r x).word = W.word := rfl
@[simp] theorem lcSet_n (W : Warp) (r : Nat) (x : W64) : (lcSet W r x).n = W.n := rfl
@[simp] theorem lcSet_code (W : Warp) (r : Nat) (x : W64) : (lcSet W r x).code = W.code := rfl
@[simp] theorem lcSet_codeAt (W : Warp) (r : Nat) (x : W64) : (lcSet W r x).codeAt = W.codeAt := rfl
@[simp] theorem lcSet_ports (W : Warp) (r : Nat) (x : W64) : (lcSet W r x).ports = W.ports := rfl
@[simp] theorem lcSet_flow (W : Warp) (r : Nat) (x : W64) : (lcSet W r x).flow = W.flow := rfl
@[simp] theorem lcSet_ridx (W : Warp) (r : Nat) (x : W64) : (lcSet W r x).ridx = W.ridx := rfl
@[simp] theorem lcSet_barH (W : Warp) (r : Nat) (x : W64) : (lcSet W r x).barH = W.barH := rfl
@[simp] theorem lcSet_barJ (W : Warp) (r : Nat) (x : W64) : (lcSet W r x).barJ = W.barJ := rfl
@[simp] theorem lcSet_entry (W : Warp) (r : Nat) (x : W64) : (lcSet W r x).entry = W.entry := rfl
@[simp] theorem lcSet_exm (W : Warp) (r : Nat) (x : W64) : (lcSet W r x).exm = W.exm := rfl
@[simp] theorem lcSet_fltm (W : Warp) (r : Nat) (x : W64) : (lcSet W r x).fltm = W.fltm := rfl
@[simp] theorem lcSet_demm (W : Warp) (r : Nat) (x : W64) : (lcSet W r x).demm = W.demm := rfl
@[simp] theorem lcSet_deadm (W : Warp) (r : Nat) (x : W64) : (lcSet W r x).deadm = W.deadm := rfl
@[simp] theorem lcSet_deck (W : Warp) (r : Nat) (x : W64) : (lcSet W r x).deck = W.deck := rfl
@[simp] theorem lcSet_fpst (W : Warp) (r : Nat) (x : W64) : (lcSet W r x).fpst = W.fpst := rfl
@[simp] theorem lcSet_mode (W : Warp) (r : Nat) (x : W64) : (lcSet W r x).mode = W.mode := rfl
@[simp] theorem lcSet_mclaim (W : Warp) (r : Nat) (x : W64) : (lcSet W r x).mclaim = W.mclaim := rfl
@[simp] theorem lcSet_mrowm (W : Warp) (r : Nat) (x : W64) : (lcSet W r x).mrowm = W.mrowm := rfl
@[simp] theorem lcSet_mcolm (W : Warp) (r : Nat) (x : W64) : (lcSet W r x).mcolm = W.mcolm := rfl
@[simp] theorem lcSet_ev (W : Warp) (r : Nat) (x : W64) : (lcSet W r x).ev = W.ev := rfl
@[simp] theorem lcSet_evSys (W : Warp) (r : Nat) (x : W64) : (lcSet W r x).evSys = W.evSys := rfl
@[simp] theorem lcSet_loops (W : Warp) (r : Nat) (x : W64) : (lcSet W r x).loops = W.loops := rfl
@[simp] theorem lcSet_calls (W : Warp) (r : Nat) (x : W64) : (lcSet W r x).calls = W.calls := rfl
@[simp] theorem lcSet_reel (W : Warp) (r : Nat) (x : W64) : (lcSet W r x).reel = W.reel := rfl
@[simp] theorem lcSet_v (W : Warp) (r : Nat) (x : W64) : (lcSet W r x).v = W.v := rfl
@[simp] theorem lcSet_s (W : Warp) (r : Nat) (x : W64) : (lcSet W r x).s = W.s := rfl
@[simp] theorem lcSet_p (W : Warp) (r : Nat) (x : W64) : (lcSet W r x).p = W.p := rfl
@[simp] theorem lcSet_m (W : Warp) (r : Nat) (x : W64) : (lcSet W r x).m = W.m := rfl
@[simp] theorem lcSet_w (W : Warp) (r : Nat) (x : W64) : (lcSet W r x).w = W.w := rfl
@[simp] theorem lcSet_cells (W : Warp) (r : Nat) (x : W64) : (lcSet W r x).cells = W.cells := rfl
@[simp] theorem lcSet_h (W : Warp) (r : Nat) (x : W64) : (lcSet W r x).h = W.h := rfl
@[simp] theorem lcSet_k (W : Warp) (r : Nat) (x : W64) : (lcSet W r x).k = W.k := rfl
@[simp] theorem lcSet_kuser (W : Warp) (r : Nat) (x : W64) : (lcSet W r x).kuser = W.kuser := rfl
@[simp] theorem lcSet_tile (W : Warp) (r : Nat) (x : W64) : (lcSet W r x).tile = W.tile := rfl
@[simp] theorem lcSet_pend (W : Warp) (r : Nat) (x : W64) : (lcSet W r x).pend = W.pend := rfl
@[simp] theorem lcSet_fence (W : Warp) (r : Nat) (x : W64) : (lcSet W r x).fence = W.fence := rfl
@[simp] theorem lcSet_closed (W : Warp) (r : Nat) (x : W64) : (lcSet W r x).closed = W.closed := rfl
@[simp] theorem lcSet_openId (W : Warp) (r : Nat) (x : W64) : (lcSet W r x).openId = W.openId := rfl
@[simp] theorem lcSet_openN (W : Warp) (r : Nat) (x : W64) : (lcSet W r x).openN = W.openN := rfl
@[simp] theorem lcSet_openUsed (W : Warp) (r : Nat) (x : W64) : (lcSet W r x).openUsed = W.openUsed := rfl
@[simp] theorem lcSet_verdicts (W : Warp) (r : Nat) (x : W64) : (lcSet W r x).verdicts = W.verdicts := rfl
@[simp] theorem lcSet_waits (W : Warp) (r : Nat) (x : W64) : (lcSet W r x).waits = W.waits := rfl
@[simp] theorem lcSet_lag (W : Warp) (r : Nat) (x : W64) : (lcSet W r x).lag = W.lag := rfl
@[simp] theorem orFlags_launch (W : Warp) (x : Flags) : (orFlags W x).launch = W.launch := rfl
@[simp] theorem orFlags_gang (W : Warp) (x : Flags) : (orFlags W x).gang = W.gang := rfl
@[simp] theorem orFlags_group (W : Warp) (x : Flags) : (orFlags W x).group = W.group := rfl
@[simp] theorem orFlags_wid (W : Warp) (x : Flags) : (orFlags W x).wid = W.wid := rfl
@[simp] theorem orFlags_core (W : Warp) (x : Flags) : (orFlags W x).core = W.core := rfl
@[simp] theorem orFlags_slot (W : Warp) (x : Flags) : (orFlags W x).slot = W.slot := rfl
@[simp] theorem orFlags_shadowSlot (W : Warp) (x : Flags) : (orFlags W x).shadowSlot = W.shadowSlot := rfl
@[simp] theorem orFlags_gangId (W : Warp) (x : Flags) : (orFlags W x).gangId = W.gangId := rfl
@[simp] theorem orFlags_groupId (W : Warp) (x : Flags) : (orFlags W x).groupId = W.groupId := rfl
@[simp] theorem orFlags_warpId (W : Warp) (x : Flags) : (orFlags W x).warpId = W.warpId := rfl
@[simp] theorem orFlags_nv (W : Warp) (x : Flags) : (orFlags W x).nv = W.nv := rfl
@[simp] theorem orFlags_ns (W : Warp) (x : Flags) : (orFlags W x).ns = W.ns := rfl
@[simp] theorem orFlags_stat (W : Warp) (x : Flags) : (orFlags W x).stat = W.stat := rfl
@[simp] theorem orFlags_level (W : Warp) (x : Flags) : (orFlags W x).level = W.level := rfl
@[simp] theorem orFlags_pc (W : Warp) (x : Flags) : (orFlags W x).pc = W.pc := rfl
@[simp] theorem orFlags_started (W : Warp) (x : Flags) : (orFlags W x).started = W.started := rfl
@[simp] theorem orFlags_word (W : Warp) (x : Flags) : (orFlags W x).word = W.word := rfl
@[simp] theorem orFlags_n (W : Warp) (x : Flags) : (orFlags W x).n = W.n := rfl
@[simp] theorem orFlags_code (W : Warp) (x : Flags) : (orFlags W x).code = W.code := rfl
@[simp] theorem orFlags_codeAt (W : Warp) (x : Flags) : (orFlags W x).codeAt = W.codeAt := rfl
@[simp] theorem orFlags_ports (W : Warp) (x : Flags) : (orFlags W x).ports = W.ports := rfl
@[simp] theorem orFlags_flow (W : Warp) (x : Flags) : (orFlags W x).flow = W.flow := rfl
@[simp] theorem orFlags_ridx (W : Warp) (x : Flags) : (orFlags W x).ridx = W.ridx := rfl
@[simp] theorem orFlags_barH (W : Warp) (x : Flags) : (orFlags W x).barH = W.barH := rfl
@[simp] theorem orFlags_barJ (W : Warp) (x : Flags) : (orFlags W x).barJ = W.barJ := rfl
@[simp] theorem orFlags_entry (W : Warp) (x : Flags) : (orFlags W x).entry = W.entry := rfl
@[simp] theorem orFlags_exm (W : Warp) (x : Flags) : (orFlags W x).exm = W.exm := rfl
@[simp] theorem orFlags_fltm (W : Warp) (x : Flags) : (orFlags W x).fltm = W.fltm := rfl
@[simp] theorem orFlags_demm (W : Warp) (x : Flags) : (orFlags W x).demm = W.demm := rfl
@[simp] theorem orFlags_deadm (W : Warp) (x : Flags) : (orFlags W x).deadm = W.deadm := rfl
@[simp] theorem orFlags_deck (W : Warp) (x : Flags) : (orFlags W x).deck = W.deck := rfl
@[simp] theorem orFlags_mode (W : Warp) (x : Flags) : (orFlags W x).mode = W.mode := rfl
@[simp] theorem orFlags_mclaim (W : Warp) (x : Flags) : (orFlags W x).mclaim = W.mclaim := rfl
@[simp] theorem orFlags_mrowm (W : Warp) (x : Flags) : (orFlags W x).mrowm = W.mrowm := rfl
@[simp] theorem orFlags_mcolm (W : Warp) (x : Flags) : (orFlags W x).mcolm = W.mcolm := rfl
@[simp] theorem orFlags_ev (W : Warp) (x : Flags) : (orFlags W x).ev = W.ev := rfl
@[simp] theorem orFlags_evSys (W : Warp) (x : Flags) : (orFlags W x).evSys = W.evSys := rfl
@[simp] theorem orFlags_lc (W : Warp) (x : Flags) : (orFlags W x).lc = W.lc := rfl
@[simp] theorem orFlags_loops (W : Warp) (x : Flags) : (orFlags W x).loops = W.loops := rfl
@[simp] theorem orFlags_calls (W : Warp) (x : Flags) : (orFlags W x).calls = W.calls := rfl
@[simp] theorem orFlags_reel (W : Warp) (x : Flags) : (orFlags W x).reel = W.reel := rfl
@[simp] theorem orFlags_v (W : Warp) (x : Flags) : (orFlags W x).v = W.v := rfl
@[simp] theorem orFlags_s (W : Warp) (x : Flags) : (orFlags W x).s = W.s := rfl
@[simp] theorem orFlags_p (W : Warp) (x : Flags) : (orFlags W x).p = W.p := rfl
@[simp] theorem orFlags_m (W : Warp) (x : Flags) : (orFlags W x).m = W.m := rfl
@[simp] theorem orFlags_w (W : Warp) (x : Flags) : (orFlags W x).w = W.w := rfl
@[simp] theorem orFlags_cells (W : Warp) (x : Flags) : (orFlags W x).cells = W.cells := rfl
@[simp] theorem orFlags_h (W : Warp) (x : Flags) : (orFlags W x).h = W.h := rfl
@[simp] theorem orFlags_k (W : Warp) (x : Flags) : (orFlags W x).k = W.k := rfl
@[simp] theorem orFlags_kuser (W : Warp) (x : Flags) : (orFlags W x).kuser = W.kuser := rfl
@[simp] theorem orFlags_tile (W : Warp) (x : Flags) : (orFlags W x).tile = W.tile := rfl
@[simp] theorem orFlags_pend (W : Warp) (x : Flags) : (orFlags W x).pend = W.pend := rfl
@[simp] theorem orFlags_fence (W : Warp) (x : Flags) : (orFlags W x).fence = W.fence := rfl
@[simp] theorem orFlags_closed (W : Warp) (x : Flags) : (orFlags W x).closed = W.closed := rfl
@[simp] theorem orFlags_openId (W : Warp) (x : Flags) : (orFlags W x).openId = W.openId := rfl
@[simp] theorem orFlags_openN (W : Warp) (x : Flags) : (orFlags W x).openN = W.openN := rfl
@[simp] theorem orFlags_openUsed (W : Warp) (x : Flags) : (orFlags W x).openUsed = W.openUsed := rfl
@[simp] theorem orFlags_verdicts (W : Warp) (x : Flags) : (orFlags W x).verdicts = W.verdicts := rfl
@[simp] theorem orFlags_waits (W : Warp) (x : Flags) : (orFlags W x).waits = W.waits := rfl
@[simp] theorem orFlags_lag (W : Warp) (x : Flags) : (orFlags W x).lag = W.lag := rfl
@[simp] theorem atClause_launch (W : Warp) (a : W64) : (atClause W a).launch = W.launch := rfl
@[simp] theorem atClause_gang (W : Warp) (a : W64) : (atClause W a).gang = W.gang := rfl
@[simp] theorem atClause_group (W : Warp) (a : W64) : (atClause W a).group = W.group := rfl
@[simp] theorem atClause_wid (W : Warp) (a : W64) : (atClause W a).wid = W.wid := rfl
@[simp] theorem atClause_core (W : Warp) (a : W64) : (atClause W a).core = W.core := rfl
@[simp] theorem atClause_slot (W : Warp) (a : W64) : (atClause W a).slot = W.slot := rfl
@[simp] theorem atClause_shadowSlot (W : Warp) (a : W64) : (atClause W a).shadowSlot = W.shadowSlot := rfl
@[simp] theorem atClause_gangId (W : Warp) (a : W64) : (atClause W a).gangId = W.gangId := rfl
@[simp] theorem atClause_groupId (W : Warp) (a : W64) : (atClause W a).groupId = W.groupId := rfl
@[simp] theorem atClause_warpId (W : Warp) (a : W64) : (atClause W a).warpId = W.warpId := rfl
@[simp] theorem atClause_nv (W : Warp) (a : W64) : (atClause W a).nv = W.nv := rfl
@[simp] theorem atClause_ns (W : Warp) (a : W64) : (atClause W a).ns = W.ns := rfl
@[simp] theorem atClause_stat (W : Warp) (a : W64) : (atClause W a).stat = W.stat := rfl
@[simp] theorem atClause_level (W : Warp) (a : W64) : (atClause W a).level = W.level := rfl
@[simp] theorem atClause_code (W : Warp) (a : W64) : (atClause W a).code = W.code := rfl
@[simp] theorem atClause_codeAt (W : Warp) (a : W64) : (atClause W a).codeAt = W.codeAt := rfl
@[simp] theorem atClause_ports (W : Warp) (a : W64) : (atClause W a).ports = W.ports := rfl
@[simp] theorem atClause_barH (W : Warp) (a : W64) : (atClause W a).barH = W.barH := rfl
@[simp] theorem atClause_barJ (W : Warp) (a : W64) : (atClause W a).barJ = W.barJ := rfl
@[simp] theorem atClause_entry (W : Warp) (a : W64) : (atClause W a).entry = W.entry := rfl
@[simp] theorem atClause_exm (W : Warp) (a : W64) : (atClause W a).exm = W.exm := rfl
@[simp] theorem atClause_fltm (W : Warp) (a : W64) : (atClause W a).fltm = W.fltm := rfl
@[simp] theorem atClause_demm (W : Warp) (a : W64) : (atClause W a).demm = W.demm := rfl
@[simp] theorem atClause_deadm (W : Warp) (a : W64) : (atClause W a).deadm = W.deadm := rfl
@[simp] theorem atClause_deck (W : Warp) (a : W64) : (atClause W a).deck = W.deck := rfl
@[simp] theorem atClause_fpst (W : Warp) (a : W64) : (atClause W a).fpst = W.fpst := rfl
@[simp] theorem atClause_mode (W : Warp) (a : W64) : (atClause W a).mode = W.mode := rfl
@[simp] theorem atClause_mclaim (W : Warp) (a : W64) : (atClause W a).mclaim = W.mclaim := rfl
@[simp] theorem atClause_mrowm (W : Warp) (a : W64) : (atClause W a).mrowm = W.mrowm := rfl
@[simp] theorem atClause_mcolm (W : Warp) (a : W64) : (atClause W a).mcolm = W.mcolm := rfl
@[simp] theorem atClause_ev (W : Warp) (a : W64) : (atClause W a).ev = W.ev := rfl
@[simp] theorem atClause_evSys (W : Warp) (a : W64) : (atClause W a).evSys = W.evSys := rfl
@[simp] theorem atClause_lc (W : Warp) (a : W64) : (atClause W a).lc = W.lc := rfl
@[simp] theorem atClause_loops (W : Warp) (a : W64) : (atClause W a).loops = W.loops := rfl
@[simp] theorem atClause_calls (W : Warp) (a : W64) : (atClause W a).calls = W.calls := rfl
@[simp] theorem atClause_reel (W : Warp) (a : W64) : (atClause W a).reel = W.reel := rfl
@[simp] theorem atClause_v (W : Warp) (a : W64) : (atClause W a).v = W.v := rfl
@[simp] theorem atClause_s (W : Warp) (a : W64) : (atClause W a).s = W.s := rfl
@[simp] theorem atClause_p (W : Warp) (a : W64) : (atClause W a).p = W.p := rfl
@[simp] theorem atClause_m (W : Warp) (a : W64) : (atClause W a).m = W.m := rfl
@[simp] theorem atClause_w (W : Warp) (a : W64) : (atClause W a).w = W.w := rfl
@[simp] theorem atClause_cells (W : Warp) (a : W64) : (atClause W a).cells = W.cells := rfl
@[simp] theorem atClause_h (W : Warp) (a : W64) : (atClause W a).h = W.h := rfl
@[simp] theorem atClause_k (W : Warp) (a : W64) : (atClause W a).k = W.k := rfl
@[simp] theorem atClause_kuser (W : Warp) (a : W64) : (atClause W a).kuser = W.kuser := rfl
@[simp] theorem atClause_tile (W : Warp) (a : W64) : (atClause W a).tile = W.tile := rfl
@[simp] theorem atClause_pend (W : Warp) (a : W64) : (atClause W a).pend = W.pend := rfl
@[simp] theorem atClause_fence (W : Warp) (a : W64) : (atClause W a).fence = W.fence := rfl
@[simp] theorem atClause_closed (W : Warp) (a : W64) : (atClause W a).closed = W.closed := rfl
@[simp] theorem atClause_openId (W : Warp) (a : W64) : (atClause W a).openId = W.openId := rfl
@[simp] theorem atClause_openN (W : Warp) (a : W64) : (atClause W a).openN = W.openN := rfl
@[simp] theorem atClause_openUsed (W : Warp) (a : W64) : (atClause W a).openUsed = W.openUsed := rfl
@[simp] theorem atClause_verdicts (W : Warp) (a : W64) : (atClause W a).verdicts = W.verdicts := rfl
@[simp] theorem atClause_waits (W : Warp) (a : W64) : (atClause W a).waits = W.waits := rfl
@[simp] theorem atClause_lag (W : Warp) (a : W64) : (atClause W a).lag = W.lag := rfl
@[simp] theorem leaveLoops_launch (W : Warp) (a : W64) : (leaveLoops W a).launch = W.launch := rfl
@[simp] theorem leaveLoops_gang (W : Warp) (a : W64) : (leaveLoops W a).gang = W.gang := rfl
@[simp] theorem leaveLoops_group (W : Warp) (a : W64) : (leaveLoops W a).group = W.group := rfl
@[simp] theorem leaveLoops_wid (W : Warp) (a : W64) : (leaveLoops W a).wid = W.wid := rfl
@[simp] theorem leaveLoops_core (W : Warp) (a : W64) : (leaveLoops W a).core = W.core := rfl
@[simp] theorem leaveLoops_slot (W : Warp) (a : W64) : (leaveLoops W a).slot = W.slot := rfl
@[simp] theorem leaveLoops_shadowSlot (W : Warp) (a : W64) : (leaveLoops W a).shadowSlot = W.shadowSlot := rfl
@[simp] theorem leaveLoops_gangId (W : Warp) (a : W64) : (leaveLoops W a).gangId = W.gangId := rfl
@[simp] theorem leaveLoops_groupId (W : Warp) (a : W64) : (leaveLoops W a).groupId = W.groupId := rfl
@[simp] theorem leaveLoops_warpId (W : Warp) (a : W64) : (leaveLoops W a).warpId = W.warpId := rfl
@[simp] theorem leaveLoops_nv (W : Warp) (a : W64) : (leaveLoops W a).nv = W.nv := rfl
@[simp] theorem leaveLoops_ns (W : Warp) (a : W64) : (leaveLoops W a).ns = W.ns := rfl
@[simp] theorem leaveLoops_stat (W : Warp) (a : W64) : (leaveLoops W a).stat = W.stat := rfl
@[simp] theorem leaveLoops_level (W : Warp) (a : W64) : (leaveLoops W a).level = W.level := rfl
@[simp] theorem leaveLoops_pc (W : Warp) (a : W64) : (leaveLoops W a).pc = W.pc := rfl
@[simp] theorem leaveLoops_started (W : Warp) (a : W64) : (leaveLoops W a).started = W.started := rfl
@[simp] theorem leaveLoops_word (W : Warp) (a : W64) : (leaveLoops W a).word = W.word := rfl
@[simp] theorem leaveLoops_n (W : Warp) (a : W64) : (leaveLoops W a).n = W.n := rfl
@[simp] theorem leaveLoops_code (W : Warp) (a : W64) : (leaveLoops W a).code = W.code := rfl
@[simp] theorem leaveLoops_codeAt (W : Warp) (a : W64) : (leaveLoops W a).codeAt = W.codeAt := rfl
@[simp] theorem leaveLoops_ports (W : Warp) (a : W64) : (leaveLoops W a).ports = W.ports := rfl
@[simp] theorem leaveLoops_flow (W : Warp) (a : W64) : (leaveLoops W a).flow = W.flow := rfl
@[simp] theorem leaveLoops_ridx (W : Warp) (a : W64) : (leaveLoops W a).ridx = W.ridx := rfl
@[simp] theorem leaveLoops_barH (W : Warp) (a : W64) : (leaveLoops W a).barH = W.barH := rfl
@[simp] theorem leaveLoops_barJ (W : Warp) (a : W64) : (leaveLoops W a).barJ = W.barJ := rfl
@[simp] theorem leaveLoops_entry (W : Warp) (a : W64) : (leaveLoops W a).entry = W.entry := rfl
@[simp] theorem leaveLoops_exm (W : Warp) (a : W64) : (leaveLoops W a).exm = W.exm := rfl
@[simp] theorem leaveLoops_fltm (W : Warp) (a : W64) : (leaveLoops W a).fltm = W.fltm := rfl
@[simp] theorem leaveLoops_demm (W : Warp) (a : W64) : (leaveLoops W a).demm = W.demm := rfl
@[simp] theorem leaveLoops_deadm (W : Warp) (a : W64) : (leaveLoops W a).deadm = W.deadm := rfl
@[simp] theorem leaveLoops_deck (W : Warp) (a : W64) : (leaveLoops W a).deck = W.deck := rfl
@[simp] theorem leaveLoops_fpst (W : Warp) (a : W64) : (leaveLoops W a).fpst = W.fpst := rfl
@[simp] theorem leaveLoops_mode (W : Warp) (a : W64) : (leaveLoops W a).mode = W.mode := rfl
@[simp] theorem leaveLoops_mclaim (W : Warp) (a : W64) : (leaveLoops W a).mclaim = W.mclaim := rfl
@[simp] theorem leaveLoops_mrowm (W : Warp) (a : W64) : (leaveLoops W a).mrowm = W.mrowm := rfl
@[simp] theorem leaveLoops_mcolm (W : Warp) (a : W64) : (leaveLoops W a).mcolm = W.mcolm := rfl
@[simp] theorem leaveLoops_ev (W : Warp) (a : W64) : (leaveLoops W a).ev = W.ev := rfl
@[simp] theorem leaveLoops_evSys (W : Warp) (a : W64) : (leaveLoops W a).evSys = W.evSys := rfl
@[simp] theorem leaveLoops_lc (W : Warp) (a : W64) : (leaveLoops W a).lc = W.lc := rfl
@[simp] theorem leaveLoops_calls (W : Warp) (a : W64) : (leaveLoops W a).calls = W.calls := rfl
@[simp] theorem leaveLoops_reel (W : Warp) (a : W64) : (leaveLoops W a).reel = W.reel := rfl
@[simp] theorem leaveLoops_v (W : Warp) (a : W64) : (leaveLoops W a).v = W.v := rfl
@[simp] theorem leaveLoops_s (W : Warp) (a : W64) : (leaveLoops W a).s = W.s := rfl
@[simp] theorem leaveLoops_p (W : Warp) (a : W64) : (leaveLoops W a).p = W.p := rfl
@[simp] theorem leaveLoops_m (W : Warp) (a : W64) : (leaveLoops W a).m = W.m := rfl
@[simp] theorem leaveLoops_w (W : Warp) (a : W64) : (leaveLoops W a).w = W.w := rfl
@[simp] theorem leaveLoops_cells (W : Warp) (a : W64) : (leaveLoops W a).cells = W.cells := rfl
@[simp] theorem leaveLoops_h (W : Warp) (a : W64) : (leaveLoops W a).h = W.h := rfl
@[simp] theorem leaveLoops_k (W : Warp) (a : W64) : (leaveLoops W a).k = W.k := rfl
@[simp] theorem leaveLoops_kuser (W : Warp) (a : W64) : (leaveLoops W a).kuser = W.kuser := rfl
@[simp] theorem leaveLoops_tile (W : Warp) (a : W64) : (leaveLoops W a).tile = W.tile := rfl
@[simp] theorem leaveLoops_pend (W : Warp) (a : W64) : (leaveLoops W a).pend = W.pend := rfl
@[simp] theorem leaveLoops_fence (W : Warp) (a : W64) : (leaveLoops W a).fence = W.fence := rfl
@[simp] theorem leaveLoops_closed (W : Warp) (a : W64) : (leaveLoops W a).closed = W.closed := rfl
@[simp] theorem leaveLoops_openId (W : Warp) (a : W64) : (leaveLoops W a).openId = W.openId := rfl
@[simp] theorem leaveLoops_openN (W : Warp) (a : W64) : (leaveLoops W a).openN = W.openN := rfl
@[simp] theorem leaveLoops_openUsed (W : Warp) (a : W64) : (leaveLoops W a).openUsed = W.openUsed := rfl
@[simp] theorem leaveLoops_verdicts (W : Warp) (a : W64) : (leaveLoops W a).verdicts = W.verdicts := rfl
@[simp] theorem leaveLoops_waits (W : Warp) (a : W64) : (leaveLoops W a).waits = W.waits := rfl
@[simp] theorem leaveLoops_lag (W : Warp) (a : W64) : (leaveLoops W a).lag = W.lag := rfl
@[simp] theorem sSet_launch (W : Warp) (r : BitVec 6) (x : W64) : (sSet W r x).launch = W.launch := by unfold sSet; split <;> rfl
@[simp] theorem sSet_gang (W : Warp) (r : BitVec 6) (x : W64) : (sSet W r x).gang = W.gang := by unfold sSet; split <;> rfl
@[simp] theorem sSet_group (W : Warp) (r : BitVec 6) (x : W64) : (sSet W r x).group = W.group := by unfold sSet; split <;> rfl
@[simp] theorem sSet_wid (W : Warp) (r : BitVec 6) (x : W64) : (sSet W r x).wid = W.wid := by unfold sSet; split <;> rfl
@[simp] theorem sSet_core (W : Warp) (r : BitVec 6) (x : W64) : (sSet W r x).core = W.core := by unfold sSet; split <;> rfl
@[simp] theorem sSet_slot (W : Warp) (r : BitVec 6) (x : W64) : (sSet W r x).slot = W.slot := by unfold sSet; split <;> rfl
@[simp] theorem sSet_shadowSlot (W : Warp) (r : BitVec 6) (x : W64) : (sSet W r x).shadowSlot = W.shadowSlot := by unfold sSet; split <;> rfl
@[simp] theorem sSet_gangId (W : Warp) (r : BitVec 6) (x : W64) : (sSet W r x).gangId = W.gangId := by unfold sSet; split <;> rfl
@[simp] theorem sSet_groupId (W : Warp) (r : BitVec 6) (x : W64) : (sSet W r x).groupId = W.groupId := by unfold sSet; split <;> rfl
@[simp] theorem sSet_warpId (W : Warp) (r : BitVec 6) (x : W64) : (sSet W r x).warpId = W.warpId := by unfold sSet; split <;> rfl
@[simp] theorem sSet_nv (W : Warp) (r : BitVec 6) (x : W64) : (sSet W r x).nv = W.nv := by unfold sSet; split <;> rfl
@[simp] theorem sSet_ns (W : Warp) (r : BitVec 6) (x : W64) : (sSet W r x).ns = W.ns := by unfold sSet; split <;> rfl
@[simp] theorem sSet_stat (W : Warp) (r : BitVec 6) (x : W64) : (sSet W r x).stat = W.stat := by unfold sSet; split <;> rfl
@[simp] theorem sSet_level (W : Warp) (r : BitVec 6) (x : W64) : (sSet W r x).level = W.level := by unfold sSet; split <;> rfl
@[simp] theorem sSet_pc (W : Warp) (r : BitVec 6) (x : W64) : (sSet W r x).pc = W.pc := by unfold sSet; split <;> rfl
@[simp] theorem sSet_started (W : Warp) (r : BitVec 6) (x : W64) : (sSet W r x).started = W.started := by unfold sSet; split <;> rfl
@[simp] theorem sSet_word (W : Warp) (r : BitVec 6) (x : W64) : (sSet W r x).word = W.word := by unfold sSet; split <;> rfl
@[simp] theorem sSet_n (W : Warp) (r : BitVec 6) (x : W64) : (sSet W r x).n = W.n := by unfold sSet; split <;> rfl
@[simp] theorem sSet_code (W : Warp) (r : BitVec 6) (x : W64) : (sSet W r x).code = W.code := by unfold sSet; split <;> rfl
@[simp] theorem sSet_codeAt (W : Warp) (r : BitVec 6) (x : W64) : (sSet W r x).codeAt = W.codeAt := by unfold sSet; split <;> rfl
@[simp] theorem sSet_ports (W : Warp) (r : BitVec 6) (x : W64) : (sSet W r x).ports = W.ports := by unfold sSet; split <;> rfl
@[simp] theorem sSet_flow (W : Warp) (r : BitVec 6) (x : W64) : (sSet W r x).flow = W.flow := by unfold sSet; split <;> rfl
@[simp] theorem sSet_ridx (W : Warp) (r : BitVec 6) (x : W64) : (sSet W r x).ridx = W.ridx := by unfold sSet; split <;> rfl
@[simp] theorem sSet_barH (W : Warp) (r : BitVec 6) (x : W64) : (sSet W r x).barH = W.barH := by unfold sSet; split <;> rfl
@[simp] theorem sSet_barJ (W : Warp) (r : BitVec 6) (x : W64) : (sSet W r x).barJ = W.barJ := by unfold sSet; split <;> rfl
@[simp] theorem sSet_entry (W : Warp) (r : BitVec 6) (x : W64) : (sSet W r x).entry = W.entry := by unfold sSet; split <;> rfl
@[simp] theorem sSet_exm (W : Warp) (r : BitVec 6) (x : W64) : (sSet W r x).exm = W.exm := by unfold sSet; split <;> rfl
@[simp] theorem sSet_fltm (W : Warp) (r : BitVec 6) (x : W64) : (sSet W r x).fltm = W.fltm := by unfold sSet; split <;> rfl
@[simp] theorem sSet_demm (W : Warp) (r : BitVec 6) (x : W64) : (sSet W r x).demm = W.demm := by unfold sSet; split <;> rfl
@[simp] theorem sSet_deadm (W : Warp) (r : BitVec 6) (x : W64) : (sSet W r x).deadm = W.deadm := by unfold sSet; split <;> rfl
@[simp] theorem sSet_deck (W : Warp) (r : BitVec 6) (x : W64) : (sSet W r x).deck = W.deck := by unfold sSet; split <;> rfl
@[simp] theorem sSet_fpst (W : Warp) (r : BitVec 6) (x : W64) : (sSet W r x).fpst = W.fpst := by unfold sSet; split <;> rfl
@[simp] theorem sSet_mode (W : Warp) (r : BitVec 6) (x : W64) : (sSet W r x).mode = W.mode := by unfold sSet; split <;> rfl
@[simp] theorem sSet_mclaim (W : Warp) (r : BitVec 6) (x : W64) : (sSet W r x).mclaim = W.mclaim := by unfold sSet; split <;> rfl
@[simp] theorem sSet_mrowm (W : Warp) (r : BitVec 6) (x : W64) : (sSet W r x).mrowm = W.mrowm := by unfold sSet; split <;> rfl
@[simp] theorem sSet_mcolm (W : Warp) (r : BitVec 6) (x : W64) : (sSet W r x).mcolm = W.mcolm := by unfold sSet; split <;> rfl
@[simp] theorem sSet_ev (W : Warp) (r : BitVec 6) (x : W64) : (sSet W r x).ev = W.ev := by unfold sSet; split <;> rfl
@[simp] theorem sSet_evSys (W : Warp) (r : BitVec 6) (x : W64) : (sSet W r x).evSys = W.evSys := by unfold sSet; split <;> rfl
@[simp] theorem sSet_lc (W : Warp) (r : BitVec 6) (x : W64) : (sSet W r x).lc = W.lc := by unfold sSet; split <;> rfl
@[simp] theorem sSet_loops (W : Warp) (r : BitVec 6) (x : W64) : (sSet W r x).loops = W.loops := by unfold sSet; split <;> rfl
@[simp] theorem sSet_calls (W : Warp) (r : BitVec 6) (x : W64) : (sSet W r x).calls = W.calls := by unfold sSet; split <;> rfl
@[simp] theorem sSet_reel (W : Warp) (r : BitVec 6) (x : W64) : (sSet W r x).reel = W.reel := by unfold sSet; split <;> rfl
@[simp] theorem sSet_v (W : Warp) (r : BitVec 6) (x : W64) : (sSet W r x).v = W.v := by unfold sSet; split <;> rfl
@[simp] theorem sSet_p (W : Warp) (r : BitVec 6) (x : W64) : (sSet W r x).p = W.p := by unfold sSet; split <;> rfl
@[simp] theorem sSet_m (W : Warp) (r : BitVec 6) (x : W64) : (sSet W r x).m = W.m := by unfold sSet; split <;> rfl
@[simp] theorem sSet_w (W : Warp) (r : BitVec 6) (x : W64) : (sSet W r x).w = W.w := by unfold sSet; split <;> rfl
@[simp] theorem sSet_cells (W : Warp) (r : BitVec 6) (x : W64) : (sSet W r x).cells = W.cells := by unfold sSet; split <;> rfl
@[simp] theorem sSet_h (W : Warp) (r : BitVec 6) (x : W64) : (sSet W r x).h = W.h := by unfold sSet; split <;> rfl
@[simp] theorem sSet_k (W : Warp) (r : BitVec 6) (x : W64) : (sSet W r x).k = W.k := by unfold sSet; split <;> rfl
@[simp] theorem sSet_kuser (W : Warp) (r : BitVec 6) (x : W64) : (sSet W r x).kuser = W.kuser := by unfold sSet; split <;> rfl
@[simp] theorem sSet_tile (W : Warp) (r : BitVec 6) (x : W64) : (sSet W r x).tile = W.tile := by unfold sSet; split <;> rfl
@[simp] theorem sSet_pend (W : Warp) (r : BitVec 6) (x : W64) : (sSet W r x).pend = W.pend := by unfold sSet; split <;> rfl
@[simp] theorem sSet_fence (W : Warp) (r : BitVec 6) (x : W64) : (sSet W r x).fence = W.fence := by unfold sSet; split <;> rfl
@[simp] theorem sSet_closed (W : Warp) (r : BitVec 6) (x : W64) : (sSet W r x).closed = W.closed := by unfold sSet; split <;> rfl
@[simp] theorem sSet_openId (W : Warp) (r : BitVec 6) (x : W64) : (sSet W r x).openId = W.openId := by unfold sSet; split <;> rfl
@[simp] theorem sSet_openN (W : Warp) (r : BitVec 6) (x : W64) : (sSet W r x).openN = W.openN := by unfold sSet; split <;> rfl
@[simp] theorem sSet_openUsed (W : Warp) (r : BitVec 6) (x : W64) : (sSet W r x).openUsed = W.openUsed := by unfold sSet; split <;> rfl
@[simp] theorem sSet_verdicts (W : Warp) (r : BitVec 6) (x : W64) : (sSet W r x).verdicts = W.verdicts := by unfold sSet; split <;> rfl
@[simp] theorem sSet_waits (W : Warp) (r : BitVec 6) (x : W64) : (sSet W r x).waits = W.waits := by unfold sSet; split <;> rfl
@[simp] theorem sSet_lag (W : Warp) (r : BitVec 6) (x : W64) : (sSet W r x).lag = W.lag := by unfold sSet; split <;> rfl
@[simp] theorem advanceW_launch (W : Warp) (len : Nat) : (advanceW W len).launch = W.launch := by unfold advanceW; simp only []; split <;> rfl
@[simp] theorem advanceW_gang (W : Warp) (len : Nat) : (advanceW W len).gang = W.gang := by unfold advanceW; simp only []; split <;> rfl
@[simp] theorem advanceW_group (W : Warp) (len : Nat) : (advanceW W len).group = W.group := by unfold advanceW; simp only []; split <;> rfl
@[simp] theorem advanceW_wid (W : Warp) (len : Nat) : (advanceW W len).wid = W.wid := by unfold advanceW; simp only []; split <;> rfl
@[simp] theorem advanceW_core (W : Warp) (len : Nat) : (advanceW W len).core = W.core := by unfold advanceW; simp only []; split <;> rfl
@[simp] theorem advanceW_slot (W : Warp) (len : Nat) : (advanceW W len).slot = W.slot := by unfold advanceW; simp only []; split <;> rfl
@[simp] theorem advanceW_shadowSlot (W : Warp) (len : Nat) : (advanceW W len).shadowSlot = W.shadowSlot := by unfold advanceW; simp only []; split <;> rfl
@[simp] theorem advanceW_gangId (W : Warp) (len : Nat) : (advanceW W len).gangId = W.gangId := by unfold advanceW; simp only []; split <;> rfl
@[simp] theorem advanceW_groupId (W : Warp) (len : Nat) : (advanceW W len).groupId = W.groupId := by unfold advanceW; simp only []; split <;> rfl
@[simp] theorem advanceW_warpId (W : Warp) (len : Nat) : (advanceW W len).warpId = W.warpId := by unfold advanceW; simp only []; split <;> rfl
@[simp] theorem advanceW_nv (W : Warp) (len : Nat) : (advanceW W len).nv = W.nv := by unfold advanceW; simp only []; split <;> rfl
@[simp] theorem advanceW_ns (W : Warp) (len : Nat) : (advanceW W len).ns = W.ns := by unfold advanceW; simp only []; split <;> rfl
@[simp] theorem advanceW_stat (W : Warp) (len : Nat) : (advanceW W len).stat = W.stat := by unfold advanceW; simp only []; split <;> rfl
@[simp] theorem advanceW_level (W : Warp) (len : Nat) : (advanceW W len).level = W.level := by unfold advanceW; simp only []; split <;> rfl
@[simp] theorem advanceW_code (W : Warp) (len : Nat) : (advanceW W len).code = W.code := by unfold advanceW; simp only []; split <;> rfl
@[simp] theorem advanceW_codeAt (W : Warp) (len : Nat) : (advanceW W len).codeAt = W.codeAt := by unfold advanceW; simp only []; split <;> rfl
@[simp] theorem advanceW_ports (W : Warp) (len : Nat) : (advanceW W len).ports = W.ports := by unfold advanceW; simp only []; split <;> rfl
@[simp] theorem advanceW_barH (W : Warp) (len : Nat) : (advanceW W len).barH = W.barH := by unfold advanceW; simp only []; split <;> rfl
@[simp] theorem advanceW_barJ (W : Warp) (len : Nat) : (advanceW W len).barJ = W.barJ := by unfold advanceW; simp only []; split <;> rfl
@[simp] theorem advanceW_entry (W : Warp) (len : Nat) : (advanceW W len).entry = W.entry := by unfold advanceW; simp only []; split <;> rfl
@[simp] theorem advanceW_exm (W : Warp) (len : Nat) : (advanceW W len).exm = W.exm := by unfold advanceW; simp only []; split <;> rfl
@[simp] theorem advanceW_fltm (W : Warp) (len : Nat) : (advanceW W len).fltm = W.fltm := by unfold advanceW; simp only []; split <;> rfl
@[simp] theorem advanceW_demm (W : Warp) (len : Nat) : (advanceW W len).demm = W.demm := by unfold advanceW; simp only []; split <;> rfl
@[simp] theorem advanceW_deadm (W : Warp) (len : Nat) : (advanceW W len).deadm = W.deadm := by unfold advanceW; simp only []; split <;> rfl
@[simp] theorem advanceW_deck (W : Warp) (len : Nat) : (advanceW W len).deck = W.deck := by unfold advanceW; simp only []; split <;> rfl
@[simp] theorem advanceW_fpst (W : Warp) (len : Nat) : (advanceW W len).fpst = W.fpst := by unfold advanceW; simp only []; split <;> rfl
@[simp] theorem advanceW_mode (W : Warp) (len : Nat) : (advanceW W len).mode = W.mode := by unfold advanceW; simp only []; split <;> rfl
@[simp] theorem advanceW_mclaim (W : Warp) (len : Nat) : (advanceW W len).mclaim = W.mclaim := by unfold advanceW; simp only []; split <;> rfl
@[simp] theorem advanceW_mrowm (W : Warp) (len : Nat) : (advanceW W len).mrowm = W.mrowm := by unfold advanceW; simp only []; split <;> rfl
@[simp] theorem advanceW_mcolm (W : Warp) (len : Nat) : (advanceW W len).mcolm = W.mcolm := by unfold advanceW; simp only []; split <;> rfl
@[simp] theorem advanceW_ev (W : Warp) (len : Nat) : (advanceW W len).ev = W.ev := by unfold advanceW; simp only []; split <;> rfl
@[simp] theorem advanceW_evSys (W : Warp) (len : Nat) : (advanceW W len).evSys = W.evSys := by unfold advanceW; simp only []; split <;> rfl
@[simp] theorem advanceW_lc (W : Warp) (len : Nat) : (advanceW W len).lc = W.lc := by unfold advanceW; simp only []; split <;> rfl
@[simp] theorem advanceW_loops (W : Warp) (len : Nat) : (advanceW W len).loops = W.loops := by unfold advanceW; simp only []; split <;> rfl
@[simp] theorem advanceW_calls (W : Warp) (len : Nat) : (advanceW W len).calls = W.calls := by unfold advanceW; simp only []; split <;> rfl
@[simp] theorem advanceW_reel (W : Warp) (len : Nat) : (advanceW W len).reel = W.reel := by unfold advanceW; simp only []; split <;> rfl
@[simp] theorem advanceW_v (W : Warp) (len : Nat) : (advanceW W len).v = W.v := by unfold advanceW; simp only []; split <;> rfl
@[simp] theorem advanceW_s (W : Warp) (len : Nat) : (advanceW W len).s = W.s := by unfold advanceW; simp only []; split <;> rfl
@[simp] theorem advanceW_p (W : Warp) (len : Nat) : (advanceW W len).p = W.p := by unfold advanceW; simp only []; split <;> rfl
@[simp] theorem advanceW_m (W : Warp) (len : Nat) : (advanceW W len).m = W.m := by unfold advanceW; simp only []; split <;> rfl
@[simp] theorem advanceW_w (W : Warp) (len : Nat) : (advanceW W len).w = W.w := by unfold advanceW; simp only []; split <;> rfl
@[simp] theorem advanceW_cells (W : Warp) (len : Nat) : (advanceW W len).cells = W.cells := by unfold advanceW; simp only []; split <;> rfl
@[simp] theorem advanceW_h (W : Warp) (len : Nat) : (advanceW W len).h = W.h := by unfold advanceW; simp only []; split <;> rfl
@[simp] theorem advanceW_k (W : Warp) (len : Nat) : (advanceW W len).k = W.k := by unfold advanceW; simp only []; split <;> rfl
@[simp] theorem advanceW_kuser (W : Warp) (len : Nat) : (advanceW W len).kuser = W.kuser := by unfold advanceW; simp only []; split <;> rfl
@[simp] theorem advanceW_tile (W : Warp) (len : Nat) : (advanceW W len).tile = W.tile := by unfold advanceW; simp only []; split <;> rfl
@[simp] theorem advanceW_pend (W : Warp) (len : Nat) : (advanceW W len).pend = W.pend := by unfold advanceW; simp only []; split <;> rfl
@[simp] theorem advanceW_fence (W : Warp) (len : Nat) : (advanceW W len).fence = W.fence := by unfold advanceW; simp only []; split <;> rfl
@[simp] theorem advanceW_closed (W : Warp) (len : Nat) : (advanceW W len).closed = W.closed := by unfold advanceW; simp only []; split <;> rfl
@[simp] theorem advanceW_openId (W : Warp) (len : Nat) : (advanceW W len).openId = W.openId := by unfold advanceW; simp only []; split <;> rfl
@[simp] theorem advanceW_openN (W : Warp) (len : Nat) : (advanceW W len).openN = W.openN := by unfold advanceW; simp only []; split <;> rfl
@[simp] theorem advanceW_openUsed (W : Warp) (len : Nat) : (advanceW W len).openUsed = W.openUsed := by unfold advanceW; simp only []; split <;> rfl
@[simp] theorem advanceW_waits (W : Warp) (len : Nat) : (advanceW W len).waits = W.waits := by unfold advanceW; simp only []; split <;> rfl
@[simp] theorem advanceW_lag (W : Warp) (len : Nat) : (advanceW W len).lag = W.lag := by unfold advanceW; simp only []; split <;> rfl

/-! Registers: reads after writes -/

@[simp] theorem sGet_zero (W : Warp) : sGet W 0#6 = 0 := rfl
@[simp] theorem sSet_zero (W : Warp) (x : W64) : sSet W 0#6 x = W := rfl
theorem sGet_sSet (W : Warp) (r q : BitVec 6) (x : W64) :
    sGet (sSet W r x) q = if q = r then (if r = 0 then 0 else x) else sGet W q := by
  by_cases hr : r = 0
  · subst hr
    by_cases hq : q = 0
    · subst hq; simp
    · rw [if_neg hq]; rfl
  · unfold sSet sGet
    rw [if_neg hr]
    by_cases hq : q = r
    · subst hq
      rw [if_neg hr, if_pos rfl, if_neg hr]
      exact tabGet_tabSet_same _ _ _ _
    · have hn : q.toNat ≠ r.toNat := fun h => hq (BitVec.eq_of_toNat_eq h)
      rw [if_neg hq]
      split
      · rfl
      · exact tabGet_tabSet_ne _ _ _ hn
theorem vKey_inj {r q l k : Nat} (hl : l < 32) (hk : k < 32) : vKey q k = vKey r l ↔ q = r ∧ k = l := by
  unfold vKey; omega
theorem vGet_vSet (W : Warp) {r q l k : Nat} (x : W32) (hl : l < 32) (hk : k < 32) :
    vGet (vSet W r l x) q k = if q = r ∧ k = l then x else vGet W q k := by
  unfold vGet vSet
  rw [tabGet_tabSet]
  simp only [vKey_inj hl hk]
theorem pGet_pSet (W : Warp) (r q : Nat) (x : W32) : pGet (pSet W r x) q = if q = r then x else pGet W q :=
  tabGet_tabSet _ _ _ _ _
theorem mGet_mSet (W : Warp) (r q : Nat) (x : BitVec 256) : mGet (mSet W r x) q = if q = r then x else mGet W q :=
  tabGet_tabSet _ _ _ _ _
theorem wGet_wSet (W : Warp) (r q : Nat) (x : WebSlot) : wGet (wSet W r x) q = if q = r then x else wGet W q :=
  tabGet_tabSet _ _ _ _ _
theorem lcGet_lcSet (W : Warp) (r q : Nat) (x : W64) : lcGet (lcSet W r x) q = if q = r then x else lcGet W q :=
  tabGet_tabSet _ _ _ _ _
theorem barGet_barSet (s : State) (o q : Nat) (v : W64) :
    barGet (barSet s o v) q = if q = o then v else barGet s q :=
  tabGet_tabSet _ _ _ _ _

end Sys2Proof.Machine
end

