-- ==== Sys2Proof/Laws/Ops.lean ====
section
/-! SUPPORT. What the shared operations do, said once: the issue of a word, a scalar form, a vector form without streams,
a transfer of control, and the arrival at the next word. -/

namespace Sys2Proof.Machine

/-- A step that the host's lines hold back sends the back-invalidates and writes nothing. -/
theorem withLines_nil (s : State) (k : Out) : withLines s [] k = k := rfl
theorem withLines_cons (s : State) (l : Nat) (ls : List Nat) (k : Out) : withLines s (l :: ls) k = .next (askLines s (l :: ls)) := rfl

/-- With no line that the host may cache nothing is asked for. -/
theorem heldLines_none {s : State} (h : s.hostLines = []) (hb : s.backInv = []) (pa n : Nat) : heldLines s pa n = [] := by
  unfold heldLines; simp [h, hb]
theorem coreLines_none {s : State} (h : s.hostLines = []) (hb : s.backInv = []) (core : Nat) : coreLines s core = [] := by
  unfold coreLines; simp [h, hb]

/-- An access to the driver's tables that exist goes on when the host holds none of their lines. -/
theorem withPaLines_free {s : State} {pa n : Nat} (hp : (paExists pa && paExists (pa + (n - 1))) = true)
    (hl : heldLines s pa n = []) (k : Out) : withPaLines s pa n k = k := by
  unfold withPaLines withPa; rw [if_pos hp, hl]; rfl

/-- An error record goes to the ring at once where no other waits and no line of its place has to be asked for. -/
theorem errRecord_free {s : State} (hq : s.errq = []) (hl : errLines s = []) (cls action die job id loc pa : Nat) :
    errRecord s cls action die job id loc pa = errPut s (errValue s cls action die job id loc pa) := by
  unfold errRecord; simp [hq, hl]

theorem withWarp_issues {s : State} {w : Nat} (h : Issues s w) (k : Nat → Warp → Out) :
    withWarp s k = k w (getW s w) := by
  unfold withWarp; rw [h.1]; simp [h.2]

/-- The issue of a word by a chosen warp: the reason of a late check, else the least held register, else its effect. -/
theorem issue_issues {s : State} {w : Nat} (h : Issues s w) (reason : Warp → Option Nat) (named : List Nat)
    (k : Nat → Warp → Out) :
    issue s reason named k = match reason (getW s w) with
      | some r => .next (illegal s w r)
      | none => match (named.filter fun r => claimed (getW s w) r).min? with
        | some r => .next (faultAt s w 4 1 r 0 0)
        | none => k w (getW s w) := by
  unfold issue
  refine (withWarp_issues h _).trans ?_
  cases reason (getW s w) with
  | some r => rfl
  | none => cases (named.filter fun r => claimed (getW s w) r).min? <;> rfl

/-- With nothing against it, a word acts. -/
theorem issue_ready {s : State} {w : Nat} (h : Issues s w) {reason : Warp → Option Nat} {named : List Nat}
    (hr : reason (getW s w) = none) (hn : ∀ r ∈ named, claimed (getW s w) r = false) (k : Nat → Warp → Out) :
    issue s reason named k = k w (getW s w) := by
  have hf : (named.filter fun r => claimed (getW s w) r) = [] := by
    rw [List.filter_eq_nil_iff]; intro r hr; simp [hn r hr]
  rw [issue_issues h, hr, hf]; rfl

theorem issue_reason {s : State} {w : Nat} (h : Issues s w) {reason : Warp → Option Nat} {named : List Nat} {r : Nat}
    (hr : reason (getW s w) = some r) (k : Nat → Warp → Out) : issue s reason named k = .next (illegal s w r) := by
  rw [issue_issues h, hr]

theorem regReason_none {W : Warp} {vs : List Nat} {ss : List (BitVec 6)} (hv : ∀ r ∈ vs, r < W.nv) (hs : ScalarsOk W ss) :
    regReason W vs ss = none := by
  unfold regReason
  rw [if_pos]
  simp only [Bool.and_eq_true, List.all_eq_true]
  exact ⟨fun r hr => by simpa [vOk] using hv r hr, fun r hr => by simpa [sOk] using hs r hr⟩

theorem regReason_scalars {W : Warp} {ss : List (BitVec 6)} (hs : ScalarsOk W ss) : regReason W [] ss = none :=
  regReason_none (by simp) hs

theorem regReason_bad {W : Warp} {vs : List Nat} {ss : List (BitVec 6)} (hs : ¬ ScalarsOk W ss) :
    regReason W vs ss = some 0x15 := by
  unfold regReason
  rw [if_neg]
  intro h
  simp only [Bool.and_eq_true, List.all_eq_true] at h
  exact hs fun r hr => by simpa [sOk] using h.2 r hr

/-- A scalar form of allocated registers writes its result and the warp goes on. -/
theorem scalarOp_ready {s : State} {w : Nat} (h : Issues s w) {len : Nat} {d : BitVec 6} {src : List (BitVec 6)}
    (hs : ScalarsOk (getW s w) (d :: src)) (f : Warp → W64) :
    scalarOp s len d src f = .next (advance (setW s w (sSet (getW s w) d (f (getW s w)))) w len) := by
  unfold scalarOp
  rw [issue_ready h (regReason_scalars hs) (by simp)]

theorem scalar2_ready {s : State} {w : Nat} (h : Issues s w) {d a b : BitVec 6}
    (hs : ScalarsOk (getW s w) [d, a, b]) (f : W64 → W64 → W64) :
    scalar2 s d a b f
      = .next (advance (setW s w (sSet (getW s w) d (f (sGet (getW s w) a) (sGet (getW s w) b)))) w 1) :=
  scalarOp_ready h hs _

theorem scalar1_ready {s : State} {w : Nat} (h : Issues s w) {d a : BitVec 6}
    (hs : ScalarsOk (getW s w) [d, a]) (f : W64 → W64) :
    scalar1 s d a f = .next (advance (setW s w (sSet (getW s w) d (f (sGet (getW s w) a)))) w 1) :=
  scalarOp_ready h hs _

/-- With no web register bound to one of its registers an instruction consumes no stream. -/
theorem streamsOf_nil {W : Warp} {srcs : List Nat} {dst : Option Nat} (h : NoStream W (dst.toList ++ srcs)) :
    streamsOf W srcs dst = [] := by
  unfold streamsOf
  rw [List.filterMap_eq_nil_iff]
  intro i hi
  have hi' : i < 4 := by simpa using hi
  cases hb : (wGet W i).bound with
  | false => simp [hb]
  | true =>
    have hn := h i hi' hb
    simp only [List.mem_append, not_or] at hn
    have h1 : srcs.contains (wGet W i).reg.toNat = false := by simpa using hn.2
    have h2 : ¬ dst = some (wGet W i).reg.toNat := fun e => hn.1 (by simp [e])
    simp [hb, h2, hn.2]

/-- A vector form whose registers are free and no stream's writes its result and the warp goes on. -/
theorem vecOp_ready {s : State} {w : Nat} {len : Nat} {dst : Option Nat} {srcs : List Nat} {ss : List (BitVec 6)}
    (h : VectorReady s w (dst.toList ++ srcs) ss) (f : Warp → VRead → VRes) :
    vecOp s len dst srcs ss f
      = .next (advance (setW s w (putRes (getW s w) (dst.getD 0) (f (getW s w) (vGet (getW s w))))) w len) := by
  obtain ⟨hi, hv, hs, hn⟩ := h
  simp only [vecOp]
  rw [issue_ready hi (regReason_none (fun r hr => (hv r hr).1) hs) fun r hr => (hv r hr).2, streamsOf_nil hn]
  simp only [updW_eq_setW]

/-- A transfer to a legal target is taken. -/
theorem transfer_ok {s : State} {w : Nat} {a : W64} (h : landCheck s (getW s w) a = .ok) (go : State → State) :
    transfer s w a go = .next (go s) := by
  unfold transfer; rw [h]

/-- A warp that stands at no join stays where it is. -/
theorem settle_stays {s : State} {w : Nat} (h : atJoin (getW s w) = false) : settle s w = s := by
  have hs : ∀ k, serveArrivals (getW s w) (k + 1) = .go (getW s w) := by
    intro k
    unfold serveArrivals
    unfold atJoin at h
    split
    · next e r hr =>
      rw [hr] at h
      have hc : ¬ (e.kind = .jxtK ∧ (!(getW s w).started) = true ∧ (getW s w).pc = e.resume) := by
        intro hc
        have h2 : (getW s w).started = false := by simpa using hc.2.1
        simp [hc.1, h2, hc.2.2] at h
      rw [if_neg hc]
    · rfl
  unfold settle
  rw [hs 63]
  exact setW_getW s w

end Sys2Proof.Machine
end

