-- ==== Sys2Proof/Laws/PerInstr.lean ====
section
/-! SUPPORT. The family `Coded`, per instruction: outside its fields, an instruction's word has the bits that its row of the
opcode table fixes (spec/03 R68 to R83), whatever its operands. An event has no word, and nothing is said of it. -/

namespace Sys2Proof.Laws.Coded

/-- The fixed bits of an instruction's word are those of its row. -/
def Statement (i : Instr) : Prop := isWord i = true → encodeWord i &&& (tableRow i).1 = (tableRow i).2

theorem clauseStart (n : BitVec 4) (p : BitVec 4) (w : BitVec 6) (y : BitVec 1) (s : BitVec 1) (rsv : BitVec 10) : Statement (.clauseStart n p w y s rsv) := fun _ => by
  show (0x3F#6 ++ n ++ p ++ w ++ y ++ s ++ rsv : W32) &&& (0x3F#6 ++ 0x0#4 ++ 0x0#4 ++ 0x0#6 ++ 0x0#1 ++ 0x0#1 ++ 0x0#10 : W32) = 0xFC000000#32
  simp only [BitVec.and_append]
  simp
theorem sadd (d : BitVec 6) (a : BitVec 6) (b : BitVec 6) : Statement (.sadd d a b) := fun _ => by
  show (0x0#6 ++ d ++ a ++ b ++ 0x0#8 : W32) &&& (0x3F#6 ++ 0x0#6 ++ 0x0#6 ++ 0x0#6 ++ 0xFF#8 : W32) = 0x0#32
  simp only [BitVec.and_append]
  simp
theorem ssub (d : BitVec 6) (a : BitVec 6) (b : BitVec 6) : Statement (.ssub d a b) := fun _ => by
  show (0x0#6 ++ d ++ a ++ b ++ 0x1#8 : W32) &&& (0x3F#6 ++ 0x0#6 ++ 0x0#6 ++ 0x0#6 ++ 0xFF#8 : W32) = 0x1#32
  simp only [BitVec.and_append]
  simp
theorem smul (d : BitVec 6) (a : BitVec 6) (b : BitVec 6) : Statement (.smul d a b) := fun _ => by
  show (0x0#6 ++ d ++ a ++ b ++ 0x2#8 : W32) &&& (0x3F#6 ++ 0x0#6 ++ 0x0#6 ++ 0x0#6 ++ 0xFF#8 : W32) = 0x2#32
  simp only [BitVec.and_append]
  simp
theorem smulhI64 (d : BitVec 6) (a : BitVec 6) (b : BitVec 6) : Statement (.smulhI64 d a b) := fun _ => by
  show (0x0#6 ++ d ++ a ++ b ++ 0x3#8 : W32) &&& (0x3F#6 ++ 0x0#6 ++ 0x0#6 ++ 0x0#6 ++ 0xFF#8 : W32) = 0x3#32
  simp only [BitVec.and_append]
  simp
theorem smulhUi64 (d : BitVec 6) (a : BitVec 6) (b : BitVec 6) : Statement (.smulhUi64 d a b) := fun _ => by
  show (0x0#6 ++ d ++ a ++ b ++ 0x4#8 : W32) &&& (0x3F#6 ++ 0x0#6 ++ 0x0#6 ++ 0x0#6 ++ 0xFF#8 : W32) = 0x4#32
  simp only [BitVec.and_append]
  simp
theorem sdivI64 (d : BitVec 6) (a : BitVec 6) (b : BitVec 6) : Statement (.sdivI64 d a b) := fun _ => by
  show (0x0#6 ++ d ++ a ++ b ++ 0x5#8 : W32) &&& (0x3F#6 ++ 0x0#6 ++ 0x0#6 ++ 0x0#6 ++ 0xFF#8 : W32) = 0x5#32
  simp only [BitVec.and_append]
  simp
theorem sdivUi64 (d : BitVec 6) (a : BitVec 6) (b : BitVec 6) : Statement (.sdivUi64 d a b) := fun _ => by
  show (0x0#6 ++ d ++ a ++ b ++ 0x6#8 : W32) &&& (0x3F#6 ++ 0x0#6 ++ 0x0#6 ++ 0x0#6 ++ 0xFF#8 : W32) = 0x6#32
  simp only [BitVec.and_append]
  simp
theorem sremI64 (d : BitVec 6) (a : BitVec 6) (b : BitVec 6) : Statement (.sremI64 d a b) := fun _ => by
  show (0x0#6 ++ d ++ a ++ b ++ 0x7#8 : W32) &&& (0x3F#6 ++ 0x0#6 ++ 0x0#6 ++ 0x0#6 ++ 0xFF#8 : W32) = 0x7#32
  simp only [BitVec.and_append]
  simp
theorem sremUi64 (d : BitVec 6) (a : BitVec 6) (b : BitVec 6) : Statement (.sremUi64 d a b) := fun _ => by
  show (0x0#6 ++ d ++ a ++ b ++ 0x8#8 : W32) &&& (0x3F#6 ++ 0x0#6 ++ 0x0#6 ++ 0x0#6 ++ 0xFF#8 : W32) = 0x8#32
  simp only [BitVec.and_append]
  simp
theorem sand (d : BitVec 6) (a : BitVec 6) (b : BitVec 6) : Statement (.sand d a b) := fun _ => by
  show (0x0#6 ++ d ++ a ++ b ++ 0x9#8 : W32) &&& (0x3F#6 ++ 0x0#6 ++ 0x0#6 ++ 0x0#6 ++ 0xFF#8 : W32) = 0x9#32
  simp only [BitVec.and_append]
  simp
theorem sor (d : BitVec 6) (a : BitVec 6) (b : BitVec 6) : Statement (.sor d a b) := fun _ => by
  show (0x0#6 ++ d ++ a ++ b ++ 0xA#8 : W32) &&& (0x3F#6 ++ 0x0#6 ++ 0x0#6 ++ 0x0#6 ++ 0xFF#8 : W32) = 0xA#32
  simp only [BitVec.and_append]
  simp
theorem sxor (d : BitVec 6) (a : BitVec 6) (b : BitVec 6) : Statement (.sxor d a b) := fun _ => by
  show (0x0#6 ++ d ++ a ++ b ++ 0xB#8 : W32) &&& (0x3F#6 ++ 0x0#6 ++ 0x0#6 ++ 0x0#6 ++ 0xFF#8 : W32) = 0xB#32
  simp only [BitVec.and_append]
  simp
theorem sshl (d : BitVec 6) (a : BitVec 6) (b : BitVec 6) : Statement (.sshl d a b) := fun _ => by
  show (0x0#6 ++ d ++ a ++ b ++ 0xC#8 : W32) &&& (0x3F#6 ++ 0x0#6 ++ 0x0#6 ++ 0x0#6 ++ 0xFF#8 : W32) = 0xC#32
  simp only [BitVec.and_append]
  simp
theorem sshr (d : BitVec 6) (a : BitVec 6) (b : BitVec 6) : Statement (.sshr d a b) := fun _ => by
  show (0x0#6 ++ d ++ a ++ b ++ 0xD#8 : W32) &&& (0x3F#6 ++ 0x0#6 ++ 0x0#6 ++ 0x0#6 ++ 0xFF#8 : W32) = 0xD#32
  simp only [BitVec.and_append]
  simp
theorem ssra (d : BitVec 6) (a : BitVec 6) (b : BitVec 6) : Statement (.ssra d a b) := fun _ => by
  show (0x0#6 ++ d ++ a ++ b ++ 0xE#8 : W32) &&& (0x3F#6 ++ 0x0#6 ++ 0x0#6 ++ 0x0#6 ++ 0xFF#8 : W32) = 0xE#32
  simp only [BitVec.and_append]
  simp
theorem sminI64 (d : BitVec 6) (a : BitVec 6) (b : BitVec 6) : Statement (.sminI64 d a b) := fun _ => by
  show (0x0#6 ++ d ++ a ++ b ++ 0xF#8 : W32) &&& (0x3F#6 ++ 0x0#6 ++ 0x0#6 ++ 0x0#6 ++ 0xFF#8 : W32) = 0xF#32
  simp only [BitVec.and_append]
  simp
theorem sminUi64 (d : BitVec 6) (a : BitVec 6) (b : BitVec 6) : Statement (.sminUi64 d a b) := fun _ => by
  show (0x0#6 ++ d ++ a ++ b ++ 0x10#8 : W32) &&& (0x3F#6 ++ 0x0#6 ++ 0x0#6 ++ 0x0#6 ++ 0xFF#8 : W32) = 0x10#32
  simp only [BitVec.and_append]
  simp
theorem smaxI64 (d : BitVec 6) (a : BitVec 6) (b : BitVec 6) : Statement (.smaxI64 d a b) := fun _ => by
  show (0x0#6 ++ d ++ a ++ b ++ 0x11#8 : W32) &&& (0x3F#6 ++ 0x0#6 ++ 0x0#6 ++ 0x0#6 ++ 0xFF#8 : W32) = 0x11#32
  simp only [BitVec.and_append]
  simp
theorem smaxUi64 (d : BitVec 6) (a : BitVec 6) (b : BitVec 6) : Statement (.smaxUi64 d a b) := fun _ => by
  show (0x0#6 ++ d ++ a ++ b ++ 0x12#8 : W32) &&& (0x3F#6 ++ 0x0#6 ++ 0x0#6 ++ 0x0#6 ++ 0xFF#8 : W32) = 0x12#32
  simp only [BitVec.and_append]
  simp
theorem sclz (d : BitVec 6) (a : BitVec 6) : Statement (.sclz d a) := fun _ => by
  show (0x0#6 ++ d ++ a ++ 0x13#14 : W32) &&& (0x3F#6 ++ 0x0#6 ++ 0x0#6 ++ 0x3FFF#14 : W32) = 0x13#32
  simp only [BitVec.and_append]
  simp
theorem spopc (d : BitVec 6) (a : BitVec 6) : Statement (.spopc d a) := fun _ => by
  show (0x0#6 ++ d ++ a ++ 0x14#14 : W32) &&& (0x3F#6 ++ 0x0#6 ++ 0x0#6 ++ 0x3FFF#14 : W32) = 0x14#32
  simp only [BitVec.and_append]
  simp
theorem sbrev (d : BitVec 6) (a : BitVec 6) : Statement (.sbrev d a) := fun _ => by
  show (0x0#6 ++ d ++ a ++ 0x15#14 : W32) &&& (0x3F#6 ++ 0x0#6 ++ 0x0#6 ++ 0x3FFF#14 : W32) = 0x15#32
  simp only [BitVec.and_append]
  simp
theorem smov (d : BitVec 6) (a : BitVec 6) : Statement (.smov d a) := fun _ => by
  show (0x0#6 ++ d ++ a ++ 0x16#14 : W32) &&& (0x3F#6 ++ 0x0#6 ++ 0x0#6 ++ 0x3FFF#14 : W32) = 0x16#32
  simp only [BitVec.and_append]
  simp
theorem tick (d : BitVec 6) : Statement (.tick d) := fun _ => by
  show (0x0#6 ++ d ++ 0x17#20 : W32) &&& (0x3F#6 ++ 0x0#6 ++ 0xFFFFF#20 : W32) = 0x17#32
  simp only [BitVec.and_append]
  simp
theorem ssel (d : BitVec 6) (a : BitVec 6) (b : BitVec 6) : Statement (.ssel d a b) := fun _ => by
  show (0x0#6 ++ d ++ a ++ b ++ 0x18#8 : W32) &&& (0x3F#6 ++ 0x0#6 ++ 0x0#6 ++ 0x0#6 ++ 0xFF#8 : W32) = 0x18#32
  simp only [BitVec.and_append]
  simp
theorem scmp (d : BitVec 6) (a : BitVec 6) (b : BitVec 6) (c : BitVec 4) : Statement (.scmp d a b c) := fun _ => by
  show (0x0#6 ++ d ++ a ++ b ++ 0x2#4 ++ c : W32) &&& (0x3F#6 ++ 0x0#6 ++ 0x0#6 ++ 0x0#6 ++ 0xF#4 ++ 0x0#4 : W32) = 0x20#32
  simp only [BitVec.and_append]
  simp
theorem sli (d : BitVec 6) (i : BitVec 14) (x : ImmPfx) : Statement (.sli d i x) := fun _ => by
  show (0x1#6 ++ d ++ 0x0#6 ++ i : W32) &&& (0x3F#6 ++ 0x0#6 ++ 0x3F#6 ++ 0x0#14 : W32) = 0x4000000#32
  simp only [BitVec.and_append]
  simp
theorem saddImm (d : BitVec 6) (a : BitVec 6) (i : BitVec 14) (x : ImmPfx) : Statement (.saddImm d a i x) := fun _ => by
  show (0x2#6 ++ d ++ a ++ i : W32) &&& (0x3F#6 ++ 0x0#6 ++ 0x0#6 ++ 0x0#14 : W32) = 0x8000000#32
  simp only [BitVec.and_append]
  simp
theorem sandImm (d : BitVec 6) (a : BitVec 6) (i : BitVec 14) (x : ImmPfx) : Statement (.sandImm d a i x) := fun _ => by
  show (0x3#6 ++ d ++ a ++ i : W32) &&& (0x3F#6 ++ 0x0#6 ++ 0x0#6 ++ 0x0#14 : W32) = 0xC000000#32
  simp only [BitVec.and_append]
  simp
theorem sshlImm (d : BitVec 6) (a : BitVec 6) (n : BitVec 6) : Statement (.sshlImm d a n) := fun _ => by
  show (0x4#6 ++ d ++ a ++ 0x0#8 ++ n : W32) &&& (0x3F#6 ++ 0x0#6 ++ 0x0#6 ++ 0xFF#8 ++ 0x0#6 : W32) = 0x10000000#32
  simp only [BitVec.and_append]
  simp
theorem sshrImm (d : BitVec 6) (a : BitVec 6) (n : BitVec 6) : Statement (.sshrImm d a n) := fun _ => by
  show (0x4#6 ++ d ++ a ++ 0x40#8 ++ n : W32) &&& (0x3F#6 ++ 0x0#6 ++ 0x0#6 ++ 0xFF#8 ++ 0x0#6 : W32) = 0x10001000#32
  simp only [BitVec.and_append]
  simp
theorem ssraImm (d : BitVec 6) (a : BitVec 6) (n : BitVec 6) : Statement (.ssraImm d a n) := fun _ => by
  show (0x4#6 ++ d ++ a ++ 0x80#8 ++ n : W32) &&& (0x3F#6 ++ 0x0#6 ++ 0x0#6 ++ 0xFF#8 ++ 0x0#6 : W32) = 0x10002000#32
  simp only [BitVec.and_append]
  simp
theorem sld (d : BitVec 6) (a : BitVec 6) (i : BitVec 14) (x : ImmPfx) (m : Option MemAttr) : Statement (.sld d a i x m) := fun _ => by
  show (0x5#6 ++ d ++ a ++ i : W32) &&& (0x3F#6 ++ 0x0#6 ++ 0x0#6 ++ 0x0#14 : W32) = 0x14000000#32
  simp only [BitVec.and_append]
  simp
theorem sst (d : BitVec 6) (a : BitVec 6) (i : BitVec 14) (x : ImmPfx) (m : Option MemAttr) : Statement (.sst d a i x m) := fun _ => by
  show (0x6#6 ++ d ++ a ++ i : W32) &&& (0x3F#6 ++ 0x0#6 ++ 0x0#6 ++ 0x0#14 : W32) = 0x18000000#32
  simp only [BitVec.and_append]
  simp
theorem rdsys (d : BitVec 6) (n : BitVec 14) : Statement (.rdsys d n) := fun _ => by
  show (0x7#6 ++ d ++ 0x0#6 ++ n : W32) &&& (0x3F#6 ++ 0x0#6 ++ 0x3F#6 ++ 0x0#14 : W32) = 0x1C000000#32
  simp only [BitVec.and_append]
  simp
theorem wrsys (a : BitVec 6) (n : BitVec 14) : Statement (.wrsys a n) := fun _ => by
  show (0x8#6 ++ 0x0#6 ++ a ++ n : W32) &&& (0x3F#6 ++ 0x3F#6 ++ 0x0#6 ++ 0x0#14 : W32) = 0x20000000#32
  simp only [BitVec.and_append]
  simp
theorem br (o : BitVec 19) : Statement (.br o) := fun _ => by
  show (0x9#6 ++ 0x0#7 ++ o : W32) &&& (0x3F#6 ++ 0x7F#7 ++ 0x0#19 : W32) = 0x24000000#32
  simp only [BitVec.and_append]
  simp
theorem bc (c : BitVec 4) (p : BitVec 3) (o : BitVec 19) : Statement (.bc c p o) := fun _ => by
  show (0xA#6 ++ c ++ p ++ o : W32) &&& (0x3F#6 ++ 0x0#4 ++ 0x0#3 ++ 0x0#19 : W32) = 0x28000000#32
  simp only [BitVec.and_append]
  simp
theorem call (o : BitVec 19) : Statement (.call o) := fun _ => by
  show (0xB#6 ++ 0x0#7 ++ o : W32) &&& (0x3F#6 ++ 0x7F#7 ++ 0x0#19 : W32) = 0x2C000000#32
  simp only [BitVec.and_append]
  simp
theorem pif (p : BitVec 3) (o : BitVec 19) : Statement (.pif p o) := fun _ => by
  show (0xC#6 ++ 0x1#4 ++ p ++ o : W32) &&& (0x3F#6 ++ 0xF#4 ++ 0x0#3 ++ 0x0#19 : W32) = 0x30400000#32
  simp only [BitVec.and_append]
  simp
theorem pifNot (p : BitVec 3) (o : BitVec 19) : Statement (.pifNot p o) := fun _ => by
  show (0xC#6 ++ 0x3#4 ++ p ++ o : W32) &&& (0x3F#6 ++ 0xF#4 ++ 0x0#3 ++ 0x0#19 : W32) = 0x30C00000#32
  simp only [BitVec.and_append]
  simp
theorem pelse (o : BitVec 19) : Statement (.pelse o) := fun _ => by
  show (0xD#6 ++ 0x0#7 ++ o : W32) &&& (0x3F#6 ++ 0x7F#7 ++ 0x0#19 : W32) = 0x34000000#32
  simp only [BitVec.and_append]
  simp
theorem loop (l : BitVec 2) (k : BitVec 5) (o : BitVec 19) : Statement (.loop l k o) := fun _ => by
  show (0xE#6 ++ l ++ k ++ o : W32) &&& (0x3F#6 ++ 0x0#2 ++ 0x0#5 ++ 0x0#19 : W32) = 0x38000000#32
  simp only [BitVec.and_append]
  simp
theorem nop : Statement .nop := fun _ => by
  show (0xF#6 ++ 0x0#26 : W32) &&& 0xFFFFFFFF#32 = 0x3C000000#32
  decide
theorem ret : Statement .ret := fun _ => by
  show (0xF#6 ++ 0x1#26 : W32) &&& 0xFFFFFFFF#32 = 0x3C000001#32
  decide
theorem pend : Statement .pend := fun _ => by
  show (0xF#6 ++ 0x2#26 : W32) &&& 0xFFFFFFFF#32 = 0x3C000002#32
  decide
theorem lbrk : Statement .lbrk := fun _ => by
  show (0xF#6 ++ 0x3#26 : W32) &&& 0xFFFFFFFF#32 = 0x3C000003#32
  decide
theorem bar (n : BitVec 6) : Statement (.bar n) := fun _ => by
  show (0xF#6 ++ 0x0#6 ++ n ++ 0x4#14 : W32) &&& (0x3F#6 ++ 0x3F#6 ++ 0x0#6 ++ 0x3FFF#14 : W32) = 0x3C000004#32
  simp only [BitVec.and_append]
  simp
theorem barv (n : BitVec 6) (b : BitVec 6) : Statement (.barv n b) := fun _ => by
  show (0xF#6 ++ 0x0#6 ++ n ++ b ++ 0x5#8 : W32) &&& (0x3F#6 ++ 0x3F#6 ++ 0x0#6 ++ 0x0#6 ++ 0xFF#8 : W32) = 0x3C000005#32
  simp only [BitVec.and_append]
  simp
theorem exit : Statement .exit := fun _ => by
  show (0xF#6 ++ 0x6#26 : W32) &&& 0xFFFFFFFF#32 = 0x3C000006#32
  decide
theorem demote : Statement .demote := fun _ => by
  show (0xF#6 ++ 0x7#26 : W32) &&& 0xFFFFFFFF#32 = 0x3C000007#32
  decide
theorem trap (n : BitVec 6) : Statement (.trap n) := fun _ => by
  show (0xF#6 ++ 0x0#6 ++ n ++ 0x8#14 : W32) &&& (0x3F#6 ++ 0x3F#6 ++ 0x0#6 ++ 0x3FFF#14 : W32) = 0x3C000008#32
  simp only [BitVec.and_append]
  simp
theorem rfe : Statement .rfe := fun _ => by
  show (0xF#6 ++ 0x9#26 : W32) &&& 0xFFFFFFFF#32 = 0x3C000009#32
  decide
theorem yield : Statement .yield := fun _ => by
  show (0xF#6 ++ 0xA#26 : W32) &&& 0xFFFFFFFF#32 = 0x3C00000A#32
  decide
theorem wait (n : BitVec 6) : Statement (.wait n) := fun _ => by
  show (0xF#6 ++ 0x0#6 ++ n ++ 0xB#14 : W32) &&& (0x3F#6 ++ 0x3F#6 ++ 0x0#6 ++ 0x3FFF#14 : W32) = 0x3C00000B#32
  simp only [BitVec.and_append]
  simp
theorem modeVx : Statement .modeVx := fun _ => by
  show (0xF#6 ++ 0xC#26 : W32) &&& 0xFFFFFFFF#32 = 0x3C00000C#32
  decide
theorem modeMx (c : BitVec 8) : Statement (.modeMx c) := fun _ => by
  show (0xF#6 ++ c ++ 0xD#18 : W32) &&& (0x3F#6 ++ 0x0#8 ++ 0x3FFFF#18 : W32) = 0x3C00000D#32
  simp only [BitVec.and_append]
  simp
theorem deck (c : BitVec 6) : Statement (.deck c) := fun _ => by
  show (0xF#6 ++ 0x0#6 ++ c ++ 0xE#14 : W32) &&& (0x3F#6 ++ 0x3F#6 ++ 0x0#6 ++ 0x3FFF#14 : W32) = 0x3C00000E#32
  simp only [BitVec.and_append]
  simp
theorem jxt (t : BitVec 6) (n : BitVec 6) (j : BitVec 6) (i : BitVec 8) : Statement (.jxt t n j i) := fun _ => by
  show (0x10#6 ++ t ++ n ++ j ++ i : W32) &&& (0x3F#6 ++ 0x0#6 ++ 0x0#6 ++ 0x0#6 ++ 0x0#8 : W32) = 0x40000000#32
  simp only [BitVec.and_append]
  simp
theorem vadd (d : BitVec 8) (a : BitVec 8) (b : BitVec 8) (t : Option TyPfx) : Statement (.vadd d a b t) := fun _ => by
  show (0x11#6 ++ d ++ a ++ b ++ 0x0#2 : W32) &&& (0x3F#6 ++ 0x0#8 ++ 0x0#8 ++ 0x0#8 ++ 0x3#2 : W32) = 0x44000000#32
  simp only [BitVec.and_append]
  simp
theorem vsub (d : BitVec 8) (a : BitVec 8) (b : BitVec 8) (t : Option TyPfx) : Statement (.vsub d a b t) := fun _ => by
  show (0x11#6 ++ d ++ a ++ b ++ 0x1#2 : W32) &&& (0x3F#6 ++ 0x0#8 ++ 0x0#8 ++ 0x0#8 ++ 0x3#2 : W32) = 0x44000001#32
  simp only [BitVec.and_append]
  simp
theorem vmul (d : BitVec 8) (a : BitVec 8) (b : BitVec 8) (t : Option TyPfx) : Statement (.vmul d a b t) := fun _ => by
  show (0x11#6 ++ d ++ a ++ b ++ 0x2#2 : W32) &&& (0x3F#6 ++ 0x0#8 ++ 0x0#8 ++ 0x0#8 ++ 0x3#2 : W32) = 0x44000002#32
  simp only [BitVec.and_append]
  simp
theorem vmulh (d : BitVec 8) (a : BitVec 8) (b : BitVec 8) (t : Option TyPfx) : Statement (.vmulh d a b t) := fun _ => by
  show (0x11#6 ++ d ++ a ++ b ++ 0x3#2 : W32) &&& (0x3F#6 ++ 0x0#8 ++ 0x0#8 ++ 0x0#8 ++ 0x3#2 : W32) = 0x44000003#32
  simp only [BitVec.and_append]
  simp
theorem vmad (d : BitVec 8) (a : BitVec 8) (b : BitVec 8) (t : Option TyPfx) : Statement (.vmad d a b t) := fun _ => by
  show (0x12#6 ++ d ++ a ++ b ++ 0x0#2 : W32) &&& (0x3F#6 ++ 0x0#8 ++ 0x0#8 ++ 0x0#8 ++ 0x3#2 : W32) = 0x48000000#32
  simp only [BitVec.and_append]
  simp
theorem vand (d : BitVec 8) (a : BitVec 8) (b : BitVec 8) (t : Option TyPfx) : Statement (.vand d a b t) := fun _ => by
  show (0x12#6 ++ d ++ a ++ b ++ 0x1#2 : W32) &&& (0x3F#6 ++ 0x0#8 ++ 0x0#8 ++ 0x0#8 ++ 0x3#2 : W32) = 0x48000001#32
  simp only [BitVec.and_append]
  simp
theorem vor (d : BitVec 8) (a : BitVec 8) (b : BitVec 8) (t : Option TyPfx) : Statement (.vor d a b t) := fun _ => by
  show (0x12#6 ++ d ++ a ++ b ++ 0x2#2 : W32) &&& (0x3F#6 ++ 0x0#8 ++ 0x0#8 ++ 0x0#8 ++ 0x3#2 : W32) = 0x48000002#32
  simp only [BitVec.and_append]
  simp
theorem vxor (d : BitVec 8) (a : BitVec 8) (b : BitVec 8) (t : Option TyPfx) : Statement (.vxor d a b t) := fun _ => by
  show (0x12#6 ++ d ++ a ++ b ++ 0x3#2 : W32) &&& (0x3F#6 ++ 0x0#8 ++ 0x0#8 ++ 0x0#8 ++ 0x3#2 : W32) = 0x48000003#32
  simp only [BitVec.and_append]
  simp
theorem vshl (d : BitVec 8) (a : BitVec 8) (b : BitVec 8) (t : Option TyPfx) : Statement (.vshl d a b t) := fun _ => by
  show (0x13#6 ++ d ++ a ++ b ++ 0x0#2 : W32) &&& (0x3F#6 ++ 0x0#8 ++ 0x0#8 ++ 0x0#8 ++ 0x3#2 : W32) = 0x4C000000#32
  simp only [BitVec.and_append]
  simp
theorem vshr (d : BitVec 8) (a : BitVec 8) (b : BitVec 8) (t : Option TyPfx) : Statement (.vshr d a b t) := fun _ => by
  show (0x13#6 ++ d ++ a ++ b ++ 0x1#2 : W32) &&& (0x3F#6 ++ 0x0#8 ++ 0x0#8 ++ 0x0#8 ++ 0x3#2 : W32) = 0x4C000001#32
  simp only [BitVec.and_append]
  simp
theorem vsra (d : BitVec 8) (a : BitVec 8) (b : BitVec 8) (t : Option TyPfx) : Statement (.vsra d a b t) := fun _ => by
  show (0x13#6 ++ d ++ a ++ b ++ 0x2#2 : W32) &&& (0x3F#6 ++ 0x0#8 ++ 0x0#8 ++ 0x0#8 ++ 0x3#2 : W32) = 0x4C000002#32
  simp only [BitVec.and_append]
  simp
theorem vmin (d : BitVec 8) (a : BitVec 8) (b : BitVec 8) (t : Option TyPfx) : Statement (.vmin d a b t) := fun _ => by
  show (0x13#6 ++ d ++ a ++ b ++ 0x3#2 : W32) &&& (0x3F#6 ++ 0x0#8 ++ 0x0#8 ++ 0x0#8 ++ 0x3#2 : W32) = 0x4C000003#32
  simp only [BitVec.and_append]
  simp
theorem vmax (d : BitVec 8) (a : BitVec 8) (b : BitVec 8) (t : Option TyPfx) : Statement (.vmax d a b t) := fun _ => by
  show (0x14#6 ++ d ++ a ++ b ++ 0x0#2 : W32) &&& (0x3F#6 ++ 0x0#8 ++ 0x0#8 ++ 0x0#8 ++ 0x3#2 : W32) = 0x50000000#32
  simp only [BitVec.and_append]
  simp
theorem fmin (d : BitVec 8) (a : BitVec 8) (b : BitVec 8) (t : Option TyPfx) : Statement (.fmin d a b t) := fun _ => by
  show (0x14#6 ++ d ++ a ++ b ++ 0x1#2 : W32) &&& (0x3F#6 ++ 0x0#8 ++ 0x0#8 ++ 0x0#8 ++ 0x3#2 : W32) = 0x50000001#32
  simp only [BitVec.and_append]
  simp
theorem fmax (d : BitVec 8) (a : BitVec 8) (b : BitVec 8) (t : Option TyPfx) : Statement (.fmax d a b t) := fun _ => by
  show (0x14#6 ++ d ++ a ++ b ++ 0x2#2 : W32) &&& (0x3F#6 ++ 0x0#8 ++ 0x0#8 ++ 0x0#8 ++ 0x3#2 : W32) = 0x50000002#32
  simp only [BitVec.and_append]
  simp
theorem fcpsgn (d : BitVec 8) (a : BitVec 8) (b : BitVec 8) (t : Option TyPfx) : Statement (.fcpsgn d a b t) := fun _ => by
  show (0x14#6 ++ d ++ a ++ b ++ 0x3#2 : W32) &&& (0x3F#6 ++ 0x0#8 ++ 0x0#8 ++ 0x0#8 ++ 0x3#2 : W32) = 0x50000003#32
  simp only [BitVec.and_append]
  simp
theorem fadd (d : BitVec 8) (a : BitVec 8) (b : BitVec 8) (t : Option TyPfx) : Statement (.fadd d a b t) := fun _ => by
  show (0x15#6 ++ d ++ a ++ b ++ 0x0#2 : W32) &&& (0x3F#6 ++ 0x0#8 ++ 0x0#8 ++ 0x0#8 ++ 0x3#2 : W32) = 0x54000000#32
  simp only [BitVec.and_append]
  simp
theorem fsub (d : BitVec 8) (a : BitVec 8) (b : BitVec 8) (t : Option TyPfx) : Statement (.fsub d a b t) := fun _ => by
  show (0x15#6 ++ d ++ a ++ b ++ 0x1#2 : W32) &&& (0x3F#6 ++ 0x0#8 ++ 0x0#8 ++ 0x0#8 ++ 0x3#2 : W32) = 0x54000001#32
  simp only [BitVec.and_append]
  simp
theorem fmul (d : BitVec 8) (a : BitVec 8) (b : BitVec 8) (t : Option TyPfx) : Statement (.fmul d a b t) := fun _ => by
  show (0x15#6 ++ d ++ a ++ b ++ 0x2#2 : W32) &&& (0x3F#6 ++ 0x0#8 ++ 0x0#8 ++ 0x0#8 ++ 0x3#2 : W32) = 0x54000002#32
  simp only [BitVec.and_append]
  simp
theorem ffma (d : BitVec 8) (a : BitVec 8) (b : BitVec 8) (t : Option TyPfx) : Statement (.ffma d a b t) := fun _ => by
  show (0x15#6 ++ d ++ a ++ b ++ 0x3#2 : W32) &&& (0x3F#6 ++ 0x0#8 ++ 0x0#8 ++ 0x0#8 ++ 0x3#2 : W32) = 0x54000003#32
  simp only [BitVec.and_append]
  simp
theorem hadd (d : BitVec 8) (a : BitVec 8) (b : BitVec 8) (t : Option TyPfx) : Statement (.hadd d a b t) := fun _ => by
  show (0x16#6 ++ d ++ a ++ b ++ 0x0#2 : W32) &&& (0x3F#6 ++ 0x0#8 ++ 0x0#8 ++ 0x0#8 ++ 0x3#2 : W32) = 0x58000000#32
  simp only [BitVec.and_append]
  simp
theorem hmul (d : BitVec 8) (a : BitVec 8) (b : BitVec 8) (t : Option TyPfx) : Statement (.hmul d a b t) := fun _ => by
  show (0x16#6 ++ d ++ a ++ b ++ 0x1#2 : W32) &&& (0x3F#6 ++ 0x0#8 ++ 0x0#8 ++ 0x0#8 ++ 0x3#2 : W32) = 0x58000001#32
  simp only [BitVec.and_append]
  simp
theorem hfma (d : BitVec 8) (a : BitVec 8) (b : BitVec 8) (t : Option TyPfx) : Statement (.hfma d a b t) := fun _ => by
  show (0x16#6 ++ d ++ a ++ b ++ 0x2#2 : W32) &&& (0x3F#6 ++ 0x0#8 ++ 0x0#8 ++ 0x0#8 ++ 0x3#2 : W32) = 0x58000002#32
  simp only [BitVec.and_append]
  simp
theorem hmin (d : BitVec 8) (a : BitVec 8) (b : BitVec 8) (t : Option TyPfx) : Statement (.hmin d a b t) := fun _ => by
  show (0x16#6 ++ d ++ a ++ b ++ 0x3#2 : W32) &&& (0x3F#6 ++ 0x0#8 ++ 0x0#8 ++ 0x0#8 ++ 0x3#2 : W32) = 0x58000003#32
  simp only [BitVec.and_append]
  simp
theorem hmax (d : BitVec 8) (a : BitVec 8) (b : BitVec 8) (t : Option TyPfx) : Statement (.hmax d a b t) := fun _ => by
  show (0x17#6 ++ d ++ a ++ b ++ 0x0#2 : W32) &&& (0x3F#6 ++ 0x0#8 ++ 0x0#8 ++ 0x0#8 ++ 0x3#2 : W32) = 0x5C000000#32
  simp only [BitVec.and_append]
  simp
theorem vmov (d : BitVec 8) (a : BitVec 8) (t : Option TyPfx) : Statement (.vmov d a t) := fun _ => by
  show (0x18#6 ++ d ++ a ++ 0x0#10 : W32) &&& (0x3F#6 ++ 0x0#8 ++ 0x0#8 ++ 0x3FF#10 : W32) = 0x60000000#32
  simp only [BitVec.and_append]
  simp
theorem vnot (d : BitVec 8) (a : BitVec 8) (t : Option TyPfx) : Statement (.vnot d a t) := fun _ => by
  show (0x18#6 ++ d ++ a ++ 0x4#10 : W32) &&& (0x3F#6 ++ 0x0#8 ++ 0x0#8 ++ 0x3FF#10 : W32) = 0x60000004#32
  simp only [BitVec.and_append]
  simp
theorem vabs (d : BitVec 8) (a : BitVec 8) (t : Option TyPfx) : Statement (.vabs d a t) := fun _ => by
  show (0x18#6 ++ d ++ a ++ 0x8#10 : W32) &&& (0x3F#6 ++ 0x0#8 ++ 0x0#8 ++ 0x3FF#10 : W32) = 0x60000008#32
  simp only [BitVec.and_append]
  simp
theorem vneg (d : BitVec 8) (a : BitVec 8) (t : Option TyPfx) : Statement (.vneg d a t) := fun _ => by
  show (0x18#6 ++ d ++ a ++ 0xC#10 : W32) &&& (0x3F#6 ++ 0x0#8 ++ 0x0#8 ++ 0x3FF#10 : W32) = 0x6000000C#32
  simp only [BitVec.and_append]
  simp
theorem vclz (d : BitVec 8) (a : BitVec 8) (t : Option TyPfx) : Statement (.vclz d a t) := fun _ => by
  show (0x18#6 ++ d ++ a ++ 0x10#10 : W32) &&& (0x3F#6 ++ 0x0#8 ++ 0x0#8 ++ 0x3FF#10 : W32) = 0x60000010#32
  simp only [BitVec.and_append]
  simp
theorem vpopc (d : BitVec 8) (a : BitVec 8) (t : Option TyPfx) : Statement (.vpopc d a t) := fun _ => by
  show (0x18#6 ++ d ++ a ++ 0x14#10 : W32) &&& (0x3F#6 ++ 0x0#8 ++ 0x0#8 ++ 0x3FF#10 : W32) = 0x60000014#32
  simp only [BitVec.and_append]
  simp
theorem vlane (d : BitVec 8) (t : Option TyPfx) : Statement (.vlane d t) := fun _ => by
  show (0x18#6 ++ d ++ 0x18#18 : W32) &&& (0x3F#6 ++ 0x0#8 ++ 0x3FFFF#18 : W32) = 0x60000018#32
  simp only [BitVec.and_append]
  simp
theorem vbcast (d : BitVec 8) (s : BitVec 6) (t : Option TyPfx) : Statement (.vbcast d s t) := fun _ => by
  show (0x18#6 ++ d ++ 0x0#2 ++ s ++ 0x1C#10 : W32) &&& (0x3F#6 ++ 0x0#8 ++ 0x3#2 ++ 0x0#6 ++ 0x3FF#10 : W32) = 0x6000001C#32
  simp only [BitVec.and_append]
  simp
theorem fabs (d : BitVec 8) (a : BitVec 8) (t : Option TyPfx) : Statement (.fabs d a t) := fun _ => by
  show (0x18#6 ++ d ++ a ++ 0x40#10 : W32) &&& (0x3F#6 ++ 0x0#8 ++ 0x0#8 ++ 0x3FF#10 : W32) = 0x60000040#32
  simp only [BitVec.and_append]
  simp
theorem fneg (d : BitVec 8) (a : BitVec 8) (t : Option TyPfx) : Statement (.fneg d a t) := fun _ => by
  show (0x18#6 ++ d ++ a ++ 0x44#10 : W32) &&& (0x3F#6 ++ 0x0#8 ++ 0x0#8 ++ 0x3FF#10 : W32) = 0x60000044#32
  simp only [BitVec.and_append]
  simp
theorem frnd (d : BitVec 8) (a : BitVec 8) (r : BitVec 2) (t : Option TyPfx) : Statement (.frnd d a r t) := fun _ => by
  show (0x18#6 ++ d ++ a ++ 0x12#8 ++ r : W32) &&& (0x3F#6 ++ 0x0#8 ++ 0x0#8 ++ 0xFF#8 ++ 0x0#2 : W32) = 0x60000048#32
  simp only [BitVec.and_append]
  simp
theorem fclass (d : BitVec 8) (a : BitVec 8) (t : Option TyPfx) : Statement (.fclass d a t) := fun _ => by
  show (0x18#6 ++ d ++ a ++ 0x4C#10 : W32) &&& (0x3F#6 ++ 0x0#8 ++ 0x0#8 ++ 0x3FF#10 : W32) = 0x6000004C#32
  simp only [BitVec.and_append]
  simp
theorem ex2 (d : BitVec 8) (a : BitVec 8) (t : Option TyPfx) : Statement (.ex2 d a t) := fun _ => by
  show (0x18#6 ++ d ++ a ++ 0x80#10 : W32) &&& (0x3F#6 ++ 0x0#8 ++ 0x0#8 ++ 0x3FF#10 : W32) = 0x60000080#32
  simp only [BitVec.and_append]
  simp
theorem lg2 (d : BitVec 8) (a : BitVec 8) (t : Option TyPfx) : Statement (.lg2 d a t) := fun _ => by
  show (0x18#6 ++ d ++ a ++ 0x84#10 : W32) &&& (0x3F#6 ++ 0x0#8 ++ 0x0#8 ++ 0x3FF#10 : W32) = 0x60000084#32
  simp only [BitVec.and_append]
  simp
theorem rcp (d : BitVec 8) (a : BitVec 8) (t : Option TyPfx) : Statement (.rcp d a t) := fun _ => by
  show (0x18#6 ++ d ++ a ++ 0x88#10 : W32) &&& (0x3F#6 ++ 0x0#8 ++ 0x0#8 ++ 0x3FF#10 : W32) = 0x60000088#32
  simp only [BitVec.and_append]
  simp
theorem rsq (d : BitVec 8) (a : BitVec 8) (t : Option TyPfx) : Statement (.rsq d a t) := fun _ => by
  show (0x18#6 ++ d ++ a ++ 0x8C#10 : W32) &&& (0x3F#6 ++ 0x0#8 ++ 0x0#8 ++ 0x3FF#10 : W32) = 0x6000008C#32
  simp only [BitVec.and_append]
  simp
theorem sin (d : BitVec 8) (a : BitVec 8) (t : Option TyPfx) : Statement (.sin d a t) := fun _ => by
  show (0x18#6 ++ d ++ a ++ 0x90#10 : W32) &&& (0x3F#6 ++ 0x0#8 ++ 0x0#8 ++ 0x3FF#10 : W32) = 0x60000090#32
  simp only [BitVec.and_append]
  simp
theorem cos (d : BitVec 8) (a : BitVec 8) (t : Option TyPfx) : Statement (.cos d a t) := fun _ => by
  show (0x18#6 ++ d ++ a ++ 0x94#10 : W32) &&& (0x3F#6 ++ 0x0#8 ++ 0x0#8 ++ 0x3FF#10 : W32) = 0x60000094#32
  simp only [BitVec.and_append]
  simp
theorem vcmp (c : BitVec 4) (p : BitVec 3) (a : BitVec 8) (b : BitVec 8) (t : Option TyPfx) : Statement (.vcmp c p a b t) := fun _ => by
  show (0x19#6 ++ c ++ 0x0#1 ++ p ++ a ++ b ++ 0x0#2 : W32) &&& (0x3F#6 ++ 0x0#4 ++ 0x1#1 ++ 0x0#3 ++ 0x0#8 ++ 0x0#8 ++ 0x3#2 : W32) = 0x64000000#32
  simp only [BitVec.and_append]
  simp
theorem fcmp (c : BitVec 4) (p : BitVec 3) (a : BitVec 8) (b : BitVec 8) (t : Option TyPfx) : Statement (.fcmp c p a b t) := fun _ => by
  show (0x19#6 ++ c ++ 0x0#1 ++ p ++ a ++ b ++ 0x1#2 : W32) &&& (0x3F#6 ++ 0x0#4 ++ 0x1#1 ++ 0x0#3 ++ 0x0#8 ++ 0x0#8 ++ 0x3#2 : W32) = 0x64000001#32
  simp only [BitVec.and_append]
  simp
theorem vselP0P3 (d : BitVec 8) (a : BitVec 8) (b : BitVec 8) (p : BitVec 2) (t : Option TyPfx) : Statement (.vselP0P3 d a b p t) := fun _ => by
  show (0x1A#6 ++ d ++ a ++ b ++ p : W32) &&& (0x3F#6 ++ 0x0#8 ++ 0x0#8 ++ 0x0#8 ++ 0x0#2 : W32) = 0x68000000#32
  simp only [BitVec.and_append]
  simp
theorem vselP4P7 (d : BitVec 8) (a : BitVec 8) (b : BitVec 8) (p : BitVec 2) (t : Option TyPfx) : Statement (.vselP4P7 d a b p t) := fun _ => by
  show (0x1B#6 ++ d ++ a ++ b ++ p : W32) &&& (0x3F#6 ++ 0x0#8 ++ 0x0#8 ++ 0x0#8 ++ 0x0#2 : W32) = 0x6C000000#32
  simp only [BitVec.and_append]
  simp
theorem vaddImm (d : BitVec 8) (a : BitVec 8) (i : BitVec 10) (x : ImmPfx) (t : Option TyPfx) : Statement (.vaddImm d a i x t) := fun _ => by
  show (0x1C#6 ++ d ++ a ++ i : W32) &&& (0x3F#6 ++ 0x0#8 ++ 0x0#8 ++ 0x0#10 : W32) = 0x70000000#32
  simp only [BitVec.and_append]
  simp
theorem vmulImm (d : BitVec 8) (a : BitVec 8) (i : BitVec 10) (x : ImmPfx) (t : Option TyPfx) : Statement (.vmulImm d a i x t) := fun _ => by
  show (0x1D#6 ++ d ++ a ++ i : W32) &&& (0x3F#6 ++ 0x0#8 ++ 0x0#8 ++ 0x0#10 : W32) = 0x74000000#32
  simp only [BitVec.and_append]
  simp
theorem vandImm (d : BitVec 8) (a : BitVec 8) (i : BitVec 10) (x : ImmPfx) (t : Option TyPfx) : Statement (.vandImm d a i x t) := fun _ => by
  show (0x1E#6 ++ d ++ a ++ i : W32) &&& (0x3F#6 ++ 0x0#8 ++ 0x0#8 ++ 0x0#10 : W32) = 0x78000000#32
  simp only [BitVec.and_append]
  simp
theorem vshlImm (d : BitVec 8) (a : BitVec 8) (n : BitVec 5) (t : Option TyPfx) : Statement (.vshlImm d a n t) := fun _ => by
  show (0x1F#6 ++ d ++ a ++ 0x0#5 ++ n : W32) &&& (0x3F#6 ++ 0x0#8 ++ 0x0#8 ++ 0x1F#5 ++ 0x0#5 : W32) = 0x7C000000#32
  simp only [BitVec.and_append]
  simp
theorem vshrImm (d : BitVec 8) (a : BitVec 8) (n : BitVec 5) (t : Option TyPfx) : Statement (.vshrImm d a n t) := fun _ => by
  show (0x1F#6 ++ d ++ a ++ 0x8#5 ++ n : W32) &&& (0x3F#6 ++ 0x0#8 ++ 0x0#8 ++ 0x1F#5 ++ 0x0#5 : W32) = 0x7C000100#32
  simp only [BitVec.and_append]
  simp
theorem vsraImm (d : BitVec 8) (a : BitVec 8) (n : BitVec 5) (t : Option TyPfx) : Statement (.vsraImm d a n t) := fun _ => by
  show (0x1F#6 ++ d ++ a ++ 0x10#5 ++ n : W32) &&& (0x3F#6 ++ 0x0#8 ++ 0x0#8 ++ 0x1F#5 ++ 0x0#5 : W32) = 0x7C000200#32
  simp only [BitVec.and_append]
  simp
theorem vli (d : BitVec 8) (i : BitVec 10) (x : ImmPfx) (t : Option TyPfx) : Statement (.vli d i x t) := fun _ => by
  show (0x20#6 ++ d ++ 0x0#8 ++ i : W32) &&& (0x3F#6 ++ 0x0#8 ++ 0xFF#8 ++ 0x0#10 : W32) = 0x80000000#32
  simp only [BitVec.and_append]
  simp
theorem cvt (d : BitVec 8) (a : BitVec 8) (r : BitVec 2) (t : Option TyPfx) : Statement (.cvt d a r t) := fun _ => by
  show (0x21#6 ++ d ++ a ++ 0x0#8 ++ r : W32) &&& (0x3F#6 ++ 0x0#8 ++ 0x0#8 ++ 0xFF#8 ++ 0x0#2 : W32) = 0x84000000#32
  simp only [BitVec.and_append]
  simp
theorem shfl (d : BitVec 8) (a : BitVec 8) (b : BitVec 8) (m : BitVec 2) (t : Option TyPfx) : Statement (.shfl d a b m t) := fun _ => by
  show (0x22#6 ++ d ++ a ++ b ++ m : W32) &&& (0x3F#6 ++ 0x0#8 ++ 0x0#8 ++ 0x0#8 ++ 0x0#2 : W32) = 0x88000000#32
  simp only [BitVec.and_append]
  simp
theorem voteAny (d : BitVec 3) (c : BitVec 1) (s : BitVec 3) (t : Option TyPfx) : Statement (.voteAny d c s t) := fun _ => by
  show (0x23#6 ++ 0x0#5 ++ d ++ 0x0#4 ++ c ++ s ++ 0x0#10 : W32) &&& (0x3F#6 ++ 0x1F#5 ++ 0x0#3 ++ 0xF#4 ++ 0x0#1 ++ 0x0#3 ++ 0x3FF#10 : W32) = 0x8C000000#32
  simp only [BitVec.and_append]
  simp
theorem voteAll (d : BitVec 3) (c : BitVec 1) (s : BitVec 3) (t : Option TyPfx) : Statement (.voteAll d c s t) := fun _ => by
  show (0x23#6 ++ 0x0#5 ++ d ++ 0x0#4 ++ c ++ s ++ 0x1#10 : W32) &&& (0x3F#6 ++ 0x1F#5 ++ 0x0#3 ++ 0xF#4 ++ 0x0#1 ++ 0x0#3 ++ 0x3FF#10 : W32) = 0x8C000001#32
  simp only [BitVec.and_append]
  simp
theorem voteBallot (d : BitVec 8) (c : BitVec 1) (s : BitVec 3) (t : Option TyPfx) : Statement (.voteBallot d c s t) := fun _ => by
  show (0x23#6 ++ d ++ 0x0#4 ++ c ++ s ++ 0x2#10 : W32) &&& (0x3F#6 ++ 0x0#8 ++ 0xF#4 ++ 0x0#1 ++ 0x0#3 ++ 0x3FF#10 : W32) = 0x8C000002#32
  simp only [BitVec.and_append]
  simp
theorem vred (d : BitVec 8) (a : BitVec 8) (o : BitVec 8) (t : Option TyPfx) : Statement (.vred d a o t) := fun _ => by
  show (0x24#6 ++ d ++ a ++ o ++ 0x0#2 : W32) &&& (0x3F#6 ++ 0x0#8 ++ 0x0#8 ++ 0x0#8 ++ 0x3#2 : W32) = 0x90000000#32
  simp only [BitVec.and_append]
  simp
theorem vscan (d : BitVec 8) (a : BitVec 8) (o : BitVec 8) (t : Option TyPfx) : Statement (.vscan d a o t) := fun _ => by
  show (0x24#6 ++ d ++ a ++ o ++ 0x1#2 : W32) &&& (0x3F#6 ++ 0x0#8 ++ 0x0#8 ++ 0x0#8 ++ 0x3#2 : W32) = 0x90000001#32
  simp only [BitVec.and_append]
  simp
theorem wbind (v : BitVec 8) (a : BitVec 6) (w : BitVec 2) : Statement (.wbind v a w) := fun _ => by
  show (0x25#6 ++ v ++ a ++ 0x0#6 ++ w ++ 0x0#4 : W32) &&& (0x3F#6 ++ 0x0#8 ++ 0x0#6 ++ 0x3F#6 ++ 0x0#2 ++ 0xF#4 : W32) = 0x94000000#32
  simp only [BitVec.and_append]
  simp
theorem wpos (d : BitVec 6) (w : BitVec 2) : Statement (.wpos d w) := fun _ => by
  show (0x25#6 ++ d ++ 0x1#14 ++ w ++ 0x0#4 : W32) &&& (0x3F#6 ++ 0x0#6 ++ 0x3FFF#14 ++ 0x0#2 ++ 0xF#4 : W32) = 0x94000040#32
  simp only [BitVec.and_append]
  simp
theorem wclr (w : BitVec 2) : Statement (.wclr w) := fun _ => by
  show (0x25#6 ++ 0x2#20 ++ w ++ 0x0#4 : W32) &&& (0x3F#6 ++ 0xFFFFF#20 ++ 0x0#2 ++ 0xF#4 : W32) = 0x94000080#32
  simp only [BitVec.and_append]
  simp
theorem ld (t : BitVec 8) (o : BitVec 8) (b : BitVec 6) (l : BitVec 4) (x : MPfx) : Statement (.ld t o b l x) := fun _ => by
  show (0x26#6 ++ t ++ o ++ b ++ l : W32) &&& (0x3F#6 ++ 0x0#8 ++ 0x0#8 ++ 0x0#6 ++ 0x0#4 : W32) = 0x98000000#32
  simp only [BitVec.and_append]
  simp
theorem st (t : BitVec 8) (o : BitVec 8) (b : BitVec 6) (l : BitVec 4) (x : MPfx) : Statement (.st t o b l x) := fun _ => by
  show (0x27#6 ++ t ++ o ++ b ++ l : W32) &&& (0x3F#6 ++ 0x0#8 ++ 0x0#8 ++ 0x0#6 ++ 0x0#4 : W32) = 0x9C000000#32
  simp only [BitVec.and_append]
  simp
theorem lds (t : BitVec 8) (o : BitVec 8) (b : BitVec 6) (l : BitVec 4) (x : MPfx) : Statement (.lds t o b l x) := fun _ => by
  show (0x28#6 ++ t ++ o ++ b ++ l : W32) &&& (0x3F#6 ++ 0x0#8 ++ 0x0#8 ++ 0x0#6 ++ 0x0#4 : W32) = 0xA0000000#32
  simp only [BitVec.and_append]
  simp
theorem sts (t : BitVec 8) (o : BitVec 8) (b : BitVec 6) (l : BitVec 4) (x : MPfx) : Statement (.sts t o b l x) := fun _ => by
  show (0x29#6 ++ t ++ o ++ b ++ l : W32) &&& (0x3F#6 ++ 0x0#8 ++ 0x0#8 ++ 0x0#6 ++ 0x0#4 : W32) = 0xA4000000#32
  simp only [BitVec.and_append]
  simp
theorem ldm (t : BitVec 8) (o : BitVec 8) (b : BitVec 6) (l : BitVec 4) (x : MPfx) : Statement (.ldm t o b l x) := fun _ => by
  show (0x2A#6 ++ t ++ o ++ b ++ l : W32) &&& (0x3F#6 ++ 0x0#8 ++ 0x0#8 ++ 0x0#6 ++ 0x0#4 : W32) = 0xA8000000#32
  simp only [BitVec.and_append]
  simp
theorem stm (t : BitVec 8) (o : BitVec 8) (b : BitVec 6) (l : BitVec 4) (x : MPfx) : Statement (.stm t o b l x) := fun _ => by
  show (0x2B#6 ++ t ++ o ++ b ++ l : W32) &&& (0x3F#6 ++ 0x0#8 ++ 0x0#8 ++ 0x0#6 ++ 0x0#4 : W32) = 0xAC000000#32
  simp only [BitVec.and_append]
  simp
theorem stmQuantise (t : BitVec 8) (b : BitVec 6) (l : BitVec 4) (x : MPfx) : Statement (.stmQuantise t b l x) := fun _ => by
  show (0x2B#6 ++ t ++ 0x0#8 ++ b ++ l : W32) &&& (0x3F#6 ++ 0x0#8 ++ 0xFF#8 ++ 0x0#6 ++ 0x0#4 : W32) = 0xAC000000#32
  simp only [BitVec.and_append]
  simp
theorem atom (t : BitVec 8) (o : BitVec 8) (b : BitVec 6) (l : BitVec 4) (x : MPfx) : Statement (.atom t o b l x) := fun _ => by
  show (0x2C#6 ++ t ++ o ++ b ++ l : W32) &&& (0x3F#6 ++ 0x0#8 ++ 0x0#8 ++ 0x0#6 ++ 0x0#4 : W32) = 0xB0000000#32
  simp only [BitVec.and_append]
  simp
theorem red (t : BitVec 8) (o : BitVec 8) (b : BitVec 6) (l : BitVec 4) (x : MPfx) : Statement (.red t o b l x) := fun _ => by
  show (0x2D#6 ++ t ++ o ++ b ++ l : W32) &&& (0x3F#6 ++ 0x0#8 ++ 0x0#8 ++ 0x0#6 ++ 0x0#4 : W32) = 0xB4000000#32
  simp only [BitVec.and_append]
  simp
theorem fence (x : MPfx) : Statement (.fence x) := fun _ => by
  show (0x2E#6 ++ 0x0#26 : W32) &&& 0xFFFFFFFF#32 = 0xB8000000#32
  decide
theorem clean (n : BitVec 6) (b : BitVec 6) (k : BitVec 4) (x : MPfx) : Statement (.clean n b k x) := fun _ => by
  show (0x2F#6 ++ 0x0#10 ++ n ++ b ++ k : W32) &&& (0x3F#6 ++ 0x3FF#10 ++ 0x0#6 ++ 0x0#6 ++ 0x0#4 : W32) = 0xBC000000#32
  simp only [BitVec.and_append]
  simp
theorem inval (n : BitVec 6) (b : BitVec 6) (k : BitVec 4) (x : MPfx) : Statement (.inval n b k x) := fun _ => by
  show (0x30#6 ++ 0x0#10 ++ n ++ b ++ k : W32) &&& (0x3F#6 ++ 0x3FF#10 ++ 0x0#6 ++ 0x0#6 ++ 0x0#4 : W32) = 0xC0000000#32
  simp only [BitVec.and_append]
  simp
theorem pref (o : BitVec 8) (b : BitVec 6) (l : BitVec 4) (x : MPfx) : Statement (.pref o b l x) := fun _ => by
  show (0x31#6 ++ 0x0#8 ++ o ++ b ++ l : W32) &&& (0x3F#6 ++ 0xFF#8 ++ 0x0#8 ++ 0x0#6 ++ 0x0#4 : W32) = 0xC4000000#32
  simp only [BitVec.and_append]
  simp
theorem cpy (a : BitVec 6) (b : BitVec 6) (d : BitVec 6) (r : BitVec 1) (x : EPfx) : Statement (.cpy a b d r x) := fun _ => by
  show (0x32#6 ++ 0x0#7 ++ a ++ b ++ d ++ r : W32) &&& (0x3F#6 ++ 0x7F#7 ++ 0x0#6 ++ 0x0#6 ++ 0x0#6 ++ 0x0#1 : W32) = 0xC8000000#32
  simp only [BitVec.and_append]
  simp
theorem cpwait (n : BitVec 6) : Statement (.cpwait n) := fun _ => by
  show (0x32#6 ++ 0x1#7 ++ n ++ 0x0#13 : W32) &&& (0x3F#6 ++ 0x7F#7 ++ 0x0#6 ++ 0x1FFF#13 : W32) = 0xC8080000#32
  simp only [BitVec.and_append]
  simp
theorem rsel (a : BitVec 6) (d : BitVec 6) (r : BitVec 1) (x : EPfx) : Statement (.rsel a d r x) := fun _ => by
  show (0x32#6 ++ 0x2#7 ++ a ++ 0x0#6 ++ d ++ r : W32) &&& (0x3F#6 ++ 0x7F#7 ++ 0x0#6 ++ 0x3F#6 ++ 0x0#6 ++ 0x0#1 : W32) = 0xC8100000#32
  simp only [BitVec.and_append]
  simp
theorem rput (a : BitVec 6) (b : BitVec 6) (d : BitVec 6) (r : BitVec 1) (x : EPfx) : Statement (.rput a b d r x) := fun _ => by
  show (0x35#6 ++ 0x0#7 ++ a ++ b ++ d ++ r : W32) &&& (0x3F#6 ++ 0x7F#7 ++ 0x0#6 ++ 0x0#6 ++ 0x0#6 ++ 0x0#1 : W32) = 0xD4000000#32
  simp only [BitVec.and_append]
  simp
theorem rputSig (a : BitVec 6) (b : BitVec 6) (d : BitVec 6) (r : BitVec 1) (x : EPfx) : Statement (.rputSig a b d r x) := fun _ => by
  show (0x35#6 ++ 0x1#7 ++ a ++ b ++ d ++ r : W32) &&& (0x3F#6 ++ 0x7F#7 ++ 0x0#6 ++ 0x0#6 ++ 0x0#6 ++ 0x0#1 : W32) = 0xD4080000#32
  simp only [BitVec.and_append]
  simp
theorem rget (a : BitVec 6) (b : BitVec 6) (d : BitVec 6) (r : BitVec 1) (x : EPfx) : Statement (.rget a b d r x) := fun _ => by
  show (0x35#6 ++ 0x2#7 ++ a ++ b ++ d ++ r : W32) &&& (0x3F#6 ++ 0x7F#7 ++ 0x0#6 ++ 0x0#6 ++ 0x0#6 ++ 0x0#1 : W32) = 0xD4100000#32
  simp only [BitVec.and_append]
  simp
theorem radd (a : BitVec 6) (b : BitVec 6) (d : BitVec 6) (r : BitVec 1) (x : EPfx) : Statement (.radd a b d r x) := fun _ => by
  show (0x35#6 ++ 0x3#7 ++ a ++ b ++ d ++ r : W32) &&& (0x3F#6 ++ 0x7F#7 ++ 0x0#6 ++ 0x0#6 ++ 0x0#6 ++ 0x0#1 : W32) = 0xD4180000#32
  simp only [BitVec.and_append]
  simp
theorem rsig (a : BitVec 6) (b : BitVec 6) (d : BitVec 6) (r : BitVec 1) (x : EPfx) : Statement (.rsig a b d r x) := fun _ => by
  show (0x35#6 ++ 0x4#7 ++ a ++ b ++ d ++ r : W32) &&& (0x3F#6 ++ 0x7F#7 ++ 0x0#6 ++ 0x0#6 ++ 0x0#6 ++ 0x0#1 : W32) = 0xD4200000#32
  simp only [BitVec.and_append]
  simp
theorem skcfg (a : BitVec 6) (d : BitVec 6) (r : BitVec 1) (x : EPfx) : Statement (.skcfg a d r x) := fun _ => by
  show (0x33#6 ++ 0x0#7 ++ a ++ 0x0#6 ++ d ++ r : W32) &&& (0x3F#6 ++ 0x7F#7 ++ 0x0#6 ++ 0x3F#6 ++ 0x0#6 ++ 0x0#1 : W32) = 0xCC000000#32
  simp only [BitVec.and_append]
  simp
theorem skfold (a : BitVec 6) (b : BitVec 6) (d : BitVec 6) (r : BitVec 1) (x : EPfx) : Statement (.skfold a b d r x) := fun _ => by
  show (0x33#6 ++ 0x1#7 ++ a ++ b ++ d ++ r : W32) &&& (0x3F#6 ++ 0x7F#7 ++ 0x0#6 ++ 0x0#6 ++ 0x0#6 ++ 0x0#1 : W32) = 0xCC080000#32
  simp only [BitVec.and_append]
  simp
theorem skmerge (a : BitVec 6) (d : BitVec 6) (r : BitVec 1) (x : EPfx) : Statement (.skmerge a d r x) := fun _ => by
  show (0x33#6 ++ 0x2#7 ++ a ++ 0x0#6 ++ d ++ r : W32) &&& (0x3F#6 ++ 0x7F#7 ++ 0x0#6 ++ 0x3F#6 ++ 0x0#6 ++ 0x0#1 : W32) = 0xCC100000#32
  simp only [BitVec.and_append]
  simp
theorem tmerge (a : BitVec 6) (b : BitVec 6) (d : BitVec 6) (r : BitVec 1) (x : EPfx) : Statement (.tmerge a b d r x) := fun _ => by
  show (0x34#6 ++ 0x0#7 ++ a ++ b ++ d ++ r : W32) &&& (0x3F#6 ++ 0x7F#7 ++ 0x0#6 ++ 0x0#6 ++ 0x0#6 ++ 0x0#1 : W32) = 0xD0000000#32
  simp only [BitVec.and_append]
  simp
theorem bqpost (j : BitVec 6) (a : BitVec 6) (b : BitVec 6) (d : BitVec 6) (r : BitVec 1) (x : EPfx) : Statement (.bqpost j a b d r x) := fun _ => by
  show (0x34#6 ++ 0x1#1 ++ j ++ a ++ b ++ d ++ r : W32) &&& (0x3F#6 ++ 0x1#1 ++ 0x0#6 ++ 0x0#6 ++ 0x0#6 ++ 0x0#6 ++ 0x0#1 : W32) = 0xD2000000#32
  simp only [BitVec.and_append]
  simp
theorem spawn (a : BitVec 6) (b : BitVec 6) (d : BitVec 6) (r : BitVec 1) (x : EPfx) : Statement (.spawn a b d r x) := fun _ => by
  show (0x36#6 ++ 0x0#7 ++ a ++ b ++ d ++ r : W32) &&& (0x3F#6 ++ 0x7F#7 ++ 0x0#6 ++ 0x0#6 ++ 0x0#6 ++ 0x0#1 : W32) = 0xD8000000#32
  simp only [BitVec.and_append]
  simp
theorem mma (c : BitVec 3) (m : BitVec 3) (n : BitVec 3) (k : BitVec 6) (f : BitVec 5) (l : BitVec 4) (ev : Option (BitVec 3)) : Statement (.mma c m n k f l ev) := fun _ => by
  show (0x37#6 ++ c ++ m ++ n ++ k ++ f ++ l ++ 0x0#2 : W32) &&& (0x3F#6 ++ 0x0#3 ++ 0x0#3 ++ 0x0#3 ++ 0x0#6 ++ 0x0#5 ++ 0x0#4 ++ 0x3#2 : W32) = 0xDC000000#32
  simp only [BitVec.and_append]
  simp
theorem omap (m : BitVec 3) (a : BitVec 6) (b : BitVec 6) : Statement (.omap m a b) := fun _ => by
  show (0x38#6 ++ 0x0#3 ++ m ++ a ++ b ++ 0x0#8 : W32) &&& (0x3F#6 ++ 0x7#3 ++ 0x0#3 ++ 0x0#6 ++ 0x0#6 ++ 0xFF#8 : W32) = 0xE0000000#32
  simp only [BitVec.and_append]
  simp
theorem omapld (m : BitVec 3) (a : BitVec 6) : Statement (.omapld m a) := fun _ => by
  show (0x38#6 ++ 0x0#3 ++ m ++ a ++ 0x1#14 : W32) &&& (0x3F#6 ++ 0x7#3 ++ 0x0#3 ++ 0x0#6 ++ 0x3FFF#14 : W32) = 0xE0000001#32
  simp only [BitVec.and_append]
  simp
theorem mmsk (a : BitVec 6) (b : BitVec 6) : Statement (.mmsk a b) := fun _ => by
  show (0x38#6 ++ 0x0#6 ++ a ++ b ++ 0x2#8 : W32) &&& (0x3F#6 ++ 0x3F#6 ++ 0x0#6 ++ 0x0#6 ++ 0xFF#8 : W32) = 0xE0000002#32
  simp only [BitVec.and_append]
  simp
theorem mzero (t : BitVec 3) : Statement (.mzero t) := fun _ => by
  show (0x38#6 ++ 0x0#3 ++ t ++ 0x3#20 : W32) &&& (0x3F#6 ++ 0x7#3 ++ 0x0#3 ++ 0xFFFFF#20 : W32) = 0xE0000003#32
  simp only [BitVec.and_append]
  simp
theorem unassignedEncoding (r : Reason) : Statement (.unassignedEncoding r) := fun h => nomatch h
theorem loopBackEdge (w : Nat) : Statement (.loopBackEdge w) := fun h => nomatch h
theorem waitEnd (w : Nat) : Statement (.waitEnd w) := fun h => nomatch h
theorem cpwaitEnd (w : Nat) : Statement (.cpwaitEnd w) := fun h => nomatch h
theorem fenceComplete (w : Nat) : Statement (.fenceComplete w) := fun h => nomatch h
theorem loadResultWrite (w : Nat) (ue : W32) : Statement (.loadResultWrite w ue) := fun h => nomatch h
theorem storePerformed (k : Nat) : Statement (.storePerformed k) := fun h => nomatch h
theorem eviction (core : Option Nat) (sector : Nat) (ue : BitVec 4) : Statement (.eviction core sector ue) := fun h => nomatch h
theorem cleanInvalComplete (k : Nat) : Statement (.cleanInvalComplete k) := fun h => nomatch h
theorem faultRecordAppend : Statement .faultRecordAppend := fun h => nomatch h
theorem schedulerCycle (part : Nat) : Statement (.schedulerCycle part) := fun h => nomatch h
theorem datapathConfigurationChange (part : Nat) : Statement (.datapathConfigurationChange part) := fun h => nomatch h
theorem mmaBlockApply (w : Nat) : Statement (.mmaBlockApply w) := fun h => nomatch h
theorem copyCommandComplete (k : Nat) : Statement (.copyCommandComplete k) := fun h => nomatch h
theorem selectCommandComplete (k : Nat) : Statement (.selectCommandComplete k) := fun h => nomatch h
theorem skcfgExecute (k : Nat) : Statement (.skcfgExecute k) := fun h => nomatch h
theorem skfoldExecute (k : Nat) : Statement (.skfoldExecute k) := fun h => nomatch h
theorem skmergeChunk (k : Nat) : Statement (.skmergeChunk k) := fun h => nomatch h
theorem tmergeDescriptor (k : Nat) : Statement (.tmergeDescriptor k) := fun h => nomatch h
theorem spawnAppend (k : Nat) : Statement (.spawnAppend k) := fun h => nomatch h
theorem vatQueueSlotGrant (u : Nat) : Statement (.vatQueueSlotGrant u) := fun h => nomatch h
theorem vatCommandStart (u : Nat) : Statement (.vatCommandStart u) := fun h => nomatch h
theorem microWord (u : Nat) : Statement (.microWord u) := fun h => nomatch h
theorem microwordWatchdog (u : Nat) : Statement (.microwordWatchdog u) := fun h => nomatch h
theorem registerWrite (off : Nat) (v : W64) : Statement (.registerWrite off v) := fun h => nomatch h
theorem doorbell (q : BitVec 6) (v : W64) : Statement (.doorbell q v) := fun h => nomatch h
theorem dispatch : Statement .dispatch := fun h => nomatch h
theorem counterPoll : Statement .counterPoll := fun h => nomatch h
theorem gangPlacement (l : Nat) (cores : List Nat) : Statement (.gangPlacement l cores) := fun h => nomatch h
theorem placementStarvationTimeout (l : Nat) : Statement (.placementStarvationTimeout l) := fun h => nomatch h
theorem gangRelease (g : Nat) : Statement (.gangRelease g) := fun h => nomatch h
theorem launchComplete (l : Nat) : Statement (.launchComplete l) := fun h => nomatch h
theorem lsplitApply (core : Nat) : Statement (.lsplitApply core) := fun h => nomatch h
theorem cancel (v : W64) : Statement (.cancel v) := fun h => nomatch h
theorem xcmdPreempt (v : W64) : Statement (.xcmdPreempt v) := fun h => nomatch h
theorem xcmdResume (v : W64) : Statement (.xcmdResume v) := fun h => nomatch h
theorem preemption (g : Nat) : Statement (.preemption g) := fun h => nomatch h
theorem gangRestore (g : Nat) (cores : List Nat) : Statement (.gangRestore g cores) := fun h => nomatch h
theorem swapStart (v : W64) : Statement (.swapStart v) := fun h => nomatch h
theorem translationWalk (job : BitVec 8) (va : W64) (acc : AccKind) : Statement (.translationWalk job va acc) := fun h => nomatch h
theorem faultQueuePost : Statement .faultQueuePost := fun h => nomatch h
theorem resolveWalkAgain (tag : W32) : Statement (.resolveWalkAgain tag) := fun h => nomatch h
theorem resolveUnmapped (tag : W32) : Statement (.resolveUnmapped tag) := fun h => nomatch h
theorem resolveProtection (tag : W32) : Statement (.resolveProtection tag) := fun h => nomatch h
theorem shootdown (v : W64) : Statement (.shootdown v) := fun h => nomatch h
theorem shootdownSnapshot (v : W64) : Statement (.shootdownSnapshot v) := fun h => nomatch h
theorem shootdownComplete : Statement .shootdownComplete := fun h => nomatch h
theorem copyOnWrite (k : Nat) : Statement (.copyOnWrite k) := fun h => nomatch h
theorem checkpointFrameSend (d : BitVec 3) : Statement (.checkpointFrameSend d) := fun h => nomatch h
theorem checkpointAckReceive (d : BitVec 3) (tag : W64) : Statement (.checkpointAckReceive d tag) := fun h => nomatch h
theorem checkpointResendTimeout (d : BitVec 3) : Statement (.checkpointResendTimeout d) := fun h => nomatch h
theorem hostBar2Read (off : Nat) (n : Nat) : Statement (.hostBar2Read off n) := fun h => nomatch h
theorem hostBar2Write (off : Nat) (data : List Byte) : Statement (.hostBar2Write off data) := fun h => nomatch h
theorem cxlMemRead (off : Nat) (n : Nat) : Statement (.cxlMemRead off n) := fun h => nomatch h
theorem cxlMemWrite (off : Nat) (data : List Byte) : Statement (.cxlMemWrite off data) := fun h => nomatch h
theorem backInvalidateResponse (line : Nat) : Statement (.backInvalidateResponse line) := fun h => nomatch h
theorem hostRequestCompletion (k : Nat) (ok : Bool) : Statement (.hostRequestCompletion k ok) := fun h => nomatch h
theorem fdevidWrite (v : W64) : Statement (.fdevidWrite v) := fun h => nomatch h
theorem portDownCommand (p : Nat) : Statement (.portDownCommand p) := fun h => nomatch h
theorem portRetrain (p : Nat) : Statement (.portRetrain p) := fun h => nomatch h
theorem portTrainingComplete (p : Nat) : Statement (.portTrainingComplete p) := fun h => nomatch h
theorem keySwitchRequest (p : Nat) : Statement (.keySwitchRequest p) := fun h => nomatch h
theorem lossOfSignal (p : Nat) : Statement (.lossOfSignal p) := fun h => nomatch h
theorem flitReceive (p : Nat) (flit : List Byte) : Statement (.flitReceive p flit) := fun h => nomatch h
theorem keyAutoSwitch (p : Nat) : Statement (.keyAutoSwitch p) := fun h => nomatch h
theorem keyHardLimit (p : Nat) : Statement (.keyHardLimit p) := fun h => nomatch h
theorem keyWaitTimeout (p : Nat) : Statement (.keyWaitTimeout p) := fun h => nomatch h
theorem keySlotLoad (p : Nat) (tx : Bool) (salt : W32) : Statement (.keySlotLoad p tx salt) := fun h => nomatch h
theorem packetArrival (p : Nat) (pkt : Packet) : Statement (.packetArrival p pkt) := fun h => nomatch h
theorem packetAckReceive (p : Nat) (peer : BitVec 10) (mc : Bool) (seq : W32) (ok : Bool) (code : BitVec 8) : Statement (.packetAckReceive p peer mc seq ok code) := fun h => nomatch h
theorem packetResendTimeout (peer : BitVec 10) (mc : Bool) (seq : W32) : Statement (.packetResendTimeout peer mc seq) := fun h => nomatch h
theorem groupIdleTimeout (src : BitVec 10) (job : BitVec 8) (grp : BitVec 16) : Statement (.groupIdleTimeout src job grp) := fun h => nomatch h
theorem scaleoutTransmit (d : BitVec 3) : Statement (.scaleoutTransmit d) := fun h => nomatch h
theorem scaleoutReceive (d : BitVec 3) (frame : List Byte) : Statement (.scaleoutReceive d frame) := fun h => nomatch h
theorem ptpMessageReceive (d : BitVec 3) (m : PtpMsg) (corr : W64) : Statement (.ptpMessageReceive d m corr) := fun h => nomatch h
theorem ptpLockLoss : Statement .ptpLockLoss := fun h => nomatch h
theorem mouldLoad (st : BitVec 3) (v : W64) : Statement (.mouldLoad st v) := fun h => nomatch h
theorem mouldVerifyDone (st : BitVec 3) : Statement (.mouldVerifyDone st) := fun h => nomatch h
theorem mouldWrite (st : BitVec 3) : Statement (.mouldWrite st) := fun h => nomatch h
theorem mouldFloorWrite (st : BitVec 3) (v : W64) : Statement (.mouldFloorWrite st v) := fun h => nomatch h
theorem refreshInterval (ch : Nat) : Statement (.refreshInterval ch) := fun h => nomatch h
theorem refreshIssue (ch : Nat) (bank : BitVec 5) : Statement (.refreshIssue ch bank) := fun h => nomatch h
theorem refreshComplete (ch : Nat) : Statement (.refreshComplete ch) := fun h => nomatch h
theorem handoverAck (ch : Nat) : Statement (.handoverAck ch) := fun h => nomatch h
theorem unitLogClear (u : Nat) : Statement (.unitLogClear u) := fun h => nomatch h
theorem counterClear (d : BitVec 3) (i : BitVec 3) : Statement (.counterClear d i) := fun h => nomatch h
theorem dieFenceCommand (v : W64) : Statement (.dieFenceCommand v) := fun h => nomatch h
theorem dieFence (d : BitVec 3) : Statement (.dieFence d) := fun h => nomatch h
theorem readmission (v : W64) : Statement (.readmission v) := fun h => nomatch h
theorem dieSelfTestComplete (d : BitVec 3) (ok : Bool) : Statement (.dieSelfTestComplete d ok) := fun h => nomatch h
theorem scrubRow (st : BitVec 3) (pa : Nat) (ce : List Nat) (ue : List Nat) : Statement (.scrubRow st pa ce ue) := fun h => nomatch h
theorem powerOn : Statement .powerOn := fun h => nomatch h
theorem startStageComplete : Statement .startStageComplete := fun h => nomatch h
theorem startStageTimeout : Statement .startStageTimeout := fun h => nomatch h
theorem lifecycleReset : Statement .lifecycleReset := fun h => nomatch h
theorem clearFailedStartCount : Statement .clearFailedStartCount := fun h => nomatch h
theorem lifecycleChange (v : W64) : Statement (.lifecycleChange v) := fun h => nomatch h
theorem firmwareLoad (v : W64) : Statement (.firmwareLoad v) := fun h => nomatch h
theorem firmwareVerifyDone : Statement .firmwareVerifyDone := fun h => nomatch h
theorem firmwareSwitch : Statement .firmwareSwitch := fun h => nomatch h
theorem attestationRequest (v : W64) : Statement (.attestationRequest v) := fun h => nomatch h
theorem throttleStep (power : BitVec 13) (hot : BitVec 8) (inlet : BitVec 8) : Statement (.throttleStep power hot inlet) := fun h => nomatch h
theorem thermalTrip (d : BitVec 3) : Statement (.thermalTrip d) := fun h => nomatch h

end Sys2Proof.Laws.Coded
end

