-- ==== Sys2Proof/Tests/Slice0.lean ====
section
/-! SUPPORT. Small tests: well-formedness, decoding of words written out from the encodings, single steps with results
worked out from the rules, and for each statement with hypotheses a state and operands that meet them. -/

namespace Sys2Proof.Tests

open Sys2Proof Sys2Proof.Machine

set_option Elab.async false

/-- The decoder reads instruction `i` of `n` words. -/
def decodesTo (ws : List W32) (i : Instr) (n : Nat) : Bool :=
  match decodeInClause ws with
  | .ok x => decide (x = (i, n))
  | .error _ => false
/-- The decoder refuses the words with a reason. -/
def refusedWith (ws : List W32) (r : Reason) : Bool :=
  match decodeInClause ws with
  | .ok _ => false
  | .error e => decide (e = .illegal r)
theorem decodesTo_eq {ws : List W32} {i : Instr} {n : Nat} (h : decodesTo ws i n = true) : decodeInClause ws = .ok (i, n) := by
  unfold decodesTo at h
  split at h
  · next x hx => rw [hx, of_decide_eq_true h]
  · exact absurd h (by decide)
/-- An outcome is a next state of which `p` holds. -/
def nextIs (o : Out) (p : State → Bool) : Bool :=
  match o with
  | .next t => p t
  | .fault _ => false
  | .refused _ => false

/-- Without errors in the caches a unit that is not poisoned reads well. -/
theorem noError_of_no_upset {s : State} (core : Option Nat) {pa n : Nat} (h : isPoisoned s core pa n = false) (hu : s.upsets = []) :
    NoError s core pa n :=
  ⟨h, fun _ _ _ => by simp [hu]⟩
/-- The words that a clause check delivers. -/
def wordsAre (r : ClauseRes) (ws : List W32) : Bool :=
  match r with
  | .ok x => decide (x = ws)
  | _ => false
theorem wordsAre_eq {r : ClauseRes} {ws : List W32} (h : wordsAre r ws = true) : r = .ok ws := by
  cases r with
  | ok x => exact congrArg _ (of_decide_eq_true h)
  | _ => exact absurd h (by simp [wordsAre])

/-! Well-formedness: one term that each check refuses (spec/03 R84, R85) -/

/-- A type prefix with a format that a shift does not take. -/
theorem test_wf_prefix_field : earlyReason (.vshl 1 2 3 (some ⟨0x01, 0⟩)) = some 0x1B := by decide
/-- Operation 6 of vred is not assigned. -/
theorem test_wf_selector : earlyReason (.vred 1 2 6 none) = some 0x12 := by decide
/-- A branch has no condition 0. -/
theorem test_wf_condition : earlyReason (.bc 0 1 0) = some 0x14 := by decide
/-- Pair 8 of mma is not assigned. -/
theorem test_wf_pair : earlyReason (.mma 0 0 0 1 8 0 none) = some 0x16 := by decide
/-- The exact conversion to f32 from bf16 takes no rounding. -/
theorem test_wf_unused_rounding : earlyReason (.cvt 1 2 1 (some ⟨0x01, 0x02⟩)) = some 0x13 := by decide
/-- A saturating eight-bit scale is no store format. -/
theorem test_wf_store_format : ¬ WellFormed (.st 1 0 2 0 ⟨none, some ⟨0, 0, 0, 0x07, 0⟩, none⟩) := by decide
/-- Equality of integers takes no type (spec/08 R209). -/
theorem test_wf_compare_type : earlyReason (.vcmp 1 0 2 3 (some ⟨0x12, 0⟩)) = some 0x1B ∧
    earlyReason (.vcmp 2 1 2 3 (some ⟨0x12, 0⟩)) = none := by decide
theorem test_wf_accepts : WellFormed (.vred 1 2 5 (some ⟨0x12, 0⟩)) := by decide

/-! Decoding: words written out field by field from spec/03 -/

theorem test_decode_scalar : decodesTo [0x00310500] (.sadd 3 4 5) 1 = true := by decide +kernel
theorem test_decode_control : decodesTo [0x3C00C004] (.bar 3) 1 = true ∧
    decodesTo [0x3C008705] (.barv 2 7) 1 = true ∧ decodesTo [0x3C044008] (.trap 17) 1 = true ∧
    decodesTo [0x3C05000B] (.wait 20) 1 = true := by decide +kernel
theorem test_decode_jxt : decodesTo [0x40414603] (.jxt 4 5 6 3) 1 = true := by decide +kernel
theorem test_decode_vector_unary : decodesTo [0x60040849] (.frnd 1 2 1 none) 1 = true := by decide +kernel
theorem test_decode_prefixed_reduction :
    decodesTo [0xFA840000, 0x90505400] (.vred 20 21 0 (some ⟨0x01, 0⟩)) 2 = true := by decide +kernel
theorem test_decode_engine : decodesTo [0xCC110015] (.skmerge 8 10 1 ⟨none, none, none⟩) 1 = true := by decide +kernel
theorem test_decode_matrix : decodesTo [0x3F00000D] (.modeMx 0xC0) 1 = true ∧
    decodesTo [0xE0020900] (.omap 0 8 9) 1 = true ∧ decodesTo [0xE0118001] (.omapld 1 6) 1 = true := by
  decide +kernel
/-- The store of spec/01's fill example: sts v1, [s0 + v2]. -/
theorem test_decode_store : decodesTo [0xA4080400] (.sts 2 1 0 0 ⟨none, none, none⟩) 1 = true := by decide +kernel
/-- Prefixes in descending order of kind (R55). -/
theorem test_decode_prefix_order :
    refusedWith [0xFA840000, 0xF8000001, 0x70080010] 0x17 = true := by decide +kernel
/-- A nonzero op7 before an engine word of an unassigned function comes before that function (R81, R85). -/
theorem test_decode_op7 : refusedWith [0xF9000008, 0xC8F80000] 0x1B = true ∧ refusedWith [0xC8F80000] 0x12 = true := by
  decide +kernel
/-- A bit set that the row fixes at zero (R83). -/
theorem test_decode_reserved_bit : refusedWith [0x00000113] 0x13 = true := by decide +kernel

/-! Single operations, with results from the spec's own examples or by hand -/

/-- The CRC's check value (spec/21 R396). -/
theorem test_crc64_check : crc64 [0x31, 0x32, 0x33, 0x34, 0x35, 0x36, 0x37, 0x38, 0x39] = 0x995DC9BBDF1939FA := by
  decide +kernel
/-- 0.1 + 0.2 in FP32, inexact. -/
theorem test_fadd_rounds : add32 0x3DCCCCCD 0x3E4CCCCD = (0x3E99999A, fNX) := by decide +kernel
/-- The greatest finite number doubled overflows to infinity. -/
theorem test_fadd_overflow : (add32 0x7F7FFFFF 0x7F7FFFFF).1 = 0x7F800000 := by decide +kernel
/-- A select orders -1, -0, +0, 2, 7.5 and NaN in FP32 so (spec/09 R250). -/
theorem test_select_order : (([0xBF800000, 0x80000000, 0, 0x40000000, 0x40F00000, 0x7FC00000].map
    fun x => selKey 0x01 32 x).zip ([0x80000000, 0, 0x40000000, 0x40F00000, 0x7FC00000].map fun x => selKey 0x01 32 x)).all
    (fun e => e.1 < e.2) = true := by decide +kernel

/-! A small machine: one warp of job 1 at word 1 of a clause of 3 words, a cached page 0 with every right -/

/-- Headers at 0x1000 and 0x1010; after the first a word of an unassigned opcode, `sadd s1, s1, s3` and `nop`; after the second
`nop`. -/
def code : List (Nat × Byte) :=
  [(0x1002, 0xCC), (0x1003, 0xFC), (0x1007, 0xE4), (0x1009, 0x43), (0x100A, 0x10), (0x100F, 0x3C), (0x1012, 0x44), (0x1013, 0xFC),
   (0x1017, 0x3C)]
def tw : Warp := { Warp.blank with
  nv := 256, ns := 64, pc := 0x1000, entry := 0x1000, started := true, word := 1, n := 3, ports := 3, exm := 3, deck := 5
  code := [0xE4000000, 0x00104300, 0x3C000000], codeAt := 0x1000
  v := [(vKey 4 0, 7), (vKey 5 1, 9)], s := [(1, 0x2000), (2, 5), (3, 2)] }
def ts (W : Warp) : State := { State.reset with
  stage := 3, admitted := 0xFF, mem := code, cur := some 0, warps := [W], groups := [⟨0, 0, 0, [0], [], [], false⟩]
  gangs := [⟨0, 0, [0], .running, [], []⟩], launches := [{ Launch.blank with job := 1, nextGang := 1, gangs := [0] }]
  tlb := [⟨1, 4, 0, 0x3B, 0⟩] }


/-! Every word of the opcode table, its operands placed field by field as spec/03 lays them out -/

def allDecode (l : List (W32 × Instr)) : Bool := l.all fun e => decodesTo [e.1] e.2 1
theorem test_decode_words_1 : allDecode
  [(0x00314900, .sadd 3 5 9), (0x00314901, .ssub 3 5 9), (0x00314902, .smul 3 5 9), (0x00314903, .smulhI64 3 5 9),
   (0x00314904, .smulhUi64 3 5 9), (0x00314905, .sdivI64 3 5 9), (0x00314906, .sdivUi64 3 5 9),
   (0x00314907, .sremI64 3 5 9), (0x00314908, .sremUi64 3 5 9), (0x00314909, .sand 3 5 9), (0x0031490A, .sor 3 5 9),
   (0x0031490B, .sxor 3 5 9), (0x0031490C, .sshl 3 5 9), (0x0031490D, .sshr 3 5 9), (0x0031490E, .ssra 3 5 9),
   (0x0031490F, .sminI64 3 5 9), (0x00314910, .sminUi64 3 5 9)] = true := by decide +kernel
theorem test_decode_words_2 : allDecode
  [(0x00314911, .smaxI64 3 5 9), (0x00314912, .smaxUi64 3 5 9), (0x00314013, .sclz 3 5), (0x00314014, .spopc 3 5),
   (0x00314015, .sbrev 3 5), (0x00314016, .smov 3 5), (0x00300017, .tick 3), (0x00314918, .ssel 3 5 9),
   (0x00314922, .scmp 3 5 9 2), (0x04300025, .sli 3 37 none), (0x08314029, .saddImm 3 5 41 none),
   (0x0C314029, .sandImm 3 5 41 none), (0x10314009, .sshlImm 3 5 9), (0x10315009, .sshrImm 3 5 9),
   (0x10316009, .ssraImm 3 5 9), (0x14314029, .sld 3 5 41 none none),
   (0x18314029, .sst 3 5 41 none none)] = true := by decide +kernel
theorem test_decode_words_3 : allDecode
  [(0x1C300025, .rdsys 3 37), (0x2000C025, .wrsys 3 37), (0x24000023, .br 35), (0x28900029, .bc 2 2 41),
   (0x2C000023, .call 35), (0x30500025, .pif 2 37), (0x30D00025, .pifNot 2 37), (0x34000023, .pelse 35),
   (0x39280029, .loop 1 5 41), (0x3C000000, .nop), (0x3C000001, .ret), (0x3C000002, .pend), (0x3C000003, .lbrk),
   (0x3C00C004, .bar 3), (0x3C00C505, .barv 3 5), (0x3C000006, .exit),
   (0x3C000007, .demote)] = true := by decide +kernel
theorem test_decode_words_4 : allDecode
  [(0x3C00C008, .trap 3), (0x3C000009, .rfe), (0x3C00000A, .yield), (0x3C00C00B, .wait 3), (0x3C00000C, .modeVx),
   (0x3C8C000D, .modeMx 35), (0x3C00C00E, .deck 3), (0x40314931, .jxt 3 5 9 49), (0x448C94A4, .vadd 35 37 41 none),
   (0x448C94A5, .vsub 35 37 41 none), (0x448C94A6, .vmul 35 37 41 none), (0x448C94A7, .vmulh 35 37 41 none),
   (0x488C94A4, .vmad 35 37 41 none), (0x488C94A5, .vand 35 37 41 none), (0x488C94A6, .vor 35 37 41 none),
   (0x488C94A7, .vxor 35 37 41 none), (0x4C8C94A4, .vshl 35 37 41 none)] = true := by decide +kernel
theorem test_decode_words_5 : allDecode
  [(0x4C8C94A5, .vshr 35 37 41 none), (0x4C8C94A6, .vsra 35 37 41 none), (0x4C8C94A7, .vmin 35 37 41 none),
   (0x508C94A4, .vmax 35 37 41 none), (0x508C94A5, .fmin 35 37 41 none), (0x508C94A6, .fmax 35 37 41 none),
   (0x508C94A7, .fcpsgn 35 37 41 none), (0x548C94A4, .fadd 35 37 41 none), (0x548C94A5, .fsub 35 37 41 none),
   (0x548C94A6, .fmul 35 37 41 none), (0x548C94A7, .ffma 35 37 41 none), (0x588C94A4, .hadd 35 37 41 none),
   (0x588C94A5, .hmul 35 37 41 none), (0x588C94A6, .hfma 35 37 41 none), (0x588C94A7, .hmin 35 37 41 none),
   (0x5C8C94A4, .hmax 35 37 41 none), (0x608C9400, .vmov 35 37 none)] = true := by decide +kernel
theorem test_decode_words_6 : allDecode
  [(0x608C9404, .vnot 35 37 none), (0x608C9408, .vabs 35 37 none), (0x608C940C, .vneg 35 37 none),
   (0x608C9410, .vclz 35 37 none), (0x608C9414, .vpopc 35 37 none), (0x608C0018, .vlane 35 none),
   (0x608C141C, .vbcast 35 5 none), (0x608C9440, .fabs 35 37 none), (0x608C9444, .fneg 35 37 none),
   (0x608C9449, .frnd 35 37 1 none), (0x608C944C, .fclass 35 37 none), (0x608C9480, .ex2 35 37 none),
   (0x608C9484, .lg2 35 37 none), (0x608C9488, .rcp 35 37 none), (0x608C948C, .rsq 35 37 none),
   (0x608C9490, .sin 35 37 none), (0x608C9494, .cos 35 37 none)] = true := by decide +kernel
theorem test_decode_words_7 : allDecode
  [(0x6488A4C4, .vcmp 2 2 41 49 none), (0x6488A4C5, .fcmp 2 2 41 49 none), (0x688C94A5, .vselP0P3 35 37 41 1 none),
   (0x6C8C94A5, .vselP4P7 35 37 41 1 none), (0x708C9429, .vaddImm 35 37 41 none none),
   (0x748C9429, .vmulImm 35 37 41 none none), (0x788C9429, .vandImm 35 37 41 none none),
   (0x7C8C9409, .vshlImm 35 37 9 none), (0x7C8C9509, .vshrImm 35 37 9 none), (0x7C8C9609, .vsraImm 35 37 9 none),
   (0x808C0025, .vli 35 37 none none), (0x848C9401, .cvt 35 37 1 none), (0x888C94A5, .shfl 35 37 41 1 none),
   (0x8C082800, .voteAny 2 1 2 none), (0x8C082801, .voteAll 2 1 2 none), (0x8C8C2802, .voteBallot 35 1 2 none),
   (0x908C9414, .vred 35 37 5 none)] = true := by decide +kernel
theorem test_decode_words_8 : allDecode
  [(0x908C9405, .vscan 35 37 1 none), (0x948C5010, .wbind 35 5 1), (0x94300050, .wpos 3 1), (0x94000090, .wclr 1),
   (0x988C9492, .ld 35 37 9 2 ⟨none, none, none⟩), (0x9C8C9492, .st 35 37 9 2 ⟨none, none, none⟩),
   (0xA08C9492, .lds 35 37 9 2 ⟨none, none, none⟩), (0xA48C9492, .sts 35 37 9 2 ⟨none, none, none⟩),
   (0xA88C9492, .ldm 35 37 9 2 ⟨none, none, none⟩), (0xAC8C9492, .stm 35 37 9 2 ⟨none, none, none⟩),
   (0xB08C9492, .atom 35 37 9 2 ⟨none, none, none⟩), (0xB48C9492, .red 35 37 9 2 ⟨none, none, none⟩),
   (0xB8000000, .fence ⟨none, none, none⟩), (0xBC000C52, .clean 3 5 2 ⟨none, none, none⟩),
   (0xC0000C52, .inval 3 5 2 ⟨none, none, none⟩), (0xC4008C52, .pref 35 5 2 ⟨none, none, none⟩),
   (0xC8006293, .cpy 3 5 9 1 ⟨none, none, none⟩)] = true := by decide +kernel
theorem test_decode_words_9 : allDecode
  [(0xC8086000, .cpwait 3), (0xC810600B, .rsel 3 5 1 ⟨none, none, none⟩),
   (0xCC00600B, .skcfg 3 5 1 ⟨none, none, none⟩), (0xCC086293, .skfold 3 5 9 1 ⟨none, none, none⟩),
   (0xCC10600B, .skmerge 3 5 1 ⟨none, none, none⟩), (0xD0006293, .tmerge 3 5 9 1 ⟨none, none, none⟩),
   (0xD218A4A3, .bqpost 3 5 9 17 1 ⟨none, none, none⟩), (0xD4006293, .rput 3 5 9 1 ⟨none, none, none⟩),
   (0xD4086293, .rputSig 3 5 9 1 ⟨none, none, none⟩), (0xD4106293, .rget 3 5 9 1 ⟨none, none, none⟩),
   (0xD4186293, .radd 3 5 9 1 ⟨none, none, none⟩), (0xD4206293, .rsig 3 5 9 1 ⟨none, none, none⟩),
   (0xD8006293, .spawn 3 5 9 1 ⟨none, none, none⟩), (0xDD248950, .mma 2 2 2 17 5 4 none), (0xE0214900, .omap 2 5 9),
   (0xE0214001, .omapld 2 5), (0xE000C502, .mmsk 3 5)] = true := by decide +kernel
theorem test_decode_words_10 : allDecode
  [(0xE0200003, .mzero 2)] = true := by decide +kernel
/-- The quantising store: an `stm` word with the element format e4m3 in a memattr prefix (R56, R233). -/
theorem test_decode_stm_quantise :
    decodesTo [0xF9000C00, 0xAC8C0052] (.stmQuantise 35 5 2 ⟨none, some ⟨0, 0, 0, 3, 0⟩, none⟩) 2 = true := by decide +kernel
/-- One prefix of each kind (R56): imm, offset, memattr, event, peer, type. -/
theorem test_decode_prefix_kinds :
    decodesTo [0xF8000007, 0x08517FFF] (.saddImm 5 5 0x3FFF (some 7)) 2 = true ∧
    decodesTo [0xF8FFFFFC, 0x98080441] (.ld 2 1 4 1 ⟨some 0x7FFFFC, none, none⟩) 2 = true ∧
    decodesTo [0xF9504000, 0x98080441] (.ld 2 1 4 1 ⟨none, some ⟨2, 4, 0, 0x10, 0⟩, none⟩) 2 = true ∧
    decodesTo [0xF9D00000, 0x98080441] (.ld 2 1 4 1 ⟨none, none, some 5⟩) 2 = true ∧
    decodesTo [0xFA120000, 0xCC110015] (.skmerge 8 10 1 ⟨none, none, some 9⟩) 2 = true ∧
    decodesTo [0xFA840000, 0x90505400] (.vred 20 21 0 (some ⟨1, 0⟩)) 2 = true := by decide +kernel

/-! Single steps of that machine -/

/-- s1 + s3, the step's result. -/
theorem test_step_sadd : nextIs (step (ts tw)) (fun t => sGet (getW t 0) 1 = 0x2002 ∧ (getW t 0).word = 2 ∧ t.cur = none) = true := by decide +kernel
/-- A read by a lane outside EXM leaves its register; lanes 0 and 1 take the sum. -/
theorem test_vadd_masks : nextIs (exec (.vadd 6 4 5 none) (ts { tw with v := (vKey 4 2, 5) :: tw.v, exm := 1 })) (fun t => vGet (getW t 0) 6 0 = 7 ∧ vGet (getW t 0) 6 2 = 0) = true := by decide +kernel
/-- A source that is the destination. -/
theorem test_ssub_aliases : nextIs (exec (.ssub 2 3 2) (ts tw)) (fun t => sGet (getW t 0) 2 = 0xFFFFFFFFFFFFFFFD) = true := by decide +kernel
/-- The least number divided by -1 wraps (R181). -/
theorem test_sdiv_wraps : nextIs (exec (.sdivI64 4 2 3) (ts { tw with s := [(2, 0x8000000000000000), (3, BitVec.allOnes 64)] })) (fun t => sGet (getW t 0) 4 = 0x8000000000000000) = true := by decide +kernel
/-- A byte load is zero-extended; the code's header byte at 0x1003. -/
theorem test_sld_byte : nextIs (exec (.sld 4 5 3 none (some ⟨0, 0, 0, 0x08, 0⟩)) (ts { tw with s := [(5, 0x1000)] })) (fun t => sGet (getW t 0) 4 = 0xFC) = true := by decide +kernel
/-- A misaligned scalar load enters no handler where there is none: its launch ends with code 6 (R350). -/
theorem test_sld_misaligned : nextIs (exec (.sld 4 5 3 none none) (ts { tw with s := [(5, 0x1000)] })) (fun t => (getL t 0).endState = 4 ∧ (getL t 0).endCode = 6) = true := by decide +kernel

/-! Witnesses: hypotheses of the statements, met together -/

theorem witness_EncodeThenDecode : isWord (.vadd 1 2 3 (some ⟨0x0A, 0⟩)) = true ∧
    isHeader (encodeWord (.vadd 1 2 3 (some ⟨0x0A, 0⟩))) = false ∧ WellFormed (.vadd 1 2 3 (some ⟨0x0A, 0⟩)) := by decide +kernel
theorem witness_DecodeThenEncode : decodesTo [0xFA840000, 0x90505400, 0] (.vred 20 21 0 (some ⟨1, 0⟩)) 2 = true := by
  decide +kernel
theorem witness_UnassignedOpcodesTrap : ([(0xE4000000 : W32), 0xF7FFFFFF].all fun x => 0x39 ≤ (bits x 26 6).toNat && (bits x 26 6).toNat ≤ 0x3D) = true ∧
    clauseWords { tw with word := 0 } = [] ++ 0xE4000000 :: [0x00104300, 0x3C000000] ∧
    Issues (ts tw) 0 := by unfold Issues; decide +kernel
theorem witness_StepRunsDecodedInstruction : (ts tw).agenda = [] ∧ Issues (ts tw) 0 ∧ mayIssue (ts tw) 0 (getW (ts tw) 0) = true ∧
    (getW (ts tw) 0).stat = .running ∧ (getW (ts tw) 0).tile = none ∧ (getW (ts tw) 0).fence = none ∧
    ((getW (ts tw) 0).flow && atLoopEnd (getW (ts tw) 0)) = false ∧ (getW (ts tw) 0).started = true ∧
    decodesTo (clauseWords (getW (ts tw) 0)) (.sadd 1 1 3) 1 = true := by unfold Issues; decide +kernel
theorem witness_StepRunsDecodedInstruction_header : Issues (ts { tw with started := false }) 0 ∧
    mayIssue (ts { tw with started := false }) 0 { tw with started := false } = true ∧
    (getW (ts { tw with started := false }) 0).started = false ∧ resumes { tw with code := [] } = true ∧
    mayIssue (ts { tw with code := [] }) 0 { tw with code := [] } = true := by unfold Issues; decide +kernel
theorem witness_EveryStepKeepsMemoryCanonical : Memory.wf { ts tw with agenda := [.powerOn] }.mem ∧
    nextIs (step { ts tw with agenda := [.powerOn] }) (fun _ => true) = true := by decide +kernel
theorem witness_SequentialFlow : 0 < (ts tw).warps.length ∧ (getW (ts tw) 0).started = true ∧
    (getW (ts tw) 0).word + 1 < (getW (ts tw) 0).n ∧ (getW (ts tw) 0).n ≤ (getW (ts tw) 0).word + 2 ∧
    atJoin { tw with pc := 0x1010, started := false, word := 0, n := 0, flow := true } = false := by decide +kernel
theorem witness_ScalarRegisterOperations : Issues (ts tw) 0 ∧ ScalarsOk (getW (ts tw) 0) [0, 1, 63] := by
  unfold Issues ScalarsOk; decide +kernel
theorem witness_ScalarImmediateOperations : Issues (ts tw) 0 ∧ ScalarsOk (getW (ts tw) 0) [63, 0] := by
  unfold Issues ScalarsOk; decide +kernel
theorem witness_ScalarRegisterFile : Issues (ts { tw with ns := 8 }) 0 ∧ ScalarsOk { tw with ns := 8 } [7, 0, 0] ∧
    ¬ ScalarsOk (getW (ts { tw with ns := 8 }) 0) [8, 0, 0] := by unfold Issues ScalarsOk; decide +kernel
/-- Level 0, 1 and 2. -/
theorem witness_SystemRegisterReads : ∀ l ∈ [0, 1, 2], Issues (ts { tw with level := l }) 0 ∧
    ScalarsOk (getW (ts { tw with level := l }) 0) [1] ∧ (getW (ts { tw with level := l }) 0).tile = none ∧
    (getW (ts { tw with level := l }) 0).pend = [] ∧
    (getW (ts { tw with level := l }) 0).level = l := by unfold Issues ScalarsOk; decide +kernel
theorem witness_SystemRegisterWrites : ∀ x ∈ [0, 1, 5, 6], ∀ l ∈ [0, 1, 2],
    let W : Warp := { tw with level := l, s := [(1, BitVec.ofNat 64 x)] }
    Issues (ts W) 0 ∧ ScalarsOk (getW (ts W) 0) [1] ∧ (getW (ts W) 0).tile = none ∧ (getW (ts W) 0).pend = [] ∧ sGet W 1 = BitVec.ofNat 64 x := by
  unfold Issues ScalarsOk; decide +kernel
theorem witness_ScalarMemoryAccesses : Issues (ts tw) 0 ∧ ScalarsOk (getW (ts tw) 0) [4, 1] ∧ suppressed tw = false ∧
    suppressed { tw with demm := 3 } = true ∧ tileBusy tw = false ∧
    ∀ a ∈ [0x2000, 0xFFF8], canonical (BitVec.ofNat 64 a) = true ∧ a % 8 = 0 ∧
      translate (ts tw) (warpJob (ts tw) tw) (BitVec.ofNat 64 a) .read tw.verdicts = .ok a ∧
      translate (ts tw) (warpJob (ts tw) tw) (BitVec.ofNat 64 a) .write tw.verdicts = .ok a ∧ dataBad (ts tw) (some tw.core) a 8 = false ∧ memDue (ts tw) a = false := by
  unfold Issues ScalarsOk; decide +kernel
theorem witness_StoredBytesReadBack : (127 % 128 + 1 ≤ 128) ∧ 2 ≤ paSpace (2 ^ 51 + 5) ∧
    paSpace (2 ^ 51 + 5 + (8 - 1)) = paSpace (2 ^ 51 + 5) ∧ ∀ c ∈ [none, some 3], (Place.l2 none) ≠ .mem c := by decide +kernel

def bankAt (l a : Nat) : Bank := { Bank.blank with reth := 0x1000, retw := BitVec.ofNat 64 (a + 32 * l), exm := 3 }
/-- A privileged handler of job 1 at 0x4000: its record at 0x8020, with bit 176. -/
def tp (W : Warp) : State := { ts W with
  bar := tabSet 0 barReset 0x20000 0x8000, mem := code ++ [(0x8021, 0x40), (0x8036, 1)] }
theorem witness_TakingAnException : 0 < (ts tw).warps.length ∧
    (getW (landAll (ts { tw with kuser := 0x1010 }) 0) 0).kuser = 0x1010 ∧
    privHandler (landAll (tp tw) 0) 1 = some 0x4000 ∧ privHandler (ts tw) 1 = none ∧ xhBad (landAll (ts tw) 0) 1 = none ∧
    xhBad (landAll { tp tw with poison := [0x401] } 0) 1 = some 0x8020 ∧ privHandler (landAll { tp tw with poison := [0x401] } 0) 1 = none := by decide +kernel
theorem witness_TrapsOfAWord : Issues (ts tw) 0 ∧ (getW (ts tw) 0).word + 1 < (getW (ts tw) 0).n ∧
    isHeader 0xFC940000 = true ∧ ¬ (0x39 ≤ (bits (0x00104300 : W32) 26 6).toNat ∧ (bits (0x00104300 : W32) 26 6).toNat ≤ 0x3D) ∧
    isHeader 0x00104300 = false ∧ 6 ≤ pfxKind 0xFB000000 ∧ 6 ≤ pfxKind 0xFB800000 := by unfold Issues; decide +kernel
/-- A handler that returns before a header at 0x1010, and to word 0 of the clause there. -/
def hw (j : Nat) : Warp := { tw with
  level := 1, h := { bankAt 0 j with reth := 0x1010 } }
theorem witness_ReturnFromException : ∀ j ∈ [0, 16], Issues (ts (hw j)) 0 ∧ (hw j).level ≠ 0 ∧
    (bankOf (hw j) 1).reel.toNat % 64 = (hw j).reel.length ∧ (bankOf (hw j) 1).reel.toNat / 2 ^ 8 % 32 = (hw j).calls.length ∧
    landCheck (ts (hw j)) (hw j) (bankOf (hw j) 1).reth = .ok ∧
    badRestart (hw j) (bankOf (hw j) 1) (fetchWord (ts (hw j)) (hw j) 0x1010).2 (fetchWord (ts (hw j)) (hw j) 0x1010).2 = false ∧
    (hw j).pend = [] ∧ (hw j).tile = none ∧ (bankOf (hw j) 1).exm.setWidth 32 &&& ~~~ ((hw j).fltm ||| (hw j).deadm) ≠ 0 ∧
    (bankOf (hw j) 1).retw.toNat / 16 % 2 = j / 16 := by unfold Issues; decide +kernel
/-- A stopped tile operation with a block left, one with none, and a return that leaves no lane. -/
def hwTile (k : Nat) : Warp := { hw 16 with
  tile := some ⟨1, 1, k, 0, 0, 0, 0, some 2, 32, 0, 0, false, true, none, []⟩, ev := [(2, 1)] }
theorem witness_ReturnFromException_ends : ∀ W ∈ [hwTile 64, hwTile 32, { hw 16 with fltm := 3 }],
    Issues (ts W) 0 ∧ W.level ≠ 0 ∧ (bankOf W 1).reel.toNat % 64 = W.reel.length ∧
    (bankOf W 1).reel.toNat / 2 ^ 8 % 32 = W.calls.length ∧ landCheck (ts W) W (bankOf W 1).reth = .ok ∧
    (fetchWord (ts W) W 0x1010).1 = .ok 0x1010 ∧
    badRestart W (bankOf W 1) (fetchWord (ts W) W 0x1010).2 (fetchWord (ts W) W 0x1010).2 = false ∧
    (getW (landAll (ts W) 0) 0).tile = W.tile ∧ (getW (landAll (ts W) 0) 0).stat = .running ∧
    (W.tile = none ↔ (bankOf W 1).exm.setWidth 32 &&& ~~~ (W.fltm ||| W.deadm) = 0) := by unfold Issues; decide +kernel
/-- Its page is there: nothing waits. -/
theorem witness_ReturnFromException_fetch : (fetchWord (ts (hw 16)) (hw 16) 0x1010).1 = .ok 0x1010 := by decide +kernel
/-- Word 0x10 of a clause of one word is no restart point, nor is one at the handler's own level. -/
theorem witness_ReturnFromException_refused : badRestart (hw 17) (bankOf (hw 17) 1) 0xFC440000 0 = true ∧
    badRestart { hw 0 with h := bankAt 1 0 } (bankAt 1 0) 0xFC440000 0 = true ∧
    (bankOf { hw 0 with reel := [⟨.ifK, 0, 0, []⟩] } 1).reel.toNat % 64 ≠ 1 ∧
    (bankOf { hw 0 with calls := [⟨0, 0⟩] } 1).reel.toNat / 2 ^ 8 % 32 ≠ 1 := by decide +kernel
def cw : Warp := { tw with started := false, pc := 0x1010, word := 0, n := 0, ev := [(5, 1)] }
theorem witness_ClauseStart : Issues (ts cw) 0 ∧ atJoin cw = false ∧ landCheck (ts cw) cw cw.pc = .ok ∧
    wordsAre (checkClause (ts cw) 0 1 1 false) [0x3C000000] = true ∧ joinReady (ts cw) 0 0x1F = true ∧ joinReady (ts cw) 0 0x20 = false ∧
    joinLines (ts cw) 0 0x1F = [] ∧ joinLines { ts cw with l1 := [(l1Key 0 0x40, ⟨0, 1, 0⟩)], hostLines := [0x80] } 0 0x1F = [0x80] ∧
    resumes cw = false ∧ (∀ j ∈ [0, 1], let V : Warp := { cw with started := true, word := j, code := [] }
      resumes V = true ∧ atJoin V = false ∧ wordsAre (checkClause (ts V) 0 1 1 false) [0x3C000000] = true ∧ (V.word < 1 ↔ j = 0)) ∧
    swapFor (ts cw) 0 = none ∧ landCheck (ts cw) { cw with pc := 0x1012 } 0x1012 = .landing ∧
    landCheck (ts cw) { cw with pc := 0x1008 } 0x1008 = .landing := by unfold Issues; decide +kernel
theorem witness_BranchesCallsReturns : Issues (ts tw) 0 ∧ (0x1010 : W64) = tw.pc + ((4 : BitVec 19).signExtend 64 <<< 2) ∧
    landCheck (ts tw) tw 0x1010 = .ok ∧ (List.replicate 15 (CallRec.mk 0 0)).length < 16 ∧
    16 ≤ (List.replicate 16 (CallRec.mk 0 0)).length ∧ (CallRec.mk 0x1010 1).reelsp ≠ tw.reel.length ∧
    (CallRec.mk 0x1010 0).reelsp = tw.reel.length := by unfold Issues; decide +kernel
/-- T empty; T all demoted and F not; neither; a reel of 31 and of 32 entries. -/
theorem witness_ReelInstructions : Issues (ts tw) 0 ∧ tw.exm &&& pGet tw 1 = 0 ∧
    (let W := { tw with p := [(1, 1)], demm := 1 }; (W.exm &&& pGet W 1) &&& ~~~ W.demm = 0 ∧
      (W.exm &&& ~~~ pGet W 1) &&& ~~~ W.demm ≠ 0) ∧
    (let W := { tw with p := [(1, 1)] }; ¬ (W.exm &&& pGet W 1 = 0 ∨ (W.exm &&& pGet W 1) &&& ~~~ W.demm = 0 ∧
      (W.exm &&& ~~~ pGet W 1) &&& ~~~ W.demm ≠ 0)) ∧
    (List.replicate 31 (ReelEntry.mk .ifK 0 0 [])).length < 32 ∧ 32 ≤ (List.replicate 32 (ReelEntry.mk .ifK 0 0 [])).length := by
  unfold Issues; decide +kernel
theorem witness_CountedLoops : Issues (ts tw) 0 ∧ ScalarsOk tw [2] ∧
    (8 : Int) = 4 * (5 : BitVec 19).toInt - (8 + 4 * (1 : Int)) ∧ (1024 : Int) = 4 * (259 : BitVec 19).toInt - (8 + 4 * (1 : Int)) ∧
    (tabFind tw.loops 0).isSome = false ∧ (tabFind { tw with loops := [(0, ⟨0x1004, 3, 0, 0⟩)] }.loops 0).isSome = true ∧
    ({ tw with loops := [(1, ⟨0x1004, 3, 0, 0⟩)] }.loops.any fun e => loopEnd e.2 < (0x1014 : W64)) = true ∧
    landCheck (ts tw) tw 0x1010 = .ok ∧ sGet tw 2 ≠ 0 ∧ sGet tw 9 = 0 := by unfold Issues ScalarsOk; decide +kernel
/-- A back-edge is due: the loop's end is the next word's address. -/
theorem witness_CountedLoops_back : innermost { tw with loops := [(0, ⟨0x1004, 1, 0, 0⟩)] } (fun q => loopEnd q = nextAddr tw) =
      some (0, ⟨0x1004, 1, 0, 0⟩) ∧ lcGet { tw with lc := [(0, 2)] } 0 - 1 ≠ 0 ∧ lcGet { tw with lc := [(0, 1)] } 0 - 1 = 0 := by
  decide +kernel
/-- One of two warps arrives first; the last of two opens the barrier. -/
theorem witness_Barriers : ∀ n ∈ [0, 15], Issues (ts tw) 0 ∧ tileBusy tw = false ∧ ScalarsOk (getW (ts tw) 0) [2] ∧ n ≤ 15 ∧
    (let s := { ts tw with warps := [tw, tw], groups := [⟨0, 0, 0, [0, 1], [], [], false⟩] }
     (barOf (getG s 0) n).opn = false ∧ 1 < groupLive (setW s 0 { advanceW tw 1 with barH := tw.pc, barJ := 2 }) 0) ∧
    (let s := { ts tw with warps := [tw, { tw with stat := .waitBar n }]
                           groups := [⟨0, 0, 0, [0, 1], [], [(n, ⟨1, 2, true, true⟩)], false⟩] }
     (barOf (getG s 0) n).opn = true ∧ (barOf (getG s 0) n).expected ≤ (barOf (getG s 0) n).arrivals + 1 ∧
     0 < s.groups.length ∧ 1 < s.warps.length) := by unfold Issues ScalarsOk; decide +kernel
theorem witness_Barriers_beyond : 15 < (16 : BitVec 6).toNat := by decide
theorem witness_ExitDemoteAndHints : Issues (ts tw) 0 ∧ tw.level = 0 ∧ pkCexit (warpPkt (ts tw) tw) = false ∧ tw.pend = [] ∧
    pkCexit (warpPkt { ts tw with launches := [{ Launch.blank with packet := 1#1024 <<< 889 }] } tw) = true := by
  unfold Issues; decide +kernel
theorem witness_DeckSetsTheTileWidth : Issues (ts { tw with s := [(1, 5)] }) 0 ∧ ScalarsOk (getW (ts { tw with s := [(1, 5)] }) 0) [1] ∧
    sGet (getW (ts { tw with s := [(1, 5)] }) 0) 1 = (5 : BitVec 6).setWidth 64 ∧ (1 ≤ (5 : BitVec 6).toNat) ∧
    5 < (6 : BitVec 6).toNat := by unfold Issues ScalarsOk; decide +kernel
theorem witness_WaitsForTokens : Issues (ts cw) 0 ∧ joinReady (ts cw) 0 0x1F = true ∧ joinLines (ts cw) 0 0x1F = [] ∧
    joinReady (ts cw) 0 0x20 = false ∧ { cw with stat := .waitTok 0x1F }.stat = .waitTok 0x1F := by
  unfold Issues; decide +kernel
/-- A table of one entry at 0x2000: offset 0x10 from the entry header, the landing at 0x1010; the join is at the entry. -/
theorem witness_DivergentJump :
    let W : Warp := { tw with s := [(1, 0x2000), (2, 1), (3, 0)] }
    let s : State := { ts W with mem := code ++ [(0x2000, 0x10)] }
    Issues s 0 ∧ VectorsOk W [9] ∧ ScalarsOk W [1, 2, 3] ∧ W.reel.length < 31 ∧ landCheck s W (W.entry + sGet W 3) = .ok ∧ W.exm ≠ 0 ∧
    (getL s W.launch).parked < 2 ^ 32 ∧ (∀ l ∈ lanesOf W.exm, jxtLane s W (sGet W 1) (sGet W 2) (vGet W 9 l) = .ok 0x10) ∧
    nextGroup W ⟨.jxtK, 3, 0x1000, [(0, 0x10), (1, 0x10)]⟩ = some (3, 0x1010) := by
  unfold Issues VectorsOk ScalarsOk; decide +kernel

theorem witness_VectorIntegerOperations : VectorReady (ts tw) 0 [255, 4, 5] [] ∧
    (let W := { tw with mode := true, mclaim := 1 }; Issues (ts W) 0 ∧ (∀ r ∈ [6, 4, 40], r < W.nv) ∧
      ([6, 4, 40].filter fun q => claimed W q).min? = some 4) ∧
    (let W := { tw with nv := 40 }; Issues (ts W) 0 ∧ ∃ r ∈ [6, 4, 40], W.nv ≤ r) := by
  unfold VectorReady Issues VectorsOk ScalarsOk NoStream; decide +kernel
theorem witness_VectorMovesAndImmediates : VectorReady (ts tw) 0 [6, 255] [63] := by
  unfold VectorReady Issues VectorsOk ScalarsOk NoStream; decide +kernel
theorem witness_ComparesAndSelections : VectorReady (ts tw) 0 [6, 4, 5] [] := by
  unfold VectorReady Issues VectorsOk ScalarsOk NoStream; decide +kernel
theorem witness_FloatOperations : VectorReady (ts tw) 0 [4, 4, 4] [] := by
  unfold VectorReady Issues VectorsOk ScalarsOk NoStream; decide +kernel
theorem witness_PackedAndConversions : VectorReady (ts tw) 0 [6, 4, 5] [] := by
  unfold VectorReady Issues VectorsOk ScalarsOk NoStream; decide +kernel
theorem witness_NanResultsAreCanonical : isNan32 (add32 0x7F800001 0).1 = true ∧ isNan32 (fmin32 0xFFC00001 0xFFC00001) = true := by
  decide +kernel
theorem witness_CrossLaneOperations : ∀ c ∈ [1, 5], let W := { tw with deck := BitVec.ofNat 3 c }
    VectorReady (ts W) 0 [6, 4, 5] [] ∧ 1 ≤ W.deck.toNat ∧ W.deck.toNat ≤ 5 := by
  unfold VectorReady Issues VectorsOk ScalarsOk NoStream; decide +kernel
def webW (f p : Nat) : Warp :=
  { tw with w := [(0, ⟨BitVec.ofNat 256 (0x2000 + 2 ^ 66 + 2 ^ 97 + 2 ^ 135 + f * 2 ^ 224), BitVec.ofNat 64 p, 4, true⟩)] }
/-- A stream at 0x2000 of two vectors 128 bytes apart, at its end and before it, and one of ds8. -/
theorem witness_WebRegisters_streams : (∀ c ∈ [(0, 1), (0, 2), (7, 1)], let W := webW c.1 c.2
      Issues (ts W) 0 ∧ VectorsOk W [4, 6] ∧ (wGet W 0).bound = true ∧ (wGet W 0).reg = 4 ∧
      (∀ j < 4, j ≠ 0 → (wGet W j).bound = false) ∧ webFmt (wGet W 0).desc = BitVec.ofNat 5 c.1 ∧
      (webCount (wGet W 0).desc).toNat = 2 ∧ (wGet W 0).pos.toNat = c.2) ∧
    (let W := webW 0 1; let x := wGet W 0; tileBusy W = false ∧
      placeOfAttr W.core ⟨0, 0, webPolicy x.desc, 0, 0⟩ false = .l1 0 ∧ lanesOf (performing W) = [0, 1] ∧
      (ts W).poison = [] ∧ (ts W).upsets = [] ∧
      ∀ k ∈ [0, 1], ∀ a, a = webBase x.desc + x.pos * webVstride x.desc + BitVec.ofNat 64 k * (webEstride x.desc).signExtend 64 →
        LaneOk (ts W) W a 4 .read (0x2080 + 4 * k) ∧ LaneOk (ts W) W a 4 .write (0x2080 + 4 * k) ∧ memDue (ts W) (0x2080 + 4 * k) = false) := by
  refine ⟨by unfold Issues VectorsOk; decide +kernel, ?_⟩
  refine ⟨by decide +kernel, by decide +kernel, by decide +kernel, by decide +kernel, by decide +kernel, ?_⟩
  rintro k hk a rfl
  revert k
  unfold LaneOk
  decide +kernel
/-- With every lane demoted the stream's position goes on and the lanes read the register (R225). -/
theorem test_stream_read : (match exec (.vmov 6 4 none) (ts { webW 0 1 with demm := 3 }) with
    | .next t => (vGet (getW t 0) 6 0, vGet (getW t 0) 6 1, vGet (getW t 0) 4 0, (wGet (getW t 0) 0).pos)
    | _ => (1, 1, 1, 1)) = (7, 0, 7, 2) := by decide +kernel
/-- A write goes to the stream and not to the register. -/
theorem test_stream_write : (match exec (.vmov 4 5 none) (ts (webW 0 1)) with
    | .next t => (byteAt t (.l1 0) 0x2084, vGet (getW t 0) 4 0, (wGet (getW t 0) 0).pos)
    | _ => (1, 1, 1)) = (9, 7, 2) := by decide +kernel
/-- A descriptor of FP32 with count 4 at 0x2000, and one that is all zero at 0x2020. -/
theorem witness_WebRegisters : let s : State := { ts tw with mem := code ++ [(0x2008, 4), (0x201D, 1)] }
    Issues s 0 ∧ VectorsOk (getW s 0) [4] ∧ ScalarsOk (getW s 0) [1, 2] ∧ canonical (sGet tw 1) = true ∧ (sGet tw 1).toNat % 32 = 0 ∧
    translate s 1 (sGet tw 1) .read tw.verdicts = .ok 0x2000 ∧ isPoisoned s (some 0) 0x2000 32 = false ∧ s.upsets = [] ∧ dirtyLines s 0 (0x2000 / 128) = [] ∧
    webMalformed (BitVec.ofNat 256 (loadAt s (.l1 0) 0x2020 32).2) = true ∧
    (∀ j < 4, j ≠ 0 → (wGet tw j).bound = true → (wGet tw j).reg ≠ 4) ∧
    (∃ j < 4, j ≠ 0 ∧ (wGet { tw with w := [(1, ⟨0, 0, 4, true⟩)] } j).bound = true ∧
      (wGet { tw with w := [(1, ⟨0, 0, 4, true⟩)] } j).reg = 4) := by
  unfold Issues VectorsOk ScalarsOk; decide +kernel

/-! Memory: lanes 0 and 1 of a warp whose s1 is 0x2000 and whose v7 is 4 and 8 -/

def mw : Warp := { tw with v := [(vKey 7 0, 4), (vKey 7 1, 8)] }
theorem witness_LoadsDeliver : AccessReady (ts mw) 0 (run 4 1 ++ voReg 7) [1] (some 0) ∧
    ∀ k ∈ lanesOf (performing mw), LaneOk (ts mw) mw (laneAddr mw 1 7 0 0 k) 4 .read (0x2004 + 4 * k) ∧
      isPoisoned (ts mw) (some 0) (0x2004 + 4 * k) 4 = false ∧ (ts mw).upsets = [] ∧ memDue (ts mw) (0x2004 + 4 * k) = false := by
  unfold AccessReady Issues VectorsOk ScalarsOk LaneOk; decide +kernel
/-- A launch with scratch memory: 256 bytes. -/
def sw : State := { ts { mw with s := [(1, 0)] } with
  launches := [{ Launch.blank with job := 1, packet := 1#1024 <<< 864 }] }
theorem witness_LoadsDeliver_scratch : AccessReady sw 0 (run 4 1 ++ voReg 7) [1] none ∧
    ∀ k ∈ lanesOf (performing (getW sw 0)), (laneAddr (getW sw 0) 1 7 0 0 k).toNat % 4 = 0 ∧
      scrPlace sw (getW sw 0) (laneAddr (getW sw 0) 1 7 0 0 k) = some (0, 4 + 4 * k) ∧ scrBad sw 0 (4 + 4 * k) 4 = none ∧
      0 < sw.groups.length := by
  unfold AccessReady Issues VectorsOk ScalarsOk; decide +kernel
/-- Lane 0's address is misaligned, lane 1's is not. -/
theorem witness_LaneFaults : let W := { mw with v := [(vKey 7 0, 2), (vKey 7 1, 8)] }
    AccessReady (ts W) 0 (run 4 1 ++ voReg 7) [1] none ∧ pkRecord (warpPkt (ts W) W) = false ∧
    checkLane (ts W) W (laneAddr W 1 7 0 0 0) 4 .read (fun e => skLdSt (ts W) W (laneAddr W 1 7 0 0 0) false 0 0 e) = .bad 3 0 none ∧
    checkLane (ts W) W (laneAddr W 1 7 0 0 1) 4 .read (fun e => skLdSt (ts W) W (laneAddr W 1 7 0 0 1) false 0 0 e) = .ok 0x2008 := by
  unfold AccessReady Issues VectorsOk ScalarsOk; decide +kernel
/-- Record mode, and both lanes misaligned. -/
theorem witness_LaneFaults_record : let W := { mw with v := [(vKey 7 0, 2), (vKey 7 1, 6)] }
    let s : State := { ts W with launches := [{ Launch.blank with job := 1, packet := 1#1024 <<< 888 }] }
    pkRecord (warpPkt s W) = true ∧ ∀ k ∈ lanesOf (performing W),
    checkLane s W (laneAddr W 1 7 0 0 k) 4 .read (fun e => skLdSt s W (laneAddr W 1 7 0 0 k) false 0 0 e) = .bad 3 0 none := by
  decide +kernel
/-- Record mode with one lane of two misaligned, and a store's lanes. -/
theorem witness_LaneFaults_mixed : let W := { mw with v := [(vKey 7 0, 2), (vKey 7 1, 8)] }
    let s : State := { ts W with launches := [{ Launch.blank with job := 1, packet := 1#1024 <<< 888 }] }
    AccessReady s 0 (run 4 1 ++ voReg 7) [1] none ∧ pkRecord (warpPkt s W) = true ∧ lanesOf (performing W) = [0, 1] ∧
    checkLane s W (laneAddr W 1 7 0 0 0) 4 .read (fun e => skLdSt s W (laneAddr W 1 7 0 0 0) false 0 0 e) = .bad 3 0 none ∧
    checkLane s W (laneAddr W 1 7 0 0 1) 4 .read (fun e => skLdSt s W (laneAddr W 1 7 0 0 1) false 0 0 e) = .ok 0x2008 ∧
    LaneOk s W (laneAddr W 1 7 0 0 1) 4 .read 0x2008 ∧ s.poison = [] ∧ s.upsets = [] ∧ tileBusy W = false ∧
    checkLane s W (laneAddr W 1 7 0 0 0) 4 .write (fun e => skLdSt s W (laneAddr W 1 7 0 0 0) true 0 (vGet W 4 0) e) = .bad 3 0 none ∧
    checkLane s W (laneAddr W 1 7 0 0 1) 4 .write (fun e => skLdSt s W (laneAddr W 1 7 0 0 1) true 0 (vGet W 4 1) e) = .ok 0x2008 := by
  unfold AccessReady Issues VectorsOk ScalarsOk LaneOk; decide +kernel
theorem witness_StoresPerform : AccessReady (ts mw) 0 (run 4 1 ++ voReg 7) [1] none ∧ tileBusy mw = false ∧
    (∀ k ∈ lanesOf (performing mw), LaneOk (ts mw) mw (laneAddr mw 1 7 0 0 k) 4 .write (0x2004 + 4 * k)) ∧
    (∀ c ∈ [none, some 0], Place.l1 0 ≠ .mem c) ∧ ∀ k ∈ [0, 1], paSpace (0x2004 + 4 * k) < 2 := by
  unfold AccessReady Issues VectorsOk ScalarsOk LaneOk; decide +kernel
theorem witness_StoresPerform_mem : placeOfAttr 0 ⟨0, 0, 4, 0, 0⟩ false = .mem (some 0) := by decide +kernel
theorem witness_MultiRegisterMoves : AccessReady (ts mw) 0 (run 8 2 ++ voReg 0) [1] none ∧ tileBusy mw = false ∧
    (∀ c ∈ [none, some 0], placeOfAttr 0 ⟨0, 0, 0, 0, 0⟩ false ≠ .mem c) ∧ (List.range (⟨0, 0, 0, 0, 0⟩ : MemAttr).op7.toNat.succ).drop mw.ridx = [0] ∧
    (∀ k ∈ lanesOf (performing mw), LaneOk (ts mw) mw (laneAddr mw 1 7 0 0 k + BitVec.ofNat 64 (4 * 0)) 4 .read (0x2004 + 4 * k) ∧
      LaneOk (ts mw) mw (laneAddr mw 1 7 0 0 k + BitVec.ofNat 64 (4 * 0)) 4 .write (0x2004 + 4 * k) ∧
      isPoisoned (ts mw) (some 0) (0x2004 + 4 * k) 4 = false ∧ (ts mw).upsets = []) ∧
    ∀ acc ∈ [AccKind.read, .write], ∀ j ∈ [0, 1], ∀ k ∈ lanesOf (performing mw),
      tlbFind (ts mw) 1 (va57 (laneAddr mw 1 7 0 0 k + BitVec.ofNat 64 (0x100 * j))) = some ⟨1, 4, 0, 0x3B, 0⟩ ∧
      verdictFor mw.verdicts (va57 (laneAddr mw 1 7 0 0 k + BitVec.ofNat 64 (0x100 * j))) acc = none ∧
      useLeaf (ts mw) 4 0x3B (va57 (laneAddr mw 1 7 0 0 k + BitVec.ofNat 64 (0x100 * j))) acc =
        .ok (0x2004 + 4 * k + 0x100 * j) ∧ paSpace (0x2004 + 4 * k + 0x100 * j) < 2 := by
  unfold AccessReady Issues VectorsOk ScalarsOk LaneOk; decide +kernel
/-- Elements at 0x2000 and scales at 0x3000. -/
theorem witness_QuantisingStore : let W := { tw with s := [(2, 0x2000), (3, 0x3000)] }
    AccessReady (ts W) 0 (run 8 1) [2, 3] none ∧ tileBusy W = false ∧ performing W ≠ 0 ∧ canonical (sGet W 2) = true ∧
    (sGet W 2).toNat % 32 = 0 ∧ isNibble 0x03 = false ∧ LaneOk (ts W) W (sGet W 3) 4 .write 0x3000 ∧
    (∀ k ∈ lanesOf (performing W), LaneOk (ts W) W (sGet W 2 + BitVec.ofNat 64 k) 1 .write (0x2000 + k) ∧
      tlbFind (ts W) 1 (va57 (sGet W 2 + BitVec.ofNat 64 k)) = some ⟨1, 4, 0, 0x3B, 0⟩ ∧ ¬ Covers 0x3000 4 (0x2000 + k)) ∧
    performing { tw with demm := 3 } = 0 ∧ canonical (0x0100000000000000 : W64) = false ∧ (0x2008 : W64).toNat % 16 ≠ 0 := by
  unfold AccessReady Issues VectorsOk ScalarsOk LaneOk Covers; decide +kernel
theorem witness_AtomicUpdates : AccessReady (ts mw) 0 (run 4 2 ++ voReg 7) [1] none ∧ tileBusy mw = false ∧
    ∀ k ∈ lanesOf (performing mw), LaneOk (ts mw) mw (laneAddr mw 1 7 0 0 k) 4 .atomic (0x2004 + 4 * k) ∧
      isPoisoned (ts mw) (some 0) (0x2004 + 4 * k) 4 = false ∧ (ts mw).upsets = [] ∧ paSpace (0x2004 + 4 * k) ≠ 2 := by
  unfold AccessReady Issues VectorsOk ScalarsOk LaneOk; decide +kernel
/-- A fence of device scope to DRAM with no write on its way, then with one; a result on its way; a write to a
sector of bank-linear row 5,723. -/
theorem witness_FencesAndResults : Issues (ts tw) 0 ∧ evFull tw (some 5) = false ∧ evFull { tw with ev := [(5, 62)] } (some 5) = false ∧
    coreLines (ts tw) 0 = [] ∧ coreLines { ts tw with l1 := [(l1Key 0 0x40, ⟨0, 1, 0⟩)], hostLines := [0x80] } 0 = [0x80] ∧
    (∀ d ∈ (ts tw).dramq, d.warp ≠ some 0) ∧ (ts tw).backInv = [] ∧ (ts tw).cmds = [] ∧
    (let k := 2 ^ 43 + 8 * 5723
     let s : State := { ts tw with dramq := [⟨k, 1, 5, some 0, some 1⟩] }
     s.dramq[0]? = some ⟨k, 1, 5, some 0, some 1⟩ ∧ l2Find s k = none ∧ paDue s (128 * k) = false ∧ s.dramq.take 0 = [] ∧
     dramReady s 1 = false ∧ ⟨k, 1, 5, some 0, some 1⟩ ∈ s.dramq) ∧
    { tw with pend := [⟨[(vKey 4 0, 1)], 2, none⟩] }.pend ≠ [] ∧ tw.exm ≠ 0 := by unfold Issues; decide +kernel
/-- Of the lanes 0 and 1 that an error names only lane 0 has a result on its way; a system fence waits for the host; a sector
whose unit 1 is dirty at the home L2 while a write of its unit 0 is on its way. -/
theorem witness_FencesAndResults_errors : let W := { tw with pend := [⟨[(vKey 4 0, 1)], 2, none⟩] }
    (∀ l < 32, (1 : W32).getLsbD l = true ↔ (3 : W32).getLsbD l = true ∧ (liveLanes W).getLsbD l = true ∧
      ∃ p ∈ W.pend, ∃ c ∈ p.cells, c.1 % 32 = l) ∧ W.pend ≠ [] ∧ { ts tw with backInv := [1] }.backInv ≠ [] ∧
    (let k := 2 ^ 43 + 8 * 5723
     let s : State := { ts tw with dramq := [⟨k, byteMask 0 32, 5, some 0, some 1⟩], l2 := [(k, ⟨7, byteMask 32 32, 0⟩)] }
     s.dramq[0]? = some ⟨k, byteMask 0 32, 5, some 0, some 1⟩ ∧ paDue s (128 * k) = false ∧ s.upsets = [] ∧
     l2Find s k = some ⟨7, byteMask 32 32, 0⟩ ∧ (byteMask 32 32 : BitVec 128) ≠ 0 ∧
     paDue { s with fwState := 2, fwBlock := 7 } (128 * k) = true) := by decide +kernel
theorem witness_CacheMaintenance : Issues (ts tw) 0 ∧ ScalarsOk tw [1, 2] ∧ VectorsOk tw (voReg 7) ∧ canonical (sGet tw 1) = true ∧
    0 < (sGet tw 2).toNat ∧ ((sGet tw 1).toNat + ((sGet tw 2).toNat - 1)) / 2 ^ 56 = (sGet tw 1).toNat / 2 ^ 56 ∧
    (0x2000, 5) ∈ mappedRuns (ts tw) 1 (sGet tw 1) 5 ∧ paSpace 0x2000 < 2 ∧ 0x40 ∈ runSectors (0x2000, 5) ∧ (sGet tw 9).toNat = 0 ∧
    evFull tw none = false ∧ (ts tw).upsets = [] ∧ dirtyLines (ts tw) 0 0x40 = [] ∧
    pagesHeld (ts tw) 1 (sGet tw 1) 5 = false ∧ (∀ l ∈ lanesOf tw.exm, prefDue (ts tw) tw 0 (laneAddr tw 1 7 0 0 l) = false) ∧
    dirtyLines { ts tw with l1 := [(l1Key 0 0x40, ⟨0, 1, 0⟩)], hostLines := [0x80] } 0 0x40 ≠ [] := by
  unfold Issues ScalarsOk VectorsOk; decide +kernel
/-- While the memory controllers' firmware is switched: a page at row 5,724 of bank 0, and page tables there. -/
theorem witness_CacheMaintenance_refresh : let W := { tw with s := [(1, 0x7000)] }
    let s : State := { ts W with fwState := 2, fwBlock := 7, tlb := [⟨1, 4, 0, BitVec.ofNat 64 (2 ^ 50 + 5696 * 1024 + 0x3B), 0⟩] }
    prefDue s W 0 (laneAddr W 1 255 0 0 0) = true ∧ 0 ∈ lanesOf W.exm ∧
    pagesHeld { s with tlb := [], bar := [(0x10008, BitVec.ofNat 64 (2 ^ 50 + 5724 * 1024))] } 1 (sGet W 1) 5 = true := by decide +kernel
theorem witness_CacheMaintenance_complete : let c := { maintCmd (ts tw) tw 0 .clean (some 1) with id := 4 }
    [c].find? (fun e => decide (e.id = 4) && (decide (e.kind = .clean) || decide (e.kind = .inval))) = some c := by decide +kernel
/-- Claims of tiles 0 and 7; a map at 0x2000; claimed and unclaimed tiles. -/
theorem witness_MatrixMode : Issues (ts tw) 0 ∧ tw.level = 0 ∧ tw.mode = false ∧ tw.pend = [] ∧
    (∀ n < 8, (0x81 : BitVec 8).getLsbD n = true → 32 * n + 32 ≤ tw.nv) ∧
    (∀ e ∈ tw.w, e.2.bound = true → (0x81 : BitVec 8).getLsbD (e.2.reg.toNat / 32) = false) ∧ ScalarsOk tw [1, 2] ∧
    suppressed tw = false ∧ canonical (sGet tw 1) = true ∧ (sGet tw 1).toNat % 32 = 0 ∧
    translate (ts tw) 1 (sGet tw 1) .read tw.verdicts = .ok 0x2000 ∧ isPoisoned (ts tw) (some 0) 0x2000 32 = false ∧ dirtyLines (ts tw) 0 (0x2000 / 128) = [] ∧ (ts tw).upsets = [] ∧ tw.nv < 32 * 8 + 32 ∧
    ({ tw with nv := 255 } : Warp).nv < 32 * (7 : BitVec 3).toNat + 32 ∧ 32 * (7 : BitVec 3).toNat + 32 ≤ tw.nv ∧
    (0x81 : BitVec 8).getLsbD 7 = true ∧ (0x81 : BitVec 8).getLsbD 6 = false := by unfold Issues ScalarsOk; decide +kernel

/-- Maps of FP8 rows at 0x2000 and 0x2400 with strides of 32 bytes, matrix mode with tile 1 claimed; s5 holds the length. -/
def ew : Warp := { tw with
  mode := true, mclaim := 2, s := [(5, 32)]
  m := [(0, BitVec.ofNat 256 (0x2000 + 32 * 2 ^ 64 + 3 * 2 ^ 192 + 2 ^ 198)), (1, BitVec.ofNat 256 (0x2400 + 32 * 2 ^ 64 + 3 * 2 ^ 192 + 2 ^ 198))] }
/-- A tile operation at its start, one row of each operand taken. -/
def et : TileOp := ⟨1, 1, 32, mGet ew 0, mGet ew 1, 0xFFFFFFFE, 0xFFFFFFFE, none, 0, 0, 0, false, false, none, []⟩
theorem witness_TileMultiply : Issues (ts ew) 0 ∧ ScalarsOk ew [5] ∧ ew.level = 0 ∧ ew.mclaim.getLsbD 1 = true ∧ ew.tile = none ∧
    evFull ew none = false ∧ mapCause 1 (mGet ew 0) (mGet ew 1) (sGet ew 5) = none ∧ sGet ew 5 ≠ 0 ∧ sGet ew 6 = 0 ∧
    mapCause 1 (mGet ew 2) (mGet ew 1) (sGet ew 5) = some 1 ∧ mapCause 0 (mGet ew 0) (mGet ew 1) (sGet ew 5) = some 2 ∧
    mapCause 1 (mGet ew 0) (mGet ew 1) (2 ^ 20 + 1) = some 4 := by unfold Issues ScalarsOk; decide +kernel
theorem witness_TileMultiply_block : let W := { ew with tile := some et }
    et.fault = none ∧ W.stat = .running ∧ tileRuns (ts W) 0 W et = true ∧ tileRuns (ts W) 0 W { et with stopped := true } = false ∧
    dpLets (ts W) (partOf W) .grid (vectorReady (ts W) (partOf W)) = true ∧ et.steps + 1 < blockSteps et ∧
    blockSteps et ≤ { et with steps := 40 }.steps + 1 ∧ (linesOf (ts W) 0 et et.mapA et.rowm 0).stop = none ∧
    (linesOf (ts W) 0 et et.mapB et.colm 0).stop = none ∧ ({ et with fault := some (0x0D, 0x2000) } : TileOp).fault ≠ none := by
  decide +kernel
/-- One row of FP8 elements at offset 0 of a scratchpad of 256 bytes; the rows of `ew` lie in memory. -/
theorem witness_TileMultiply_lines : let m : BitVec 256 := BitVec.ofNat 256 (3 * 2 ^ 192)
    let z : State := { ts ew with launches := [{ Launch.blank with job := 1, packet := 1#1024 <<< 864 }] }
    mapLoc m = 0 ∧ mapScl m = false ∧ (∀ r < 32, (0xFFFFFFFE : W32).getLsbD r = false → r = 0) ∧
    (∀ k < 32, scrPlace z (getW z 0) (mapBase m + BitVec.ofNat 64 0 * mapOstride m + BitVec.ofNat 64 (k * 1)) = some (0, k) ∧
      scrBad z 0 k 1 = none) ∧
    mapLoc (mGet ew 0) = 1 ∧ canonical (mapBase (mGet ew 0)) = true ∧
    translate (ts ew) 1 (mapBase (mGet ew 0)) .read et.verdicts = .ok 0x2000 ∧ dataBad (ts ew) (some 0) 0x2000 32 = false := by
  decide +kernel

/-! Engine commands: the descriptor of a copy of 2 bytes from 0x2100 to 0x2200 at 0x2040, and one that closes its batch -/

def em : List (Nat × Byte) := code ++ [(0x2041, 0x21), (0x2049, 0x22), (0x2050, 2), (0x2054, 1), (0x2100, 0xAB), (0x2101, 0xCD)]
def es : State := { ts { tw with s := [(1, 0x2040), (2, 1), (3, 2 ^ 47)] } with mem := em }
def cd : BitVec 512 := BitVec.ofNat 512 (0x2100 + 0x2200 * 2 ^ 64 + 2 * 2 ^ 128 + 2 ^ 160)
def cc : Cmd := { newCmd es 0 .cpy ⟨none, none, none⟩ 0x2040 1 none with
  descs := [.ok cd], batch := some 0 }
theorem witness_EngineCommandIssue : let W := getW es 0
    Issues es 0 ∧ ScalarsOk W [1, 2, 0] ∧ suppressed W = false ∧ evFull W none = false ∧ tileBusy W = false ∧
    W.closed.length < 8 ∧ acceptance es 1 (sGet W 1) none false = 0 ∧ acceptance es 1 (sGet W 2) none false = 2 ∧ fwHolds es 3 = false ∧
    acceptance es 65 (sGet W 1) none false = 1 ∧ coreLines es 0 = [] ∧ coreLines { es with l1 := [(l1Key 0 0x40, ⟨0, 1, 0⟩)], hostLines := [0x80] } 0 = [0x80] ∧ canonical (sGet W 3) = true ∧ (sGet W 3).toNat % 2 ^ 47 = 0 ∧
    engRead (l1WriteBack es 0) (newCmd es 0 .cpy ⟨none, none, none⟩ (sGet W 1) (sGet W 2) none) false (0x2040 + 64 * 0) 64 =
      (cd.toNat, none) ∧ suppressed { W with demm := 3 } = true := by unfold Issues ScalarsOk; decide +kernel
theorem witness_CopyAndSelect_waits : Issues (ts tw) 0 ∧ coreLines (ts tw) 0 = [] ∧ tw.pend = [] ∧ tileBusy tw = false ∧ outstanding tw ≤ 0 ∧ 1 < outstanding { tw with closed := [(0, 1), (1, 1)] } ∧
    ({ tw with stat := .waitCp 1 } : Warp).stat = .waitCp 1 := by unfold Issues; decide +kernel
theorem witness_CopyAndSelect_copy : let s := { es with cmds := [cc] }
    cmdHeld s cc 6 = false ∧ findCmd s cc.id .cpy = some cc ∧ fldA cd 320 = 0 ∧ fld cd 387 125 = 0 ∧ fld cd 128 32 = 2 ∧
    fld cd 160 32 = 1 ∧ (∀ i < 2, Cached s cc.job (fldA cd 0 + BitVec.ofNat 64 i) .read cc.verdicts (0x2100 + i) ∧
      canonical (fldA cd 0 + BitVec.ofNat 64 i) = true ∧ canonical (fldA cd 64 + BitVec.ofNat 64 i) = true ∧
      engPoison s (.pa (0x2100 + i)) = false ∧ Cached s cc.job (fldA cd 64 + BitVec.ofNat 64 i) .write cc.verdicts (0x2200 + i)) ∧
    (∀ i < 2, ∀ j < 2, EngAt.pa (0x2100 + i) ≠ EngAt.pa (0x2200 + j) ∧ (i ≠ j → EngAt.pa (0x2200 + i) ≠ EngAt.pa (0x2200 + j))) := by
  unfold Cached; decide +kernel
/-- Two rows of 2 bytes, 16 bytes apart at the source and 4 at the destination. -/
theorem witness_CopyAndSelect_rows : let d : BitVec 512 := BitVec.ofNat 512 (0x2100 + 0x2200 * 2 ^ 64 + 2 * 2 ^ 128 + 2 * 2 ^ 160 + 16 * 2 ^ 192 + 4 * 2 ^ 256)
    let c := { cc with descs := [.ok d] }
    let s := { es with cmds := [c] }
    cmdHeld s c 6 = false ∧ findCmd s c.id .cpy = some c ∧ fldA d 320 = 0 ∧ fld d 387 125 = 0 ∧ fld d 128 32 = 2 ∧ fld d 160 32 = 2 ∧
    d.getLsbD 384 = false ∧ d.getLsbD 385 = false ∧
    (∀ i < 4, let a := fldA d 0 + BitVec.ofNat 64 (i / 2) * fldA d 192 + BitVec.ofNat 64 (i % 2)
      let b := fldA d 64 + BitVec.ofNat 64 (i / 2) * fldA d 256 + BitVec.ofNat 64 (i % 2)
      canonical a = true ∧ canonical b = true ∧ engPoison s (.pa (0x2100 + 16 * (i / 2) + i % 2)) = false ∧ s.upsets = [] ∧
      Cached s c.job a .read c.verdicts (0x2100 + 16 * (i / 2) + i % 2) ∧ Cached s c.job b .write c.verdicts (0x2200 + 4 * (i / 2) + i % 2)) ∧
    ∀ i < 4, ∀ j < 4, EngAt.pa (0x2100 + 16 * (i / 2) + i % 2) ≠ EngAt.pa (0x2200 + 4 * (j / 2) + j % 2) ∧
      (i ≠ j → EngAt.pa (0x2200 + 4 * (i / 2) + i % 2) ≠ EngAt.pa (0x2200 + 4 * (j / 2) + j % 2)) := by
  unfold Cached; decide +kernel
/-- A select of the greatest of two FP32 numbers. -/
def sd : BitVec 512 := BitVec.ofNat 512 (0x2100 + 0x2200 * 2 ^ 64 + 2 * 2 ^ 128 + 2 ^ 160 + 2 ^ 192)
theorem witness_CopyAndSelect_select : let c := { cc with kind := .rsel, descs := [.ok sd] }
    let s := { es with cmds := [c] }
    cmdHeld s c 6 = false ∧ findCmd s c.id .rsel = some c ∧ selBytes (fld sd 192 5) = some 4 ∧ fld sd 128 32 = 2 ∧
    fld sd 160 16 = 1 ∧ fld sd 197 123 = 0 ∧ fld sd 176 16 = 0 ∧ fldA sd 320 = 0 ∧ fld sd 387 125 = 0 ∧ fld sd 0 64 % 4 = 0 ∧ fld sd 64 64 % 4 = 0 ∧
    engRead s c (sd.getLsbD 384) (fldA sd 0) 8 = (0xCDAB, none) ∧
    (∀ i < 4, Cached s c.job (fldA sd 64 + BitVec.ofNat 64 i) .write c.verdicts (0x2200 + i)) := by
  unfold Cached; decide +kernel

/-! Sketch commands: a histogram of 1,024 cells at 0x4000, bound to window 2^47, and one at 0x6000, bound to window 2^48; the
job's tables in memory -/

def kb : Binding := ⟨1, BitVec.ofNat 64 (2 ^ 47), 0x4000, 6, 1, 1, 0, 0, 0⟩
def kd (x y : Nat) : BitVec 512 := BitVec.ofNat 512 (2 ^ 47 + x * 2 ^ 64 + y * 2 ^ 256)
def kc (kind : CmdKind) (ds : List DescRead) : Cmd :=
  { newCmd es 0 kind ⟨none, none, none⟩ (BitVec.ofNat 64 (2 ^ 47)) 0 none with
    descs := ds }
def ks (c : Cmd) : State := { es with
  cmds := [c], bindings := [kb, { kb with window := BitVec.ofNat 64 (2 ^ 48), body := 0x6000 }]
  bar := tabSet 0 es.bar 0x10008 0x10000
  mem := em ++ [(0x10022, 2), (0x10030, 1), (0x20008, 5), (0x20010, 5)] }
theorem witness_SketchCommands_bind : ∀ ty ∈ [0, 6], let d := kd (if ty = 0 then 0 else 0x4000) (if ty = 0 then 0 else 6 + 2 ^ 4 + 2 ^ 22)
    let c := kc .skcfg [.ok d]
    let s := ks c
    skTurn s c = true ∧ cmdHeld s c 5 = false ∧ findCmd s c.id .skcfg = some c ∧ skcfgBad d = false ∧ fldA d 192 = 0 ∧
    canonical (fldA d 0) = true ∧ (fldA d 0).toNat % 2 ^ 47 = 0 ∧ inWindow s c.job (fldA d 0) = true ∧ fld d 256 4 = ty ∧
    (ty ≠ 0 → d.getLsbD 278 = true ∧ bodyCheck s c 0x4000 4352 .atomic = none ∧ bodyHeld s c 0x4000 4352 = none ∧ (0x4000 : W64).toNat % 512 = 0 ∧ (∀ h ∈ bodyStacks s c.job 0x4000 4352, h = 0) ∧
      256 + cellBytes 6 1 0 = 4352) := by decide +kernel
theorem witness_SketchCommands_bytes : let s := ks (kc .skcfg [])
    ∀ o ∈ [0, 255, 256, 4351], canonical (0x4000 + BitVec.ofNat 64 o) = true ∧ Cached s 1 (0x4000 + BitVec.ofNat 64 o) .write [] (0x4000 + o) := by
  unfold Cached; decide +kernel
theorem witness_SketchCommands_fold : let c := kc .skfold []
    let s := ks c
    findCmd s c.id .skfold = some c ∧ skTurn s c = true ∧ cmdHeld s c 5 = false ∧ inWindow s c.job c.sa = true ∧
    findBinding s c.job c.sa = some kb ∧ (lgRange 6).1 + 1 ≤ kb.lgsize ∧ bodyCheck s c kb.body 4352 .atomic = none ∧
    bodyPoison s kb 0 256 = none ∧ bodyPoison s kb 256 4096 = none ∧ bodyHeld s c kb.body (256 + cellBytes 6 0 0) = none ∧ 1 < [1, 2, 3, 4].length / 2 := by decide +kernel
theorem witness_SketchCommands_merge : let d := kd 0 0 ||| BitVec.ofNat 512 (2 ^ 112)
    let c := kc .skmerge [.ok d]
    let s := ks c
    findCmd s c.id .skmerge = some c ∧ skTurn s c = true ∧ cmdHeld s c 5 = false ∧ fldA d 128 = 0 ∧ c.started = false ∧
    mergeBad s c d = none ∧ findBinding s c.job (fldA d 0) = some kb ∧ fld d 224 32 = 0 ∧
    mergeSrc s c d = some (.here ⟨{ kb with window := BitVec.ofNat 64 (2 ^ 48), body := 0x6000 }, none⟩) ∧
    bodyCheck s c kb.body 256 .atomic = none ∧ bodyCheck s c (kb.body + 256) 4096 .atomic = none ∧
    bodyCheck s c 0x6000 256 .read = none ∧ bodyCheck s c 0x6100 4096 .read = none ∧ bodyPoison s kb 256 4096 = none ∧
    bodyPoison s { kb with window := BitVec.ofNat 64 (2 ^ 48), body := 0x6000 } 256 4096 = none ∧ bodyPoison s kb 0 256 = none ∧
    bodyPoison s { kb with window := BitVec.ofNat 64 (2 ^ 48), body := 0x6000 } 0 256 = none ∧ loopOut s c = false ∧ farWaits s (.cmd c.id) = false ∧
    bodyHeld s c kb.body 256 = none ∧ bodyHeld s c (kb.body + 256) 4096 = none ∧ mergeBad s c (d ||| 2 ^ 256) = some 1 := by
  decide +kernel
/-- A body that is adopted as it stands: init is clear. -/
theorem witness_SketchCommands_adopt : let d := kd 0x4000 (6 + 2 ^ 4)
    let c := kc .skcfg [.ok d]
    let s := ks c
    findCmd s c.id .skcfg = some c ∧ skcfgBad d = false ∧ fldA d 192 = 0 ∧ fld d 256 4 = 6 ∧ d.getLsbD 278 = false ∧
    skcfgBinding d c.job 0 = { kb with depth := 0, thr := 128 } ∧ inWindow s c.job (fldA d 0) = true ∧ bodyCheck s c 0x4000 4352 .atomic = none ∧
    bodyPoison s { kb with depth := 0, thr := 128 } 256 4096 = none ∧ bodyHeld s c 0x4000 256 = none ∧ (∀ h ∈ bodyStacks s c.job 0x4000 4352, h = 0) := by
  decide +kernel
theorem witness_SketchCommands_rows : let b := { kb with type := 3, lgsize := 1, depth := 2 }
    [1, 2, 3, 4].length = b.depth * 2 ^ b.lgsize ∧ 1 < b.depth ∧ 0 < 2 ^ b.lgsize / 2 := by decide +kernel

/-! A sketch window whose pages a job may read and write: lanes 0 and 1 query, insert and ask for the status -/

/-- A Bloom region of two bytes of cells at 0x4000. -/
def sb : Binding := { kb with type := 1, lgsize := 4, depth := 2 }
theorem witness_LaneFaults_body : BodyAt (ts tw) sb [] (256 + cellBytes sb.type sb.lgsize sb.depth) (fun o => 0x4000 + o) :=
  ⟨by unfold Cached; decide +kernel, fun o _ q _ h => by simpa using h⟩
theorem witness_LaneFaults_sketch : let W := { tw with s := [(1, BitVec.ofNat 64 (2 ^ 47 + 40))] }
    let s : State := { ks cc with
      cmds := [], warps := [W], bindings := [sb], mem := em ++ [(0x10022, 2), (0x10030, 1), (0x20008, 0x1D), (0x20010, 0x1D)] }
    Issues s 0 ∧ AccessReady s 0 (run 4 2 ++ voReg 255) [1] none ∧ fmtBytes 0x0B = 8 ∧ tileBusy W = false ∧
    ∀ k ∈ lanesOf (performing W), let a := laneAddr W 1 255 0 (nibbleShift 0x0B) k
      findBinding s (warpJob s W) (BitVec.ofNat 64 (a.toNat / 2 ^ 47 * 2 ^ 47)) = some sb ∧
      checkLane s W a 8 .read (fun e => skLdSt s W a false 0x0B 0 e) = .skt ∧ skPoison s sb false a 0 = none ∧
      checkLane s W a 8 .write (fun e => skLdSt s W a true 0x0B (vGet W 4 k) e) = .skt ∧
      skPoison s sb true a (vGet W 4 k) = none := by
  unfold AccessReady Issues VectorsOk ScalarsOk; decide +kernel
theorem witness_LaneFaults_estimate : let ms := List.replicate 15 0 ++ [3]
    ms.length = 16 ∧ 16 = 2 ^ 4 ∧ (ms.filter fun k => decide (k = 0)).length = 15 := by decide +kernel
/-- A key, a deletion, a rank and a status address. -/
theorem witness_LaneFaults_functions : ∀ fn ∈ [0, 1, 2, 3], (BitVec.ofNat 64 (2 ^ 47 + 2 ^ 44 * fn + 40) : W64).toNat / 2 ^ 44 % 8 = fn := by
  decide +kernel

/-! Vat commands: posts of lanes 0 and 1 to unit 0, descriptors at 0x2000 and 0x2040, records at 0x3000 and 0x3040 -/

def vw : Warp := { tw with v := [(vKey 1 1, 0x40), (vKey 2 0, 0x1000), (vKey 2 1, 0x1040)] }
def vc : VatCmd := ⟨3, [7], BitVec.ofNat 512 (64 * 2 ^ 32 + 0x2100 * 2 ^ 64), 0x3000, [(0, 0)], 1, 0, 0⟩
def vr : VatRun := startRun State.reset 0 vc
theorem witness_VatCommands_post : let s := ts vw
    let p : PostArgs := ⟨vw, 0, sGet vw 1, 0, []⟩
    Issues s 0 ∧ VectorsOk vw [0, 1, 2] ∧ ScalarsOk vw [1, 9, 0] ∧ suppressed vw = false ∧ evFull vw none = false ∧
    tileBusy vw = false ∧ sbBad (sGet vw 9) = false ∧ sbBad (sGet vw 2) = true ∧ postQuery s vw (sGet vw 9) = some [] ∧
    queryBad s vw (sGet vw 9) = none ∧
    ∀ k ∈ lanesOf (performing vw), postLane s p k = (⟨k, p.desc k, .ok (0x2000 + 0x40 * k)⟩, .read, false) ∧ dataBad s (some 0) (0x2000 + 0x40 * k) 64 = false := by
  unfold Issues VectorsOk ScalarsOk; decide +kernel
theorem witness_VatCommands_units : let s : State := { State.reset with vatWait := [(8, vc)] }
    s.vatWait.find? (fun e => e.1 = 8) = some (8, vc) ∧ unitLoad (unitOf s 8) < 4 ∧
    (∀ r ∈ [vr, { vr with idle := 65536 }], let t := putUnit s 0 ⟨[], some r⟩; (unitOf t 0).run = some r ∧
      (mouldOf t 0).image = none) ∧ vr.idle < 65536 ∧
    (let t := putUnit (putChan s 1 { Channel.blank with state := .compute }) 9 ⟨[vc], none⟩
     unitOf t 9 = ⟨[vc], none⟩ ∧ (chanOf t 1).state = .compute ∧ (mouldOf t 0).badUnits.contains 9 = false ∧ recLines t vc 5 = []) ∧ controlBad (putUnit s 0 ⟨[], some vr⟩) 0 vr = none ∧
    vatLines s 0 vr = [] ∧ vatLines { s with backInv := [0x3000 / 64] } 0 vr = [0x3000 / 64] ∧
    controlBad { s with upsets := [.control 0 5] } 0 vr ≠ none ∧ opensHeld s 0 vr = false ∧
    opensHeld (putChan s 0 { Channel.blank with debts := [(0, 6)] }) 0 vr = true ∧
    (mouldOf (putMould s 0 { mouldOf s 0 with image := some ([], []) }) 0).image = some ([], []) := by decide +kernel
theorem witness_VatCommands_program : ∃ y, y = runClass [] State.reset vc 5 ∧ y.2.code = 0 ∧ y.2.bad = none ∧ vdCount vc.desc = 32 * 2 ∧
    (∀ i < 2, heldPa vc (vdA vc.desc + BitVec.ofNat 64 (32 * i)) = some (0x2100 + 32 * i) ∧ (0x2100 + 32 * i) % 32 = 0 ∧
      dramPoisoned State.reset (0x2100 + 32 * i) 32 = false) ∧
    ∀ i < 2, ∀ j < 2, i ≠ j → cellOf (0x2100 + 32 * i) ≠ cellOf (0x2100 + 32 * j) := by
  exact ⟨_, rfl, by decide +kernel⟩
theorem witness_VatCommands_merge : let d := BitVec.ofNat 512 (0x2100 + 0x2200 * 2 ^ 64 + 0x2300 * 2 ^ 128)
    let c := kc .tmerge [.ok d]
    let s := ks c
    findCmd s c.id .tmerge = some c ∧ cmdHeld s c 6 = false ∧ c.descs[c.at_]? = some (.ok d) ∧ fld d 264 248 = 0 ∧ fld d 256 8 = 0 ∧
    fldA d 192 = 0 ∧ fld d 0 64 % 16 = 0 ∧ fld d 64 64 % 16 = 0 ∧ fld d 128 64 % 16 = 0 ∧
    (engRead s c false (fldA d 0) 16).2 = none ∧ (engRead s c false (fldA d 64) 16).2 = none ∧
    (engRun s c false (fldA d 128) 16 .write).2 = none := by decide +kernel

/-! Launches: queue 1 takes launches, queue 2 takes spawns of job 1; their descriptors at 0x8040 and 0x8080, one slot used -/
def qm : List (Nat × Byte) := [(0x8041, 0x90), (0x8048, 1), (0x8050, 0x84), (0x8052, 1), (0x8081, 0xA0), (0x8090, 0x84),
  (0x8091, 1), (0x8092, 1)]
def qs : State := { State.reset with
  stage := 3, admitted := 0xFF, tlb := [⟨1, 4, 0, 0x3B, 0⟩]
  bar := [(0x10000, 0x8000), (0x10008, 0x10000), (0x10010, 7)]
  mem := qm ++ [(0x9060, 1), (0x10022, 2), (0x10030, 1)] }
/-- A packet of one gang of one group of one warp. -/
def pk : BitVec 1024 := 1#1024 <<< 768
theorem witness_QueuesAndDispatch_doorbell : let d := qDesc qs 1
    paExists (qAt qs 1) = true ∧ paExists (qAt qs 1 + 63) = true ∧ heldLines qs (qAt qs 1) 64 = [] ∧
    runDue qs (qAt qs 1) 64 = false ∧ queueBad qs 1 = none ∧ queueBad { qs with poison := [0x8040 / 32] } 1 = some 0x8040 ∧
    qSpawn d = false ∧ qOn d = true ∧ qHeld d = 1 ∧ qLen d = 16 ∧
    qRead d = 0 ∧ qSpawn (qDesc qs 2) = true ∧ qOn (qDesc qs 3) = false := by decide +kernel
theorem witness_QueuesAndDispatch_spawn : ∀ q ∈ [2, 3, 64], let c : Cmd := { newCmd qs 0 .spawn ⟨none, none, none⟩ 0x9000 (BitVec.ofNat 64 q) none with
      job := 1 }
    let s := { qs with cmds := [c] }
    findCmd s c.id .spawn = some c ∧ fwHolds s 1 = false ∧ waitsRecord s (.cmd c.id) = false ∧ (q = 64 → 63 < c.sb.toNat) := by
  decide +kernel
/-- The descriptor of queue 2. -/
def qd : Nat := 0xA000 + 4 * 2 ^ 128 + 3 * 2 ^ 135 + 2 ^ 144
theorem witness_QueuesAndDispatch_queue : qDesc qs 2 = qd ∧ qOn (qDesc qs 3) = false ∧ qOn qd = true ∧ qSpawn qd = true ∧
    qJob qd = 1 ∧ qBad qs qd = false ∧ qHeld qd < qLen qd ∧ paExists (qSlot qd (qWrite qd)) = true ∧
    paExists (qSlot qd (qWrite qd) + 127) = true ∧ heldLines qs (qAt qs 2) 64 = [] ∧
    heldLines qs (qSlot qd (qWrite qd)) 128 = [] ∧ runDue qs (qAt qs 2) 64 = false ∧ queueBad qs 2 = none ∧
    runDue qs (qSlot qd (qWrite qd)) 128 = false ∧ queueBad { qs with poison := [0x8080 / 32] } 2 = some 0x8080 := by
  decide +kernel
theorem spawnPacket_of_read {s : State} {c : Cmd} {v : Nat} (hc : canonical c.sa = true) (ha : c.sa.toNat % 64 = 0)
    (h : engRead s c false c.sa 128 = (v, none)) (hm : pktMalformed (BitVec.ofNat 1024 v) = false) :
    spawnPacket s c = .ok (BitVec.ofNat 1024 v) := by
  unfold spawnPacket
  simp [hc, ha, h, hm]
theorem witness_QueuesAndDispatch_packet : spawnPacket qs { newCmd qs 0 .spawn ⟨none, none, none⟩ 0x9000 2 none with
    job := 1 } = .ok (BitVec.ofNat 1024 pk.toNat) :=
  spawnPacket_of_read (by decide +kernel) (by decide +kernel) (by decide +kernel) (by decide +kernel)
theorem witness_QueuesAndDispatch_dispatch : fwHolds qs 1 = false ∧ paExists (qAt qs 0 + 4095) = true ∧
    (List.range 64).all (fun q => decide (headOf qs q ≠ .broken ∧ headOf qs q ≠ .dead)) = true ∧ bestHead qs (readyHeads qs) = some (1, 0, pk, false) ∧
    paExists (qSlot (qDesc qs 1) 0 + 127) = true ∧ refusal qs (.queue 1) 1 pk = .code 0 [] [] ∧ heldLines qs (qAt qs 0) 4096 = [] ∧
    runDue qs (qAt qs 0) 4096 = false ∧ runDue qs (qSlot (qDesc qs 1) 0) 128 = false ∧
    headOf { qs with poison := [0x9000 / 32] } 1 = .spoiled 0 0x9000 32 ∧
    fwHolds { qs with fwState := 2, fwBlock := 1 } 1 = true ∧ qs.cancel = none ∧
    bestHead State.reset (readyHeads State.reset) = none := by decide +kernel
/-- The head's dependence lies in a range whose entry is pending. -/
theorem witness_QueuesAndDispatch_poll : let s := { qs with
      mem := qm ++ [(0x903D, 0x80), (0x9060, 1), (0x10022, 2), (0x10030, 1), (0x20008, 2)] }
    headOf s 1 = .wait (.record (2 ^ 47) 0x20008 0 1) ∧
    (List.range 64).all (fun r => decide (r = 1) || !(match headOf s r with
      | .wait _ => true
      | _ => false)) = true := by decide +kernel

def ps : State := { State.reset with
  stage := 3, admitted := 0xFF, launches := [{ Launch.blank with packet := pk, job := 1, waitFrom := some 0 }] }
theorem witness_PlacementAndCompletion_place : fwHolds ps 1 = false ∧ wantsPlace ps (getL ps 0) = true ∧
    savedGangs ps (getL ps 0) = [] ∧ mayPlace ps 0 = true ∧ (getL ps 0).nextGang < pkGangs pk ∧ pkCores pk = false ∧
    gangFits ps pk [0] = true ∧ pkRelease pk ≤ ps.time.toNat ∧ (getL ps 0).waitFrom = some 0 ∧ groupsOn ps 0 = [] ∧
    ps.stage = 3 ∧ [0].flatMap (coreLines ps) = [] := by decide +kernel
theorem witness_PlacementAndCompletion_cycle : (ts tw).swap = none ∧
    ((readyIn (ts tw) 0).filter fun r => datapathLets (ts tw) 0 r.2).map Prod.fst = [0] ∧
    pkTether (warpPkt (ts tw) (getW (ts tw) 0)) = false ∧ readyIn (ts tw) 1 = [] := by decide +kernel
theorem witness_PlacementAndCompletion_datapath : let s := { ts { ew with tile := some et } with grids := [(0, ⟨.vector, 0, 9, 9⟩)], clock := 10 }
    (dpAt s 0).conf = .vector ∧ inBubble s (dpAt s 0) = false ∧ stepReady s 0 = true ∧
    (let t := { ts { tw with code := [0, 0x5420242B, 0] } with grids := [(0, ⟨.grid, 0, 9, 9⟩)], clock := 10 }
     (dpAt t 0).conf = .grid ∧ inBubble t (dpAt t 0) = false ∧ (∃ r ∈ readyIn t 0, isVectorPort r.2 = true) ∧
     (∃ r ∈ readyIn { t with grids := [] } 0, readsVector r.2 = true ∧ datapathLets { t with grids := [] } 0 r.2 = true) ∧
     regBad t 0 = none ∧ regBad { t with upsets := [.reg 0 1] } 0 ≠ none ∧ inBubble t ⟨.grid, 0, 0, 12⟩ = true) := by
  decide +kernel
theorem witness_PlacementAndCompletion_complete : let L := { getL ps 0 with nextGang := 1 }
    let s := { ps with launches := [L] }
    launchOver s 0 = true ∧ L.endState = 0 ∧ L.dropped = false ∧ complPa s 0 1 (pkStatus pk) .write = .fault 1 none ∧
    complPa s 0 1 (pkLcount pk) .atomic = .fault 1 none ∧ complPa s 0 1 (pkGcount pk) .atomic = .fault 1 none ∧
    complPa s 0 1 (jobCount s 1) .atomic = .fault 1 none ∧ (launchCores s L).flatMap (wroteLines s 0) = [] ∧ reportCount [(.fault 1 none, .write)] = 0 := by decide +kernel
theorem witness_PlacementAndCompletion_record : let p : BitVec 1024 := pk ||| BitVec.ofNat 1024 (0x3000 * 2 ^ 192 + 2 ^ 832)
    let s : State := { ts tw with recq := [⟨0, 5⟩], launches := [{ getL (ts tw) 0 with packet := p }] }
    s.recq = [⟨0, 5⟩] ∧ pkFaultLog p = 0x3000 ∧ logAt s 0 1 0x3000 = .ok 0x3000 ∧ l2Read s 0x3000 8 < pkLogCap p ∧ dataBad s none 0x3000 8 = false ∧
    logAt s 0 1 (0x3000 + 64) = .ok 0x3040 := by decide +kernel
/-- Gang 0 held until time 9, then with that time reached. -/
theorem witness_PlacementAndCompletion_release : let s : State := { ps with
      gangs := [⟨0, 0, [], .held, [], []⟩], launches := [{ getL ps 0 with packet := pk ||| BitVec.ofNat 1024 (9 * 2 ^ 704) }] }
    (getGang s 0).stat = .held ∧ pkRelease (getL s 0).packet = 9 := by decide +kernel
theorem witness_PreemptionAndSwap_command : matched ps ⟨0, 1, 0, 0, []⟩ = [0] ∧ ps.xcmd = none ∧ ps.stage = 3 ∧ fwHolds ps 1 = false ∧
    (0x100000000 : W64).toNat = (0 : W32).toNat + 2 ^ 32 * 1 + 2 ^ 61 * 0 + 2 ^ 62 * 0 ∧ (getL ps 0).hold = false := by decide +kernel
theorem witness_PreemptionAndSwap_save : let W := { tw with started := false }
    let s := { ts W with gangs := [⟨0, 0, [0], .stopping 3, [], []⟩], tlb := [⟨1, 4, 0, 0x3B, 0⟩, ⟨1, 4, 1, 0x1003B, 0⟩] }
    (getGang s 0).stat = .stopping 3 ∧ gangStopped s 0 = true ∧ catchUp s 0 = none ∧
    runState s 0 1 (slotBase (xhEntry s 1) 3) (imageSize (getL s 0).packet) .write = .ok ∧
    ((getGang s 0).groups.flatMap fun h => coreLines s (getG s h).core) = [] ∧ 0 ∈ (getG s 0).warps ∧ warpGone (getW s 0) = false ∧
    gangStopped { ts tw with gangs := [⟨0, 0, [0], .stopping 3, [], []⟩] } 0 = false := by decide +kernel
theorem witness_PreemptionAndSwap_none : let s := { ts tw with xcmd := some ⟨0, 1, 0, 0, [0]⟩ }
    (getGang s 0).stat = .running ∧ fwHolds s 1 = false ∧ inXcmd s 0 = true ∧
    (match claimAll s (withPeers s 0) with
      | .none _ _ => true
      | _ => false) = true := by decide +kernel
/-- Job 1 has a pool of one slot of one unit at 0: the slot is free, or the pool's bitmap is uncorrectable, or its page waits for
a copy. -/
theorem witness_PreemptionAndSwap_claim : let s := { ts tw with
      xcmd := some ⟨0, 1, 0, 0, [0]⟩, tlb := [⟨1, 4, 0, 0x3B, 0⟩, ⟨1, 4, 1, 0x1003B, 0⟩]
      bar := tabSet 0 barReset 0x20000 0x8000, mem := code ++ [(0x8030, 1), (0x8034, 1), (0x8036, 1)] }
    (getGang s 0).stat = .running ∧ fwHolds s 1 = false ∧ inXcmd s 0 = true ∧
    (match claimAll s (withPeers s 0) with
      | .ok _ => true
      | _ => false) = true ∧
    (match claimAll { s with poison := [0] } (withPeers s 0) with
      | .dead j pa => decide (j = 1 ∧ pa = 0)
      | _ => false) = true ∧
    (match claimAll { s with tlb := [⟨1, 4, 0, 0x7B, 0⟩] } (withPeers s 0) with
      | .wait _ _ _ _ => true
      | _ => false) = true := by decide +kernel
theorem witness_PreemptionAndSwap_restore : let s := { ps with
      gangs := [⟨0, 0, [], .saved 3, [], []⟩], launches := [{ getL ps 0 with nextGang := 1, gangs := [0] }] }
    wantsPlace s (getL s 0) = true ∧ (savedGangs s (getL s 0)).head? = some 0 ∧ mayPlace s 0 = true ∧ imageWait s [0] = none ∧
    headerBads s 0 (slotBase (xhEntry s 1) 3) = [] ∧ s.gangs.length = 1 ∧ [0].flatMap (coreLines s) = [] ∧
    gangImageBad s 0 (slotBase (xhEntry s 1) 3) = true ∧ (getGang s 0).stat = .saved 3 ∧ gangFits s pk [0] = true := by decide +kernel
theorem witness_PreemptionAndSwap_swap : let s := { ps with mem := [(0x201C, 1)] }
    let d := l2Read s 0x2000 64
    s.swap = none ∧ s.stage = 3 ∧ fwHolds s 1 = false ∧ paExists 0x2000 = true ∧ paExists (0x2000 + 63) = true ∧ d / 2 ^ 224 % 256 = 1 ∧ d / 2 ^ 192 % 2 ^ 32 = 0 ∧
    d / 2 ^ 232 = 0 ∧ (BitVec.ofNat 64 d).toNat % 4 = 0 ∧ (getL s 0).complete = false ∧ (getL s 0).endState = 0 ∧ (getL s 0).job = 1 ∧
    pkId pk = 0 := by decide +kernel

/-! Translation: tables of job 1 from 0x20000 down to a leaf for page 0, the frame at 0x30000 -/

def xm (leaf : Byte) : List (Nat × Byte) :=
  [(0x10022, 2), (0x10030, 1), (0x20000, 1), (0x20001, 0x20), (0x20002, 2), (0x22000, 1), (0x22001, 0x30), (0x22002, 2), (0x23000, 1),
   (0x23001, 0x40), (0x23002, 2), (0x24000, 1), (0x24001, 0x50), (0x24002, 2), (0x25000, leaf), (0x25002, 3)]
/-- The fault ring at 0x40000, the frame pool of stack 0 at 0x48000, the substitution log at 0x4C000, 2 entries each and on. -/
def xs (leaf : Byte) : State := { State.reset with
  stage := 3, admitted := 0xFF, mem := xm leaf
  bar := [(0x10008, 0x10000), (0x30000, 0x40000), (0x30008, 0x11), (0x30048, 0x4C000), (0x30050, 0x11), (0x30100, 0x48000), (0x30108, 0x11)] }
def xr : XRec := ⟨0x10000, 0x25008, 5, 1, 4, 0, 1, 0, false, [.warp 0]⟩
theorem witness_TranslationAgents_walk : canonical 0 = true ∧ (xs 0x3B).stage = 3 ∧ fwHolds (xs 0x3B) 2 = false ∧
    walk (xs 0x3B) 1 0 = .leaf 4 0x3003B 0x25000 ∧ walk (xs 0x3B) 1 0x10000 = .unmapped := by decide +kernel
theorem witness_TranslationAgents_post : let s := { xs 0x3B with xrecs := [xr] }
    s.xrecs.find? (fun x => !x.posted) = some xr ∧ ringRoom s tfq = true ∧ ringBase s tfq = 0x40000 ∧ paExists 0x40000 = true ∧ paFenced s 0x40000 = false ∧
    paExists (0x40000 + 31) = true ∧ heldLines s 0x40000 32 = [] ∧ runDue s 0x40000 32 = false ∧ ringRoom { s with bar := [] } tfq = false := by decide +kernel
theorem witness_TranslationAgents_resolve : let s := { xs 0x3B with xrecs := [xr] }
    s.xrecs.find? (fun r => r.tag = 5 && r.reason ≠ 3) = some xr ∧ s.xrecs.find? (fun r => r.tag = 6 && r.reason ≠ 3) = none ∧
    s.stage = 3 ∧ fwHolds s 2 = false ∧ fwHolds { s with fwState := 2, fwBlock := 2 } 2 = true := by decide +kernel
theorem witness_TranslationAgents_shootdown : let s := xs 0x3B
    s.shoot = none ∧ s.stage = 3 ∧ fwHolds s 2 = false ∧ (jobCores s 1).flatMap (coreLines s) = [] ∧ (1 : W64).toNat = 1 ∧ (0x101 : W64).toNat = 2 ^ 8 + 1 ∧ shootWaits s ⟨1, true, [], [], []⟩ = false ∧
    shootWaits { s with cmds := [cc] } ⟨1, true, [cc.id], [], []⟩ = true := by decide +kernel
/-- The pool holds no frame, then the frame at 0x50000. -/
theorem witness_TranslationAgents_copy : ∀ pool ∈ [false, true], let s := { xs 0x7B with
      cows := [⟨4, 1, 0, 2, []⟩], mem := xm 0x7B ++ [(0x48002, 5)]
      bar := (xs 0).bar ++ if pool then [(0x30110, 1)] else [] }
    s.cows.find? (fun c => c.ident = 4) = some ⟨4, 1, 0, 2, []⟩ ∧ s.xrecs = [] ∧ walk s 1 0 = .leaf 4 0x3007B 0x25000 ∧ eCow 0x3007B = true ∧
    ringRoom s tsl = true ∧ paStack (eAddr 0x3007B) = 0 ∧ paExists (ringBase s (tpool 0) + 7) = true ∧
    paExists (ringBase s tsl + 15) = true ∧ (nextFrame s 0 4097).2 = (if pool then some 0x50000 else none) ∧
    cowDue s 0x30000 0x50000 = false ∧ cowLines s 0x25000 0x50000 = [] ∧ runDue s (ringBase s (tpool 0)) 16 = false ∧
    8 * ringSize s (tpool 0) = 16 ∧ runDue s (ringBase s tsl + 16 * (ringWr s tsl % ringSize s tsl)) 16 = false := by decide +kernel
theorem cellOf_interleaved {a : Nat} (h : a < 2 ^ 50) : cellOf a = a := by
  have : paSpace a = 0 := Nat.div_eq_of_lt h
  simp [cellOf, this]
/-- The old frame at 0x30000, the new one at 0x50000, the table's entry at 0x25000 and the log's at 0x4C000. -/
theorem witness_TranslationAgents_finish : eAddr 0x3007B = 0x30000 ∧
    ringBase (xs 0x7B) tsl + 16 * (ringWr (xs 0x7B) tsl % ringSize (xs 0x7B) tsl) = 0x4C000 ∧ paSpace 0x30000 < 2 ∧ paSpace 0x50000 = 0 ∧
    paSpace 0x25000 < 2 ∧ 0x30000 % 2 ^ 16 = 0 ∧ 0x50000 % 2 ^ 16 = 0 ∧ paFenced (xs 0x7B) 0x4C000 = false ∧
    (∀ i < 65536, cellOf (0x30000 + i) < 0x50000 ∨ 0x50000 + 65536 ≤ cellOf (0x30000 + i)) ∧
    (∀ i < 8, ¬ Covers 0x50000 65536 (0x25000 + i) ∧ ¬ Covers 0x4C000 16 (0x25000 + i)) ∧ ∀ i < 16, ¬ Covers 0x50000 65536 (0x4C000 + i) := by
  refine ⟨by decide, by decide +kernel, by decide, by decide, by decide, by decide, by decide, by decide +kernel, ?_, ?_, ?_⟩
  · intro i hi
    rw [cellOf_interleaved (by omega)]
    omega
  · intro i hi
    unfold Covers
    omega
  · intro i hi
    unfold Covers
    omega

/-! The host, checkpoints, ports -/

theorem linearOf_space {a : Nat} (h : a < 8 * stackBytes) : paSpace (linearOf a) = 1 := by
  have h0 : paSpace a = 0 := Nat.div_eq_of_lt (by unfold stackBytes at h; omega)
  have hi : swizzle (a / stackBytes) (a % stackBytes / stripeBytes) (a % stackBytes % stripeBytes / 128) < 2 ^ 16 :=
    Nat.xor_lt_two_pow (by unfold stripeBytes; omega) (Nat.mod_lt _ (by decide))
  unfold linearOf
  simp only [h0, ne_eq, not_true_eq_false, if_false]
  generalize swizzle (a / stackBytes) (a % stackBytes / stripeBytes) (a % stackBytes % stripeBytes / 128) = i at hi
  have h1 : a / stackBytes < 8 := Nat.div_lt_of_lt_mul (by rwa [Nat.mul_comm])
  have h2 : a % stackBytes / stripeBytes < 2 ^ 20 :=
    Nat.div_lt_of_lt_mul (Nat.lt_of_lt_of_le (Nat.mod_lt _ (by decide)) (by decide))
  have h3 : a % stackBytes % 128 < 128 := Nat.mod_lt _ (by decide)
  generalize a % stackBytes % 128 = u at h3
  generalize a / stackBytes = v at h1
  generalize a % stackBytes / stripeBytes = x at h2
  have h4 : i / 32 < 2048 := by omega
  have h5 : i / 8 % 4 < 4 := by omega
  have h6 : i % 8 < 8 := by omega
  generalize i / 32 = y at h4
  generalize i / 8 % 4 = z at h5
  generalize i % 8 = q at h6
  unfold paSpace
  omega
/-- While the memory controllers' firmware is switched no row may be opened. -/
theorem paDue_of_shut {s : State} {a : Nat} (h : rowsShut s = true) (ha : a < 8 * stackBytes) : paDue s a = true := by
  simp [paDue, rowsHeld, refreshDue, h, linearOf_space ha]
theorem witness_HostPathsAndCheckpoints_refresh : let s := { xs 0x3B with fwState := 2, fwBlock := 7 }
    spanDue s 0x100 8 = true ∧ runDue s 0x100 8 = true ∧ runDue s 0x50000 65536 = true := by
  have h : ∀ a < 8 * stackBytes, paDue { xs 0x3B with fwState := 2, fwBlock := 7 } a = true :=
    fun a ha => paDue_of_shut (by decide +kernel) ha
  have hl : l2Find { xs 0x3B with fwState := 2, fwBlock := 7 } 2 = none ∧ l2Find { xs 0x3B with fwState := 2, fwBlock := 7 } 0xA00 = none := by
    decide +kernel
  refine ⟨?_, ?_, ?_⟩
  · exact Bool.and_eq_true_iff.mpr ⟨by decide +kernel, List.any_eq_true.mpr ⟨2, by decide, h _ (by decide)⟩⟩
  · exact Bool.and_eq_true_iff.mpr ⟨by decide +kernel, List.any_eq_true.mpr ⟨0, by decide,
      Bool.and_eq_true_iff.mpr ⟨h _ (by decide), by rw [show 128 * (0x100 / 128 + 0) / 128 = 2 from rfl, hl.1]; rfl⟩⟩⟩
  · exact Bool.and_eq_true_iff.mpr ⟨by decide +kernel, List.any_eq_true.mpr ⟨0, by decide +kernel,
      Bool.and_eq_true_iff.mpr ⟨h _ (by decide), by rw [show 128 * (0x50000 / 128 + 0) / 128 = 0xA00 from rfl, hl.2]; rfl⟩⟩⟩

theorem witness_HostPathsAndCheckpoints_memory : let s := xs 0x3B
    s.stage = 3 ∧ hostFenced s 0x100 8 = false ∧ spanDue s 0x100 8 = false ∧ runDue s 0x100 8 = false ∧ lineWaits s 0x100 8 = false ∧ lineWaits { s with backInv := [4] } 0x100 8 = true ∧
    isPoisoned s none 0x100 8 = false ∧ s.upsets = [] ∧ isPoisoned { s with poison := [8] } none 0x100 8 = true ∧ 0x100 + 8 ≤ 8 * stackBytes ∧
    (∀ k ∈ sectorsOf 0x100 8, l2Find s k = none) ∧ hostFenced { s with admitted := 0 } 0x100 8 = true ∧
    8 * stackBytes < 8 * stackBytes + 8 := by decide +kernel
/-- The checkpoint ring of die 1 at 0x40000 holds one entry: the frame at 0x50000. -/
theorem witness_HostPathsAndCheckpoints_frame : let s := { xs 0x3B with
      bar := [(0x30220, 0x40000), (0x30228, 0x11), (0x30230, 1)], mem := [(0x40002, 5), (0x40008, 9)] }
    ringOn s (tck 1) = true ∧ (barGet s (tck 1 + 8)).getLsbD 9 = false ∧ ringHeld s (tck 1) ≠ 0 ∧ fwHolds s 4 = false ∧ s.ckSends = [] ∧
    paExists (ringBase s (tck 1) + 15) = true ∧ paFenced s (ringBase s (tck 1)) = false ∧ l2Read s (ringBase s (tck 1)) 8 = 0x50000 ∧ ckFrame s 0x50000 = true ∧
    runDue s 0x40000 16 = false ∧ runDue s 0x50000 65536 = false ∧ runDue s (barGet s 0x50210).toNat 32 = false ∧
    paFenced s (barGet s 0x50210).toNat = false := by decide +kernel
theorem witness_HostPathsAndCheckpoints_answers : ∀ n ∈ [1, 16], let x : CkSend := ⟨1, 0x50000, 9, n⟩
    let s := { xs 0x3B with ckSends := [x] }
    s.ckSends.find? (fun x => x.die = 1 && x.tag = 9) = some x ∧ s.ckSends.find? (fun x => x.die = 1) = some x ∧
    (x.sends < 16 ∨ 16 ≤ x.sends) ∧ runDue s x.pa 65536 = false ∧ runDue s (barGet s 0x50210).toNat 32 = false := by decide +kernel
theorem portLives_of_all {s : State} (h : s.admitted = 0xFF) (p : Nat) : portLives s p = true := by
  have k : ∀ x < 8, (0xFF : BitVec 8).getLsbD x = true := by decide
  unfold portLives
  rw [h]
  exact k _ (Nat.mod_lt _ (by decide))
theorem witness_PortsAndKeys_states : ∀ n ∈ [0, 1, 2, 3], let P := { Port.blank with
      state := n, count := 2 ^ 40, nextLoaded := true }
    let s := { xs 0x3B with ports := [(3, P)] }
    portOfNo s 3 = P ∧ { s with stage := 2 }.stage ≠ 3 ∧ P.retry.length < 2048 ∧ s.stage = 3 ∧ s.openGroups = [] ∧ s.aborts = [] ∧ s.peerTx = [] ∧ s.relays = [] ∧ s.cmds = [] ∧ s.admitted = 0xFF ∧ (2 ^ 39 ≤ P.count) ∧
    ((∃ e ∈ s.ports, e.2.state = 2) ↔ n = 2) := by decide +kernel
theorem witness_PortsAndKeys_training : portLives (xs 0x3B) 3 = true := portLives_of_all rfl 3
/-- Flits whose CRC holds: of sequence 3 before 1 and 2, and one that has been received. -/
theorem witness_PortsAndKeys_order : let P := { Port.blank with state := 2 }
    (∀ q ∈ [0, 3], let b : List Byte := BitVec.ofNat 8 q :: List.replicate 247 0
      let flit := b ++ leBytes 4 (crc32 b) ++ leBytes 4 0
      flit.length = 256 ∧ flitChecks flit = true ∧ leNat (flit.take 8) % 2 ^ 12 = q ∧ q ≠ (P.rxSeq + 1) % 2 ^ 12) ∧
    2 ^ 11 ≤ (P.rxSeq + 2 ^ 12 - 3) % 2 ^ 12 ∧ (P.rxSeq + 2 ^ 12 - 0) % 2 ^ 12 < 2 ^ 11 ∧
    (let R := { P with replays := 1, wire := 3 }
     R.replays ≠ 0 ∧ R.replays < 8 ∧ 3 = R.wire) := by decide +kernel
/-- A flit of sequence 1 whose CRC is wrong; a good one's text rests on the cipher, which Config leaves open. -/
theorem witness_PortsAndKeys_flit : let P := { Port.blank with state := 2 }
    let flit : List Byte := 1 :: List.replicate 255 0
    flit.length = 256 ∧ leNat (flit.take 8) % 2 ^ 12 = (P.rxSeq + 1) % 2 ^ 12 ∧ flitChecks flit = false ∧ P.replays = 0 := by
  decide +kernel

/-! Packets: a put of 2 bytes of job 1 to 0x100 on port 3, from device 7 -/

def pkt : Packet := ⟨0x100, 0, 0, 1, 7, 0, false, false, false, false, 0, 0, 0, 2, [0xAB, 0xCD], 0⟩
def fs : State := { xs 0x3B with
  bar := [(0x10008, 0x10000), (0x40008, 2)], ports := [(3, { Port.blank with state := 2 })], tlb := [⟨1, 4, 0, 0x3B, 0⟩] }
theorem witness_PacketsAndTime_arrival : ∀ k ∈ [pkt, sealed pkt],
    (portOfNo fs 3).state = 2 ∧ fs.stage = 3 ∧ fabricHeld fs 3 k.op = false ∧ noRoom fs k = false ∧ k.op.toNat < 6 ∧ k.mc = false ∧
    k.dst.toNat = devId fs ∧ relayOf fs k = none ∧ rxDist fs k < 4096 := by decide +kernel
theorem witness_PacketsAndTime_crc : pkt.crc ≠ packetCrc pkt ∧ (sealed pkt).crc = packetCrc (sealed pkt) := by decide +kernel
theorem witness_PacketsAndTime_done : let s := putRx fs pkt { PeerRx.blank with bits := 1 }
    (rxOf s pkt).bits.getLsbD (rxDist s pkt) = true := by decide +kernel
theorem witness_PacketsAndTime_perform : (barGet fs (0x40008 + 8 * (1 / 64))).getLsbD (1 % 64) = true ∧ jobValid fs 1 = true ∧
    engGlobal fs 1 0x100 .write [] = .pa 0x100 ∧ engGlobal fs 1 0x100 .atomic [] = .pa 0x100 ∧ paExists (0x100 + 7) = true ∧
    paSpace 0x100 ≠ 2 ∧ isPoisoned fs none 0x100 8 = false ∧ fs.upsets = [] ∧ heldLines fs 0x100 8 = [] ∧ runDue fs 0x100 8 = false ∧ jobValid fs 2 = false ∧ pkt.group = 0 ∧ pkt.close = false := by decide +kernel
theorem witness_PacketsAndTime_answer : let x : Sent := ⟨pkt, none, 3, 5⟩
    let s := putTx fs 7 ⟨1, [x]⟩
    s.relays = [] ∧ sentFor s 7 3 0 = some x ∧ (txOf s 7).sent.find? (fun x => x.pkt.seq = 0) = some x ∧ 5 ≤ x.sends ∧
    (txOf (putTx s 7 ⟨1, []⟩) 7).sent = [] ∧ sentFor s 7 3 1 = none := by decide +kernel
/-- Transmit ring 1 at 0x40000 holds a frame of 64 bytes at 0x50000; receive ring 1 at 0x48000 takes one into 0x60000. -/
theorem witness_PacketsAndTime_frames : let s := { xs 0x3B with
      bar := [(0x50040, 0x40000), (0x50048, 0x11), (0x50050, 1), (0x50060, 0x48000), (0x50068, 0x11)]
      mem := [(0x40002, 5), (0x40008, 64), (0x48002, 6)] }
    ringOn s (sotx 1) = true ∧ ringHeld s (sotx 1) ≠ 0 ∧ paExists (ringBase s (sotx 1) + 15) = true ∧
    frameBuf s (ringBase s (sotx 1)) (tblRead s (ringBase s (sotx 1)) 8) (tblRead s (ringBase s (sotx 1) + 8) 2) = true ∧ ringRoom s (sorx 1) = true ∧
    paExists (ringBase s (sorx 1) + 15) = true ∧ frameBuf s (ringBase s (sorx 1)) (tblRead s (ringBase s (sorx 1)) 8) 64 = true ∧
    runDue s 0x40000 16 = false ∧ runDue s 0x50000 64 = false ∧ runDue s 0x48000 16 = false ∧ runDue s 0x60000 64 = false ∧
    heldLines s 0x40000 16 = [] ∧ heldLines s 0x48000 16 = [] ∧ heldLines s 0x60000 64 = [] := by decide +kernel
theorem witness_PacketsAndTime_time : (xs 0x3B).stage ≠ 4 ∧ fwHolds (xs 0x3B) 4 = false ∧ (xs 0x3B).servo.everLock = false ∧
    (xs 0x3B).time < 5 ∧
    (let c : PtpClock := ⟨128, 6, 0x20, 0, 128, 9, 1, 9⟩
     let s := { xs 0x3B with ptp := [(2, ⟨some { c with steps := 2 }, 0, 0, 0⟩), (5, ⟨some c, 3, 0, 0⟩), (6, ⟨some c, 0, 0, 0⟩)] }
     bestPort s = some 5 ∧ bestPort s ≠ some 2 ∧ (ptpOf s 5).delay = 3) := by decide +kernel


/-! Moulds, refreshes, reliability -/

/-- A load of stack 1 from 0x100000: every header is wrong. -/
theorem witness_MouldsAndRefresh_load : let m := { mouldOf State.reset 1 with state := 1, pa := 0x100000 }
    let s := { xs 0x3B with moulds := [(1, m)] }
    (mouldOf s 1).state = 1 ∧ runDue s (mouldOf s 1).pa 8557 = false ∧ fwHolds s 0 = false ∧
    fwHolds { s with fwState := 2 } 0 = true ∧ pkgPlace s (mouldOf s 1).pa 8557 = true ∧ pkgRead s 0x100000 0 64 % 2 ^ 32 ≠ 0x08404D49 ∧
    (mouldOf s 2).state = 0 ∧ (mouldOf s 1).floor ≤ 3 ∧ ¬ (3 : W64) < (mouldOf s 1).floor := by decide +kernel
theorem witness_MouldsAndRefresh_write : ∀ n ∈ [2, 3], let m := { mouldOf State.reset 1 with state := n, next := some ([], [], 4) }
    let s := { xs 0x3B with moulds := [(1, m)] }
    (mouldOf s 1).next = some ([], [], 4) ∧ (mouldOf s 1).state = n ∧ stackEmpty s 1 = true ∧
    stackEmpty (putUnit s 2048 ⟨[vc], none⟩) 1 = false := by decide +kernel
theorem witness_MouldsAndRefresh_refresh : let c := { Channel.blank with debts := [(2, 1)] }
    let s := { xs 0x3B with channels := [(5, c)] }
    (∀ b < 32, tabGet 0 (chanOf s 5).debts b < 8) ∧ (chanOf s 5).inFlight = none ∧ tabGet 0 (chanOf s 5).debts 2 ≠ 0 ∧
    (chanOf s 5).state = .normal ∧ fwHolds s 7 = false ∧
    (let d := { c with inFlight := some 2, sent := true, state := .leaving }
     let t := { xs 0x3B with channels := [(5, d)] }
     (chanOf t 5).inFlight = some 2 ∧ (chanOf t 5).sent = true ∧ chanEmpty t 5 = true ∧
     chanEmpty (putUnit t 40 ⟨[vc], none⟩) 5 = false) := by decide +kernel
/-- Row 1 of stack 0, whose row 0 has been read: an admitted stack with scrubbing on. -/
theorem witness_ReliabilityActions_scrub : let s := { xs 0x3B with bar := [(0x200020, 0x100)], scrubbed := [(0, [2 ^ 40])] }
    let pa := 2 ^ 50 + 0x400
    s.stage = 3 ∧ s.admitted.getLsbD 0 = true ∧ (barGet s 0x200020).getLsbD 8 = true ∧ fwHolds s 7 = false ∧ pa % 1024 = 0 ∧
    paExists pa = true ∧ paDue s pa = false ∧ paDue { s with fwState := 2, fwBlock := 7 } pa = true ∧ paSpace pa = 1 ∧ paStack pa = 0 ∧ pa / 1024 ∉ tabGet [] s.scrubbed 0 ∧ (barGet s 0x200008).getLsbD 4 = false ∧ s.errq = [] ∧
    (tabGet [] s.scrubbed 0).length + 1 ≠ stackRows := by decide +kernel
/-- Every row but one has been read. -/
theorem witness_ReliabilityActions_scrub_last : let s := { xs 0x3B with
      bar := [(0x200020, 0x100)], scrubbed := [(0, List.replicate (stackRows - 1) 0)] }
    (2 ^ 50 + 0x400) / 1024 ∉ tabGet [] s.scrubbed 0 ∧ (tabGet [] s.scrubbed 0).length + 1 = stackRows := by
  refine ⟨fun h => ?_, ?_⟩
  · have h := List.eq_of_mem_replicate (show _ ∈ List.replicate (stackRows - 1) 0 from h)
    omega
  · show (List.replicate (stackRows - 1) 0).length + 1 = stackRows
    rw [List.length_replicate]
    decide
theorem witness_ReliabilityActions_fence : let s := { ts tw with readmit := some 3 }
    s.stage = 3 ∧ s.admitted.getLsbD 0 = true ∧ (0x102 : W64).toNat = 2 ^ 8 + (2 : BitVec 3).toNat ∧ 0 < s.launches.length ∧
    onDie s 0 0 = true ∧ fenceLines s 0 = [] ∧ fenceLines { s with admitted := 0 } 0 = [] ∧
    (List.range 128).flatMap (fun c => coreLines s (128 * 3 + c)) = [] ∧
    (List.range 128).flatMap (fun c => coreLines { s with l1 := [(l1Key 384 0x40, ⟨0, 1, 0⟩)], hostLines := [0x80] } (128 * 3 + c)) ≠ [] ∧ (getL s 0).endState = 0 ∧ s.readmit = some 3 ∧ (ts tw).readmit = none ∧
    fwHolds (ts tw) 0 = false ∧ fwHolds { ts tw with fwState := 2 } 0 = true := by decide +kernel

/-! The start, packages, attestation -/

theorem witness_StartAndLifeCycle_start : let s := { State.reset with power := BitVec.ofNat 64 (41 * 2 ^ 32) }
    s.stage = 0 ∧ s.life ≠ 3 ∧ 40 < inletOf s ∧ ({ State.reset with stage := 2, testDie := 8 } : State).stage = 2 ∧
    (fwOf { s with fw := [(3, ⟨1, 2, []⟩)] } 3).version < (fwOf { s with fw := [(3, ⟨1, 2, []⟩)] } 3).floor ∧
    State.reset.fails < 2 ∧ 2 ≤ ({ State.reset with fails := 2 } : State).fails := by decide +kernel
theorem witness_StartAndLifeCycle_change : State.reset.stage ≠ 4 ∧ fwHolds State.reset 0 = false ∧ fwHolds { State.reset with fwState := 2 } 0 = true ∧ State.reset.life < 3 ∧ 0x1000 % 64 = 0 ∧ paExists 0x1000 = true ∧
    runDue State.reset 0x1000 4096 = false ∧
    paExists (0x1000 + 4095) = true ∧ (0x100000 : W64).toNat / 256 = 0x1000 := by decide +kernel
/-- A package at 0 of wrong magic; one verified and ready to be switched to. -/
theorem witness_StartAndLifeCycle_firmware : let s := { State.reset with fwState := 1 }
    s.fwState = 1 ∧ (fwCheck s).1 ≠ 0 ∧ runDue s s.fwPa (max 64 (fwCheck s).2.2.2) = false ∧ (∀ b ∈ [false, true], let t := { s with
      fwState := 2, fwBlock := 4, ckSends := if b then [⟨0, 0, 0, 1⟩] else [] }
      t.fwState = 2 ∧ blockBusy t t.fwBlock = b) ∧ State.reset.fwState ≠ 1 ∧ State.reset.fwState ≠ 2 := by decide +kernel
theorem length_attestBody (s : State) (nonce : List Byte) (h : nonce.length = 32) : (attestBody s nonce).length ≤ 70000 := by
  have k : Config.certificateLen.toNat < 65536 := Config.certificateLen.isLt
  have b : ((List.range 8).map fun _ => 52).sum = 416 := by decide
  simp [attestBody, certificate, h, leBytes, fwDigest]
  omega
def as : State := { State.reset with admitted := 0xFF }
/-- A request at 0x100 whose reply goes to 0. -/
theorem witness_StartAndLifeCycle_attest : as.keysGone = false ∧ fwHolds as 0 = false ∧ paExists 0x100 = true ∧ paFenced as 0 = false ∧ runDue as 0x100 40 = false ∧
    paExists (0x100 + 39) = true ∧ ∀ nonce body reply, nonce = leBytes 32 (tblRead as 0x100 32) →
      body = attestBody as nonce → reply = body ++ (Config.attestSign body).toList →
      tblRead as (0x100 + 32) 8 = 0 ∧ heldLines as 0 reply.length = [] ∧ paExists (0 + (reply.length - 1)) = true := by
  refine ⟨rfl, rfl, by decide, by decide +kernel, by decide +kernel, by decide, ?_⟩
  intro nonce body reply hn hb hr
  have h1 := length_attestBody as nonce (by rw [hn]; simp [leBytes])
  have h2 : reply.length ≤ 73373 := by
    rw [hr, List.length_append, Vector.length_toList, hb]; omega
  refine ⟨by decide +kernel, by simp [heldLines, as, State.reset], ?_⟩
  have h3 : paSpace (0 + (reply.length - 1)) = 0 := by unfold paSpace; omega
  unfold paExists
  rw [h3]
  simp [stackBytes]
  omega
theorem witness_StartAndLifeCycle_throttle : let s := { State.reset with coolMs := 9, coreClk := 17 }
    (barGet s 0x300028).toNat = 4600 ∧ 9 ≤ s.coolMs ∧ 100 * (4000 : BitVec 13).toNat ≤ 95 * 4600 ∧ 4600 < (4700 : BitVec 13).toNat ∧
    (95 : BitVec 8).toNat ≤ 95 ∧ s.coreClk < 256 ∧ s.stage ≠ 4 ∧ s.launches = [] ∧ tripLines s = [] ∧ fwHolds s 0 = false ∧
    110 ≤ (110 : BitVec 8).toNat ∧ 110 ≤ ((BitVec.ofNat 64 (110 * 2 ^ 24)).extractLsb' 24 8).toNat := by decide +kernel

end Sys2Proof.Tests
end

section
namespace Sys2Proof.Machine

/-! Writes of the system state (R186, R352) -/

/-- A write of a state number that may be written and waits for nothing changes the warp alone. -/
theorem wrsys_goesOn {s : State} {w : Nat} {a : BitVec 6} {n : BitVec 14} (hi : Issues s w)
    (hs : ScalarsOk (getW s w) [a]) (hw : sysWriteBad (getW s w) n.toNat = false)
    (hb : fpstBusy (getW s w) n.toNat = false) (hn : n ≠ 0x048) :
    GoesOn s w (.wrsys a n) 1 (sysWrite (getW s w) n.toNat (sGet (getW s w) a)) := by
  unfold GoesOn
  rw [exec_wrsys]
  unfold execWrsys
  rw [issue_ready hi (by simp [regReason_scalars hs, orElse, reasonIf, hw]) (by simp), hb, if_neg hn]
  simp

/-- A write of a state number that the warp may not write is refused with reason 0x1E. -/
theorem wrsys_illegal {s : State} {w : Nat} {a : BitVec 6} {n : BitVec 14} (hi : Issues s w)
    (hs : ScalarsOk (getW s w) [a]) (hw : sysWriteBad (getW s w) n.toNat = true) : Illegal s w (.wrsys a n) 0x1E := by
  unfold Illegal
  rw [exec_wrsys]
  unfold execWrsys
  rw [issue_reason hi (r := 0x1E)]
  simp [regReason_scalars hs, orElse, reasonIf, hw]

/-- The numbers that no warp of the level may write, and those that do not exist. -/
theorem sysWriteBad_eq_true {W : Warp} {n : Nat}
    (h : (0x030 ≤ n ∧ n ≤ 0x036) ∨ (W.level = 0 ∧ 0x040 ≤ n ∧ n ≤ 0x048) ∨ (W.level ≠ 2 ∧ 0x050 ≤ n ∧ n ≤ 0x058) ∨
      (0x00D ≤ n ∧ n ≤ 0x00F) ∨ (0x015 ≤ n ∧ n ≤ 0x01F) ∨ (0x022 ≤ n ∧ n ≤ 0x02F) ∨ (0x037 ≤ n ∧ n ≤ 0x03F) ∨
      (0x049 ≤ n ∧ n ≤ 0x04F) ∨ 0x059 ≤ n) : sysWriteBad W n = true := by
  unfold sysWriteBad
  split
  · omega
  · split
    · simp; omega
    · split
      · simp; omega
      · rfl

/-- FPST is free for a warp with no tile operation and no load on its way, and every other number always. -/
theorem fpstBusy_eq_false {W : Warp} {n : BitVec 14} (h : n = 2 → W.tile = none ∧ W.pend = []) :
    fpstBusy W n.toNat = false := by
  by_cases hn : n = 2
  · obtain ⟨ht, hp⟩ := h hn
    simp [fpstBusy, ht, hp]
  · have hne : n.toNat ≠ 2 := fun e => hn (BitVec.eq_of_toNat_eq e)
    simp [fpstBusy, hne]

/-- DECK takes the codes 1 to 5 of the low three bits. -/
theorem deckWrite_setWidth (W : Warp) (x : W64) : deckWrite W (x.setWidth 3) =
    if 1 ≤ x.toNat % 8 ∧ x.toNat % 8 ≤ 5 then { W with deck := x.setWidth 3 } else W := by
  simp [deckWrite]

/-- The numbers of the H bank may be written in a handler. -/
theorem sysWriteBad_bankH {W : Warp} {n : Nat} (hl : 1 ≤ W.level) (hn : 0x040 ≤ n ∧ n ≤ 0x048) :
    sysWriteBad W n = false := by
  unfold sysWriteBad
  rw [if_neg (by omega), if_pos hn]
  simp; omega

/-- The numbers of the K bank, and KUSER, may be written at level 2. -/
theorem sysWriteBad_bankK {W : Warp} {n : Nat} (hl : W.level = 2) (hn : 0x050 ≤ n ∧ n ≤ 0x058) :
    sysWriteBad W n = false := by
  unfold sysWriteBad
  rw [if_neg (by omega), if_neg (by omega), if_pos hn]
  simp [hl]

/-- A write of HKILL in a handler kills lanes at the restart point of the level's bank. -/
theorem wrsys_hkill {s : State} {w : Nat} {a : BitVec 6} (hi : Issues s w) (hs : ScalarsOk (getW s w) [a])
    (hl : 1 ≤ (getW s w).level) :
    exec (.wrsys a 0x048) s = .next (advance (hkill s w (sGet (getW s w) a)) w 1) := by
  have hw : sysWriteBad (getW s w) (0x048 : BitVec 14).toNat = false := sysWriteBad_bankH hl (by decide)
  rw [exec_wrsys]
  unfold execWrsys
  rw [issue_ready hi (by rw [regReason_scalars hs, hw]; rfl) (by simp)]
  rfl

/-- Settles O14: a write is refused, a kill or the branch of `sysWrite` that its number takes. -/
theorem systemRegisterWrites : Obligations.SystemRegisterWrites := by
  unfold Obligations.SystemRegisterWrites
  rintro s w a n hi hs W x rfl rfl hfp
  have goes {U : Warp} (hn : n ≠ 0x048) (hw : sysWriteBad (getW s w) n.toNat = false)
      (hU : sysWrite (getW s w) n.toNat (sGet (getW s w) a) = U) : GoesOn s w (.wrsys a n) 1 U :=
    hU ▸ wrsys_goesOn hi hs hw (fpstBusy_eq_false hfp) hn
  refine ⟨fun U hU => ?_, fun U hl hU => ?_, fun U hl hU => ?_, fun hn hl => ?_, fun hn => ?_⟩
  · simp only [List.mem_cons, List.not_mem_nil, or_false, Prod.mk.injEq] at hU
    rcases hU with ⟨rfl, rfl⟩ | hU
    · exact goes (by decide) rfl (deckWrite_setWidth _ _)
    · rcases hU with ⟨rfl, rfl⟩ | ⟨rfl, rfl⟩ | ⟨rfl, rfl⟩ | ⟨rfl, rfl⟩ | ⟨rfl, rfl⟩ | ⟨rfl, rfl⟩ | ⟨rfl, rfl⟩ |
        ⟨rfl, rfl⟩ | ⟨rfl, rfl⟩ | ⟨rfl, rfl⟩ | ⟨rfl, rfl⟩ | ⟨rfl, rfl⟩ | ⟨rfl, rfl⟩ | ⟨rfl, rfl⟩ | ⟨rfl, rfl⟩ |
        ⟨rfl, rfl⟩ | ⟨rfl, rfl⟩ | ⟨rfl, rfl⟩ | ⟨rfl, rfl⟩ <;> exact goes (by decide) rfl rfl
  · simp only [List.mem_cons, List.not_mem_nil, or_false, Prod.mk.injEq] at hU
    rcases hU with ⟨rfl, rfl⟩ | ⟨rfl, rfl⟩ | ⟨rfl, rfl⟩ | ⟨rfl, rfl⟩ | ⟨rfl, rfl⟩ | ⟨rfl, rfl⟩ | ⟨rfl, rfl⟩ |
      ⟨rfl, rfl⟩ <;> exact goes (by decide) (sysWriteBad_bankH hl (by decide)) rfl
  · simp only [List.mem_cons, List.not_mem_nil, or_false, Prod.mk.injEq] at hU
    rcases hU with ⟨rfl, rfl⟩ | ⟨rfl, rfl⟩ | ⟨rfl, rfl⟩ | ⟨rfl, rfl⟩ | ⟨rfl, rfl⟩ | ⟨rfl, rfl⟩ | ⟨rfl, rfl⟩ |
      ⟨rfl, rfl⟩ | ⟨rfl, rfl⟩ <;> exact goes (by decide) (sysWriteBad_bankK hl (by decide)) rfl
  · exact hn ▸ wrsys_hkill hi hs hl
  · exact wrsys_illegal hi hs (sysWriteBad_eq_true hn)

end Sys2Proof.Machine
end

section
namespace Sys2Proof.Machine

/-! Bytes of a sector: masks, merges and the data of a store, byte by byte (R7, R127) -/

theorem sectorBytes_one (d : BitVec 1024) (i : Nat) : sectorBytes d i 1 = d.toNat / 2 ^ (8 * i) % 256 := rfl

theorem testBit_sectorBytes_one (d : BitVec 1024) (i b : Nat) :
    (sectorBytes d i 1).testBit b = (decide (b < 8) && d.getLsbD (8 * i + b)) := by
  rw [sectorBytes_one, show 256 = 2 ^ 8 from rfl, Nat.testBit_mod_two_pow, Nat.testBit_div_two_pow, BitVec.getLsbD,
    Nat.add_comm]

/-- Two bytes are the same when their bits are. -/
theorem sectorBytes_one_congr {d e : BitVec 1024} {i j : Nat}
    (h : ∀ b < 8, d.getLsbD (8 * i + b) = e.getLsbD (8 * j + b)) : sectorBytes d i 1 = sectorBytes e j 1 := by
  refine Nat.eq_of_testBit_eq fun b => ?_
  rw [testBit_sectorBytes_one, testBit_sectorBytes_one]
  by_cases hb : b < 8
  · rw [h b hb]
  · simp [hb]

/-- A sector is its 128 bytes. -/
theorem sector_ext {d e : BitVec 1024} (h : ∀ i < 128, sectorBytes d i 1 = sectorBytes e i 1) : d = e := by
  refine BitVec.eq_of_getLsbD_eq fun j hj => ?_
  have hb := congrArg (Nat.testBit · (j % 8)) (h (j / 8) (by omega))
  simp only [testBit_sectorBytes_one, Nat.mod_lt j (show 8 > 0 by omega), decide_true, Bool.true_and] at hb
  rwa [Nat.div_add_mod] at hb

theorem extractLsb_eq_sectorBytes (d : BitVec 1024) (i : Nat) :
    (BitVec.extractLsb' (8 * i) 8 d).toNat = sectorBytes d i 1 := by
  rw [BitVec.extractLsb'_toNat, Nat.shiftRight_eq_div_pow]; rfl

theorem getLsbD_foldl_or {w : Nat} (p : Nat → Bool) (g : Nat → BitVec w) (l : List Nat) (b : BitVec w) (j : Nat) :
    (l.foldl (fun acc i => if p i then acc ||| g i else acc) b).getLsbD j
      = (b.getLsbD j || l.any fun i => p i && (g i).getLsbD j) := by
  induction l generalizing b with
  | nil => simp
  | cons i r ih =>
    rw [List.foldl_cons, ih]
    cases hp : p i <;> simp [hp, Bool.or_assoc]

/-- Block `i` of `u` ones. -/
theorem getLsbD_block {u : Nat} (hu : 0 < u) (i : Nat) {j : Nat} (hj : j < 1024) :
    (BitVec.ofNat 1024 (2 ^ u - 1) <<< (u * i)).getLsbD j = decide (i = j / u) := by
  rw [BitVec.getLsbD_shiftLeft, BitVec.getLsbD_ofNat, Nat.testBit_two_pow_sub_one, Bool.eq_iff_iff]
  simp only [Bool.and_eq_true, decide_eq_true_eq, Bool.not_eq_true', decide_eq_false_iff_not]
  rw [eq_comm, Nat.div_eq_iff hu, Nat.mul_comm i u]
  omega

/-- A mask made of one block of ones for each index that a predicate names. -/
theorem any_blocks {n u : Nat} (hu : 0 < u) (p : Nat → Bool) {j : Nat} (hn : j / u < n) (hj : j < 1024) :
    ((List.range n).any fun i => p i && (BitVec.ofNat 1024 (2 ^ u - 1) <<< (u * i)).getLsbD j) = p (j / u) := by
  rw [Bool.eq_iff_iff, List.any_eq_true]
  constructor
  · rintro ⟨i, -, h⟩
    rw [getLsbD_block hu i hj, Bool.and_eq_true, decide_eq_true_eq] at h
    exact h.2 ▸ h.1
  · intro h
    exact ⟨j / u, List.mem_range.mpr hn, by rw [getLsbD_block hu _ hj]; simp [h]⟩

theorem getLsbD_byteBits (m : BitVec 128) {j : Nat} (hj : j < 1024) : (byteBits m).getLsbD j = m.getLsbD (j / 8) := by
  unfold byteBits
  refine (getLsbD_foldl_or _ _ _ _ _).trans ?_
  rw [show (0 : BitVec 1024).getLsbD j = false from BitVec.getLsbD_zero, Bool.false_or]
  exact any_blocks (u := 8) (by omega) _ (by omega) hj

theorem getLsbD_nibBits (m : BitVec 256) {j : Nat} (hj : j < 1024) : (nibBits m).getLsbD j = m.getLsbD (j / 4) := by
  unfold nibBits
  split
  · next h => simp [h]
  · refine (getLsbD_foldl_or _ _ _ _ _).trans ?_
    rw [show (0 : BitVec 1024).getLsbD j = false from BitVec.getLsbD_zero, Bool.false_or]
    exact any_blocks (u := 4) (by omega) _ (by omega) hj

/-- A merge takes the bytes that its mask names, and keeps the others. -/
theorem sectorBytes_mergeBytes (old new : BitVec 1024) (m : BitVec 128) {i : Nat} (hi : i < 128) :
    sectorBytes (mergeBytes old new m) i 1 = if m.getLsbD i then sectorBytes new i 1 else sectorBytes old i 1 := by
  have hbit : ∀ b < 8, (mergeBytes old new m).getLsbD (8 * i + b)
      = if m.getLsbD i then new.getLsbD (8 * i + b) else old.getLsbD (8 * i + b) := fun b hb => by
    have hd : (8 * i + b) / 8 = i := by omega
    have hlt : 8 * i + b < 1024 := by omega
    simp only [mergeBytes, BitVec.getLsbD_or, BitVec.getLsbD_and, BitVec.getLsbD_not, getLsbD_byteBits m hlt, hd, hlt]
    cases m.getLsbD i <;> simp
  split <;> next hm => exact sectorBytes_one_congr fun b hb => by rw [hbit b hb]; simp [hm]

theorem getLsbD_byteMask {o n : Nat} (h : o + n ≤ 128) (i : Nat) :
    (byteMask o n).getLsbD i = decide (o ≤ i ∧ i < o + n) := by
  unfold byteMask
  rw [BitVec.getLsbD_ofNat, Nat.testBit_mul_two_pow, Nat.testBit_two_pow_sub_one, Bool.eq_iff_iff]
  simp only [Bool.and_eq_true, decide_eq_true_eq]
  omega

/-- The bytes of a value that a store puts at offset `o` of a sector, lowest first. -/
theorem sectorBytes_storeData {o n i : Nat} (v : Nat) (ho : o ≤ i) (hi : i < o + n) (hn : o + n ≤ 128) :
    sectorBytes (BitVec.ofNat 1024 (v % 2 ^ (8 * n)) <<< (8 * o)) i 1 = v / 256 ^ (i - o) % 256 := by
  refine Nat.eq_of_testBit_eq fun b => ?_
  rw [testBit_sectorBytes_one, show 256 = 2 ^ 8 from rfl, ← Nat.pow_mul, Nat.testBit_mod_two_pow, Nat.testBit_div_two_pow]
  by_cases hb : b < 8
  · rw [BitVec.getLsbD_shiftLeft, BitVec.getLsbD_ofNat, Nat.testBit_mod_two_pow,
      show 8 * i + b - 8 * o = b + 8 * (i - o) by omega]
    have h1 : b + 8 * (i - o) < 8 * n := by omega
    have h2 : b + 8 * (i - o) < 1024 := by omega
    have h3 : 8 * i + b < 1024 := by omega
    have h4 : ¬ 8 * i + b < 8 * o := by omega
    simp [hb, h1, h2, h3, h4]
  · simp [hb]

end Sys2Proof.Machine
end

section
namespace Sys2Proof.Machine

/-! The copies of a sector: what the L1 of a core, the home L2 and DRAM hold of it (R127 to R130), and what each
operation of the caches makes of them. Every such operation changes the copies of one sector. -/

/-- A sector as a core's L1, the home L2 and DRAM, with the writes on their way, hold it. -/
@[ext] structure Copies where
  l1   : Option Sector
  l2   : Option Sector
  dram : BitVec 1024

def copies (s : State) (c : Option Nat) (k : Nat) : Copies := ⟨c.bind fun c => l1Find s c k, l2Find s k, dramView s k⟩

/-- What a read at the home L2 sees. -/
def Copies.home (C : Copies) : BitVec 1024 :=
  match C.l2 with
  | some x => x.data
  | none => C.dram

/-- The home L2 after a write of the bytes `m`. -/
def Copies.writeL2 (C : Copies) (m : BitVec 128) (d : BitVec 1024) : Copies :=
  { C with l2 := some ⟨mergeBytes C.home d m, (match C.l2 with | some x => x.dirty ||| m | none => m), 0⟩ }

/-- What the L1 writes back of its copy (`backData`). -/
def Copies.back (C : Copies) (x : Sector) : BitVec 1024 :=
  if x.nibs = 0 then x.data
  else mergeBytes ((C.home &&& ~~~ nibBits x.nibs) ||| (x.data &&& nibBits x.nibs)) x.data x.dirty

/-- An access that passes the L1 finds its copy written back and dropped (R130). -/
def Copies.pass (C : Copies) : Copies :=
  match C.l1 with
  | some x => { (if l1Dirty x then C.writeL2 (x.dirty ||| nibBytes x.nibs) (C.back x) else C) with l1 := none }
  | none => C

/-- A sector that is brought into the home L2. -/
def Copies.fillL2 (C : Copies) : Copies := { C with l2 := some (C.l2.getD ⟨C.dram, 0, 0⟩) }

/-- A sector that is brought into the L1. -/
def Copies.fillL1 (C : Copies) : Copies :=
  match C.l1 with
  | some _ => C
  | none => { C.fillL2 with l1 := some ⟨C.home, 0, 0⟩ }

/-- The data that an access of a place reads. -/
def Copies.read (C : Copies) (pl : Place) : BitVec 1024 :=
  match pl with
  | .l1 _ => match C.l1 with
    | some x => x.data
    | none => C.home
  | .l2 _ => C.pass.home
  | .mem _ => match C.pass.l2 with
    | some x => if x.dirty ≠ 0 then x.data else C.dram
    | none => C.dram

/-- The core whose L1 an access of a place reads, writes or passes. -/
def Place.core (pl : Place) : Option Nat :=
  match pl with
  | .l1 c => some c
  | .l2 c => c
  | .mem c => c

namespace Copies

variable {C : Copies} {x : Sector}

theorem home_of_some (h : C.l2 = some x) : C.home = x.data := by unfold home; rw [h]
theorem home_of_none (h : C.l2 = none) : C.home = C.dram := by unfold home; rw [h]
theorem writeL2_of_some (h : C.l2 = some x) (m : BitVec 128) (d : BitVec 1024) :
    C.writeL2 m d = { C with l2 := some ⟨mergeBytes x.data d m, x.dirty ||| m, 0⟩ } := by
  unfold writeL2; rw [home_of_some h, h]
theorem writeL2_of_none (h : C.l2 = none) (m : BitVec 128) (d : BitVec 1024) :
    C.writeL2 m d = { C with l2 := some ⟨mergeBytes C.dram d m, m, 0⟩ } := by
  unfold writeL2; rw [home_of_none h, h]
theorem fillL2_of_some (h : C.l2 = some x) : C.fillL2 = C := by
  unfold fillL2; ext1 <;> simp [h]
theorem fillL2_of_none (h : C.l2 = none) : C.fillL2 = { C with l2 := some ⟨C.dram, 0, 0⟩ } := by
  unfold fillL2; rw [h]; rfl
theorem fillL1_of_some (h : C.l1 = some x) : C.fillL1 = C := by unfold fillL1; rw [h]
theorem fillL1_of_none (h : C.l1 = none) : C.fillL1 = { C.fillL2 with l1 := some ⟨C.home, 0, 0⟩ } := by
  unfold fillL1; rw [h]
theorem pass_of_none (h : C.l1 = none) : C.pass = C := by unfold pass; rw [h]
theorem pass_of_clean (h : C.l1 = some x) (hx : ¬ l1Dirty x = true) : C.pass = { C with l1 := none } := by
  unfold pass; rw [h]; simp only [if_neg hx]
theorem pass_of_dirty (h : C.l1 = some x) (hx : l1Dirty x = true) :
    C.pass = { C.writeL2 (x.dirty ||| nibBytes x.nibs) (C.back x) with l1 := none } := by
  unfold pass; rw [h]; simp only [if_pos hx]

@[simp] theorem pass_l1 (C : Copies) : C.pass.l1 = none := by unfold pass; split <;> simp [*]
@[simp] theorem pass_dram (C : Copies) : C.pass.dram = C.dram := by
  unfold pass; split
  · dsimp only; split <;> rfl
  · rfl
@[simp] theorem pass_pass (C : Copies) : C.pass.pass = C.pass := pass_of_none C.pass_l1
@[simp] theorem fillL2_home (C : Copies) : C.fillL2.home = C.home := by
  unfold fillL2 home; cases C.l2 <;> rfl

end Copies

/-! The operations, sector by sector -/

theorem dramView_congr {s t : State} (hq : t.dramq = s.dramq) (hm : t.mem = s.mem) (k : Nat) :
    dramView t k = dramView s k := by
  unfold dramView; rw [hq, hm]

theorem copies_congr {s t : State} (h1 : t.l1 = s.l1) (h2 : t.l2 = s.l2) (hq : t.dramq = s.dramq) (hm : t.mem = s.mem)
    (c : Option Nat) (k : Nat) : copies t c k = copies s c k := by
  unfold copies l1Find l2Find
  rw [h1, h2, dramView_congr hq hm]

@[simp] theorem copies_snoop (s : State) (i : Nat) (m : BitVec 128) (c : Option Nat) (k : Nat) :
    copies (snoop s i m) c k = copies s c k := copies_congr rfl rfl rfl rfl c k
@[simp] theorem copies_l1Clear (s : State) (e i : Nat) (c : Option Nat) (k : Nat) :
    copies (l1Clear s e i) c k = copies s c k := by
  unfold l1Clear; split
  · rfl
  · exact copies_congr rfl rfl rfl rfl c k
@[simp] theorem copies_l1Note (s : State) (e i : Nat) (w : Option Nat) (c : Option Nat) (k : Nat) :
    copies (l1Note s e i w) c k = copies s c k := by
  unfold l1Note; split
  · rfl
  · dsimp only
    split
    · rfl
    · exact copies_congr rfl rfl rfl rfl c k
@[simp] theorem copies_cureBack (s : State) (e i : Nat) (c : Option Nat) (k : Nat) :
    copies (cureBack s e i) c k = copies s c k := by
  unfold cureBack; dsimp only; split
  · exact copies_congr rfl rfl rfl rfl c k
  · rfl

theorem l2View_eq_home (s : State) (c : Option Nat) (k : Nat) : l2View s k = (copies s c k).home := rfl

theorem copies_l2Put (s : State) (c : Option Nat) (k j : Nat) (x : Sector) :
    copies (l2Put s k x) c j = if j = k then { copies s c k with l2 := some x } else copies s c j := by
  split
  · next h => subst h; exact Copies.ext rfl (tabFind_tabPut_same _ _ _) rfl
  · next h => exact Copies.ext rfl (tabFind_tabPut_ne _ _ h) rfl

theorem copies_l2Drop (s : State) (c : Option Nat) (k j : Nat) :
    copies (l2Drop s k) c j = if j = k then { copies s c k with l2 := none } else copies s c j := by
  split
  · next h => subst h; exact Copies.ext rfl (tabFind_tabErase_same _ _) rfl
  · next h => exact Copies.ext rfl (tabFind_tabErase_ne _ h) rfl

theorem l1Key_ne {c k j : Nat} (h : j ≠ k) : l1Key c j ≠ l1Key c k := fun e => h (Nat.add_left_cancel e)

theorem copies_l1Put (s : State) (c k j : Nat) (x : Sector) :
    copies (l1Put s c k x) (some c) j
      = if j = k then { copies s (some c) k with l1 := some x } else copies s (some c) j := by
  split
  · next h => subst h; exact Copies.ext (tabFind_tabPut_same _ _ _) rfl rfl
  · next h => exact Copies.ext (tabFind_tabPut_ne _ _ (l1Key_ne h)) rfl rfl

theorem copies_l1Drop (s : State) (c k j : Nat) :
    copies (l1Drop s c k) (some c) j
      = if j = k then { copies s (some c) k with l1 := none } else copies s (some c) j := by
  unfold l1Drop
  rw [copies_l1Clear]
  split
  · next h => subst h; exact Copies.ext (tabFind_tabErase_same _ _) rfl rfl
  · next h => exact Copies.ext (tabFind_tabErase_ne _ (l1Key_ne h)) rfl rfl

theorem copies_l2Fill (s : State) (c : Option Nat) (k j : Nat) :
    copies (l2Fill s k) c j = if j = k then (copies s c k).fillL2 else copies s c j := by
  unfold l2Fill
  cases hx : l2Find s k with
  | some x =>
    rw [Copies.fillL2_of_some (C := copies s c k) hx]
    exact (ite_eq_right_iff.mpr fun h => by rw [h]).symm
  | none =>
    rw [Copies.fillL2_of_none (C := copies s c k) hx]
    exact copies_l2Put ..

theorem copies_l2Write (s : State) (c : Option Nat) (k j : Nat) (m : BitVec 128) (d : BitVec 1024) :
    copies (l2Write s k m d) c j = if j = k then (copies s c k).writeL2 m d else copies s c j := by
  unfold l2Write
  cases hx : l2Find s k with
  | some x =>
    rw [Copies.writeL2_of_some (C := copies s c k) hx]
    simp only [copies_l2Put, copies_snoop]
  | none =>
    rw [Copies.writeL2_of_none (C := copies s c k) hx]
    simp only [copies_l2Put, copies_snoop]
    rfl

theorem copies_l1Evict (s : State) (c k j : Nat) :
    copies (l1Evict s c k) (some c) j
      = if j = k then (copies s (some c) k).pass else copies s (some c) j := by
  unfold l1Evict l1Clean
  cases hx : l1Find s c k with
  | none =>
    rw [Copies.pass_of_none (C := copies s (some c) k) hx, copies_l1Drop]
    split
    · exact Copies.ext hx.symm rfl rfl
    · rfl
  | some x =>
    by_cases hd : l1Dirty x = true
    · rw [Copies.pass_of_dirty (C := copies s (some c) k) hx hd]
      simp only [if_pos hd, copies_l1Drop, copies_l1Clear, copies_l1Put, copies_cureBack, copies_l2Write, if_true]
      split <;> rfl
    · rw [Copies.pass_of_clean (C := copies s (some c) k) hx hd]
      simp only [if_neg hd, copies_l1Drop]

theorem copies_passL1 (s : State) (c : Option Nat) (k j : Nat) :
    copies (passL1 s c k) c j = if j = k then (copies s c k).pass else copies s c j := by
  cases c with
  | some c => exact copies_l1Evict s c k j
  | none =>
    rw [Copies.pass_of_none (C := copies s none k) rfl]
    exact (ite_eq_right_iff.mpr fun h => by rw [h]; rfl).symm

theorem l2Find_passL1 (s : State) (c : Option Nat) (k : Nat) : l2Find (passL1 s c k) k = (copies s c k).pass.l2 :=
  congrArg Copies.l2 ((copies_passL1 s c k k).trans (if_pos rfl))

theorem copies_l1Fill (s : State) (c k j : Nat) :
    copies (l1Fill s c k) (some c) j = if j = k then (copies s (some c) k).fillL1 else copies s (some c) j := by
  unfold l1Fill
  cases hx : l1Find s c k with
  | some x =>
    rw [Copies.fillL1_of_some (C := copies s (some c) k) hx]
    exact (ite_eq_right_iff.mpr fun h => by rw [h]).symm
  | none =>
    rw [Copies.fillL1_of_none (C := copies s (some c) k) hx]
    simp only [copies_l1Put, l2View_eq_home _ (some c), copies_l2Fill, if_true, Copies.fillL2_home]
    split <;> rfl

theorem l1Find_l1Fill (s : State) (c k : Nat) : l1Find (l1Fill s c k) c k = (copies s (some c) k).fillL1.l1 :=
  congrArg Copies.l1 ((copies_l1Fill s c k k).trans (if_pos rfl))

end Sys2Proof.Machine
end

section
namespace Sys2Proof.Machine

/-! Memory bytes after a write of several -/

theorem memGet_memWrite (m : List Host.Cell) (a n v b : Nat) :
    memGet (memWrite m a n v) b = if a ≤ b ∧ b < a + n then BitVec.ofNat 8 (v / 256 ^ (b - a)) else memGet m b := by
  induction n generalizing m a v with
  | zero => rw [if_neg (by omega)]; rfl
  | succ n ih =>
    rw [show memWrite m a (n + 1) v = memWrite (memSet m a (BitVec.ofNat 8 v)) (a + 1) n (v / 256) from rfl, ih,
      memGet_memSet]
    by_cases hb : b = a
    · subst hb
      rw [if_neg (by omega), if_pos rfl, if_pos (by omega), Nat.sub_self, Nat.pow_zero, Nat.div_one]
    · rw [if_neg hb]
      by_cases hin : a + 1 ≤ b ∧ b < a + 1 + n
      · rw [if_pos hin, if_pos (by omega), Nat.div_div_eq_div_mul, ← Nat.pow_succ', show (b - (a + 1)).succ = b - a by omega]
      · rw [if_neg hin, if_neg (by omega)]

theorem memRead_congr {m m' : List Host.Cell} {a n : Nat} (h : ∀ i, a ≤ i → i < a + n → memGet m i = memGet m' i) :
    memRead m a n = memRead m' a n := by
  induction n generalizing a with
  | zero => rfl
  | succ n ih =>
    unfold memRead
    rw [h a (by omega) (by omega), ih fun i h1 h2 => h i (by omega) (by omega)]

/-- The bytes of a sector lie in one space. -/
theorem paSpace_of_sector {a b : Nat} (h : b / 128 = a / 128) : paSpace b = paSpace a := by
  unfold paSpace; omega

theorem paSpace_base (a : Nat) : paSpace (128 * (a / 128)) = paSpace a := paSpace_of_sector (by omega)

/-- A cell is kept under its own address or in the interleaved space. -/
theorem cellOf_eq_or_lt (pa : Nat) : cellOf pa = pa ∨ cellOf pa < 8 * stackBytes := by
  unfold cellOf
  split
  · exact .inl rfl
  · dsimp only
    split
    · next ho =>
      have hs : paUnit pa / 2048 ≤ 7 := by unfold paUnit; omega
      have hb := Nat.mul_le_mul_right stackBytes hs
      exact .inr (by omega)
    · exact .inl rfl

/-- The cells of a sector of DRAM are cells of DRAM. -/
theorem paSpace_cellOf {k i : Nat} (hk : paSpace (128 * k) < 2) (hi : cellOf (128 * k) ≤ i) (hi' : i < cellOf (128 * k) + 128) :
    paSpace i < 2 := by
  have h := cellOf_eq_or_lt (128 * k)
  unfold stackBytes at h
  unfold paSpace at *
  omega

/-- A write of host memory changes nothing that DRAM holds. -/
theorem dramView_host (s : State) {k pa n : Nat} (v : Nat) (hk : paSpace (128 * k) < 2) (hpa : 2 ≤ paSpace pa) :
    dramView { s with mem := memWrite s.mem pa n v } k = dramView s k := by
  have hm : memRead (memWrite s.mem pa n v) (cellOf (128 * k)) 128 = memRead s.mem (cellOf (128 * k)) 128 := by
    refine memRead_congr fun i h1 h2 => ?_
    have h3 := paSpace_cellOf hk h1 h2
    rw [memGet_memWrite, if_neg]
    unfold paSpace at h3 hpa
    omega
  unfold dramView
  rw [hm]

/-- A write on its way is what DRAM will hold. -/
theorem dramView_append (s : State) (k j : Nat) (m : BitVec 128) (d : BitVec 1024) (w : Option Nat) (tok : Option (BitVec 3)) :
    dramView { s with dramq := s.dramq ++ [⟨k, m, d, w, tok⟩] } j
      = if j = k then mergeBytes (dramView s k) d m else dramView s j := by
  unfold dramView
  simp only [List.foldl_append, List.foldl_cons, List.foldl_nil]
  by_cases h : j = k
  · subst h; simp
  · rw [if_neg h, if_neg (Ne.symm h)]

/-! Reads -/

theorem byteAt_host (s : State) (pl : Place) {a : Nat} (h : 2 ≤ paSpace a) : byteAt s pl a = (memGet s.mem a).toNat := by
  unfold byteAt loadAt
  simp [h, memRead]

theorem byteAt_cached (s : State) (pl : Place) {a : Nat} (h : paSpace a < 2) :
    byteAt s pl a = sectorBytes ((copies s pl.core (a / 128)).read pl) (a % 128) 1 := by
  have h' : ¬ paSpace a ≥ 2 := by omega
  unfold byteAt loadAt
  simp only [if_neg h']
  cases pl with
  | l1 c =>
    dsimp only [Place.core, Copies.read]
    rw [l1Find_l1Fill]
    cases hx : (copies s (some c) (a / 128)).l1 with
    | some x => rw [Copies.fillL1_of_some hx, hx]
    | none => rw [Copies.fillL1_of_none hx]
  | l2 c =>
    dsimp only [Place.core, Copies.read]
    rw [l2View_eq_home _ c, copies_l2Fill, if_pos rfl, Copies.fillL2_home, copies_passL1, if_pos rfl]
  | mem c =>
    have hd : dramView (passL1 s c (a / 128)) (a / 128) = (copies s c (a / 128)).dram :=
      (congrArg Copies.dram ((copies_passL1 s c _ _).trans (if_pos rfl))).trans (Copies.pass_dram _)
    dsimp only [Place.core, Copies.read]
    rw [l2Find_passL1]
    cases hx : (copies s c (a / 128)).pass.l2 with
    | none => simp only [hd]
    | some x =>
      by_cases hdy : x.dirty ≠ 0
      · simp only [if_pos hdy]
      · simp only [if_neg hdy]
        rw [← hd]
        rfl

/-- Equal copies and equal memory read equal. -/
theorem byteAt_congr {s t : State} {pl : Place} {a : Nat} (hm : t.mem = s.mem)
    (hc : copies t pl.core (a / 128) = copies s pl.core (a / 128)) : byteAt t pl a = byteAt s pl a := by
  by_cases h : 2 ≤ paSpace a
  · rw [byteAt_host _ _ h, byteAt_host _ _ h, hm]
  · rw [byteAt_cached _ _ (by omega), byteAt_cached _ _ (by omega), hc]

theorem byteAt_lt (s : State) (pl : Place) (a : Nat) : byteAt s pl a < 256 := by
  by_cases h : 2 ≤ paSpace a
  · rw [byteAt_host _ _ h]; exact (memGet s.mem a).isLt
  · rw [byteAt_cached _ _ (by omega), sectorBytes_one]; exact Nat.mod_lt _ (by omega)

end Sys2Proof.Machine
end

section
namespace Sys2Proof.Machine

/-! What the accesses of a place make of the copies of their sector -/

/-- A load of a place. -/
def Copies.load (C : Copies) (pl : Place) : Copies :=
  match pl with
  | .l1 _ => C.fillL1
  | .l2 _ => C.pass.fillL2
  | .mem _ => match C.pass.l2 with
    | some x => if x.dirty ≠ 0 then C.pass else { C.pass with l2 := none }
    | none => C.pass

/-- A store of the bytes `m` at a place. -/
def Copies.write (C : Copies) (pl : Place) (m : BitVec 128) (d : BitVec 1024) : Copies :=
  match pl with
  | .l1 _ => { C.fillL1 with l1 := C.fillL1.l1.map fun x => ⟨mergeBytes x.data d m, x.dirty ||| m, x.nibs⟩ }
  | .l2 _ => C.pass.writeL2 m d
  | .mem _ => match C.pass.l2 with
    | some _ => { C.pass.writeL2 m d with dram := mergeBytes C.dram d m }
    | none => { C.pass with dram := mergeBytes C.dram d m }

/-- A store of the nibbles `m` in the L1. -/
def Copies.writeNib (C : Copies) (m : BitVec 256) (d : BitVec 1024) : Copies :=
  { C.fillL1 with l1 := C.fillL1.l1.map fun x => ⟨(x.data &&& ~~~ nibBits m) ||| (d &&& nibBits m), x.dirty, x.nibs ||| m⟩ }

/-- The place at which an access of policy mem leaves its bytes to be read by others: the home L2. -/
def Place.view (pl : Place) : Place :=
  match pl with
  | .mem c => .l2 c
  | p => p

@[simp] theorem Place.view_core (pl : Place) : pl.view.core = pl.core := by cases pl <;> rfl
theorem Place.view_of_not_mem {pl : Place} (h : ∀ c, pl ≠ .mem c) : pl.view = pl := by
  cases pl with
  | mem c => exact absurd rfl (h c)
  | _ => rfl

/-- The home L2 holds nothing that DRAM is to get, as a load of policy mem finds it or leaves it. -/
def Copies.NoCleanL2 (C : Copies) : Prop := ∀ x, C.pass.l2 = some x → x.dirty ≠ 0

namespace Copies

variable (C : Copies) (m : BitVec 128) (d : BitVec 1024)

theorem fillL1_l1 : ∃ x, C.fillL1.l1 = some x ∧ ∀ c, x.data = C.read (.l1 c) := by
  unfold read
  cases h : C.l1 with
  | some x => exact ⟨x, by rw [fillL1_of_some h, h], fun _ => rfl⟩
  | none => exact ⟨_, by rw [fillL1_of_none h], fun _ => rfl⟩

theorem read_writeNib (m : BitVec 256) (c : Nat) :
    (C.writeNib m d).read (.l1 c) = (C.read (.l1 c) &&& ~~~ nibBits m) ||| (d &&& nibBits m) := by
  obtain ⟨x, hx, hd⟩ := C.fillL1_l1
  rw [← hd c]
  unfold writeNib
  rw [hx]
  rfl

theorem write_mem_of_some (c : Option Nat) {x : Sector} (h : C.pass.l2 = some x) :
    C.write (.mem c) m d = { C.pass.writeL2 m d with dram := mergeBytes C.dram d m } := by unfold write; simp only [h]
theorem write_mem_of_none (c : Option Nat) (h : C.pass.l2 = none) :
    C.write (.mem c) m d = { C.pass with dram := mergeBytes C.dram d m } := by unfold write; simp only [h]
theorem pass_write_mem (c : Option Nat) : (C.write (.mem c) m d).pass = C.write (.mem c) m d := by
  refine pass_of_none ?_
  cases h : C.pass.l2 with
  | some x => rw [C.write_mem_of_some m d c h]; exact C.pass_l1
  | none => rw [C.write_mem_of_none m d c h]; exact C.pass_l1

/-- The bytes of a store are read where it leaves them to be read, and no others change there. -/
theorem read_write (pl : Place) : (C.write pl m d).read pl.view = mergeBytes (C.read pl.view) d m := by
  cases pl with
  | l1 c =>
    obtain ⟨x, hx, hd⟩ := C.fillL1_l1
    dsimp only [Place.view]
    rw [← hd c]
    unfold write
    rw [hx]
    rfl
  | l2 c =>
    show (C.pass.writeL2 m d).pass.home = _
    rw [pass_of_none (show (C.pass.writeL2 m d).l1 = none from C.pass_l1)]
    rfl
  | mem c =>
    show (C.write (.mem c) m d).pass.home = mergeBytes C.pass.home d m
    rw [pass_write_mem]
    cases h : C.pass.l2 with
    | some x => rw [C.write_mem_of_some m d c h]; rfl
    | none =>
      rw [C.write_mem_of_none m d c h, home_of_none (C := C.pass) h, pass_dram]
      exact home_of_none h

/-- A store of policy mem leaves no copy at the home L2 that DRAM will not agree with. -/
theorem noCleanL2_write_mem (c : Option Nat) (hm : m ≠ 0) : (C.write (.mem c) m d).NoCleanL2 := by
  intro y hy
  rw [pass_write_mem] at hy
  cases h : C.pass.l2 with
  | some x =>
    rw [C.write_mem_of_some m d c h, writeL2_of_some h] at hy
    obtain rfl := Option.some.inj hy
    exact fun h0 => hm (BitVec.or_eq_zero_iff.mp h0).2
  | none =>
    rw [C.write_mem_of_none m d c h] at hy
    exact absurd (h.symm.trans hy) (by simp)

variable {C}

/-- Then the home L2 and DRAM read alike. -/
theorem NoCleanL2.read_eq (h : C.NoCleanL2) (c : Option Nat) : C.read (.l2 c) = C.read (.mem c) := by
  unfold read
  cases hx : C.pass.l2 with
  | some x => simp only [home_of_some hx, if_pos (h x hx)]
  | none => simp only [home_of_none hx, pass_dram]

variable (C)

theorem noCleanL2_load_mem (c : Option Nat) : (C.load (.mem c)).NoCleanL2 := by
  intro y hy
  unfold load at hy
  cases h : C.pass.l2 with
  | some x =>
    by_cases hd : x.dirty ≠ 0
    · simp only [h, if_pos hd, pass_pass] at hy
      exact Option.some.inj hy ▸ hd
    · simp only [h, if_neg hd] at hy
      rw [pass_of_none (C := { C.pass with l2 := none }) C.pass_l1] at hy
      exact absurd hy (by simp)
  | none =>
    simp only [h, pass_pass] at hy
    exact absurd hy (by simp)

/-- A load changes nothing that its place reads. -/
theorem read_load (pl : Place) : (C.load pl).read pl = C.read pl := by
  cases pl with
  | l1 c =>
    obtain ⟨x, hx, hd⟩ := C.fillL1_l1
    rw [← hd c]
    show C.fillL1.read (.l1 c) = x.data
    unfold read
    rw [hx]
  | l2 c =>
    show C.pass.fillL2.pass.home = C.pass.home
    rw [pass_of_none (show C.pass.fillL2.l1 = none from C.pass_l1), fillL2_home]
  | mem c =>
    unfold load read
    cases h : C.pass.l2 with
    | some x =>
      by_cases hd : x.dirty ≠ 0
      · simp only [if_pos hd, pass_pass, h]
      · simp only [if_neg hd]
        rw [pass_of_none (C := { C.pass with l2 := none }) C.pass_l1]
        exact C.pass_dram
    | none => simp only [pass_pass, h, pass_dram]

end Copies

/-! What the operations of the caches leave alone -/

/-- Only caches, and what is noted of them and of the host's lines, have changed. -/
def CacheStep (s t : State) : Prop :=
  t = { s with
    l1 := t.l1, l1By := t.l1By, l2 := t.l2, hostLines := t.hostLines, backInv := t.backInv, cured := t.cured }

namespace CacheStep

variable {s t u : State}

theorem trans (h1 : CacheStep s t) (h2 : CacheStep t u) : CacheStep s u :=
  Eq.trans h2 (congrArg (fun x : State => { x with
    l1 := u.l1, l1By := u.l1By, l2 := u.l2, hostLines := u.hostLines, backInv := u.backInv, cured := u.cured }) h1)
theorem mem_eq (h : CacheStep s t) : t.mem = s.mem := by rw [show t = _ from h]
theorem dramq_eq (h : CacheStep s t) : t.dramq = s.dramq := by rw [show t = _ from h]

theorem l1Clear (s : State) (c k : Nat) : CacheStep s (l1Clear s c k) := by
  unfold Machine.l1Clear; split <;> rfl
theorem l1Note (s : State) (c k : Nat) (w : Option Nat) : CacheStep s (l1Note s c k w) := by
  unfold Machine.l1Note; split
  · rfl
  · dsimp only; split <;> rfl
theorem cureBack (s : State) (c k : Nat) : CacheStep s (cureBack s c k) := by
  unfold Machine.cureBack; dsimp only; split <;> rfl
theorem l2Fill (s : State) (k : Nat) : CacheStep s (l2Fill s k) := by
  unfold Machine.l2Fill; split <;> rfl
theorem l2Write (s : State) (k : Nat) (m : BitVec 128) (d : BitVec 1024) : CacheStep s (l2Write s k m d) := by
  unfold Machine.l2Write; split <;> rfl
theorem l1Put (s : State) (c k : Nat) (x : Sector) : CacheStep s (l1Put s c k x) := rfl
theorem l1Clean (s : State) (c k : Nat) : CacheStep s (l1Clean s c k) := by
  unfold Machine.l1Clean
  split
  · split
    · exact (((l2Write ..).trans (cureBack ..)).trans (l1Put ..)).trans (l1Clear ..)
    · rfl
  · rfl
theorem l1Drop (s : State) (c k : Nat) : CacheStep s (l1Drop s c k) :=
  (show CacheStep s { s with l1 := tabErase s.l1 (l1Key c k) } from rfl).trans (l1Clear ..)
theorem passL1 (s : State) (c : Option Nat) (k : Nat) : CacheStep s (passL1 s c k) := by
  cases c with
  | some c => exact (l1Clean s c k).trans (l1Drop ..)
  | none => rfl
theorem l1Fill (s : State) (c k : Nat) : CacheStep s (l1Fill s c k) := by
  unfold Machine.l1Fill
  split
  · rfl
  · exact (l2Fill s k).trans (l1Put ..)
theorem l1Write (s : State) (c k : Nat) (m : BitVec 128) (d : BitVec 1024) : CacheStep s (l1Write s c k m d) := by
  unfold Machine.l1Write
  dsimp only
  split
  · exact (l1Fill s c k).trans (l1Put ..)
  · exact l1Fill s c k
theorem l1WriteNib (s : State) (c k : Nat) (m : BitVec 256) (d : BitVec 1024) : CacheStep s (l1WriteNib s c k m d) := by
  unfold Machine.l1WriteNib
  dsimp only
  split
  · exact (l1Fill s c k).trans (l1Put ..)
  · exact l1Fill s c k

/-- A load changes nothing but caches. -/
theorem loadAt (s : State) (pl : Place) (pa n : Nat) : CacheStep s (loadAt s pl pa n).1 := by
  unfold Machine.loadAt
  dsimp only
  split
  · rfl
  · cases pl with
    | l1 c => exact l1Fill ..
    | l2 c => exact (passL1 ..).trans (l2Fill ..)
    | mem c =>
      dsimp only
      split
      · split
        · exact passL1 ..
        · exact (passL1 s c (pa / 128)).trans rfl
      · exact passL1 ..

end CacheStep

/-- A store changes caches, the writes on their way and host memory. -/
def StoreStep (s t : State) : Prop := CacheStep { s with dramq := t.dramq, mem := t.mem } t

namespace StoreStep

variable {s t u : State}

theorem refl (s : State) : StoreStep s s := rfl
theorem trans (h1 : StoreStep s t) (h2 : StoreStep t u) : StoreStep s u :=
  Eq.trans h2 (congrArg (fun x : State => { x with
    l1 := u.l1, l1By := u.l1By, l2 := u.l2, hostLines := u.hostLines, backInv := u.backInv, cured := u.cured,
    dramq := u.dramq, mem := u.mem }) h1)
theorem of_cacheStep (h : CacheStep s t) : StoreStep s t :=
  Eq.trans h (by rw [h.dramq_eq, h.mem_eq])

theorem storeAt (s : State) (pl : Place) (pa n v : Nat) (w : Option Nat) (tok : Option (BitVec 3)) :
    StoreStep s (storeAt s pl pa n v w tok) := by
  unfold Machine.storeAt
  dsimp only
  split
  · rfl
  · cases pl with
    | l1 c => exact of_cacheStep ((CacheStep.l1Write ..).trans (.l1Note ..))
    | l2 c => exact of_cacheStep ((CacheStep.passL1 ..).trans (.l2Write ..))
    | mem c =>
      dsimp only
      split
      · exact (of_cacheStep ((CacheStep.passL1 ..).trans (.l2Write ..))).trans rfl
      · exact (of_cacheStep (CacheStep.passL1 s c (pa / 128))).trans rfl

theorem storeNibAt (s : State) (pl : Place) (pa : Nat) (hi : Bool) (v : Nat) (w : Option Nat) :
    StoreStep s (storeNibAt s pl pa hi v w) := by
  unfold Machine.storeNibAt
  dsimp only
  split
  · split
    · rfl
    · exact of_cacheStep ((CacheStep.l1WriteNib ..).trans (.l1Note ..))
  · exact (of_cacheStep (.loadAt ..)).trans (storeAt ..)

end StoreStep

/-! Loads and stores, sector by sector -/

theorem copies_loadAt (s : State) (pl : Place) {pa : Nat} (n j : Nat) (h : paSpace pa < 2) :
    copies (loadAt s pl pa n).1 pl.core j
      = if j = pa / 128 then (copies s pl.core (pa / 128)).load pl else copies s pl.core j := by
  have h' : ¬ paSpace pa ≥ 2 := by omega
  unfold loadAt
  simp only [if_neg h']
  cases pl with
  | l1 c => exact copies_l1Fill ..
  | l2 c =>
    simp only [Place.core, copies_l2Fill, copies_passL1, if_true]
    split <;> rfl
  | mem c =>
    dsimp only [Place.core, Copies.load]
    rw [l2Find_passL1]
    cases hx : (copies s c (pa / 128)).pass.l2 with
    | none => exact copies_passL1 ..
    | some x =>
      by_cases hdy : x.dirty ≠ 0
      · simp only [if_pos hdy, copies_passL1]
      · simp only [if_neg hdy, copies_l2Drop, copies_passL1, if_true]
        split <;> rfl

theorem copies_append (s : State) (c : Option Nat) (k j : Nat) (m : BitVec 128) (d : BitVec 1024) (w : Option Nat)
    (tok : Option (BitVec 3)) :
    copies { s with dramq := s.dramq ++ [⟨k, m, d, w, tok⟩] } c j
      = if j = k then { copies s c k with dram := mergeBytes (copies s c k).dram d m } else copies s c j := by
  split
  · next h => subst h; exact Copies.ext rfl rfl ((dramView_append ..).trans (if_pos rfl))
  · next h => exact Copies.ext rfl rfl ((dramView_append ..).trans (if_neg h))

/-- The data of a store of `n` bytes, in place in its sector. -/
def storeData (pa n v : Nat) : BitVec 1024 := BitVec.ofNat 1024 (v % 2 ^ (8 * n)) <<< (8 * (pa % 128))

theorem copies_l1Write (s : State) (c k j : Nat) (m : BitVec 128) (d : BitVec 1024) :
    copies (l1Write s c k m d) (some c) j
      = if j = k then (copies s (some c) k).write (.l1 c) m d else copies s (some c) j := by
  obtain ⟨x, hx, -⟩ := (copies s (some c) k).fillL1_l1
  unfold l1Write Copies.write
  simp only [l1Find_l1Fill, hx, copies_l1Put, copies_l1Fill, if_true, Option.map_some]
  split <;> rfl

theorem copies_l1WriteNib (s : State) (c k j : Nat) (m : BitVec 256) (d : BitVec 1024) :
    copies (l1WriteNib s c k m d) (some c) j
      = if j = k then (copies s (some c) k).writeNib m d else copies s (some c) j := by
  obtain ⟨x, hx, -⟩ := (copies s (some c) k).fillL1_l1
  unfold l1WriteNib Copies.writeNib
  simp only [l1Find_l1Fill, hx, copies_l1Put, copies_l1Fill, if_true, Option.map_some]
  split <;> rfl

theorem copies_storeAt (s : State) (pl : Place) {pa : Nat} (n v : Nat) (w : Option Nat) (tok : Option (BitVec 3)) (j : Nat)
    (h : paSpace pa < 2) :
    copies (storeAt s pl pa n v w tok) pl.core j
      = if j = pa / 128 then (copies s pl.core (pa / 128)).write pl (byteMask (pa % 128) n) (storeData pa n v)
        else copies s pl.core j := by
  have h' : ¬ paSpace pa ≥ 2 := by omega
  unfold storeAt
  simp only [if_neg h']
  cases pl with
  | l1 c => simp only [Place.core, copies_l1Note, copies_l1Write, storeData]
  | l2 c =>
    simp only [Place.core, copies_l2Write, copies_passL1, if_true]
    split <;> rfl
  | mem c =>
    dsimp only [Place.core]
    rw [l2Find_passL1]
    cases hx : (copies s c (pa / 128)).pass.l2 with
    | none =>
      rw [Copies.write_mem_of_none _ _ _ _ hx]
      simp only [copies_append, copies_snoop, copies_passL1, if_true, Copies.pass_dram]
      split <;> rfl
    | some x =>
      rw [Copies.write_mem_of_some _ _ _ _ hx]
      simp only [copies_append, copies_l2Write, copies_passL1, if_true]
      split
      · rw [show ((copies s c (pa / 128)).pass.writeL2 _ _).dram = _ from Copies.pass_dram _]
        rfl
      · rfl

end Sys2Proof.Machine
end

section
namespace Sys2Proof.Machine

/-! What is read after a store (R7, R127, R128, R229) -/

theorem loadAt_host (s : State) (pl : Place) {pa : Nat} (n : Nat) (h : 2 ≤ paSpace pa) : (loadAt s pl pa n).1 = s := by
  unfold loadAt; simp [h]

theorem storeAt_host (s : State) (pl : Place) {pa : Nat} (n v : Nat) (w : Option Nat) (tok : Option (BitVec 3))
    (h : 2 ≤ paSpace pa) : storeAt s pl pa n v w tok = { s with mem := memWrite s.mem pa n v } := by
  unfold storeAt; exact if_pos h

theorem storeAt_mem (s : State) (pl : Place) {pa : Nat} (n v : Nat) (w : Option Nat) (tok : Option (BitVec 3))
    (h : paSpace pa < 2) : (storeAt s pl pa n v w tok).mem = s.mem := by
  have h' : ¬ paSpace pa ≥ 2 := by omega
  unfold storeAt
  simp only [if_neg h']
  cases pl with
  | l1 c => exact ((CacheStep.l1Write ..).trans (.l1Note ..)).mem_eq
  | l2 c => exact ((CacheStep.passL1 ..).trans (.l2Write ..)).mem_eq
  | mem c =>
    dsimp only
    split
    · exact ((CacheStep.passL1 ..).trans (.l2Write ..)).mem_eq
    · exact (CacheStep.passL1 ..).mem_eq

/-- A store at a cache sends nothing on to DRAM. -/
theorem storeAt_dramq_cache {pl : Place} (hpl : ∀ c, pl ≠ .mem c) (s : State) (pa n v : Nat) (w : Option Nat)
    (tok : Option (BitVec 3)) : (storeAt s pl pa n v w tok).dramq = s.dramq := by
  unfold storeAt
  dsimp only
  split
  · rfl
  · cases pl with
    | l1 c => exact ((CacheStep.l1Write ..).trans (.l1Note ..)).dramq_eq
    | l2 c => exact ((CacheStep.passL1 ..).trans (.l2Write ..)).dramq_eq
    | mem c => exact absurd rfl (hpl c)

/-- A store of policy mem sends its bytes on to DRAM. -/
theorem storeAt_dramq_mem (s : State) (c : Option Nat) {pa : Nat} (n v : Nat) (w : Option Nat) (tok : Option (BitVec 3))
    (h : paSpace pa < 2) : (storeAt s (.mem c) pa n v w tok).dramq
      = s.dramq ++ [⟨pa / 128, byteMask (pa % 128) n, storeData pa n v, w, tok⟩] := by
  have h' : ¬ paSpace pa ≥ 2 := by omega
  unfold storeAt
  simp only [if_neg h']
  split
  · rw [((CacheStep.passL1 s c (pa / 128)).trans (.l2Write ..)).dramq_eq]; rfl
  · rw [show (snoop _ _ _).dramq = _ from (CacheStep.passL1 s c (pa / 128)).dramq_eq]; rfl

/-- A store to host memory is read by every place as it was written, and changes no other byte. -/
theorem byteAt_memWrite (s : State) (pl : Place) {pa n : Nat} (v b : Nat) (h : 2 ≤ paSpace pa)
    (hs : paSpace (pa + (n - 1)) = paSpace pa) :
    byteAt { s with mem := memWrite s.mem pa n v } pl b
      = if pa ≤ b ∧ b < pa + n then v / 256 ^ (b - pa) % 256 else byteAt s pl b := by
  by_cases hb : 2 ≤ paSpace b
  · rw [byteAt_host _ _ hb, byteAt_host _ _ hb, memGet_memWrite]
    split
    · exact BitVec.toNat_ofNat ..
    · rfl
  · rw [if_neg]
    · have hk : paSpace (128 * (b / 128)) < 2 := by
        rw [paSpace_base]; omega
      rw [byteAt_cached _ _ (by omega), byteAt_cached _ _ (by omega),
        show copies { s with mem := memWrite s.mem pa n v } pl.core (b / 128) = copies s pl.core (b / 128) from
          Copies.ext rfl rfl (dramView_host s v hk h)]
    · unfold paSpace at *; omega

/-- A store within one sector changes its bytes where it leaves them to be read, and no others. -/
theorem byteAt_view_storeAt (s : State) (pl : Place) {pa n : Nat} (v b : Nat) (w : Option Nat) (tok : Option (BitVec 3))
    (h1 : pa % 128 + n ≤ 128 ∨ 2 ≤ paSpace pa) (h2 : paSpace (pa + (n - 1)) = paSpace pa) :
    byteAt (storeAt s pl pa n v w tok) pl.view b
      = if pa ≤ b ∧ b < pa + n then v / 256 ^ (b - pa) % 256 else byteAt s pl.view b := by
  by_cases hpa : 2 ≤ paSpace pa
  · rw [storeAt_host _ _ _ _ _ _ hpa]
    exact byteAt_memWrite s _ v b hpa h2
  · have hlt : paSpace pa < 2 := by omega
    have hsec : pa % 128 + n ≤ 128 := h1.resolve_right hpa
    by_cases hk : b / 128 = pa / 128
    · have hb : paSpace b < 2 := paSpace_of_sector hk ▸ hlt
      rw [byteAt_cached _ _ hb, byteAt_cached _ _ hb, Place.view_core, copies_storeAt _ _ _ _ _ _ _ hlt, if_pos hk,
        Copies.read_write, sectorBytes_mergeBytes _ _ _ (by omega), getLsbD_byteMask hsec, hk]
      by_cases hc : pa ≤ b ∧ b < pa + n
      · rw [if_pos hc, if_pos (by simp; omega), storeData, sectorBytes_storeData v (by omega) (by omega) hsec,
          show b % 128 - pa % 128 = b - pa by omega]
      · rw [if_neg hc, if_neg (by simp; omega)]
    · rw [if_neg (by omega)]
      refine byteAt_congr (storeAt_mem _ _ _ _ _ _ hlt) ?_
      rw [Place.view_core, copies_storeAt _ _ _ _ _ _ _ hlt, if_neg hk]

/-- Settles O16: the place of a cache is its own view. -/
theorem storedBytesReadBack : Obligations.StoredBytesReadBack := by
  unfold Obligations.StoredBytesReadBack
  intro s pl pa n v b w tok hpl _ h1 h2
  have h := byteAt_view_storeAt s pl v b w tok h1 h2
  rwa [Place.view_of_not_mem hpl] at h

end Sys2Proof.Machine
end

section
namespace Sys2Proof.Machine

/-! Nibbles (R229) -/

theorem testBit_putNibble_high (old v t : Nat) :
    (putNibble true old v).testBit t = if t < 4 then old.testBit t else v.testBit (t - 4) := by
  rw [show putNibble true old v = 2 ^ 4 * v + old % 2 ^ 4 by simp [putNibble]; omega,
    Nat.testBit_two_pow_mul_add _ (Nat.mod_lt _ (by decide))]
  split
  · next h => rw [Nat.testBit_mod_two_pow]; simp [h]
  · rfl

theorem testBit_putNibble_low (old : Nat) {v : Nat} (hv : v < 16) (t : Nat) :
    (putNibble false old v).testBit t = if t < 4 then v.testBit t else old.testBit t := by
  rw [show putNibble false old v = 2 ^ 4 * (old / 2 ^ 4) + v by simp [putNibble]; omega,
    Nat.testBit_two_pow_mul_add _ (by omega)]
  split
  · rfl
  · rw [Nat.testBit_div_two_pow]; congr 1; omega

theorem putNibble_lt {hi : Bool} {old v : Nat} (ho : old < 256) (hv : v < 16) : putNibble hi old v < 256 := by
  unfold putNibble; split <;> omega

/-- The number of a byte's nibble. -/
def nibbleNo (hi : Bool) : Nat := if hi then 1 else 0

/-- A nibble reads as it was put. -/
theorem putNibble_same (hi : Bool) (old : Nat) {v : Nat} (hv : v < 16) :
    putNibble hi old v / 16 ^ nibbleNo hi % 16 = v := by
  cases hi
  · simp [putNibble, nibbleNo]; omega
  · simp [putNibble, nibbleNo]; omega

/-- The other nibble of the byte stays. -/
theorem putNibble_other {hi hi' : Bool} (h : hi' ≠ hi) {old v : Nat} (hv : v < 16) :
    putNibble hi old v / 16 ^ nibbleNo hi' % 16 = old / 16 ^ nibbleNo hi' % 16 := by
  obtain rfl : hi' = !hi := Bool.eq_not.mpr h
  cases hi
  · simp [putNibble, nibbleNo]; omega
  · simp [putNibble, nibbleNo]

/-- The sector's nibble that a store of a nibble names. -/
def nibbleIndex (pa : Nat) (hi : Bool) : Nat := 2 * (pa % 128) + nibbleNo hi

theorem getLsbD_nibBits_one {i j : Nat} (hj : j < 1024) :
    (nibBits (BitVec.ofNat 256 (2 ^ i))).getLsbD j = decide (i = j / 4) := by
  rw [getLsbD_nibBits _ hj, BitVec.getLsbD_ofNat, Nat.testBit_two_pow]
  have hq : j / 4 < 256 := by omega
  simp [hq]

/-- A bit of a sector whose nibble `i` is replaced. -/
theorem getLsbD_replaceNibble (old : BitVec 1024) {i v j : Nat} (hj : j < 1024) :
    ((old &&& ~~~ nibBits (BitVec.ofNat 256 (2 ^ i))) |||
        ((BitVec.ofNat 1024 (v % 16) <<< (4 * i)) &&& nibBits (BitVec.ofNat 256 (2 ^ i)))).getLsbD j
      = if i = j / 4 then (v % 16).testBit (j % 4) else old.getLsbD j := by
  simp only [BitVec.getLsbD_or, BitVec.getLsbD_and, BitVec.getLsbD_not, getLsbD_nibBits_one hj, hj, decide_true]
  by_cases h : i = j / 4
  · have h1 : ¬ j < 4 * i := by omega
    have h2 : j - 4 * i = j % 4 := by omega
    have h3 : j % 4 < 1024 := by omega
    rw [BitVec.getLsbD_shiftLeft, BitVec.getLsbD_ofNat, h2]
    simp [h1, h3, hj, ← h]
  · simp [h]

/-- A sector with one nibble replaced has that nibble's byte changed so, and no other. -/
theorem sectorBytes_replaceNibble (old : BitVec 1024) (pa : Nat) (hi : Bool) (v : Nat) {q : Nat} (hq : q < 128) :
    sectorBytes ((old &&& ~~~ nibBits (BitVec.ofNat 256 (2 ^ nibbleIndex pa hi))) |||
        ((BitVec.ofNat 1024 (v % 16) <<< (4 * nibbleIndex pa hi)) &&& nibBits (BitVec.ofNat 256 (2 ^ nibbleIndex pa hi)))) q 1
      = if q = pa % 128 then putNibble hi (sectorBytes old q 1) (v % 16) else sectorBytes old q 1 := by
  split
  · next hpa =>
    subst hpa
    refine Nat.eq_of_testBit_eq fun b => ?_
    rw [testBit_sectorBytes_one]
    by_cases hb : b < 8
    · rw [getLsbD_replaceNibble _ (by omega)]
      cases hi with
      | true =>
        rw [testBit_putNibble_high, testBit_sectorBytes_one]
        by_cases h4 : b < 4
        · rw [if_neg (by simp [nibbleIndex, nibbleNo]; omega), if_pos h4]
        · rw [if_pos (by simp [nibbleIndex, nibbleNo]; omega), if_neg h4,
            show (8 * (pa % 128) + b) % 4 = b - 4 by omega]
          simp [hb]
      | false =>
        rw [testBit_putNibble_low _ (Nat.mod_lt _ (by decide)), testBit_sectorBytes_one]
        by_cases h4 : b < 4
        · rw [if_pos (by simp [nibbleIndex, nibbleNo]; omega), if_pos h4,
            show (8 * (pa % 128) + b) % 4 = b by omega]
          simp [hb]
        · rw [if_neg (by simp [nibbleIndex, nibbleNo]; omega), if_neg h4]
    · have hlt : putNibble hi (sectorBytes old (pa % 128) 1) (v % 16) < 2 ^ b :=
        Nat.lt_of_lt_of_le (putNibble_lt (Nat.mod_lt _ (by decide)) (Nat.mod_lt _ (by decide)))
          (show 2 ^ 8 ≤ 2 ^ b from Nat.pow_le_pow_right (by decide) (by omega))
      rw [Nat.testBit_lt_two_pow hlt]
      simp [hb]
  · next hpa =>
    refine sectorBytes_one_congr fun b hb => ?_
    rw [getLsbD_replaceNibble _ (by omega), if_neg]
    unfold nibbleIndex nibbleNo
    split <;> omega

/-! The home L2 and DRAM behind an access of policy mem -/

/-- Nothing that the home L2 holds of the sector differs from what DRAM will hold. -/
def Settled (s : State) (c : Option Nat) (k : Nat) : Prop := (copies s c k).NoCleanL2

theorem byteAt_l2_eq_mem {s : State} {c : Option Nat} {a : Nat} (h : paSpace a < 2 → Settled s c (a / 128)) :
    byteAt s (.l2 c) a = byteAt s (.mem c) a := by
  by_cases ha : 2 ≤ paSpace a
  · rw [byteAt_host _ _ ha, byteAt_host _ _ ha]
  · rw [byteAt_cached _ _ (by omega), byteAt_cached _ _ (by omega)]
    exact congrArg (sectorBytes · (a % 128) 1) ((h (by omega)).read_eq c)

theorem byteMask_ne_zero {o n : Nat} (hn : 0 < n) (h : o + n ≤ 128) : byteMask o n ≠ 0 := by
  intro h0
  have hb := getLsbD_byteMask h o
  rw [h0] at hb
  simp [hn] at hb

theorem settled_storeAt_same (s : State) (c : Option Nat) {pa n : Nat} (v : Nat) (w : Option Nat) (tok : Option (BitVec 3))
    (hpa : paSpace pa < 2) (hn : 0 < n) (h : pa % 128 + n ≤ 128) :
    Settled (storeAt s (.mem c) pa n v w tok) c (pa / 128) := by
  unfold Settled
  rw [show copies _ c (pa / 128) = _ from copies_storeAt s (.mem c) n v w tok _ hpa, if_pos rfl]
  exact Copies.noCleanL2_write_mem _ _ _ _ (byteMask_ne_zero hn h)

/-- A store leaves settled what is settled. -/
theorem settled_storeAt {s : State} {c : Option Nat} {k : Nat} (hs : Settled s c k) (pa : Nat) {n : Nat} (v : Nat)
    (w : Option Nat) (tok : Option (BitVec 3)) (hk : paSpace (128 * k) < 2) (hn : 0 < n)
    (h : pa % 128 + n ≤ 128 ∨ 2 ≤ paSpace pa) :
    Settled (storeAt s (.mem c) pa n v w tok) c k := by
  by_cases hpa : 2 ≤ paSpace pa
  · have hc : copies (storeAt s (.mem c) pa n v w tok) c k = copies s c k := by
      rw [storeAt_host _ _ _ _ _ _ hpa]
      exact Copies.ext rfl rfl (dramView_host s v hk hpa)
    unfold Settled; rw [hc]; exact hs
  · by_cases hkk : k = pa / 128
    · subst hkk; exact settled_storeAt_same s c v w tok (by omega) hn (h.resolve_right hpa)
    · unfold Settled
      rw [show copies _ c k = _ from copies_storeAt s (.mem c) n v w tok _ (by omega), if_neg hkk]
      exact hs

/-- In a settled sector a store of policy mem is read by policy mem too. -/
theorem byteAt_mem_storeAt {s : State} (c : Option Nat) {pa n : Nat} (v b : Nat) (w : Option Nat) (tok : Option (BitVec 3))
    (hs : paSpace pa < 2 → Settled s c (pa / 128)) (hn : 0 < n) (h1 : pa % 128 + n ≤ 128 ∨ 2 ≤ paSpace pa)
    (h2 : paSpace (pa + (n - 1)) = paSpace pa) :
    byteAt (storeAt s (.mem c) pa n v w tok) (.mem c) b
      = if pa ≤ b ∧ b < pa + n then v / 256 ^ (b - pa) % 256 else byteAt s (.mem c) b := by
  by_cases hpa : 2 ≤ paSpace pa
  · rw [storeAt_host _ _ _ _ _ _ hpa]
    exact byteAt_memWrite s _ v b hpa h2
  · by_cases hk : b / 128 = pa / 128
    · have hsb : paSpace b < 2 → Settled s c (b / 128) := fun _ => hk ▸ hs (by omega)
      rw [← byteAt_l2_eq_mem (s := storeAt s (.mem c) pa n v w tok), ← byteAt_l2_eq_mem hsb]
      · exact byteAt_view_storeAt s (.mem c) v b w tok h1 h2
      · exact fun _ => hk ▸ settled_storeAt_same s c v w tok (by omega) hn (h1.resolve_right hpa)
    · have hin : ¬ (pa ≤ b ∧ b < pa + n) := by omega
      rw [if_neg hin]
      refine byteAt_congr (storeAt_mem _ _ _ _ _ _ (by omega)) ?_
      exact (copies_storeAt s (.mem c) n v w tok _ (by omega)).trans (if_neg hk)

/-- A load changes nothing that its place reads. -/
theorem byteAt_loadAt (s : State) (pl : Place) (pa n b : Nat) : byteAt (loadAt s pl pa n).1 pl b = byteAt s pl b := by
  by_cases hpa : 2 ≤ paSpace pa
  · rw [loadAt_host _ _ _ hpa]
  · have hm := (CacheStep.loadAt s pl pa n).mem_eq
    have hc := fun j => copies_loadAt s pl n j (show paSpace pa < 2 by omega)
    by_cases hk : b / 128 = pa / 128
    · have hb : paSpace b < 2 := by rw [paSpace_of_sector hk]; omega
      rw [byteAt_cached _ _ hb, byteAt_cached _ _ hb, hc, if_pos hk, hk, Copies.read_load]
    · exact byteAt_congr hm ((hc _).trans (if_neg hk))

/-! Stores of a nibble -/

theorem storeNibAt_l1_host (s : State) (c : Nat) {pa : Nat} (hi : Bool) (v : Nat) (w : Option Nat) (h : 2 ≤ paSpace pa) :
    storeNibAt s (.l1 c) pa hi v w
      = { s with mem := memWrite s.mem pa 1 (putNibble hi (byteAt s (.l1 c) pa) (v % 16)) } := by
  rw [byteAt_host _ _ h]
  unfold storeNibAt
  exact if_pos h

theorem storeNibAt_l1 (s : State) (c : Nat) {pa : Nat} (hi : Bool) (v : Nat) (w : Option Nat) (h : paSpace pa < 2) :
    storeNibAt s (.l1 c) pa hi v w
      = l1Note (l1WriteNib s c (pa / 128) (BitVec.ofNat 256 (2 ^ nibbleIndex pa hi))
          (BitVec.ofNat 1024 (v % 16) <<< (4 * nibbleIndex pa hi))) c (pa / 128) w := by
  unfold storeNibAt
  exact if_neg (by omega)

/-- Away from the L1 a nibble is an update of the byte that a load of the place reads. -/
theorem storeNibAt_eq_storeAt (s : State) {pl : Place} (hpl : ∀ c, pl ≠ .l1 c) (pa : Nat) (hi : Bool) (v : Nat) (w : Option Nat) :
    storeNibAt s pl pa hi v w
      = storeAt (loadAt s pl pa 1).1 pl pa 1 (putNibble hi (byteAt s pl pa) (v % 16)) w none := by
  cases pl with
  | l1 c => exact absurd rfl (hpl c)
  | l2 c => rfl
  | mem c => rfl

/-- The place of a nibble store reads its byte with the nibble put, and every other byte as before. -/
theorem byteAt_storeNibAt (s : State) (pl : Place) (pa : Nat) (hi : Bool) (v : Nat) (w : Option Nat) (b : Nat) :
    byteAt (storeNibAt s pl pa hi v w) pl b
      = if b = pa then putNibble hi (byteAt s pl pa) (v % 16) else byteAt s pl b := by
  have hlt : putNibble hi (byteAt s pl pa) (v % 16) < 256 := putNibble_lt (byteAt_lt ..) (Nat.mod_lt _ (by decide))
  have hone {x : Nat} : (if pa ≤ b ∧ b < pa + 1 then putNibble hi (byteAt s pl pa) (v % 16) / 256 ^ (b - pa) % 256 else x)
      = if b = pa then putNibble hi (byteAt s pl pa) (v % 16) else x := by
    by_cases h : b = pa
    · rw [if_pos (by omega), if_pos h, h, Nat.sub_self, Nat.pow_zero, Nat.div_one, Nat.mod_eq_of_lt hlt]
    · rw [if_neg (by omega), if_neg h]
  have hsec : pa % 128 + 1 ≤ 128 := by omega
  cases pl with
  | l1 c =>
    by_cases hpa : 2 ≤ paSpace pa
    · rw [storeNibAt_l1_host _ _ _ _ _ hpa, byteAt_memWrite _ _ _ _ hpa rfl, hone]
    · have hc := fun j => copies_l1WriteNib s c (pa / 128) j (BitVec.ofNat 256 (2 ^ nibbleIndex pa hi))
        (BitVec.ofNat 1024 (v % 16) <<< (4 * nibbleIndex pa hi))
      rw [storeNibAt_l1 _ _ _ _ _ (by omega)]
      by_cases hk : b / 128 = pa / 128
      · have hb : paSpace b < 2 := by rw [paSpace_of_sector hk]; omega
        rw [byteAt_cached _ _ hb, byteAt_cached _ _ hb, byteAt_cached s _ (a := pa) (by omega)]
        simp only [Place.core, copies_l1Note, hc, hk, if_true]
        rw [Copies.read_writeNib, sectorBytes_replaceNibble _ _ _ _ (by omega)]
        by_cases hbp : b = pa
        · rw [if_pos (by rw [hbp]), if_pos hbp, hbp]
        · rw [if_neg (by omega), if_neg hbp]
      · rw [if_neg (by rintro rfl; exact hk rfl)]
        refine byteAt_congr ((CacheStep.l1WriteNib ..).trans (.l1Note ..)).mem_eq ?_
        simp only [Place.core, copies_l1Note, hc, if_neg hk]
  | l2 c =>
    rw [storeNibAt_eq_storeAt _ (by simp),
      show byteAt _ (.l2 c) b = _ from byteAt_view_storeAt _ (.l2 c) _ b w none (.inl hsec) rfl, hone]
    rw [show (Place.l2 c).view = .l2 c from rfl, byteAt_loadAt]
  | mem c =>
    rw [storeNibAt_eq_storeAt _ (by simp), byteAt_mem_storeAt c _ b w none ?_ (by omega) (.inl hsec) rfl, hone, byteAt_loadAt]
    intro hpa
    unfold Settled
    rw [show copies _ c (pa / 128) = _ from copies_loadAt s (.mem c) 1 _ hpa, if_pos rfl]
    exact Copies.noCleanL2_load_mem _ c

end Sys2Proof.Machine
end

section
namespace Sys2Proof.Machine

/-! Writes on their way to DRAM: the byte that a list of them leaves, and the join of an instruction's writes, one for
each 32-byte unit (R147) -/

/-- The byte that a write puts at offset `i` of sector `k`. -/
def byteOfWrite (e : DramWrite) (k i : Nat) : Option Nat :=
  if e.sector = k ∧ e.bytes.getLsbD i = true then some (sectorBytes e.data i 1) else none

/-- The byte that the last of the writes to reach it puts at offset `i` of sector `k`. -/
def lastByte (l : List DramWrite) (k i : Nat) : Option Nat :=
  match l with
  | [] => none
  | e :: r => (lastByte r k i).or (byteOfWrite e k i)

theorem byteOfWrite_eq_some {e : DramWrite} {k i v : Nat} :
    byteOfWrite e k i = some v ↔ (e.sector = k ∧ e.bytes.getLsbD i = true) ∧ sectorBytes e.data i 1 = v := by
  unfold byteOfWrite; split <;> simp_all

theorem lastByte_append (l r : List DramWrite) (k i : Nat) :
    lastByte (l ++ r) k i = (lastByte r k i).or (lastByte l k i) := by
  induction l with
  | nil => simp [lastByte]
  | cons e l ih => rw [List.cons_append, lastByte, ih, lastByte, Option.or_assoc]

theorem lastByte_append_one (l : List DramWrite) (d : DramWrite) (k i : Nat) :
    lastByte (l ++ [d]) k i = (byteOfWrite d k i).or (lastByte l k i) := by
  rw [lastByte_append]; rfl

/-- What is left somewhere one of the writes put there. -/
theorem exists_of_lastByte {l : List DramWrite} {k i v : Nat} (h : lastByte l k i = some v) :
    ∃ e ∈ l, byteOfWrite e k i = some v := by
  induction l with
  | nil => exact absurd h (by simp [lastByte])
  | cons e r ih =>
    rw [lastByte, Option.or_eq_some_iff] at h
    rcases h with h | ⟨-, h⟩
    · obtain ⟨e', he', hv⟩ := ih h
      exact ⟨e', List.mem_cons_of_mem _ he', hv⟩
    · exact ⟨e, List.mem_cons_self, h⟩

theorem lastByte_isSome {l : List DramWrite} {e : DramWrite} {k i : Nat} (he : e ∈ l) (hk : e.sector = k)
    (hi : e.bytes.getLsbD i = true) : ∃ v, lastByte l k i = some v := by
  induction l with
  | nil => exact absurd he (by simp)
  | cons d r ih =>
    rw [lastByte]
    rcases List.mem_cons.mp he with rfl | he
    · cases hr : lastByte r k i with
      | some v => exact ⟨v, rfl⟩
      | none => exact ⟨_, byteOfWrite_eq_some.mpr ⟨⟨hk, hi⟩, rfl⟩⟩
    · obtain ⟨v, hv⟩ := ih he
      exact ⟨v, by rw [hv]; rfl⟩

/-- Merging writes into a sector leaves at each offset the last byte put there. -/
theorem sectorBytes_foldl_merge (l : List DramWrite) (B : BitVec 1024) (k : Nat) {i : Nat} (hi : i < 128) :
    sectorBytes (l.foldl (fun d w => if w.sector = k then mergeBytes d w.data w.bytes else d) B) i 1
      = (lastByte l k i).getD (sectorBytes B i 1) := by
  induction l generalizing B with
  | nil => rfl
  | cons e r ih =>
    rw [List.foldl_cons, ih, lastByte]
    cases lastByte r k i with
    | some v => rfl
    | none =>
      simp only [Option.none_or, Option.getD_none, byteOfWrite]
      by_cases hk : e.sector = k
      · simp only [hk, if_true, true_and, sectorBytes_mergeBytes _ _ _ hi]
        split <;> rfl
      · simp [hk]

/-- DRAM will hold the same where the same bytes are left by the writes on their way. -/
theorem dramView_eq_of_lastByte {s t : State} (hm : t.mem = s.mem) {k : Nat}
    (h : ∀ i < 128, lastByte t.dramq k i = lastByte s.dramq k i) : dramView t k = dramView s k := by
  refine sector_ext fun i hi => ?_
  unfold dramView
  rw [sectorBytes_foldl_merge _ _ _ hi, sectorBytes_foldl_merge _ _ _ hi, h i hi, hm]

/-! Units -/

/-- The bytes of a mask lie in unit `q` of the sector, and there are some. -/
def InUnit (q : Nat) (m : BitVec 128) : Prop := m ≠ 0 ∧ ∀ i, m.getLsbD i = true → i / 32 = q

theorem exists_bit_of_ne_zero {m : BitVec 128} (h : m ≠ 0) : ∃ i, m.getLsbD i = true := by
  refine Classical.byContradiction fun hn => h (BitVec.eq_of_getLsbD_eq fun i _ => ?_)
  exact (Bool.eq_false_iff.mpr fun hi => hn ⟨i, hi⟩).trans BitVec.getLsbD_zero.symm

theorem InUnit.exists_bit {q : Nat} {m : BitVec 128} (h : InUnit q m) : ∃ i, m.getLsbD i = true ∧ i / 32 = q ∧ q < 4 := by
  obtain ⟨i, hi⟩ := exists_bit_of_ne_zero h.1
  have hlt := BitVec.lt_of_getLsbD hi
  have hq := h.2 i hi
  exact ⟨i, hi, hq, by omega⟩

theorem InUnit.or {q : Nat} {m m' : BitVec 128} (h : InUnit q m) (h' : InUnit q m') : InUnit q (m ||| m') := by
  refine ⟨fun h0 => h.1 (BitVec.or_eq_zero_iff.mp h0).1, fun i hi => ?_⟩
  rw [BitVec.getLsbD_or, Bool.or_eq_true] at hi
  exact hi.elim (h.2 i) (h'.2 i)

/-- Bytes of one unit make that unit whole. -/
theorem wholeUnits_of_inUnit {q : Nat} {m : BitVec 128} (h : InUnit q m) : wholeUnits m = byteMask (32 * q) 32 := by
  obtain ⟨i, hi, hiq, hq⟩ := h.exists_bit
  have hc : ∀ u < 4, m &&& byteMask (32 * u) 32 ≠ 0 ↔ u = q := by
    intro u hu
    constructor
    · intro hne
      obtain ⟨j, hj⟩ := exists_bit_of_ne_zero hne
      rw [BitVec.getLsbD_and, getLsbD_byteMask (by omega)] at hj
      simp only [Bool.and_eq_true, decide_eq_true_eq] at hj
      have := h.2 j hj.1
      omega
    · rintro rfl h0
      have hb : (m &&& byteMask (32 * u) 32).getLsbD i = true := by
        rw [BitVec.getLsbD_and, getLsbD_byteMask (by omega), hi]
        simp; omega
      rw [h0] at hb
      simp at hb
  unfold wholeUnits
  rw [show List.range 4 = [0, 1, 2, 3] from rfl]
  simp only [List.foldl_cons, List.foldl_nil, hc 0 (by omega), hc 1 (by omega), hc 2 (by omega), hc 3 (by omega)]
  obtain rfl | rfl | rfl | rfl : q = 0 ∨ q = 1 ∨ q = 2 ∨ q = 3 := by omega
  all_goals simp

theorem wholeUnits_eq_iff {q q' : Nat} {m m' : BitVec 128} (h : InUnit q m) (h' : InUnit q' m') :
    wholeUnits m = wholeUnits m' ↔ q = q' := by
  rw [wholeUnits_of_inUnit h, wholeUnits_of_inUnit h']
  refine ⟨fun he => ?_, fun he => by rw [he]⟩
  obtain ⟨-, -, -, hq⟩ := h.exists_bit
  obtain ⟨-, -, -, hq'⟩ := h'.exists_bit
  have hb := congrArg (fun m => m.getLsbD (32 * q)) he
  simp only [getLsbD_byteMask (show 32 * q + 32 ≤ 128 by omega), getLsbD_byteMask (show 32 * q' + 32 ≤ 128 by omega)] at hb
  simp at hb
  omega

/-! The join -/

/-- What tells the writes of one instruction apart: sector and unit. -/
def unitKey (e : DramWrite) : Nat × BitVec 128 := (e.sector, wholeUnits e.bytes)

/-- A write joined with a later one. -/
def joinOne (e d : DramWrite) : DramWrite := { e with bytes := e.bytes ||| d.bytes, data := mergeBytes e.data d.data d.bytes }

def sameUnit (e d : DramWrite) : Bool := e.sector = d.sector && wholeUnits e.bytes = wholeUnits d.bytes

/-- Join a later write to those of its unit. -/
def joinUnit (d e : DramWrite) : DramWrite := if sameUnit e d then joinOne e d else e

/-- A write joins the earlier one of its unit, or stands by itself. -/
def joinInto (l : List DramWrite) (d : DramWrite) : List DramWrite :=
  if l.any fun e => sameUnit e d then l.map (joinUnit d) else l ++ [d]

theorem joinWrites_eq (s : State) (n : Nat) :
    joinWrites s n = { s with dramq := s.dramq.take n ++ (s.dramq.drop n).foldl joinInto [] } := rfl

theorem sameUnit_iff {e d : DramWrite} : sameUnit e d = true ↔ unitKey e = unitKey d := by
  simp [sameUnit, unitKey]
theorem joinUnit_same {e d : DramWrite} (h : unitKey e = unitKey d) : joinUnit d e = joinOne e d :=
  if_pos (sameUnit_iff.mpr h)
theorem joinUnit_ne {e d : DramWrite} (h : unitKey e ≠ unitKey d) : joinUnit d e = e :=
  if_neg fun hs => h (sameUnit_iff.mp hs)

/-- Each of the writes lies in one unit of its sector. -/
def UnitWrites (l : List DramWrite) : Prop := ∀ e ∈ l, ∃ q, InUnit q e.bytes

theorem unitKey_joinOne {e d : DramWrite} (he : ∃ q, InUnit q e.bytes) (hd : ∃ q, InUnit q d.bytes)
    (h : unitKey e = unitKey d) : (∃ q, InUnit q (joinOne e d).bytes) ∧ unitKey (joinOne e d) = unitKey e := by
  obtain ⟨q, hq⟩ := he
  obtain ⟨q', hq'⟩ := hd
  obtain rfl := (wholeUnits_eq_iff hq hq').mp (congrArg Prod.snd h)
  have hj : InUnit q (joinOne e d).bytes := hq.or hq'
  exact ⟨⟨q, hj⟩, Prod.ext rfl ((wholeUnits_eq_iff hj hq).mpr rfl)⟩

/-- A joined write leaves what the two left one after the other. -/
theorem byteOfWrite_joinOne {e d : DramWrite} (h : e.sector = d.sector) (k : Nat) {i : Nat} (hi : i < 128) :
    byteOfWrite (joinOne e d) k i = (byteOfWrite d k i).or (byteOfWrite e k i) := by
  unfold byteOfWrite joinOne
  simp only [BitVec.getLsbD_or, Bool.or_eq_true, sectorBytes_mergeBytes _ _ _ hi, h]
  by_cases hk : d.sector = k
  · cases hd : d.bytes.getLsbD i <;> simp [hk]
  · simp [hk]

/-- Two writes that reach one byte are of one unit. -/
theorem unitKey_eq_of_byte {e d : DramWrite} (he : ∃ q, InUnit q e.bytes) (hd : ∃ q, InUnit q d.bytes) {k i : Nat}
    (h1 : byteOfWrite e k i ≠ none) (h2 : byteOfWrite d k i ≠ none) : unitKey e = unitKey d := by
  obtain ⟨q, hq⟩ := he
  obtain ⟨q', hq'⟩ := hd
  obtain ⟨v, hv⟩ := Option.ne_none_iff_exists'.mp h1
  obtain ⟨v', hv'⟩ := Option.ne_none_iff_exists'.mp h2
  obtain ⟨⟨hes, heb⟩, -⟩ := byteOfWrite_eq_some.mp hv
  obtain ⟨⟨hds, hdb⟩, -⟩ := byteOfWrite_eq_some.mp hv'
  exact Prod.ext (hes.trans hds.symm) ((wholeUnits_eq_iff hq hq').mpr ((hq.2 i heb).symm.trans (hq'.2 i hdb)))

/-- The byte that a write puts, where no write of another unit can. -/
theorem lastByte_eq_none {l : List DramWrite} (hl : UnitWrites l) {d : DramWrite} (hd : ∃ q, InUnit q d.bytes)
    (hne : ∀ e ∈ l, unitKey e ≠ unitKey d) {k i : Nat} (h : byteOfWrite d k i ≠ none) : lastByte l k i = none := by
  refine Classical.byContradiction fun hn => ?_
  obtain ⟨v, hv⟩ := Option.ne_none_iff_exists'.mp hn
  obtain ⟨e, he, hev⟩ := exists_of_lastByte hv
  exact hne e he (unitKey_eq_of_byte (hl e he) hd (by rw [hev]; simp) h)

/-- Joining a write to those of other units and one of its own leaves what it leaves after them. -/
theorem lastByte_map_joinUnit {l : List DramWrite} (hl : UnitWrites l) (hn : (l.map unitKey).Nodup) {d : DramWrite}
    (hd : ∃ q, InUnit q d.bytes) (hany : ∃ e ∈ l, unitKey e = unitKey d) (k : Nat) {i : Nat} (hi : i < 128) :
    lastByte (l.map (joinUnit d)) k i = (byteOfWrite d k i).or (lastByte l k i) := by
  induction l with
  | nil => obtain ⟨e, he, -⟩ := hany; exact absurd he (by simp)
  | cons e r ih =>
    have hlr : UnitWrites r := fun x hx => hl x (List.mem_cons_of_mem _ hx)
    rw [List.map_cons, List.nodup_cons] at hn
    rw [List.map_cons, lastByte, lastByte]
    by_cases he : unitKey e = unitKey d
    · have hne : ∀ x ∈ r, unitKey x ≠ unitKey d := fun x hx hxd =>
        hn.1 (List.mem_map.mpr ⟨x, hx, hxd.trans he.symm⟩)
      have hr : r.map (joinUnit d) = r :=
        (List.map_congr_left (g := id) fun x hx => joinUnit_ne (hne x hx)).trans (List.map_id r)
      rw [hr, joinUnit_same he,
        byteOfWrite_joinOne (congrArg Prod.fst he) k hi, ← Option.or_assoc, ← Option.or_assoc]
      by_cases hb : byteOfWrite d k i = none
      · rw [hb, Option.or_none, Option.none_or]
      · rw [lastByte_eq_none hlr hd hne hb, Option.none_or, Option.or_none]
    · obtain ⟨x, hx, hxd⟩ := hany
      have hxr : x ∈ r := (List.mem_cons.mp hx).resolve_left fun h => he (h ▸ hxd)
      rw [ih hlr hn.2 ⟨x, hxr, hxd⟩, joinUnit_ne he, Option.or_assoc]

/-- Writes of the units of sectors, one for each unit. -/
def OneForEachUnit (l : List DramWrite) : Prop := UnitWrites l ∧ (l.map unitKey).Nodup

theorem joinInto_of_same {l : List DramWrite} {d : DramWrite} (h : ∃ e ∈ l, unitKey e = unitKey d) :
    joinInto l d = l.map (joinUnit d) := by
  obtain ⟨e, he, hk⟩ := h
  exact if_pos (List.any_eq_true.mpr ⟨e, he, (sameUnit_iff (e := e) (d := d)).mpr hk⟩)

theorem joinInto_of_ne {l : List DramWrite} {d : DramWrite} (h : ¬ ∃ e ∈ l, unitKey e = unitKey d) :
    joinInto l d = l ++ [d] := by
  refine if_neg fun ha => h ?_
  obtain ⟨e, he, hk⟩ := List.any_eq_true.mp ha
  exact ⟨e, he, sameUnit_iff.mp hk⟩

/-- Joined writes stay one for each unit, and leave what the writes leave one after the other. -/
theorem oneForEachUnit_joinInto {l : List DramWrite} (hl : OneForEachUnit l) {d : DramWrite} (hd : ∃ q, InUnit q d.bytes) :
    OneForEachUnit (joinInto l d) ∧
      ∀ k, ∀ i < 128, lastByte (joinInto l d) k i = (byteOfWrite d k i).or (lastByte l k i) := by
  by_cases h : ∃ e ∈ l, unitKey e = unitKey d
  · rw [joinInto_of_same h]
    have hone : ∀ e ∈ l, (∃ q, InUnit q (joinUnit d e).bytes) ∧ unitKey (joinUnit d e) = unitKey e := by
      intro e he
      by_cases hk : unitKey e = unitKey d
      · rw [joinUnit_same hk]; exact unitKey_joinOne (hl.1 e he) hd hk
      · rw [joinUnit_ne hk]; exact ⟨hl.1 e he, rfl⟩
    refine ⟨⟨fun x hx => ?_, ?_⟩, fun k i hi => lastByte_map_joinUnit hl.1 hl.2 hd h k hi⟩
    · obtain ⟨e, he, rfl⟩ := List.mem_map.mp hx
      exact (hone e he).1
    · have hkeys : (l.map (joinUnit d)).map unitKey = l.map unitKey :=
        List.map_map.trans (List.map_congr_left fun e he => (hone e he).2)
      rw [hkeys]
      exact hl.2
  · rw [joinInto_of_ne h]
    refine ⟨⟨fun x hx => ?_, ?_⟩, fun k i _ => lastByte_append_one l d k i⟩
    · rcases List.mem_append.mp hx with hx | hx
      · exact hl.1 x hx
      · exact List.mem_singleton.mp hx ▸ hd
    · rw [List.map_append, List.nodup_append]
      refine ⟨hl.2, by simp, fun a ha b hb hab => h ?_⟩
      obtain ⟨e, he, rfl⟩ := List.mem_map.mp ha
      rw [List.map_singleton, List.mem_singleton] at hb
      exact ⟨e, he, hab.trans hb⟩

/-- The join of an instruction's writes. -/
def joined (R : List DramWrite) : List DramWrite := R.foldl joinInto []

/-- Induction on a list by its last entry (the core library has none). -/
theorem snocInduction {α : Type} {p : List α → Prop} (nil : p []) (append_singleton : ∀ l a, p l → p (l ++ [a]))
    (l : List α) : p l := by
  rw [← l.reverse_reverse]
  induction l.reverse with
  | nil => exact nil
  | cons a l ih => rw [List.reverse_cons]; exact append_singleton _ a ih

/-- Of writes with one for each unit, a unit names its write. -/
theorem eq_of_unitKey_eq {l : List DramWrite} (hn : (l.map unitKey).Nodup) {e d : DramWrite} (he : e ∈ l) (hd : d ∈ l)
    (h : unitKey e = unitKey d) : e = d := by
  induction l with
  | nil => exact absurd he List.not_mem_nil
  | cons x l ih =>
    obtain ⟨hx, hn⟩ := List.nodup_cons.mp hn
    obtain rfl | hel := List.mem_cons.mp he <;> obtain rfl | hdl := List.mem_cons.mp hd
    · rfl
    · exact absurd (h ▸ List.mem_map_of_mem hdl) hx
    · exact absurd (h ▸ List.mem_map_of_mem hel) hx
    · exact ih hn hel hdl

theorem joined_append_one (R : List DramWrite) (d : DramWrite) : joined (R ++ [d]) = joinInto (joined R) d := by
  unfold joined; rw [List.foldl_append]; rfl

theorem oneForEachUnit_joined {R : List DramWrite} (hR : UnitWrites R) :
    OneForEachUnit (joined R) ∧ ∀ k, ∀ i < 128, lastByte (joined R) k i = lastByte R k i := by
  induction R using snocInduction with
  | nil => exact ⟨⟨fun e he => absurd he (by simp [joined]), List.nodup_nil⟩, fun _ _ _ => rfl⟩
  | append_singleton R d ih =>
    obtain ⟨h1, h2⟩ := ih fun e he => hR e (List.mem_append_left _ he)
    obtain ⟨h3, h4⟩ := oneForEachUnit_joinInto h1 (hR d (List.mem_append_right _ (List.mem_singleton_self d)))
    rw [joined_append_one]
    exact ⟨h3, fun k i hi => by rw [h4 k i hi, h2 k i hi, lastByte_append_one]⟩

/-- Every joined write is of a warp that all the writes are of. -/
theorem warp_joined {R : List DramWrite} {w : Option Nat} (h : ∀ e ∈ R, e.warp = w) : ∀ e ∈ joined R, e.warp = w := by
  induction R using snocInduction with
  | nil => exact fun e he => absurd he (by simp [joined])
  | append_singleton R d ih =>
    have h1 := ih fun e he => h e (List.mem_append_left _ he)
    intro e he
    rw [joined_append_one] at he
    by_cases hs : ∃ e ∈ joined R, unitKey e = unitKey d
    · rw [joinInto_of_same hs] at he
      obtain ⟨x, hx, rfl⟩ := List.mem_map.mp he
      unfold joinUnit joinOne
      split <;> exact h1 x hx
    · rw [joinInto_of_ne hs] at he
      rcases List.mem_append.mp he with he | he
      · exact h1 e he
      · exact List.mem_singleton.mp he ▸ h d (List.mem_append_right _ (List.mem_singleton_self d))

/-- The bytes of a joined write are those of its unit that one of the writes reaches. -/
theorem bytes_joined {R : List DramWrite} (hR : UnitWrites R) {d : DramWrite} (hd : d ∈ joined R) :
    ∃ q < 4, ∀ i < 128, d.bytes.getLsbD i = true ↔
      i / 32 = q ∧ ∃ r ∈ R, r.sector = d.sector ∧ r.bytes.getLsbD i = true := by
  obtain ⟨⟨hu, hn⟩, hb⟩ := oneForEachUnit_joined hR
  obtain ⟨q, hq⟩ := hu d hd
  obtain ⟨-, -, -, hq4⟩ := hq.exists_bit
  refine ⟨q, hq4, fun i hi => ⟨fun h => ⟨hq.2 i h, ?_⟩, ?_⟩⟩
  · obtain ⟨v, hv⟩ := lastByte_isSome hd rfl h
    rw [hb _ i hi] at hv
    obtain ⟨r, hr, hrv⟩ := exists_of_lastByte hv
    exact ⟨r, hr, (byteOfWrite_eq_some.mp hrv).1⟩
  · rintro ⟨hiq, r, hr, hs, hri⟩
    obtain ⟨v, hv⟩ := lastByte_isSome hr hs hri
    rw [← hb _ i hi] at hv
    obtain ⟨e, he, hev⟩ := exists_of_lastByte hv
    obtain ⟨⟨hes, hei⟩, -⟩ := byteOfWrite_eq_some.mp hev
    obtain ⟨q', hq'⟩ := hu e he
    have hk : unitKey e = unitKey d :=
      Prod.ext hes ((wholeUnits_eq_iff hq' hq).mpr ((hq'.2 i hei).symm.trans hiq))
    exact eq_of_unitKey_eq hn he hd hk ▸ hei

end Sys2Proof.Machine
end

section
namespace Sys2Proof.Machine

/-! Folds over the lanes of an instruction -/

section Folds

variable {σ β : Type} {step : σ → Nat → σ} {rd : σ → β} {L : List Nat}

/-- What no lane changes stays. -/
theorem foldl_miss (h : ∀ k ∈ L, ∀ z, rd (step z k) = rd z) (s : σ) : rd (L.foldl step s) = rd s := by
  induction L generalizing s with
  | nil => rfl
  | cons k r ih =>
    rw [List.foldl_cons, ih fun j hj => h j (List.mem_cons_of_mem _ hj), h k List.mem_cons_self]

/-- What a lane brings about, in every state that the lanes before it can leave, and no later lane changes holds at the
end. -/
theorem foldl_last_hit_of {I : σ → Prop} (keep : ∀ k ∈ L, ∀ z, I z → I (step z k)) (hL : L.Pairwise (· < ·)) {k : Nat}
    (hk : k ∈ L) {v : β} (hit : ∀ z, I z → rd (step z k) = v) (miss : ∀ j ∈ L, k < j → ∀ z, rd (step z j) = rd z) {s : σ}
    (hs : I s) : rd (L.foldl step s) = v := by
  obtain ⟨A, B, rfl⟩ := List.append_of_mem hk
  have hB := (List.pairwise_cons.mp (List.pairwise_append.mp hL).2.1).1
  rw [List.foldl_append, List.foldl_cons,
    foldl_miss fun j hj => miss j (List.mem_append_right _ (List.mem_cons_of_mem _ hj)) (hB j hj)]
  exact hit _ (List.foldlRecOn A step (motive := I) hs fun z hz j hj => keep j (List.mem_append_left _ hj) z hz)

theorem foldl_last_hit (hL : L.Pairwise (· < ·)) {k : Nat} (hk : k ∈ L) {v : β} (hit : ∀ z, rd (step z k) = v)
    (miss : ∀ j ∈ L, k < j → ∀ z, rd (step z j) = rd z) (s : σ) : rd (L.foldl step s) = v :=
  foldl_last_hit_of (I := fun _ => True) (fun _ _ _ _ => trivial) hL hk (fun z _ => hit z) miss trivial

/-- What a lane brings about and every lane keeps holds at the end. -/
theorem foldl_reached {P : σ → Prop} {k : Nat} (hk : k ∈ L) (hit : ∀ z, P (step z k))
    (keep : ∀ j ∈ L, ∀ z, P z → P (step z j)) (s : σ) : P (L.foldl step s) := by
  obtain ⟨A, B, rfl⟩ := List.append_of_mem hk
  rw [List.foldl_append, List.foldl_cons]
  exact List.foldlRecOn B step (motive := P) (hit _) fun z hz j hj =>
    keep j (List.mem_append_right _ (List.mem_cons_of_mem _ hj)) z hz

end Folds

theorem pairwise_lanesOf (m : W32) : (lanesOf m).Pairwise (· < ·) :=
  List.Pairwise.filter _ List.pairwise_lt_range

/-! The stores of one instruction's lanes -/

/-- The bytes of a lane's access lie in one 32-byte unit. -/
def LaneFits (n pa : Nat) : Prop := 0 < n ∧ pa % 32 + n ≤ 32

theorem LaneFits.sector {n pa : Nat} (h : LaneFits n pa) : pa % 128 + n ≤ 128 := by
  have := h.2; omega
theorem LaneFits.space {n pa : Nat} (h : LaneFits n pa) : paSpace (pa + (n - 1)) = paSpace pa :=
  paSpace_of_sector (by have := h.sector; omega)
theorem LaneFits.inUnit {n pa : Nat} (h : LaneFits n pa) : InUnit (pa % 128 / 32) (byteMask (pa % 128) n) := by
  refine ⟨byteMask_ne_zero h.1 h.sector, fun i hi => ?_⟩
  rw [getLsbD_byteMask h.sector, decide_eq_true_eq] at hi
  have := h.2
  omega

/-- What a lane's store does: of a nibble, or of `n` bytes. -/
def storeLane (nib : Bool) (pl : Place) (n w : Nat) (hi : Nat → Bool) (pa val : Nat → Nat) (z : State) (k : Nat) : State :=
  if nib then storeNibAt z pl (pa k) (hi k) (val k) (some w) else storeAt z pl (pa k) n (val k) (some w) none

section Lanes

variable {pl : Place} {c : Option Nat} {n w : Nat} {hi : Nat → Bool} {pa val : Nat → Nat} {nib : Bool} {k : Nat}

theorem storeStep_storeLane (z : State) : StoreStep z (storeLane nib pl n w hi pa val z k) := by
  unfold storeLane; split
  · exact StoreStep.storeNibAt ..
  · exact StoreStep.storeAt ..

/-- A lane's store of whole bytes, read where it leaves them to be read. -/
theorem byteAt_view_storeLane (hf : LaneFits n (pa k)) (z : State) (a : Nat) :
    byteAt (storeLane false pl n w hi pa val z k) pl.view a
      = if pa k ≤ a ∧ a < pa k + n then val k / 256 ^ (a - pa k) % 256 else byteAt z pl.view a :=
  byteAt_view_storeAt z pl _ _ _ _ (.inl hf.sector) hf.space

/-- A lane's store of a nibble, read at its place. -/
theorem byteAt_storeLane_nib (z : State) (a : Nat) :
    byteAt (storeLane true pl n w hi pa val z k) pl a
      = if a = pa k then putNibble (hi k) (byteAt z pl (pa k)) (val k % 16) else byteAt z pl a :=
  byteAt_storeNibAt ..

/-- A load leaves settled what is settled. -/
theorem settled_loadAt {s : State} {i : Nat} (h : Settled s c i) (a m : Nat) : Settled (loadAt s (.mem c) a m).1 c i := by
  by_cases ha : 2 ≤ paSpace a
  · rw [loadAt_host _ _ _ ha]; exact h
  · unfold Settled
    rw [show copies _ c i = _ from copies_loadAt s (.mem c) m i (by omega)]
    split
    · exact Copies.noCleanL2_load_mem _ c
    · exact h

/-- The state that a lane's store of policy mem is performed in: a nibble's byte is read first. -/
def laneSource (nib : Bool) (c : Option Nat) (z : State) (pa : Nat) : State :=
  if nib then (loadAt z (.mem c) pa 1).1 else z

theorem cacheStep_laneSource (z : State) (a : Nat) : CacheStep z (laneSource nib c z a) := by
  unfold laneSource; split
  · exact CacheStep.loadAt ..
  · rfl

theorem settled_laneSource {z : State} {i : Nat} (h : Settled z c i) (a : Nat) : Settled (laneSource nib c z a) c i := by
  unfold laneSource; split
  · exact settled_loadAt h a 1
  · exact h

theorem copies_laneSource_ne (z : State) {a i : Nat} (h : i ≠ a / 128) :
    copies (laneSource nib c z a) c i = copies z c i := by
  unfold laneSource; split
  · by_cases ha : 2 ≤ paSpace a
    · rw [loadAt_host _ _ _ ha]
    · exact (copies_loadAt z (.mem c) 1 i (by omega)).trans (if_neg h)
  · rfl

theorem storeLane_mem (hn : nib = true → n = 1) (z : State) : ∃ v,
    storeLane nib (.mem c) n w hi pa val z k = storeAt (laneSource nib c z (pa k)) (.mem c) (pa k) n v (some w) none := by
  unfold storeLane laneSource
  cases nib with
  | false => exact ⟨val k, rfl⟩
  | true =>
    rw [if_pos rfl, storeNibAt_eq_storeAt _ (by simp), hn rfl]
    exact ⟨_, rfl⟩

/-- A lane's store of policy mem leaves its sector settled, and every other that is. -/
theorem settled_storeLane (hn : nib = true → n = 1) (hf : LaneFits n (pa k)) (z : State) {i : Nat}
    (hi' : paSpace (128 * i) < 2) (h : i = pa k / 128 ∨ Settled z c i) :
    Settled (storeLane nib (.mem c) n w hi pa val z k) c i := by
  obtain ⟨v, hv⟩ := storeLane_mem (c := c) (w := w) (hi := hi) (val := val) (k := k) (pa := pa) hn z
  rw [hv]
  rcases h with rfl | h
  · have hpa : paSpace (pa k) < 2 := by rwa [← paSpace_base]
    exact settled_storeAt_same _ c v _ _ hpa hf.1 hf.sector
  · exact settled_storeAt (settled_laneSource h _) _ v _ _ hi' hf.1 (.inl hf.sector)

/-- A lane's store of policy mem changes nothing of another sector. -/
theorem byteAt_l2_storeLane_ne (hn : nib = true → n = 1) (hf : LaneFits n (pa k)) (z : State) {a : Nat}
    (h : a / 128 ≠ pa k / 128) :
    byteAt (storeLane nib (.mem c) n w hi pa val z k) (.l2 c) a = byteAt z (.l2 c) a := by
  obtain ⟨v, hv⟩ := storeLane_mem (c := c) (w := w) (hi := hi) (val := val) (k := k) (pa := pa) hn z
  have hs := hf.sector
  rw [hv, show byteAt _ (.l2 c) a = _ from
    byteAt_view_storeAt _ (.mem c) v a (some w) none (.inl hf.sector) hf.space, if_neg (by omega)]
  exact byteAt_congr (cacheStep_laneSource z _).mem_eq (copies_laneSource_ne z h)

/-- In a settled sector it changes the bytes of its access alone. -/
theorem byteAt_l2_storeLane_settled (hn : nib = true → n = 1) (hf : LaneFits n (pa k)) {z : State} {a : Nat}
    (ha : paSpace a < 2) (hz : Settled z c (a / 128)) (hc : ¬ (pa k ≤ a ∧ a < pa k + n)) :
    byteAt (storeLane nib (.mem c) n w hi pa val z k) (.l2 c) a = byteAt z (.l2 c) a := by
  have hsp : paSpace (128 * (a / 128)) < 2 := by rwa [paSpace_base]
  cases nib with
  | false => exact (byteAt_view_storeLane (pl := .mem c) hf z a).trans (if_neg hc)
  | true =>
    have hz' := settled_storeLane (w := w) (hi := hi) (val := val) hn hf z hsp (.inr hz)
    obtain rfl := hn rfl
    rw [byteAt_l2_eq_mem fun _ => hz', byteAt_l2_eq_mem fun _ => hz, byteAt_storeLane_nib, if_neg (by omega)]

/-! What the lanes of a store of policy mem send on to DRAM -/

/-- The write that a lane sends on shows the bytes that the lane leaves to be read. -/
theorem dramq_storeLane (hn : nib = true → n = 1) (hf : LaneFits n (pa k)) (z : State) (hpa : paSpace (pa k) < 2) :
    ∃ d, (storeLane nib (.mem c) n w hi pa val z k).dramq
        = z.dramq ++ [⟨pa k / 128, byteMask (pa k % 128) n, d, some w, none⟩] ∧
      ∀ a, pa k ≤ a → a < pa k + n →
        sectorBytes d (a % 128) 1 = byteAt (storeLane nib (.mem c) n w hi pa val z k) (.l2 c) a := by
  obtain ⟨v, hv⟩ := storeLane_mem (c := c) (w := w) (hi := hi) (val := val) (k := k) (pa := pa) hn z
  have hs := hf.sector
  refine ⟨storeData (pa k) n v, ?_, fun a h1 h2 => ?_⟩
  · rw [hv, storeAt_dramq_mem _ _ _ _ _ _ hpa, (cacheStep_laneSource z _).dramq_eq]
  · rw [hv, show byteAt _ (.l2 c) a = _ from
      byteAt_view_storeAt _ (.mem c) v a (some w) none (.inl hf.sector) hf.space, if_pos ⟨h1, h2⟩, storeData,
      sectorBytes_storeData v (by omega) (by omega) hs, show a % 128 - pa k % 128 = a - pa k by omega]

/-- A store of host memory sends nothing on, and neither does one at a cache. -/
theorem dramq_storeLane_host (z : State) (hpa : 2 ≤ paSpace (pa k)) :
    (storeLane nib pl n w hi pa val z k).dramq = z.dramq := by
  unfold storeLane
  split
  · by_cases hl : ∃ c, pl = .l1 c
    · obtain ⟨c, rfl⟩ := hl
      rw [storeNibAt_l1_host _ _ _ _ _ hpa]
    · rw [storeNibAt_eq_storeAt _ (fun c h => hl ⟨c, h⟩), storeAt_host _ _ _ _ _ _ hpa]
      exact (CacheStep.loadAt ..).dramq_eq
  · rw [storeAt_host _ _ _ _ _ _ hpa]

theorem dramq_storeLane_cache (hpl : ∀ c, pl ≠ .mem c) (z : State) :
    (storeLane nib pl n w hi pa val z k).dramq = z.dramq := by
  by_cases hpa : 2 ≤ paSpace (pa k)
  · exact dramq_storeLane_host z hpa
  · unfold storeLane
    split
    · by_cases hl : ∃ c, pl = .l1 c
      · obtain ⟨c, rfl⟩ := hl
        rw [storeNibAt_l1 _ _ _ _ _ (by omega)]
        exact ((CacheStep.l1WriteNib ..).trans (.l1Note ..)).dramq_eq
      · rw [storeNibAt_eq_storeAt _ (fun c h => hl ⟨c, h⟩), storeAt_dramq_cache hpl]
        exact (CacheStep.loadAt ..).dramq_eq
    · exact storeAt_dramq_cache hpl ..

/-- The writes `R` are what the lanes of a store of policy mem have sent on between two states: one for each lane of DRAM,
each byte showing what it was left as. -/
structure LaneWrites (s z : State) (c : Option Nat) (w n : Nat) (pa : Nat → Nat) (L : List Nat) (R : List DramWrite) : Prop where
  queue    : z.dramq = s.dramq ++ R
  warp     : ∀ r ∈ R, r.warp = some w
  fromLane : ∀ r ∈ R, ∃ k ∈ L, paSpace (pa k) < 2 ∧ r.sector = pa k / 128 ∧ r.bytes = byteMask (pa k % 128) n
  ofLane   : ∀ k ∈ L, paSpace (pa k) < 2 → ∃ r ∈ R, r.sector = pa k / 128 ∧ r.bytes = byteMask (pa k % 128) n
  shown    : ∀ a v, paSpace a < 2 → lastByte R (a / 128) (a % 128) = some v →
    byteAt z (.l2 c) a = v ∧ Settled z c (a / 128)

theorem LaneWrites.step_host {s z : State} {L : List Nat} {R : List DramWrite} (h : LaneWrites s z c w n pa L R)
    (hn : nib = true → n = 1) (hf : LaneFits n (pa k)) (hpa : 2 ≤ paSpace (pa k)) :
    LaneWrites s (storeLane nib (.mem c) n w hi pa val z k) c w n pa (L ++ [k]) R where
  queue := (dramq_storeLane_host z hpa).trans h.queue
  warp := h.warp
  fromLane r hr := by
    obtain ⟨j, hj, hw⟩ := h.fromLane r hr
    exact ⟨j, List.mem_append_left _ hj, hw⟩
  ofLane j hj hsp := by
    rcases List.mem_append.mp hj with hj | hj
    · exact h.ofLane j hj hsp
    · rw [List.mem_singleton.mp hj] at hsp; omega
  shown a v ha hv := by
    obtain ⟨h1, h2⟩ := h.shown a v ha hv
    have hsp : paSpace (128 * (a / 128)) < 2 := by rwa [paSpace_base]
    have hne : ¬ (pa k ≤ a ∧ a < pa k + n) := by
      have := hf.space
      unfold paSpace at *
      omega
    exact ⟨(byteAt_l2_storeLane_settled hn hf ha h2 hne).trans h1, settled_storeLane hn hf z hsp (.inr h2)⟩

theorem LaneWrites.step {s z : State} {L : List Nat} {R : List DramWrite} (h : LaneWrites s z c w n pa L R)
    (hn : nib = true → n = 1) (hf : LaneFits n (pa k)) (hpa : paSpace (pa k) < 2) :
    ∃ d, LaneWrites s (storeLane nib (.mem c) n w hi pa val z k) c w n pa (L ++ [k]) (R ++ [d]) := by
  obtain ⟨d, hq, hd⟩ := dramq_storeLane (w := w) (hi := hi) (val := val) (c := c) hn hf z hpa
  refine ⟨⟨pa k / 128, byteMask (pa k % 128) n, d, some w, none⟩, ?_, fun r hr => ?_, fun r hr => ?_, fun j hj hsp => ?_,
    fun a v ha hv => ?_⟩
  · rw [hq, h.queue, List.append_assoc]
  · rcases List.mem_append.mp hr with hr | hr
    · exact h.warp r hr
    · rw [List.mem_singleton.mp hr]
  · rcases List.mem_append.mp hr with hr | hr
    · obtain ⟨j, hj, hw⟩ := h.fromLane r hr
      exact ⟨j, List.mem_append_left _ hj, hw⟩
    · exact ⟨k, by simp, hpa, by rw [List.mem_singleton.mp hr], by rw [List.mem_singleton.mp hr]⟩
  · rcases List.mem_append.mp hj with hj | hj
    · obtain ⟨r, hr, hw⟩ := h.ofLane j hj hsp
      exact ⟨r, List.mem_append_left _ hr, hw⟩
    · exact ⟨_, List.mem_append_right _ (List.mem_singleton_self _), by rw [List.mem_singleton.mp hj],
        by rw [List.mem_singleton.mp hj]⟩
  · have hsp : paSpace (128 * (a / 128)) < 2 := by rwa [paSpace_base]
    have hs := hf.sector
    rw [lastByte_append_one, Option.or_eq_some_iff] at hv
    rcases hv with hv | ⟨hnone, hv⟩
    · obtain ⟨⟨hk, hb⟩, hv⟩ := byteOfWrite_eq_some.mp hv
      rw [getLsbD_byteMask hs, decide_eq_true_eq] at hb
      dsimp only at hk hv
      exact ⟨(hd a (by omega) (by omega)).symm.trans hv, settled_storeLane hn hf z hsp (.inl hk.symm)⟩
    · obtain ⟨h1, h2⟩ := h.shown a v ha hv
      refine ⟨(byteAt_l2_storeLane_settled hn hf ha h2 fun hc => ?_).trans h1, settled_storeLane hn hf z hsp (.inr h2)⟩
      have hsome : byteOfWrite ⟨pa k / 128, byteMask (pa k % 128) n, d, some w, none⟩ (a / 128) (a % 128)
          = some (sectorBytes d (a % 128) 1) := by
        refine byteOfWrite_eq_some.mpr ⟨⟨by show pa k / 128 = _; omega, ?_⟩, rfl⟩
        rw [getLsbD_byteMask hs, decide_eq_true_eq]
        omega
      rw [hsome] at hnone
      exact absurd hnone (by simp)

/-- The lanes of a store of policy mem send on their writes. -/
theorem exists_laneWrites (hn : nib = true → n = 1) {L : List Nat} (hf : ∀ k ∈ L, LaneFits n (pa k)) (s : State) :
    ∃ R, LaneWrites s (L.foldl (storeLane nib (.mem c) n w hi pa val) s) c w n pa L R := by
  induction L using snocInduction with
  | nil => exact ⟨[], (List.append_nil _).symm, by simp, by simp, by simp, fun a v _ h => absurd h (by simp [lastByte])⟩
  | append_singleton L k ih =>
    obtain ⟨R, hR⟩ := ih fun j hj => hf j (List.mem_append_left _ hj)
    have hfk := hf k (List.mem_append_right _ (List.mem_singleton_self k))
    rw [List.foldl_append, List.foldl_cons, List.foldl_nil]
    by_cases hpa : 2 ≤ paSpace (pa k)
    · exact ⟨R, hR.step_host hn hfk hpa⟩
    · obtain ⟨d, hd⟩ := hR.step (hi := hi) (val := val) hn hfk (by omega)
      exact ⟨_, hd⟩

theorem LaneWrites.unitWrites {s z : State} {L : List Nat} {R : List DramWrite} (h : LaneWrites s z c w n pa L R)
    (hf : ∀ k ∈ L, LaneFits n (pa k)) : UnitWrites R := by
  intro r hr
  obtain ⟨k, hk, -, -, hb⟩ := h.fromLane r hr
  exact ⟨_, hb ▸ (hf k hk).inUnit⟩

end Lanes

end Sys2Proof.Machine
end

section
namespace Sys2Proof.Machine

/-! The end of a store: its writes joined, and its token (R39, R127, R147) -/

theorem updAt_append {α : Type} (A B : List α) (i : Nat) (f : α → α) (h : A.length ≤ i) :
    updAt (A ++ B) i f = A ++ updAt B (i - A.length) f := by
  induction A generalizing i with
  | nil => rfl
  | cons a r ih =>
    cases i with
    | zero => exact absurd h (by simp)
    | succ i =>
      rw [List.cons_append, updAt, ih i (by simpa using h), List.cons_append, List.length_cons, Nat.add_sub_add_right]

theorem map_updAt {α β : Type} (g : α → β) (f : α → α) (h : ∀ x, g (f x) = g x) (l : List α) (i : Nat) :
    (updAt l i f).map g = l.map g := by
  induction l generalizing i with
  | nil => rfl
  | cons a r ih => cases i with
    | zero => simp [updAt, h]
    | succ i => simp [updAt, ih]

/-- A write without the token that follows it. -/
def untagged (d : DramWrite) : DramWrite := { d with tok := none }

theorem lastByte_untagged (l : List DramWrite) (k i : Nat) : lastByte (l.map untagged) k i = lastByte l k i := by
  induction l with
  | nil => rfl
  | cons e r ih => rw [List.map_cons, lastByte, ih]; rfl

theorem joined_ne_nil {R : List DramWrite} (h : R ≠ []) : joined R ≠ [] := by
  obtain ⟨A, d, rfl⟩ := List.eq_nil_or_concat R |>.resolve_left h
  rw [List.concat_eq_append, joined_append_one]
  unfold joinInto
  split
  · next ha =>
    rintro h0
    rw [List.map_eq_nil_iff.mp h0] at ha
    simp at ha
  · simp

/-- Arming a token changes the warp's counts alone. -/
theorem eq_of_arm {U V : Warp} {tok : Option (BitVec 3)} {sys : Bool} (h : U = arm V tok sys) :
    U = { V with ev := U.ev, evSys := U.evSys } := by
  subst h; cases tok <;> rfl

/-- What the end of a store makes of the state: the writes that it sent on stand joined, and its token may be armed. -/
structure TokenStep (b t u : State) (w : Nat) (R ws : List DramWrite) : Prop where
  frame  : u = { t with dramq := b.dramq ++ ws, warps := u.warps }
  writes : ws.map untagged = (joined R).map untagged
  others : ∀ v, v ≠ w → getW u v = getW t v
  warp   : w < t.warps.length → getW u w = { getW t w with ev := (getW u w).ev, evSys := (getW u w).evSys }
  none   : R = [] → u = t

theorem storeToken_step {b t : State} {R : List DramWrite} (h : t.dramq = b.dramq ++ R) (w : Nat) (tok : Option (BitVec 3)) :
    ∃ ws, TokenStep b t (storeToken b t w tok) w R ws := by
  unfold storeToken
  by_cases hR : R = []
  · subst hR
    rw [List.append_nil] at h
    rw [if_neg (by rw [h]; omega)]
    exact ⟨[], by rw [List.append_nil, ← h], rfl, fun _ _ => rfl, fun _ => rfl, fun _ => rfl⟩
  · have hlen : 0 < R.length := List.length_pos_iff.mpr hR
    have hj : joinWrites t b.dramq.length = { t with dramq := b.dramq ++ joined R } := by
      rw [joinWrites_eq, h, List.take_left, List.drop_left]; rfl
    rw [if_pos (by rw [h, List.length_append]; omega), hj]
    cases tok with
    | none => exact ⟨joined R, rfl, rfl, fun _ _ => rfl, fun _ => rfl, fun h0 => absurd h0 hR⟩
    | some k =>
      have hJ : 0 < (joined R).length := List.length_pos_iff.mpr (joined_ne_nil hR)
      refine ⟨updAt (joined R) ((joined R).length - 1) fun d => { d with tok := some k }, ?_,
        map_updAt untagged (fun d => { d with tok := some k }) (fun _ => rfl) _ _,
        fun v hv => getW_updW_ne _ hv _, fun hw => ?_, fun h0 => absurd h0 hR⟩
      · dsimp only
        rw [List.length_append, updAt_append _ _ _ _ (by omega),
          show b.dramq.length + (joined R).length - 1 - b.dramq.length = (joined R).length - 1 by omega]
        rfl
      · exact eq_of_arm (getW_updW_same (s := { t with dramq := b.dramq ++ joined R }) hw fun W => arm W (some k) false)

/-! A store whose lanes all pass their checks -/

/-- A lane's checks let it make its access. -/
def LaneRes.Reaches (r : LaneRes) : Prop := (∃ pa, r = .ok pa) ∨ ∃ g o, r = .scr g o

theorem waitLanes_nil {as : List LaneAcc} (h : ∀ a ∈ as, a.res.Reaches) : waitLanes as = [] := by
  refine List.filterMap_eq_nil_iff.mpr fun a ha => ?_
  rcases h a ha with ⟨pa, hr⟩ | ⟨g, o, hr⟩ <;> rw [hr]
theorem badLanes_nil {as : List LaneAcc} (h : ∀ a ∈ as, a.res.Reaches) : badLanes as = [] := by
  refine List.filterMap_eq_nil_iff.mpr fun a ha => ?_
  rcases h a ha with ⟨pa, hr⟩ | ⟨g, o, hr⟩ <;> rw [hr]
theorem deadLanes_nil {as : List LaneAcc} (h : ∀ a ∈ as, a.res.Reaches) : deadLanes as = [] := by
  refine List.filterMap_eq_nil_iff.mpr fun a ha => ?_
  rcases h a ha with ⟨pa, hr⟩ | ⟨g, o, hr⟩ <;> rw [hr]

/-- With no lane that waits, faults or dies an instruction makes its accesses. -/
theorem onLanes_reaches {as : List LaneAcc} (h : ∀ a ∈ as, a.res.Reaches) (s : State) (w : Nat) (acc : Nat → AccKind)
    (extra : Nat) (k : State → List LaneAcc → Out) : onLanes s w acc extra as k = k s as := by
  have ho : overRecords s as = false := by simp [overRecords, reports, badLanes_nil h]
  unfold onLanes
  simp [waitLanes_nil h, badLanes_nil h, deadLanes_nil h, ho]

/-- A plain store consumes no data. -/
theorem killPoisoned_plain {as : List LaneAcc} (h : ∀ a ∈ as, a.res.Reaches) (s : State) (w n : Nat) (data : Nat → W32)
    (write : Bool) : killPoisoned s w n false data write as = (s, as) := by
  suffices hacc : ∀ acc : List LaneAcc, as.foldl _ (s, acc) = (s, acc ++ as) from hacc []
  induction as with
  | nil => intro acc; rw [List.append_nil]; rfl
  | cons a r ih =>
    intro acc
    rw [List.foldl_cons]
    have ha : a.res.Reaches := h a List.mem_cons_self
    have hr := ih (fun x hx => h x (List.mem_cons_of_mem _ hx)) (acc ++ [a])
    rw [List.append_assoc, List.singleton_append] at hr
    rcases ha with ⟨pa, ha⟩ | ⟨g, o, ha⟩
    · simp only [ha, Bool.false_and, Bool.false_eq_true, if_false]
      exact hr
    · simp only [ha, Bool.false_and, Bool.false_eq_true, if_false]
      exact hr

/-- An instruction that leaves EXM as it was goes on. -/
theorem complete_eq_advance {s : State} {w len : Nat} {was : W32} (h : (getW s w).exm = was) :
    complete s w len was = advance s w len := by
  unfold complete
  rw [h, if_neg]
  simp

/-- What lane `k` of a store takes from its registers, with the flags of the narrowing. -/
def storeValue (W : Warp) (f : BitVec 5) (t : BitVec 8) (k : Nat) : Nat × Flags := narrow f (runWords W t.toNat (fmtRegs f) k)

/-- The flags of the performing lanes. -/
def storeFlags (W : Warp) (f : BitVec 5) (t : BitVec 8) : Flags :=
  (lanesOf (performing W)).foldl (fun a k => a ||| (storeValue W f t k).2) 0

/-- The accesses of a store's performing lanes, with the outcomes of their checks. -/
def storeAccs (W : Warp) (f : BitVec 5) (o : BitVec 8) (b : BitVec 6) (x : MPfx) (res : Nat → LaneRes) : List LaneAcc :=
  (lanesOf (performing W)).map fun k => ⟨k, laneAddr W b o (offM x) (nibbleShift f) k, res k⟩

/-- One lane's part of a store. -/
def storeOne (W : Warp) (f : BitVec 5) (t o : BitVec 8) (pl : Place) (w : Nat) (z : State) (a : LaneAcc) : State :=
  if isNibble f then writeNib z pl (highNibble W o a.lane) (storeValue W f t a.lane).1 (some w) a
  else writeLane z W pl (fmtBytes f) (storeValue W f t a.lane).1 (some w) a

/-- What the lanes `as` of a store leave, its token apart. -/
def storeAll (s : State) (W : Warp) (f : BitVec 5) (t o : BitVec 8) (pl : Place) (w : Nat) (as : List LaneAcc) : State :=
  updW (clearAt (as.foldl (storeOne W f t o pl w) s) (placeCore pl) (if isNibble f then [] else paRanges (fmtBytes f) as)) w
    fun V => orFlags V (storeFlags W f t)

/-- A store whose lanes all reach their bytes completes. -/
theorem storeOp_reaches {s : State} {w : Nat} {t o : BitVec 8} {b : BitVec 6} {x : MPfx} {chk : Warp → Nat → W64 → LaneRes}
    {W : Warp} {f : BitVec 5} (hW : W = getW s w) (hf : f = (attr x.mem).fmt)
    (hr : AccessReady s w (run t.toNat (fmtRegs f) ++ voReg o) [b] x.ev) (ht : tileBusy W = false) {res : Nat → LaneRes}
    (hres : ∀ k ∈ lanesOf (performing W),
      chk W k (laneAddr W b o (offM x) (nibbleShift f) k) = res k ∧ (res k).Reaches) :
    storeOp s t o b x chk = .next (complete (storeToken s (storeAll s W f t o
      (placeOfAttr W.core (attr x.mem) (isStrong (attr x.mem))) w (storeAccs W f o b x res)) w x.ev) w (lenM x) W.exm) := by
  subst hW hf
  obtain ⟨hi, hv, hs, he⟩ := hr
  have hra : ∀ a ∈ storeAccs (getW s w) (attr x.mem).fmt o b x res, a.res.Reaches := by
    intro a ha
    obtain ⟨k, hk, rfl⟩ := List.mem_map.mp ha
    exact (hres k hk).2
  unfold storeOp
  dsimp only
  rw [issue_ready hi (regReason_none (fun r hr => (hv r hr).1) hs) fun r hr => (hv r hr).2, if_neg (by rw [he, ht]; simp),
    show List.map _ _ = storeAccs (getW s w) (attr x.mem).fmt o b x res from
      List.map_congr_left fun k hk => by rw [(hres k hk).1],
    onLanes_reaches hra, killPoisoned_plain hra]
  unfold storeAll storeFlags gather
  simp only [storeAccs, List.foldl_map, List.map_map]
  rfl

end Sys2Proof.Machine
end

section
namespace Sys2Proof.Machine

/-! What the lanes of a store leave to be read (R117, R228, R229) -/

section Lanes

variable {pl : Place} {n w : Nat} {hi : Nat → Bool} {pa val : Nat → Nat} {nib : Bool} {L : List Nat}

theorem storeStep_lanes (s : State) : StoreStep s (L.foldl (storeLane nib pl n w hi pa val) s) :=
  List.foldlRecOn L _ (motive := StoreStep s) (StoreStep.refl s) fun z hz _ _ => hz.trans (storeStep_storeLane z)

/-- A byte that no lane covers is read as before. -/
theorem byteAt_view_lanes_miss (hf : ∀ k ∈ L, LaneFits n (pa k)) {a : Nat} (h : ∀ k ∈ L, ¬ Covers (pa k) n a) (s : State) :
    byteAt (L.foldl (storeLane false pl n w hi pa val) s) pl.view a = byteAt s pl.view a := by
  refine foldl_miss (rd := fun z => byteAt z pl.view a) (fun k hk z => ?_) s
  rw [byteAt_view_storeLane (hf k hk)]
  exact if_neg (h k hk)

/-- A byte is read as the last lane that covers it wrote it. -/
theorem byteAt_view_lanes_last (hf : ∀ k ∈ L, LaneFits n (pa k)) (hL : L.Pairwise (· < ·)) {a k : Nat} (hk : k ∈ L)
    (hc : Covers (pa k) n a) (hlast : ∀ j ∈ L, k < j → ¬ Covers (pa j) n a) (s : State) :
    byteAt (L.foldl (storeLane false pl n w hi pa val) s) pl.view a = val k / 256 ^ (a - pa k) % 256 := by
  refine foldl_last_hit (rd := fun z => byteAt z pl.view a) hL hk (fun z => ?_) (fun j hj hkj z => ?_) s
  · rw [byteAt_view_storeLane (hf k hk)]
    exact if_pos hc
  · rw [byteAt_view_storeLane (hf j hj)]
    exact if_neg (hlast j hj hkj)

/-- A byte no nibble of which is stored is read as before. -/
theorem byteAt_lanes_nib_miss {a : Nat} (h : ∀ k ∈ L, a ≠ pa k) (s : State) :
    byteAt (L.foldl (storeLane true pl n w hi pa val) s) pl a = byteAt s pl a :=
  foldl_miss (rd := fun z => byteAt z pl a) (fun k hk z => (byteAt_storeLane_nib z a).trans (if_neg (h k hk))) s

/-- A nibble of a byte after a lane's store that is not of it. -/
theorem nibble_storeLane_ne {a k : Nat} {b : Bool} (h : ¬ (pa k = a ∧ hi k = b)) (z : State) :
    byteAt (storeLane true pl n w hi pa val z k) pl a / 16 ^ nibbleNo b % 16 = byteAt z pl a / 16 ^ nibbleNo b % 16 := by
  rw [byteAt_storeLane_nib]
  split
  · next ha =>
    subst ha
    exact putNibble_other (fun hb => h ⟨rfl, hb.symm⟩) (Nat.mod_lt _ (by decide))
  · rfl

/-- A nibble is read as the last lane that stores it. -/
theorem nibble_lanes_last (hL : L.Pairwise (· < ·)) {k : Nat} (hk : k ∈ L)
    (hlast : ∀ j ∈ L, k < j → ¬ (pa j = pa k ∧ hi j = hi k)) (s : State) :
    byteAt (L.foldl (storeLane true pl n w hi pa val) s) pl (pa k) / 16 ^ nibbleNo (hi k) % 16 = val k % 16 :=
  foldl_last_hit (rd := fun z => byteAt z pl (pa k) / 16 ^ nibbleNo (hi k) % 16) hL hk
    (fun z => by
      rw [byteAt_storeLane_nib, if_pos rfl]
      exact putNibble_same _ _ (Nat.mod_lt _ (by decide)))
    (fun j hj hkj z => nibble_storeLane_ne (hlast j hj hkj) z) s

/-- A nibble that no lane stores is read as before. -/
theorem nibble_lanes_miss {a : Nat} {b : Bool} (h : ∀ k ∈ L, ¬ (pa k = a ∧ hi k = b)) (s : State) :
    byteAt (L.foldl (storeLane true pl n w hi pa val) s) pl a / 16 ^ nibbleNo b % 16 = byteAt s pl a / 16 ^ nibbleNo b % 16 :=
  foldl_miss (rd := fun z => byteAt z pl a / 16 ^ nibbleNo b % 16) (fun k hk z => nibble_storeLane_ne (h k hk) z) s

/-- In the sector of a lane's access all read what the access's place reads. -/
theorem byteAt_view_eq_of_lane (hn : nib = true → n = 1) (hf : ∀ k ∈ L, LaneFits n (pa k)) {a k : Nat} (hk : k ∈ L)
    (ha : a / 128 = pa k / 128) (s : State) :
    byteAt (L.foldl (storeLane nib pl n w hi pa val) s) pl.view a = byteAt (L.foldl (storeLane nib pl n w hi pa val) s) pl a := by
  cases pl with
  | l1 c => rfl
  | l2 c => rfl
  | mem c =>
    refine byteAt_l2_eq_mem fun hsp => ?_
    have hsp' : paSpace (128 * (a / 128)) < 2 := by rwa [paSpace_base]
    exact foldl_reached (P := fun z => Settled z c (a / 128)) hk
      (fun z => settled_storeLane hn (hf k hk) z hsp' (.inl ha))
      (fun j hj z hz => settled_storeLane hn (hf j hj) z hsp' (.inr hz)) s

/-- Elsewhere they read that or what they read before. -/
theorem byteAt_view_lanes (hn : nib = true → n = 1) (hf : ∀ k ∈ L, LaneFits n (pa k)) (a : Nat) (s : State) :
    byteAt (L.foldl (storeLane nib pl n w hi pa val) s) pl.view a = byteAt (L.foldl (storeLane nib pl n w hi pa val) s) pl a ∨
      byteAt (L.foldl (storeLane nib pl n w hi pa val) s) pl.view a = byteAt s pl.view a := by
  by_cases h : ∃ k ∈ L, a / 128 = pa k / 128
  · obtain ⟨k, hk, ha⟩ := h
    exact .inl (byteAt_view_eq_of_lane hn hf hk ha s)
  · cases pl with
    | l1 c => exact .inl rfl
    | l2 c => exact .inl rfl
    | mem c =>
      exact .inr (foldl_miss (rd := fun z => byteAt z (.l2 c) a)
        (fun k hk z => byteAt_l2_storeLane_ne hn (hf k hk) z fun ha => h ⟨k, hk, ha⟩) s)

/-- The writes that the lanes of a store send on: none but those of policy mem. -/
theorem exists_lanes_queue (hn : nib = true → n = 1) (hf : ∀ k ∈ L, LaneFits n (pa k)) (s : State) :
    ∃ R, (L.foldl (storeLane nib pl n w hi pa val) s).dramq = s.dramq ++ R ∧ UnitWrites R ∧
      ((∀ c, pl ≠ .mem c) → R = []) ∧
      ∀ c, pl = .mem c → LaneWrites s (L.foldl (storeLane nib pl n w hi pa val) s) c w n pa L R := by
  by_cases hpl : ∃ c, pl = .mem c
  · obtain ⟨c, rfl⟩ := hpl
    obtain ⟨R, hR⟩ := exists_laneWrites (c := c) (w := w) (hi := hi) (val := val) hn hf s
    refine ⟨R, hR.queue, hR.unitWrites hf, fun h => absurd rfl (h c), fun c' hc => ?_⟩
    rw [Place.mem.injEq] at hc
    exact hc ▸ hR
  · have hq : (L.foldl (storeLane nib pl n w hi pa val) s).dramq = s.dramq :=
      foldl_miss (rd := State.dramq) (fun k _ z => dramq_storeLane_cache (fun c h => hpl ⟨c, h⟩) z) s
    exact ⟨[], hq.trans (List.append_nil _).symm, fun e he => absurd he (by simp), fun _ => rfl,
      fun c hc => absurd ⟨c, hc⟩ hpl⟩

end Lanes

/-! The state that a store ends in -/

/-- Only what a store may write has changed, warps among it. -/
def StoresOnly (s t : State) : Prop :=
  t = { s with
    l1 := t.l1, l1By := t.l1By, l2 := t.l2, hostLines := t.hostLines, backInv := t.backInv, dramq := t.dramq, mem := t.mem
    poison := t.poison, cured := t.cured, warps := t.warps }

theorem StoresOnly.trans {s t u : State} (h1 : StoresOnly s t) (h2 : StoresOnly t u) : StoresOnly s u :=
  Eq.trans h2 (congrArg (fun x : State => { x with
    l1 := u.l1, l1By := u.l1By, l2 := u.l2, hostLines := u.hostLines, backInv := u.backInv, dramq := u.dramq, mem := u.mem
    poison := u.poison, cured := u.cured, warps := u.warps }) h1)

theorem StoreStep.warps_eq {s t : State} (h : StoreStep s t) : t.warps = s.warps := by rw [show t = _ from h]
theorem StoreStep.poison_eq {s t : State} (h : StoreStep s t) : t.poison = s.poison := by rw [show t = _ from h]
theorem StoreStep.storesOnly {s t : State} (h : StoreStep s t) : StoresOnly s t :=
  Eq.trans h (by rw [h.warps_eq, h.poison_eq])

theorem getW_congr {s t : State} (h : t.warps = s.warps) (v : Nat) : getW t v = getW s v := by
  unfold getW; rw [h]

section Ends

variable {s z u : State} {w : Nat} {c : Option Nat} {rs : List (Nat × Nat)} {F : Flags} {R ws : List DramWrite}

theorem TokenStep.storesOnly {b t : State} (h : TokenStep b t u w R ws) : StoresOnly t u := by
  unfold StoresOnly
  rw [h.frame]

theorem TokenStep.onlyStores (hz : StoreStep s z)
    (h : TokenStep s (updW (clearAt z c rs) w fun V => orFlags V F) u w R ws) : OnlyStores s u w := by
  refine ⟨(hz.storesOnly.trans (t := z) (show StoresOnly z (updW (clearAt z c rs) w fun V => orFlags V F) from rfl)).trans
    h.storesOnly, fun v hv => ?_⟩
  rw [h.others v hv, getW_updW_ne _ hv]
  exact getW_congr hz.warps_eq v

theorem getW_flags (hz : StoreStep s z) (hw : w < s.warps.length) :
    getW (updW (clearAt z c rs) w fun V => orFlags V F) w = { getW s w with fpst := (getW s w).fpst ||| F } := by
  have hw' : w < (clearAt z c rs).warps.length := by rw [show (clearAt z c rs).warps = _ from hz.warps_eq]; exact hw
  rw [getW_updW_same hw', getW_congr (show (clearAt z c rs).warps = _ from hz.warps_eq)]
  rfl

theorem TokenStep.getW_eq (hz : StoreStep s z) (hw : w < s.warps.length)
    (h : TokenStep s (updW (clearAt z c rs) w fun V => orFlags V F) u w R ws) :
    getW u w = { getW s w with fpst := (getW s w).fpst ||| F, ev := (getW u w).ev, evSys := (getW u w).evSys } := by
  have hw' : w < (updW (clearAt z c rs) w fun V => orFlags V F).warps.length := by
    rw [show (updW _ _ _).warps.length = _ from length_updAt .., show (clearAt z c rs).warps = _ from hz.warps_eq]; exact hw
  have hu := h.warp hw'
  rw [getW_flags hz hw] at hu
  exact hu

/-- The bytes that joined writes leave are those of the writes, whatever token follows them. -/
theorem TokenStep.lastByte_eq {b t : State} (h : TokenStep b t u w R ws) (hR : UnitWrites R) (k : Nat) {i : Nat}
    (hi : i < 128) : lastByte ws k i = lastByte R k i := by
  rw [← lastByte_untagged ws, h.writes, lastByte_untagged, (oneForEachUnit_joined hR).2 k i hi]

theorem TokenStep.byteAt_eq (h : TokenStep s (updW (clearAt z c rs) w fun V => orFlags V F) u w R ws)
    (hq : z.dramq = s.dramq ++ R) (hR : UnitWrites R) (pl : Place) (a : Nat) : byteAt u pl a = byteAt z pl a := by
  have hm : u.mem = z.mem := by rw [h.frame]; rfl
  have hd : ∀ k, dramView u k = dramView z k := fun k => dramView_eq_of_lastByte hm fun i hi => by
    rw [show u.dramq = s.dramq ++ ws by rw [h.frame], hq, lastByte_append, lastByte_append, h.lastByte_eq hR k hi]
  refine byteAt_congr hm (Copies.ext ?_ ?_ (hd _))
  · show (pl.core.bind fun c => l1Find u c (a / 128)) = pl.core.bind fun c => l1Find z c (a / 128)
    unfold l1Find
    rw [show u.l1 = z.l1 by rw [h.frame]; rfl]
  · show l2Find u _ = l2Find z _
    unfold l2Find
    rw [show u.l2 = z.l2 by rw [h.frame]; rfl]

theorem exists_joined_of_mem (h : ws.map untagged = (joined R).map untagged) {d : DramWrite} (hd : d ∈ ws) :
    ∃ e ∈ joined R, e.sector = d.sector ∧ e.bytes = d.bytes ∧ e.data = d.data ∧ e.warp = d.warp := by
  have hm : untagged d ∈ (joined R).map untagged := h ▸ List.mem_map_of_mem hd
  obtain ⟨e, he, hed⟩ := List.mem_map.mp hm
  simp only [untagged, DramWrite.mk.injEq, and_true] at hed
  exact ⟨e, he, hed⟩

/-- The bytes of DRAM that the lanes wrote are on their way, in one write for each unit. -/
theorem TokenStep.dram_writes {t : State} {n : Nat} {pa : Nat → Nat} {L : List Nat}
    (h : TokenStep s t u w R ws) (hw : LaneWrites s z c w n pa L R) (hf : ∀ k ∈ L, LaneFits n (pa k)) :
    (ws.map unitKey).Nodup ∧
    (∀ d ∈ ws, d.warp = some w ∧ ∃ q < 4, ∀ i < 128, d.bytes.getLsbD i = true ↔
      i / 32 = q ∧ ∃ k ∈ L, paSpace (pa k) < 2 ∧ Covers (pa k) n (128 * d.sector + i)) ∧
    ∀ a, ∀ k ∈ L, paSpace (pa k) < 2 → Covers (pa k) n a → ∃ d ∈ ws, d.sector = a / 128 ∧
      d.bytes.getLsbD (a % 128) = true ∧ (BitVec.extractLsb' (8 * (a % 128)) 8 d.data).toNat = byteAt z (.l2 c) a := by
  have hR := hw.unitWrites hf
  refine ⟨?_, fun d hd => ?_, fun a k hk hsp hc => ?_⟩
  · have hk : ∀ l : List DramWrite, (l.map untagged).map unitKey = l.map unitKey := fun l => List.map_map
    rw [← hk, h.writes, hk]
    exact (oneForEachUnit_joined hR).1.2
  · obtain ⟨e, he, hs, hb, -, hwarp⟩ := exists_joined_of_mem h.writes hd
    obtain ⟨q, hq, hbits⟩ := bytes_joined hR he
    refine ⟨hwarp ▸ warp_joined hw.warp e he, q, hq, fun i hi => ?_⟩
    rw [← hb, hbits i hi, hs]
    refine and_congr_right fun _ => ⟨?_, ?_⟩
    · rintro ⟨r, hr, hrs, hri⟩
      obtain ⟨k, hk, hsp, hks, hkb⟩ := hw.fromLane r hr
      rw [hkb, getLsbD_byteMask (hf k hk).sector, decide_eq_true_eq] at hri
      refine ⟨k, hk, hsp, ?_⟩
      unfold Covers
      omega
    · rintro ⟨k, hk, hsp, hc⟩
      obtain ⟨r, hr, hks, hkb⟩ := hw.ofLane k hk hsp
      have hsec := (hf k hk).sector
      unfold Covers at hc
      refine ⟨r, hr, by omega, ?_⟩
      rw [hkb, getLsbD_byteMask hsec, decide_eq_true_eq]
      omega
  · obtain ⟨r, hr, hks, hkb⟩ := hw.ofLane k hk hsp
    have hsec := (hf k hk).sector
    unfold Covers at hc
    have hbit : r.bytes.getLsbD (a % 128) = true := by
      rw [hkb, getLsbD_byteMask hsec, decide_eq_true_eq]
      omega
    obtain ⟨v, hv⟩ := lastByte_isSome hr (show r.sector = a / 128 by omega) hbit
    have ha : paSpace a < 2 := by rwa [paSpace_of_sector (a := pa k) (by omega)]
    have hvw := hv
    rw [← h.lastByte_eq hR _ (by omega)] at hvw
    obtain ⟨d, hd, hdv⟩ := exists_of_lastByte hvw
    obtain ⟨⟨hds, hdb⟩, hdd⟩ := byteOfWrite_eq_some.mp hdv
    exact ⟨d, hd, hds, hdb, by rw [extractLsb_eq_sectorBytes, hdd, (hw.shown a v ha hv).1]⟩

end Ends

end Sys2Proof.Machine
end

section
namespace Sys2Proof.Machine

/-! Stores of lanes (R230) -/

theorem fmtBytes_cases (f : BitVec 5) :
    fmtBytes f = 1 ∨ fmtBytes f = 2 ∨ fmtBytes f = 4 ∨ fmtBytes f = 8 ∨ fmtBytes f = 16 := by
  unfold fmtBytes; split <;> simp

theorem fmtBytes_nibble {f : BitVec 5} (h : isNibble f = true) : fmtBytes f = 1 := by
  have hf : f = 5 := by simpa [isNibble] using h
  subst hf; rfl

/-- An aligned access lies in one unit. -/
theorem laneFits_aligned {f : BitVec 5} {a : Nat} (h : a % fmtBytes f = 0) : LaneFits (fmtBytes f) a := by
  unfold LaneFits
  rcases fmtBytes_cases f with hf | hf | hf | hf | hf <;> rw [hf] at h ⊢ <;> omega

/-- A lane whose access is in order passes its checks. -/
theorem checkLane_ok {s : State} {W : Warp} {a : W64} {n : Nat} {acc : AccKind} {p : Nat} (h : LaneOk s W a n acc p)
    (sk : W64 → SkRes) : checkLane s W a n acc sk = .ok p := by
  obtain ⟨hc, ha, ht, -, hd⟩ := h
  unfold checkLane
  simp [hc, ha, ht, hd]

theorem checkScr_ok {s : State} {W : Warp} {a : W64} {n g q : Nat} (ha : a.toNat % n = 0)
    (hp : scrPlace s W a = some (g, q)) : checkScr s W a n = .scr g q := by
  unfold checkScr
  simp [ha, hp]

/-- The lanes of a global store, as they are performed one after the other. -/
def lanesStored (s : State) (W : Warp) (f : BitVec 5) (t o : BitVec 8) (pl : Place) (w : Nat) (pa : Nat → Nat) : State :=
  (lanesOf (performing W)).foldl
    (storeLane (isNibble f) pl (fmtBytes f) w (highNibble W o) pa fun k => (storeValue W f t k).1) s

theorem storeStep_lanesStored (s : State) (W : Warp) (f : BitVec 5) (t o : BitVec 8) (pl : Place) (w : Nat) (pa : Nat → Nat) :
    StoreStep s (lanesStored s W f t o pl w pa) := storeStep_lanes s

theorem storeAll_ok (s : State) (W : Warp) (f : BitVec 5) (t o : BitVec 8) (b : BitVec 6) (x : MPfx) (pl : Place) (w : Nat)
    (pa : Nat → Nat) : storeAll s W f t o pl w (storeAccs W f o b x fun k => .ok (pa k))
      = updW (clearAt (lanesStored s W f t o pl w pa) (placeCore pl)
          (if isNibble f then [] else paRanges (fmtBytes f) (storeAccs W f o b x fun k => .ok (pa k)))) w
        fun V => orFlags V (storeFlags W f t) := by
  unfold storeAll lanesStored
  rw [storeAccs, List.foldl_map]
  rfl

/-- A global store whose lanes pass their checks completes: its lanes' stores are performed, the units that they cover
are noted, its flags are set and its token is armed. -/
theorem st_completes {s : State} {w : Nat} {t o : BitVec 8} {b : BitVec 6} {l : BitVec 4} {x : MPfx} {W : Warp}
    {f : BitVec 5} {pl : Place} (hW : W = getW s w) (hf : f = (attr x.mem).fmt)
    (hpl : pl = placeOfAttr W.core (attr x.mem) (isStrong (attr x.mem)))
    (hr : AccessReady s w (run t.toNat (fmtRegs f) ++ voReg o) [b] x.ev) (ht : tileBusy W = false) {pa : Nat → Nat}
    (hok : ∀ k ∈ lanesOf (performing W), LaneOk s W (laneAddr W b o (offM x) (nibbleShift f) k) (fmtBytes f) .write (pa k)) :
    ∃ u rs R ws, exec (.st t o b l x) s = .next (advance u w (lenM x)) ∧
      TokenStep s (updW (clearAt (lanesStored s W f t o pl w pa) (placeCore pl) rs) w fun V => orFlags V (storeFlags W f t))
        u w R ws ∧
      (lanesStored s W f t o pl w pa).dramq = s.dramq ++ R ∧ UnitWrites R ∧ ((∀ c, pl ≠ .mem c) → R = []) ∧
      ∀ c, pl = .mem c →
        LaneWrites s (lanesStored s W f t o pl w pa) c w (fmtBytes f) pa (lanesOf (performing W)) R := by
  have hfit : ∀ k ∈ lanesOf (performing W), LaneFits (fmtBytes f) (pa k) := fun k hk => by
    obtain ⟨-, -, -, hal, -⟩ := hok k hk
    exact laneFits_aligned hal
  obtain ⟨R, hq, hR, hcache, hmem⟩ := exists_lanes_queue (pl := pl) (w := w) (hi := highNibble W o)
    (val := fun k => (storeValue W f t k).1) fmtBytes_nibble hfit s
  have hall := storeAll_ok s W f t o b x pl w pa
  obtain ⟨ws, hstep⟩ := storeToken_step (b := s) (R := R)
    (t := storeAll s W f t o pl w (storeAccs W f o b x fun k => .ok (pa k))) (by rw [hall]; exact hq) w x.ev
  rw [hall] at hstep
  refine ⟨_, _, R, ws, ?_, hstep, hq, hR, hcache, hmem⟩
  have hexm := congrArg Warp.exm (hstep.getW_eq (storeStep_lanesStored ..) hr.1.2)
  rw [exec_st, execSt]
  refine (storeOp_reaches hW hf hr ht (res := fun k => .ok (pa k)) fun k hk => ⟨?_, .inl ⟨_, rfl⟩⟩).trans ?_
  · exact checkLane_ok (hf ▸ hok k hk) _
  · rw [← hpl, hall, complete_eq_advance (hexm.trans (by rw [hW]))]

/-- Bytes that no lane covers are read as before; about a nibble of policy mem, as DRAM had them. -/
theorem lanesStored_miss {s : State} {W : Warp} {f : BitVec 5} {t o : BitVec 8} {pl : Place} {w : Nat} {pa : Nat → Nat}
    (hfit : ∀ k ∈ lanesOf (performing W), LaneFits (fmtBytes f) (pa k)) {a : Nat}
    (h : ∀ k ∈ lanesOf (performing W), ¬ Covers (pa k) (fmtBytes f) a) :
    byteAt (lanesStored s W f t o pl w pa) pl.view a = byteAt s pl.view a ∨
      (isNibble f = true ∧ byteAt (lanesStored s W f t o pl w pa) pl.view a = byteAt s pl a) := by
  unfold lanesStored
  cases hnib : isNibble f with
  | false => exact .inl (byteAt_view_lanes_miss hfit h s)
  | true =>
    have hne : ∀ k ∈ lanesOf (performing W), a ≠ pa k := by
      rintro k hk rfl
      exact h k hk ⟨Nat.le_refl _, by have := (hfit k hk).1; omega⟩
    refine (byteAt_view_lanes (fun _ => fmtBytes_nibble hnib) hfit a s).symm.imp id fun hv => ⟨rfl, hv.trans ?_⟩
    exact byteAt_lanes_nib_miss hne s

/-- The nibbles of a byte that a lane stores. -/
theorem lanesStored_nibble {s : State} {W : Warp} {f : BitVec 5} {t o : BitVec 8} {pl : Place} {w : Nat} {pa : Nat → Nat}
    (hfit : ∀ k ∈ lanesOf (performing W), LaneFits (fmtBytes f) (pa k)) (hnib : isNibble f = true) {k : Nat}
    (hk : k ∈ lanesOf (performing W)) :
    ((∀ j ∈ lanesOf (performing W), k < j → ¬ (pa j = pa k ∧ highNibble W o j = highNibble W o k)) →
      byteAt (lanesStored s W f t o pl w pa) pl.view (pa k) / 16 ^ nibbleNo (highNibble W o k) % 16
        = (storeValue W f t k).1 % 16) ∧
    ((∀ j ∈ lanesOf (performing W), pa j = pa k → highNibble W o j = highNibble W o k) →
      byteAt (lanesStored s W f t o pl w pa) pl.view (pa k) / 16 ^ nibbleNo (!highNibble W o k) % 16
        = byteAt s pl (pa k) / 16 ^ nibbleNo (!highNibble W o k) % 16) := by
  unfold lanesStored
  rw [byteAt_view_eq_of_lane (fun h => fmtBytes_nibble h) hfit hk rfl s, hnib]
  refine ⟨fun hlast => nibble_lanes_last (pairwise_lanesOf _) hk hlast s, fun hall => nibble_lanes_miss (fun j hj hjk => ?_) s⟩
  have hh := hjk.2
  rw [hall j hj hjk.1] at hh
  simp at hh

end Sys2Proof.Machine
end

section
namespace Sys2Proof.Machine

/-! Stores of the scratchpad (R159, R230) -/

theorem scrWriteTab_eq_memWrite (t : Tab Byte) (off n v : Nat) : scrWriteTab t off n v = memWrite t off n v := by
  induction n generalizing t off v with
  | zero => rfl
  | succ n ih => exact ih _ _ _

theorem scrRead_one (s : State) (g a : Nat) : scrRead s g a 1 = (memGet (getG s g).scratch a).toNat := by
  unfold scrRead scrRead; rfl

@[simp] theorem scrRead_updW (s : State) (w : Nat) (f : Warp → Warp) (g a n : Nat) :
    scrRead (updW s w f) g a n = scrRead s g a n := by
  induction n generalizing a with
  | zero => rfl
  | succ n ih => unfold scrRead; rw [ih]; rfl

theorem scrRead_lt (s : State) (g a : Nat) : scrRead s g a 1 < 256 := by
  rw [scrRead_one]; exact (memGet _ a).isLt

theorem getG_updG (s : State) (g e : Nat) (f : Group → Group) :
    getG (updG s g f) e = if e = g ∧ g < s.groups.length then f (getG s g) else getG s e := getD_updAt ..

/-- A store of the scratchpad changes its bytes and no others. -/
theorem scrRead_scrWrite {s : State} {g : Nat} (hg : g < s.groups.length) (off n v e a : Nat) :
    scrRead (scrWrite s g off n v) e a 1
      = if e = g ∧ off ≤ a ∧ a < off + n then v / 256 ^ (a - off) % 256 else scrRead s e a 1 := by
  unfold scrWrite
  rw [scrRead_one, getG_updG, scrRead_one]
  by_cases he : e = g
  · subst he
    rw [if_pos ⟨rfl, hg⟩]
    dsimp only
    rw [scrWriteTab_eq_memWrite, memGet_memWrite]
    by_cases ha : off ≤ a ∧ a < off + n
    · rw [if_pos ha, if_pos ⟨rfl, ha⟩]; exact BitVec.toNat_ofNat ..
    · rw [if_neg ha, if_neg fun h => ha h.2]
  · rw [if_neg fun h => he h.1, if_neg fun h => he h.1]

/-- Where no group stands nothing changes. -/
theorem scrRead_scrWrite_absent {s : State} {g : Nat} (hg : ¬ g < s.groups.length) (off n v e a : Nat) :
    scrRead (scrWrite s g off n v) e a 1 = scrRead s e a 1 := by
  unfold scrWrite
  rw [scrRead_one, getG_updG, if_neg fun h => hg h.2, scrRead_one]

theorem scrRead_scrWrite_ne (s : State) {g off n e a : Nat} (v : Nat) (h : ¬ (e = g ∧ off ≤ a ∧ a < off + n)) :
    scrRead (scrWrite s g off n v) e a 1 = scrRead s e a 1 := by
  by_cases hg : g < s.groups.length
  · rw [scrRead_scrWrite hg, if_neg h]
  · exact scrRead_scrWrite_absent hg ..

/-- A byte that is written whole. -/
theorem scrRead_scrWrite_byte {s : State} {g : Nat} (hg : g < s.groups.length) (a : Nat) {v : Nat} (hv : v < 256) :
    scrRead (scrWrite s g a 1 v) g a 1 = v := by
  rw [scrRead_scrWrite hg, if_pos ⟨rfl, by omega⟩, Nat.sub_self, Nat.pow_zero, Nat.div_one, Nat.mod_eq_of_lt hv]

/-- What a lane's store to the scratchpad does. -/
def scrLane (nib : Bool) (n : Nat) (hi : Nat → Bool) (g q val : Nat → Nat) (z : State) (k : Nat) : State :=
  if nib then scrWrite z (g k) (q k) 1 (putNibble (hi k) (scrRead z (g k) (q k) 1) (val k % 16))
  else scrWrite z (g k) (q k) n (val k)

section Lanes

variable {n : Nat} {hi : Nat → Bool} {g q val : Nat → Nat} {nib : Bool} {L : List Nat} {k : Nat}

theorem scrLane_frame (z : State) : scrLane nib n hi g q val z k = { z with groups := (scrLane nib n hi g q val z k).groups } := by
  unfold scrLane; split <;> rfl

theorem length_groups_scrLane (z : State) : (scrLane nib n hi g q val z k).groups.length = z.groups.length := by
  unfold scrLane; split <;> exact length_updAt ..

theorem scrLanes_frame (s : State) : L.foldl (scrLane nib n hi g q val) s
    = { s with groups := (L.foldl (scrLane nib n hi g q val) s).groups } :=
  List.foldlRecOn L _ (motive := fun z => z = { s with groups := z.groups }) rfl fun z hz k _ =>
    (scrLane_frame z).trans (congrArg (fun x : State => { x with groups := (scrLane nib n hi g q val z k).groups }) hz)

/-- A byte that no lane covers is read as before. -/
theorem scrRead_scrLanes_miss (hn : nib = true → n = 1) {e a : Nat} (h : ∀ k ∈ L, ¬ (g k = e ∧ Covers (q k) n a)) (s : State) :
    scrRead (L.foldl (scrLane nib n hi g q val) s) e a 1 = scrRead s e a 1 := by
  refine foldl_miss (rd := fun z => scrRead z e a 1) (fun k hk z => ?_) s
  have hne := h k hk
  unfold Covers at hne
  unfold scrLane
  split
  · next hnib =>
    rw [hn hnib] at hne
    exact scrRead_scrWrite_ne _ _ fun hc => hne ⟨hc.1.symm, hc.2⟩
  · exact scrRead_scrWrite_ne _ _ fun hc => hne ⟨hc.1.symm, hc.2⟩

/-- A byte is read as the last lane that covers it wrote it. -/
theorem scrRead_scrLanes_last {s : State} (hg : ∀ k ∈ L, g k < s.groups.length) (hL : L.Pairwise (· < ·)) (hk : k ∈ L) {a : Nat}
    (hc : Covers (q k) n a) (hlast : ∀ j ∈ L, k < j → ¬ (g j = g k ∧ Covers (q j) n a)) :
    scrRead (L.foldl (scrLane false n hi g q val) s) (g k) a 1 = val k / 256 ^ (a - q k) % 256 := by
  refine foldl_last_hit_of (I := fun z => z.groups.length = s.groups.length) (rd := fun z => scrRead z (g k) a 1)
    (fun j _ z hz => (length_groups_scrLane z).trans hz) hL hk (fun z hz => ?_) (fun j hj hkj z => ?_) rfl
  · exact (scrRead_scrWrite (hz ▸ hg k hk) _ _ _ _ _).trans (if_pos ⟨rfl, hc⟩)
  · exact scrRead_scrWrite_ne _ _ fun h => hlast j hj hkj ⟨h.1.symm, h.2⟩

/-- A nibble after a lane's store that is not of it. -/
theorem nibble_scrLane_ne {e a : Nat} {b : Bool} (h : ¬ (g k = e ∧ q k = a ∧ hi k = b)) (z : State) :
    scrRead (scrLane true n hi g q val z k) e a 1 / 16 ^ nibbleNo b % 16 = scrRead z e a 1 / 16 ^ nibbleNo b % 16 := by
  unfold scrLane
  rw [if_pos rfl]
  have hv : val k % 16 < 16 := Nat.mod_lt _ (by decide)
  by_cases hs : g k = e ∧ q k = a
  · obtain ⟨rfl, rfl⟩ := hs
    by_cases hg : g k < z.groups.length
    · rw [scrRead_scrWrite_byte hg _ (putNibble_lt (scrRead_lt ..) hv)]
      exact putNibble_other (fun hb => h ⟨rfl, rfl, hb.symm⟩) hv
    · rw [scrRead_scrWrite_absent hg]
  · rw [scrRead_scrWrite_ne _ _ fun hc => hs ⟨hc.1.symm, by omega⟩]

/-- A nibble is read as the last lane that stores it. -/
theorem nibble_scrLanes_last {s : State} (hg : ∀ k ∈ L, g k < s.groups.length) (hL : L.Pairwise (· < ·)) (hk : k ∈ L)
    (hlast : ∀ j ∈ L, k < j → ¬ (g j = g k ∧ q j = q k ∧ hi j = hi k)) :
    scrRead (L.foldl (scrLane true n hi g q val) s) (g k) (q k) 1 / 16 ^ nibbleNo (hi k) % 16 = val k % 16 := by
  refine foldl_last_hit_of (I := fun z => z.groups.length = s.groups.length)
    (rd := fun z => scrRead z (g k) (q k) 1 / 16 ^ nibbleNo (hi k) % 16)
    (fun j _ z hz => (length_groups_scrLane z).trans hz) hL hk (fun z hz => ?_)
    (fun j hj hkj z => nibble_scrLane_ne (hlast j hj hkj) z) rfl
  have hv : val k % 16 < 16 := Nat.mod_lt _ (by decide)
  unfold scrLane
  rw [if_pos rfl, scrRead_scrWrite_byte (hz ▸ hg k hk) _ (putNibble_lt (scrRead_lt ..) hv)]
  exact putNibble_same _ _ hv

end Lanes

/-- The lanes of a scratchpad store, as they are performed one after the other. -/
def lanesScratched (s : State) (W : Warp) (f : BitVec 5) (t o : BitVec 8) (g q : Nat → Nat) : State :=
  (lanesOf (performing W)).foldl
    (scrLane (isNibble f) (fmtBytes f) (highNibble W o) g q fun k => (storeValue W f t k).1) s

theorem lanesScratched_frame (s : State) (W : Warp) (f : BitVec 5) (t o : BitVec 8) (g q : Nat → Nat) :
    lanesScratched s W f t o g q = { s with groups := (lanesScratched s W f t o g q).groups } := scrLanes_frame s

/-- A scratchpad store changes groups, and its warp's flags. -/
theorem lanesScratched_only (s : State) (W : Warp) (f : BitVec 5) (t o : BitVec 8) (g q : Nat → Nat) (w : Nat)
    (F : Warp → Warp) : updW (lanesScratched s W f t o g q) w F = { s with
      groups := (updW (lanesScratched s W f t o g q) w F).groups, warps := (updW (lanesScratched s W f t o g q) w F).warps
      poison := (updW (lanesScratched s W f t o g q) w F).poison } := by
  rw [lanesScratched_frame]
  rfl

theorem clearAt_nil (s : State) (c : Option Nat) : clearAt s c [] = s := by
  have hc : coveredUnits s [] = [] := by
    unfold coveredUnits
    rw [List.filter_eq_nil_iff]
    intro u _ hu
    have h0 := List.all_eq_true.mp hu 0 (by simp)
    simp at h0
  unfold clearAt
  rw [hc, List.map_nil, List.filter_nil, List.append_nil]

theorem storeAll_scr (s : State) (W : Warp) (f : BitVec 5) (t o : BitVec 8) (b : BitVec 6) (x : MPfx) (pl : Place) (w : Nat)
    (g q : Nat → Nat) : storeAll s W f t o pl w (storeAccs W f o b x fun k => .scr (g k) (q k))
      = updW (lanesScratched s W f t o g q) w fun V => orFlags V (storeFlags W f t) := by
  have hr : paRanges (fmtBytes f) (storeAccs W f o b x fun k => .scr (g k) (q k)) = [] := by
    refine List.filterMap_eq_nil_iff.mpr fun a ha => ?_
    obtain ⟨k, -, rfl⟩ := List.mem_map.mp ha
    rfl
  unfold storeAll lanesScratched
  rw [hr, ite_self, clearAt_nil, storeAccs, List.foldl_map]
  rfl

/-- A scratchpad store whose lanes pass their checks completes: its lanes' stores are performed and its flags are set. -/
theorem sts_completes {s : State} {w : Nat} {t o : BitVec 8} {b : BitVec 6} {l : BitVec 4} {x : MPfx} {W : Warp}
    {f : BitVec 5} (hW : W = getW s w) (hf : f = (attr x.mem).fmt)
    (hr : AccessReady s w (run t.toNat (fmtRegs f) ++ voReg o) [b] x.ev) (ht : tileBusy W = false) {g q : Nat → Nat}
    (hok : ∀ k ∈ lanesOf (performing W), (laneAddr W b o (offM x) (nibbleShift f) k).toNat % fmtBytes f = 0 ∧
      scrPlace s W (laneAddr W b o (offM x) (nibbleShift f) k) = some (g k, q k)) :
    exec (.sts t o b l x) s
      = .next (advance (updW (lanesScratched s W f t o g q) w fun V => orFlags V (storeFlags W f t)) w (lenM x)) := by
  have hall := storeAll_scr s W f t o b x (placeOfAttr W.core (attr x.mem) (isStrong (attr x.mem))) w g q
  have hq : (lanesScratched s W f t o g q).dramq = s.dramq := by rw [lanesScratched_frame]
  have hw : (lanesScratched s W f t o g q).warps = s.warps := by rw [lanesScratched_frame]
  obtain ⟨ws, hstep⟩ := storeToken_step (b := s) (R := [])
    (t := updW (lanesScratched s W f t o g q) w fun V => orFlags V (storeFlags W f t))
    (hq.trans (List.append_nil _).symm) w x.ev
  rw [exec_sts, execSts]
  refine (storeOp_reaches hW hf hr ht (res := fun k => .scr (g k) (q k)) fun k hk => ⟨?_, .inr ⟨_, _, rfl⟩⟩).trans ?_
  · obtain ⟨ha, hp⟩ := hok k hk
    exact checkScr_ok (hf ▸ ha) hp
  · rw [hall, hstep.none rfl, complete_eq_advance]
    rw [getW_updW_same (by rw [hw]; exact hr.1.2), getW_congr hw, hW]
    rfl

end Sys2Proof.Machine
end

section
namespace Sys2Proof.Machine

/-- Settles O39: the lanes' stores are performed in order, each byte or nibble keeping what its last lane wrote; what they
send on is joined unit by unit. -/
theorem storesPerform : Obligations.StoresPerform := by
  unfold Obligations.StoresPerform
  intro s w t o b l x W f n addr L pl pv val hW hf hn haddr hL hpl hpv hval hr ht flags hflags
  subst hW hn haddr hL hval
  have hview : pv = pl.view := by rw [hpv]; cases pl <;> rfl
  have hF : flags = storeFlags (getW s w) f t := hflags
  subst hview hF
  refine ⟨fun pa hok => ?_, fun g q hok => ?_⟩
  · have hfit : ∀ k ∈ lanesOf (performing (getW s w)), LaneFits (fmtBytes f) (pa k) := fun k hk => by
      obtain ⟨-, -, -, hal, -⟩ := hok k hk
      exact laneFits_aligned hal
    obtain ⟨u, rs, R, ws, hexec, hstep, hq, hR, hcache, hmem⟩ := st_completes (l := l) rfl hf hpl hr ht hok
    have hz := storeStep_lanesStored s (getW s w) f t o pl w pa
    have hw : w < s.warps.length := hr.1.2
    have hbyte := hstep.byteAt_eq hq hR
    refine ⟨u, hexec, hstep.onlyStores hz, hstep.getW_eq hz hw, fun hc => ?_, fun a ha => ?_, fun hnib a k hk hc hlast => ?_,
      fun hnib k hk h hh => ?_, fun hc => ?_⟩
    · rw [hstep.none (hcache hc)]
      exact getW_flags hz hw
    · rw [hbyte]
      exact lanesStored_miss hfit ha
    · rw [hbyte]
      unfold lanesStored
      rw [hnib]
      exact byteAt_view_lanes_last hfit (pairwise_lanesOf _) hk hc hlast s
    · rw [hbyte]
      have hno : h = nibbleNo (highNibble (getW s w) o k) := hh
      have hother : 1 - h = nibbleNo (!highNibble (getW s w) o k) := by
        rw [hno]; cases highNibble (getW s w) o k <;> rfl
      rw [hother, hno]
      exact lanesStored_nibble hfit hnib hk
    · obtain ⟨c, hc⟩ := hc
      obtain ⟨h1, h2, h3⟩ := hstep.dram_writes (hmem c hc) hfit
      refine ⟨ws, by rw [hstep.frame], h1, h2, fun a k hk hsp hcv => ?_⟩
      obtain ⟨d, hd, hs, hb, hv⟩ := h3 a k hk hsp hcv
      exact ⟨d, hd, hs, hb, by rw [hv, hbyte, hc]; rfl⟩
  · have hexec := sts_completes (l := l) rfl hf hr ht (g := g) (q := q) fun k hk => ⟨(hok k hk).1, (hok k hk).2.1⟩
    have hg : ∀ k ∈ lanesOf (performing (getW s w)), g k < s.groups.length := fun k hk => (hok k hk).2.2
    have hw : (lanesScratched s (getW s w) f t o g q).warps = s.warps := by rw [lanesScratched_frame]
    refine ⟨_, hexec, ?_, fun v hv => ?_, ?_, fun e a h => ?_, fun hnib a k hk hc hlast => ?_, fun hnib k hk h hh hlast => ?_⟩
    · exact lanesScratched_only ..
    · rw [getW_updW_ne _ hv, getW_congr hw]
    · rw [getW_updW_same (by rw [hw]; exact hr.1.2), getW_congr hw]
      rfl
    · rw [scrRead_updW]
      exact scrRead_scrLanes_miss fmtBytes_nibble h s
    · rw [scrRead_updW]
      unfold lanesScratched
      rw [hnib]
      exact scrRead_scrLanes_last hg (pairwise_lanesOf _) hk hc hlast
    · rw [scrRead_updW, show h = nibbleNo (highNibble (getW s w) o k) from hh]
      unfold lanesScratched
      rw [hnib]
      exact nibble_scrLanes_last hg (pairwise_lanesOf _) hk hlast

end Sys2Proof.Machine
end

section
namespace Sys2Proof

/-! Prefixed words of a clause (R55, R69) -/

/-- The prefixes before a word that is none belong to that word. -/
theorem takeInstr_prefixes {ps : List W32} {x : W32} (hps : ∀ p ∈ ps, isPrefix p = true) (hx : isPrefix x = false)
    (rest : List W32) : takeInstr (ps ++ x :: rest) = some (ps, x) := by
  induction ps with
  | nil => simp [takeInstr, hx]
  | cons p ps ih =>
    have hrest := ih fun q hq => hps q (List.mem_cons_of_mem _ hq)
    simp [takeInstr, hps p List.mem_cons_self, hrest]

/-- A word that the decoder refuses with its prefixes is refused with them at the head of a clause's words. -/
theorem decodeInClause_refused {ps : List W32} {x : W32} {r : Reason} (hps : ∀ p ∈ ps, isPrefix p = true)
    (hx : isPrefix x = false) (h : decodeWord ps x = .error r) (rest : List W32) :
    decodeInClause (ps ++ x :: rest) = .error (.illegal r) := by
  simp [decodeInClause, takeInstr_prefixes hps hx rest, h]

theorem decodeWord_unassigned {x : W32} (hlo : 0x39 ≤ (bits x 26 6).toNat) (hhi : (bits x 26 6).toNat ≤ 0x3D)
    (ps : List W32) : decodeWord ps x = .error 0x10 := by
  unfold decodeWord
  exact if_pos ⟨hlo, hhi⟩

theorem isPrefix_unassigned {x : W32} (hhi : (bits x 26 6).toNat ≤ 0x3D) : isPrefix x = false := by
  have hne : bits x 26 6 ≠ 0x3E := fun h => absurd (h ▸ hhi) (by decide)
  simpa [isPrefix] using hne

end Sys2Proof

namespace Sys2Proof.Machine

/-- The reason of a refusal that is not of the function field stays, in a handler and outside one. -/
theorem rfeReason_of_ne {r : Reason} (h : r ≠ 0x13) (W : Warp) (ws : List W32) : rfeReason W ws r = r :=
  if_neg fun ⟨_, hr, _⟩ => h hr

/-- What a warp issues where its clause's words are refused. -/
theorem wordAt_refused {W : Warp} {r : Reason} (h : decodeInClause (clauseWords W) = .error (.illegal r)) :
    wordAt W = .unassignedEncoding (rfeReason W (clauseWords W) r) := by
  simp [wordAt, h]

/-- An encoding without a meaning takes the illegal-instruction fault with its reason. -/
theorem unassignedEncoding_illegal {s : State} {w : Nat} (h : Issues s w) (r : Reason) :
    Illegal s w (.unassignedEncoding r) r.toNat := by
  unfold Illegal
  rw [exec_unassignedEncoding]
  exact withWarp_issues h _

/-- Settles O4: the opcode is looked at before any other check of the word and its prefixes. -/
theorem unassignedOpcodesTrap : Obligations.UnassignedOpcodesTrap := by
  unfold Obligations.UnassignedOpcodesTrap
  refine ⟨fun ps x hlo hhi => ⟨decodeWord_unassigned hlo hhi ps, fun W rest hps hw => ?_⟩, fun s w hi => ?_⟩
  · have hd : decodeInClause (clauseWords W) = .error (.illegal 0x10) := by
      rw [hw]
      exact decodeInClause_refused hps (isPrefix_unassigned hhi) (decodeWord_unassigned hlo hhi ps) rest
    rw [wordAt_refused hd, rfeReason_of_ne (by decide)]
  · exact unassignedEncoding_illegal hi 0x10

end Sys2Proof.Machine
end

section
namespace Sys2Proof.Machine

/-! Starting a loop and leaving one (R195, R197) -/

/-- A register operand that is allocated, a counter that exists and a body of 1 to 256 words: nothing stands against a
`loop`. -/
theorem loopReason_none {l : BitVec 2} {k : BitVec 5} {o : BitVec 19} {W : Warp} (hl : l ≠ 3)
    (hs : ScalarsOk W [k.setWidth 6]) (hlo : 0 < loopEndOff o - loopStartOff W)
    (hhi : loopEndOff o - loopStartOff W ≤ 1024) : loopReason l k o W = none := by
  have hk : sOk W (k.setWidth 6) = true := decide_eq_true (hs _ List.mem_cons_self)
  have h0 : ¬ loopEndOff o ≤ loopStartOff W := by omega
  have h1 : ¬ 1024 < loopEndOff o - loopStartOff W := by omega
  have hc : ¬ l = 3#2 := hl
  simp [loopReason, reasonIf, orElse, hc, hk, h0, h1]

/-- The record that a `loop` lists for its counter. -/
def loopRec (W : Warp) (o : BitVec 19) : LoopRec where
  start := W.pc + BitVec.ofNat 64 (8 + 4 * W.word)
  words := ((loopEndOff o - loopStartOff W) / 4).toNat
  reelsp := W.reel.length
  rank := W.loops.length

/-- The warp when a loop of `v` rounds has started. -/
def startLoop (W : Warp) (l : BitVec 2) (o : BitVec 19) (v : W64) : Warp :=
  { lcSet W l.toNat v with loops := tabPut W.loops l.toNat (loopRec W o) }

/-- What a `loop` does when nothing stands against it. -/
theorem exec_loop_ready {s : State} {w : Nat} {l : BitVec 2} {k : BitVec 5} {o : BitVec 19} (hi : Issues s w)
    (hr : loopReason l k o (getW s w) = none) :
    exec (.loop l k o) s =
      if (tabFind (getW s w).loops l.toNat).isSome then .next (faultAt s w 7 1 0 0 0)
      else if (getW s w).loops.any fun e => loopEnd e.2 < targetB (getW s w) o then .next (faultAt s w 7 2 0 0 0)
      else if sGet (getW s w) (k.setWidth 6) = 0 then
        transfer s w (targetB (getW s w) o) fun t => jumpTo t w (targetB (getW s w) o)
      else .next (advance (setW s w (startLoop (getW s w) l o (sGet (getW s w) (k.setWidth 6)))) w 1) := by
  have hstart : BitVec.ofInt 64 (loopStartOff (getW s w)) = BitVec.ofNat 64 (8 + 4 * (getW s w).word) := by
    rw [← BitVec.ofInt_natCast]
    simp [loopStartOff]
  rw [exec_loop, execLoop, issue_ready hi hr (by simp)]
  simp only [updW_eq_setW, hstart]
  rfl

/-- `lbrk` with no active loop. -/
theorem lbrk_none {s : State} {w : Nat} (hi : Issues s w) (h : innermost (getW s w) (fun _ => true) = none) :
    Faults s w .lbrk 7 4 := by
  unfold Faults
  rw [exec_lbrk, execLbrk, issue_ready hi rfl (by simp), h]

/-- `lbrk` out of the innermost active loop. -/
theorem exec_lbrk_innermost {s : State} {w n : Nat} {r : LoopRec} (hi : Issues s w)
    (h : innermost (getW s w) (fun _ => true) = some (n, r)) :
    exec .lbrk s =
      if r.reelsp ≠ (getW s w).reel.length then .next (faultAt s w 7 3 0 0 0)
      else transfer s w (loopEnd r) fun t => jumpTo (updW t w fun W => dropLoop W n) w (loopEnd r) := by
  rw [exec_lbrk, execLbrk, issue_ready hi rfl (by simp), h]

/-! The end of a body (R196) -/

section BackEdge

variable {s : State} {w n : Nat} {r : LoopRec} (hf : (getW s w).flow = true)
  (hin : innermost (getW s w) (fun q => loopEnd q = nextAddr (getW s w)) = some (n, r))

include hf hin

/-- A back-edge that is due, by the depth of the reel and what is left of the counter. -/
theorem exec_loopBackEdge_due :
    exec (.loopBackEdge w) s =
      if r.reelsp ≠ (getW s w).reel.length then .next (faultAt s w 7 3 0 0 (loopEnd r))
      else if lcGet (getW s w) n - 1 ≠ 0 then
        .next (backTo s w (lcSet (getW s w) n (lcGet (getW s w) n - 1)) r.start)
      else .next (if atLoopEnd (getW (setW s w (dropLoop (lcSet (getW s w) n (lcGet (getW s w) n - 1)) n)) w)
        then setW s w (dropLoop (lcSet (getW s w) n (lcGet (getW s w) n - 1)) n)
        else settle (setW s w (dropLoop (lcSet (getW s w) n (lcGet (getW s w) n - 1)) n)) w) := by
  rw [exec_loopBackEdge, execLoopBackEdge, if_pos hf, hin]

theorem loopBackEdge_depth (hd : r.reelsp ≠ (getW s w).reel.length) :
    exec (.loopBackEdge w) s = .next (faultAt s w 7 3 0 0 (loopEnd r)) := by
  rw [exec_loopBackEdge_due hf hin, if_pos hd]

theorem loopBackEdge_again (hd : r.reelsp = (getW s w).reel.length) (hc : lcGet (getW s w) n - 1 ≠ 0) :
    exec (.loopBackEdge w) s = .next (backTo s w (lcSet (getW s w) n (lcGet (getW s w) n - 1)) r.start) := by
  rw [exec_loopBackEdge_due hf hin, if_neg (fun hne => hne hd), if_pos hc]

theorem loopBackEdge_last (hw : w < s.warps.length) (hd : r.reelsp = (getW s w).reel.length)
    (hc : lcGet (getW s w) n - 1 = 0) :
    exec (.loopBackEdge w) s = .next (if atLoopEnd (dropLoop (lcSet (getW s w) n 0) n)
      then setW s w (dropLoop (lcSet (getW s w) n 0) n)
      else settle (setW s w (dropLoop (lcSet (getW s w) n 0) n)) w) := by
  rw [exec_loopBackEdge_due hf hin, if_neg (fun hne => hne hd), if_neg (fun hne => hne hc), hc, getW_setW_same hw]

end BackEdge

/-- Word `i` of the clause whose words the warp holds lies in that clause. -/
theorem clauseOf_held {s : State} {W : Warp} {i : Nat} (hi : i < W.code.length) (h15 : i < 15) :
    clauseOf s W (W.codeAt + BitVec.ofNat 64 (4 + 4 * i)) = .found W.codeAt i := by
  have hoff : (W.codeAt + BitVec.ofNat 64 (4 + 4 * i) - W.codeAt).toNat = 4 + 4 * i := by
    rw [BitVec.add_comm, BitVec.add_sub_cancel, BitVec.toNat_ofNat]
    omega
  have hidx : (4 + 4 * i) / 4 - 1 = i := by omega
  have hal : (4 + 4 * i) % 4 = 0 := by omega
  simp only [clauseOf, hoff, hidx]
  exact if_pos (by simp [hal, hi])

/-- A back-edge inside the clause whose words the warp holds is at once at its word. -/
theorem backTo_held {s : State} {w : Nat} {W : Warp} {i : Nat} (hi : i < W.code.length) (h15 : i < 15) :
    backTo s w W (W.codeAt + BitVec.ofNat 64 (4 + 4 * i)) = setW s w { W with
      pc := W.codeAt, word := i, n := W.code.length, started := true, flow := false, ridx := 0 } := by
  simp [backTo, clauseOf_held hi h15]

/-- Settles O23: each form goes by the innermost active loop, its end and the depth of the reel. -/
theorem countedLoops : Obligations.CountedLoops := by
  unfold Obligations.CountedLoops
  intro s w hw W hW
  subst hW
  refine ⟨fun l k o body stop v hi hl hs hbody hlo hhi hstop hv => ?_, fun hi hno => ?_, fun hi n r hin => ?_,
    fun n r hf hin => ?_⟩
  · have hb : body = loopEndOff o - loopStartOff (getW s w) := hbody
    have ht : stop = targetB (getW s w) o := hstop
    subst hb ht hv
    have hexec := exec_loop_ready hi (loopReason_none (k := k) hl hs hlo hhi)
    refine ⟨fun hact => ?_, fun hnew => ⟨fun hpast => ?_, fun hin => ⟨fun hzero hland => ?_, fun hrounds => ?_⟩⟩⟩
    · exact hexec.trans (if_pos hact)
    · rw [Faults, hexec, if_neg (by simp [hnew]), if_pos hpast]
    · rw [hexec, if_neg (by simp [hnew]), if_neg (by simp [hin]), if_pos hzero, transfer_ok hland]
    · rw [GoesOn, hexec, if_neg (by simp [hnew]), if_neg (by simp [hin]), if_neg hrounds]
      rfl
  · exact lbrk_none hi (by simp [innermost, hno])
  · have hexec := exec_lbrk_innermost hi hin
    refine ⟨fun hd => hexec.trans (if_pos hd), fun hd hland => ?_⟩
    rw [hexec, if_neg (fun hne => hne hd), transfer_ok hland, updW_eq_setW]
    rfl
  · refine ⟨loopBackEdge_depth hf hin, fun hd => ⟨fun hc => ⟨loopBackEdge_again hf hin hd hc, fun i hstart hi h15 => ?_⟩,
      fun hc U hU => ?_⟩⟩
    · rw [hstart]
      exact backTo_held (W := lcSet (getW s w) n (lcGet (getW s w) n - 1)) hi h15
    · rw [hU]
      exact loopBackEdge_last hf hin hw hd hc

end Sys2Proof.Machine
end

section
namespace Sys2Proof.Machine

/-! Lane masks, bit by bit (R5, R161) -/

theorem mem_lanesOf {m : W32} {l : Nat} : l ∈ lanesOf m ↔ l < 32 ∧ m.getLsbD l = true := by
  simp [lanesOf]

theorem getLsbD_laneBit (l : Nat) {i : Nat} (hi : i < 32) : (laneBit l).getLsbD i = decide (l = i) := by
  simp only [laneBit, BitVec.getLsbD_ofNat, hi, Nat.testBit_two_pow, decide_true, Bool.true_and]

theorem getLsbD_maskOf (L : List Nat) {i : Nat} (hi : i < 32) : (maskOf L).getLsbD i = decide (i ∈ L) := by
  have h : ∀ m : W32, (L.foldl (fun m k => m ||| laneBit k) m).getLsbD i = (m.getLsbD i || decide (i ∈ L)) := by
    induction L with
    | nil => simp
    | cons k r ih =>
      intro m
      rw [List.foldl_cons, ih, BitVec.getLsbD_or, getLsbD_laneBit k hi, Bool.or_assoc]
      simp [eq_comm]
  exact (h 0).trans (by simp)

/-- A flag is gathered when some lane raised it. -/
theorem getLsbD_gather {α : Type} (L : List (α × Flags)) (b : Nat) :
    (gather L).getLsbD b = L.any fun r => r.2.getLsbD b := by
  have h : ∀ f : Flags, (L.foldl (fun f r => f ||| r.2) f).getLsbD b = (f.getLsbD b || L.any fun r => r.2.getLsbD b) := by
    induction L with
    | nil => simp
    | cons r l ih => intro f; simp [ih, Bool.or_assoc]
  exact (h 0).trans (by simp)

/-! The results of a vector form, lane by lane (R204) -/

/-- The lanes of a register written one after another. -/
def setLanes (W : Warp) (d : Nat) (f : Nat → W32) (L : List Nat) : Warp := L.foldl (fun U l => vSet U d l (f l)) W

/-- Writing lanes changes the vector registers only. -/
theorem setLanes_frame (W : Warp) (d : Nat) (f : Nat → W32) (L : List Nat) :
    setLanes W d f L = { W with v := (setLanes W d f L).v } := by
  induction L generalizing W with
  | nil => rfl
  | cons k r ih => exact ih (vSet W d k (f k))

theorem vGet_setLanes (W : Warp) (d : Nat) (f : Nat → W32) {L : List Nat} (hL : ∀ k ∈ L, k < 32) (r : Nat) {l : Nat}
    (hl : l < 32) : vGet (setLanes W d f L) r l = if r = d ∧ l ∈ L then f l else vGet W r l := by
  induction L generalizing W with
  | nil => simp [setLanes]
  | cons k L ih =>
    obtain ⟨hk, hr⟩ := List.forall_mem_cons.mp hL
    have hstep : setLanes W d f (k :: L) = setLanes (vSet W d k (f k)) d f L := rfl
    rw [hstep, ih _ hr, vGet_vSet _ _ hk hl]
    by_cases hd : r = d
    · by_cases hin : l ∈ L
      · simp [hd, hin]
      · by_cases he : l = k
        · subst he; simp [hd]
        · simp [hd, hin, he]
    · simp [hd]

theorem putRes_eachLane (W : Warp) (d : Nat) (f : Nat → W32 × Flags) :
    putRes W d (eachLane W f) =
      orFlags (setLanes W d (fun l => (f l).1) (lanesOf W.exm)) (gather ((lanesOf W.exm).map f)) := by
  simp [putRes, eachLane, setLanes, List.foldl_map, Function.comp_def]

/-- With no flag raised FPST stays. -/
theorem orFlags_zero (W : Warp) : orFlags W 0 = W := by
  have h : W.fpst ||| 0 = W.fpst := BitVec.or_zero
  rw [orFlags, h]

theorem putRes_eachBit (W : Warp) (d p : Nat) (f : Nat → Bool) :
    putRes W d (eachBit W p f) = pSet W p ((pGet W p &&& ~~~ W.exm) ||| maskOf ((lanesOf W.exm).filter f)) := by
  simp only [putRes, eachBit, List.foldl_nil, orFlags_zero]

/-- The flags of the lanes of EXM are gathered. -/
theorem getLsbD_gather_lanes (m : W32) (f : Nat → W32 × Flags) (b : Nat) :
    (gather ((lanesOf m).map f)).getLsbD b = (List.range 32).any fun l => m.getLsbD l && (f l).2.getLsbD b := by
  simp [getLsbD_gather, lanesOf, List.any_map, List.any_filter, Function.comp_def]

/-- A vector form that computes each lane by itself, its registers free and no stream's, writes its results with their
flags. -/
theorem writesVector_of_eachLane {s : State} {w : Nat} {i : Instr} {len d : Nat} {srcs : List Nat}
    {ss : List (BitVec 6)} {f : Warp → VRead → Nat → W32 × Flags} (h : VectorReady s w (d :: srcs) ss)
    (he : exec i s = vecOp s len (some d) srcs ss fun W rd => eachLane W (f W rd)) :
    WritesVector s w i len d (f (getW s w) (vGet (getW s w))) := by
  have hgo := vecOp_ready (len := len) (dst := some d) h fun W rd => eachLane W (f W rd)
  refine ⟨_, he.trans hgo, ?_⟩
  rw [Option.getD_some, putRes_eachLane]
  generalize f (getW s w) (vGet (getW s w)) = g
  refine ⟨?_, fun r l hl => ?_, fun b _ => ?_⟩
  · rw [setLanes_frame]
    rfl
  · have hlanes := vGet_setLanes (getW s w) d (fun l => (g l).1)
      (L := lanesOf (getW s w).exm) (fun k hk => (mem_lanesOf.mp hk).1) r hl
    simpa [vGet, mem_lanesOf, hl] using hlanes
  · have hfp : (setLanes (getW s w) d (fun l => (g l).1) (lanesOf (getW s w).exm)).fpst = (getW s w).fpst := by
      rw [setLanes_frame]
    rw [orFlags, hfp, BitVec.getLsbD_or, getLsbD_gather_lanes]

/-- A vector form that computes a bit in each lane, its sources free and no stream's, writes them to its predicate. -/
theorem writesPredicate_of_eachBit {s : State} {w : Nat} {i : Instr} {len p : Nat} {srcs : List Nat}
    {ss : List (BitVec 6)} {f : Warp → VRead → Nat → Bool} (h : VectorReady s w srcs ss)
    (he : exec i s = vecOp s len none srcs ss fun W rd => eachBit W p (f W rd)) :
    WritesPredicate s w i len p (f (getW s w) (vGet (getW s w))) := by
  have hgo := vecOp_ready (len := len) (dst := none) h fun W rd => eachBit W p (f W rd)
  refine ⟨_, he.trans hgo, ?_⟩
  rw [putRes_eachBit]
  generalize f (getW s w) (vGet (getW s w)) = g
  refine ⟨rfl, fun q l hl => ?_⟩
  rw [pGet_pSet]
  by_cases hq : q = p
  · subst hq
    simp only [if_true, true_and, BitVec.getLsbD_or, BitVec.getLsbD_and, BitVec.getLsbD_not, getLsbD_maskOf _ hl,
      List.mem_filter, mem_lanesOf, hl]
    cases (getW s w).exm.getLsbD l <;> simp
  · simp [hq]

/-- A form ready with its destination is ready with its sources alone. -/
theorem VectorReady.sources {s : State} {w d : Nat} {srcs : List Nat} {ss : List (BitVec 6)}
    (h : VectorReady s w (d :: srcs) ss) : VectorReady s w srcs ss := by
  obtain ⟨hi, hv, hs, hn⟩ := h
  exact ⟨hi, fun r hr => hv r (List.mem_cons_of_mem _ hr), hs,
    fun k hk hb hm => hn k hk hb (List.mem_cons_of_mem _ hm)⟩

theorem lenT_eq (t : Option TyPfx) : lenT t = if t.isSome then 2 else 1 := by
  cases t <;> rfl

end Sys2Proof.Machine
end

section
namespace Sys2Proof.Machine

/-! Compares and selections (R209, R210) -/

theorem isU_iff (t : Option TyPfx) : isU t = true ↔ t.map (fun k => k.fa) = some 0x12 := by
  cases t with
  | none => simp [isU, tyOf]
  | some k =>
    have hfa : k.fa.toNat = 0x12 ↔ k.fa = 0x12 := BitVec.toNat_inj (y := 0x12)
    exact decide_eq_true_iff.trans (hfa.trans (by simp))

theorem ltInt_unsigned (x y : W32) : ltInt true x y = x.ult y := rfl
theorem ltInt_signed (x y : W32) : ltInt false x y = x.slt y := rfl
theorem not_ltInt_unsigned (x y : W32) : (!ltInt true x y) = y.ule x := by
  simp [ltInt, BitVec.ule, ← decide_not]
theorem not_ltInt_signed (x y : W32) : (!ltInt false x y) = y.sle x := by
  simp [ltInt, BitVec.sle, ← decide_not]

/-- Condition 6 of a float compare: neither is a NaN. -/
theorem fcmpHolds_ordered (x y : W32) : fcmpHolds 6 x y = decide (dec32 x ≠ .nan ∧ dec32 y ≠ .nan) := by
  simp [fcmpHolds]

/-- An integer compare of allocated, free registers that are no stream's writes its condition in each lane. -/
theorem vcmp_writes {s : State} {w : Nat} {a b : BitVec 8} (h : VectorReady s w [a.toNat, b.toNat] []) (c : BitVec 4)
    (p : BitVec 3) (t : Option TyPfx) :
    WritesPredicate s w (.vcmp c p a b t) (lenT t) p.toNat fun l =>
      vcmpHolds c.toNat (isU t) (vGet (getW s w) a.toNat l) (vGet (getW s w) b.toNat l) :=
  writesPredicate_of_eachBit h (exec_vcmp c p a b t s)

theorem fcmp_writes {s : State} {w : Nat} {a b : BitVec 8} (h : VectorReady s w [a.toNat, b.toNat] []) (c : BitVec 4)
    (p : BitVec 3) (t : Option TyPfx) :
    WritesPredicate s w (.fcmp c p a b t) (lenT t) p.toNat fun l =>
      fcmpHolds c.toNat (vGet (getW s w) a.toNat l) (vGet (getW s w) b.toNat l) :=
  writesPredicate_of_eachBit h (exec_fcmp c p a b t s)

/-- A selection by predicate `q`, whichever of the two words names it. -/
theorem vsel_writes {s : State} {w : Nat} {i : Instr} {d a b : BitVec 8} {q : Nat} {t : Option TyPfx}
    (h : VectorReady s w [d.toNat, a.toNat, b.toNat] []) (he : exec i s = vselOp s t d a b q) :
    WritesVectorPlain s w i (lenT t) d.toNat fun l =>
      if (pGet (getW s w) q).getLsbD l then vGet (getW s w) a.toNat l else vGet (getW s w) b.toNat l :=
  writesVector_of_eachLane
    (f := fun W rd l => plain (if (pGet W q).getLsbD l then rd a.toNat l else rd b.toNat l)) h he

/-- Settles O31: compares and selections are computed lane by lane, and their conditions are those of R209. -/
theorem comparesAndSelections : Obligations.ComparesAndSelections := by
  unfold Obligations.ComparesAndSelections
  intro s w d a b c p q t h x y len hx hy hlen
  rw [← lenT_eq] at hlen
  subst hx hy hlen
  refine ⟨fun f hf => ?_, fun f hf => ?_, vsel_writes h rfl, vsel_writes h rfl⟩
  · have hcond : vcmpHolds c.toNat (isU t) = f := by
      rcases hf with ⟨ht, hc⟩ | ⟨ht, hc⟩ | ⟨rfl, rfl⟩ | ⟨rfl, rfl⟩
      · rw [(isU_iff t).mpr ht]
        rcases hc with ⟨rfl, rfl⟩ | ⟨rfl, rfl⟩ | ⟨rfl, rfl⟩ | ⟨rfl, rfl⟩
        · exact funext fun m => funext fun n => ltInt_unsigned m n
        · exact funext fun m => funext fun n => not_ltInt_unsigned n m
        · exact funext fun m => funext fun n => ltInt_unsigned n m
        · exact funext fun m => funext fun n => not_ltInt_unsigned m n
      · rw [Bool.eq_false_iff.mpr (mt (isU_iff t).mp ht)]
        rcases hc with ⟨rfl, rfl⟩ | ⟨rfl, rfl⟩ | ⟨rfl, rfl⟩ | ⟨rfl, rfl⟩
        · exact funext fun m => funext fun n => ltInt_signed m n
        · exact funext fun m => funext fun n => not_ltInt_signed n m
        · exact funext fun m => funext fun n => ltInt_signed n m
        · exact funext fun m => funext fun n => not_ltInt_signed m n
      · rfl
      · rfl
    rw [← hcond]
    exact vcmp_writes h.sources c p t
  · have hcond : fcmpHolds c.toNat = fun m n => f (dec32 m) (dec32 n) := by
      simp only [List.mem_cons, Prod.mk.injEq, List.not_mem_nil, or_false] at hf
      rcases hf with ⟨rfl, rfl⟩ | ⟨rfl, rfl⟩ | ⟨rfl, rfl⟩ | ⟨rfl, rfl⟩ | ⟨rfl, rfl⟩ | ⟨rfl, rfl⟩ | ⟨rfl, rfl⟩ | ⟨rfl, rfl⟩
      · rfl
      · rfl
      · rfl
      · rfl
      · rfl
      · rfl
      · exact funext fun m => funext fun n => fcmpHolds_ordered m n
      · rfl
    have hw := fcmp_writes h.sources c p t
    rw [hcond] at hw
    exact hw

end Sys2Proof.Machine
end
